-- ==== Sys2Proof/Word.lean ====
section
/-! DEFINITION. The word types of the device: bytes, 16-, 32- and 64-bit words, memory as a list of cells. -/

namespace Sys2Proof

/-- A byte. -/
abbrev Byte := BitVec 8
/-- A 16-bit word. -/
abbrev W16 := BitVec 16
/-- A 32-bit word, the width of a CSR (R12). -/
abbrev W32 := BitVec 32
/-- A 64-bit word, the width of a sequencer register (R86). -/
abbrev W64 := BitVec 64
/-- A source ID of the fabric (R252, R253). -/
abbrev Src := BitVec 12
/-- One byte of a store at an address. -/
abbrev MemCell := Nat × BitVec 8
/-- A store: (address, byte) pairs at strictly rising addresses, none of them a byte 0. -/
abbrev Mem := List MemCell

end Sys2Proof
end

