-- ==== Sys2Proof/Syntax.lean ====
section
/-! DEFINITION. The commands of the block: one constructor of `Instr` for each row of spec/opcode_table.json, with the
operands that the rule of the row names. -/

namespace Sys2Proof

/-- A processor that executes the Bunov-C profile (R110): the sequencer of physical tile k = 34 d + s, the MP, or a deputy
(0 SD-A, 1 SD-B). -/
inductive Proc where
  | core (t : Fin 136)
  | mp
  | dep (d : Fin 2)
deriving DecidableEq, Repr

/-- The operations of majors 0x00 and 0x01, in minor order 0x00 to 0x12 (R112). -/
inductive AluOp where
  | add | sub | and | or | xor | shl | shr | sra | mul | mulh | mulhu | div | divu | rem | remu | min | max | minu | maxu
deriving DecidableEq, Repr

/-- The comparisons of major 0x03, in minor order (R112). -/
inductive CmpOp where
  | eq | ne | lt | ge | ltu | geu
deriving DecidableEq, Repr

/-- PAND, POR, PXOR (R112). -/
inductive PredOp where
  | and | or | xor
deriving DecidableEq, Repr

/-- The lane operations of major 0x30, in minor order (R140). -/
inductive LaneOp where
  | add | sub | mul | fma | min | max | abs | neg | and | or | xor | shl | shr | sra
deriving DecidableEq, Repr

/-- The table-assisted functions of major 0x33, in minor order (R140). -/
inductive FuncOp where
  | exp2 | log2 | rcp | rsqrt | tanh
deriving DecidableEq, Repr

/-- The reductions of major 0x34, in minor order (R140). -/
inductive RedOp where
  | sum | max | min
deriving DecidableEq, Repr

/-- A storage error that has struck the store which a command reads, at a byte address of that store: `hard` when the
code cannot correct it (R81, R94, R290). The command's sender says which errors nature has put there. -/
structure Upset where
  addr : Nat
  hard : Bool
  /-- in DRAM, the stored symbol of the codeword that an error which is not `hard` is confined to (R289) -/
  symbol : Fin 80 := 0
deriving DecidableEq, Repr

/-- What a read of core storage other than the local store meets (R94): nothing, or a parity or check error in a scalar,
predicate, descriptor or ring register, an accumulator entry, a weight plane, a vector register, or the window or kernel register
of the depthwise path; the core fault's cause is that of R104. -/
inductive CoreUpset where
  | none
  | regParity
  | accUncorrectable
  | planeParity
  | vectorParity
  | windowParity
deriving DecidableEq, Repr

/-- The fields of an instruction word below MAJOR and MINOR (R105): PRED, PNEG and OPERANDS. MAJOR and MINOR are the
command's constructor and its operation operand. `core` is no field of the word: the command's sender says in it what the
instruction's reads of core storage meet (R94). -/
structure Enc where
  pred : BitVec 3
  pneg : Bool
  ops : BitVec 48
  core : CoreUpset := .none
deriving DecidableEq, Repr

/-- An arbiter of R258. -/
inductive Arb where
  /-- output `port` (0 north, 1 east, 2 south, 3 west, 4 local) of router `r` of die `d` -/
  | router (d : Fin 4) (r : Fin 36) (port : Fin 5)
  /-- transmit port of crosscut `x`, in direction `toHigh` -/
  | crosscut (x : Fin 12) (toHigh : Bool)
  /-- hub-fabric switch output towards hub store, DRAM, CSR space, the gallery links or a crosscut -/
  | hubSwitch (n : Fin 16)
  /-- die-store bank queue -/
  | dieBank (d : Fin 4) (b : Fin 16)
  /-- hub-store bank queue -/
  | hubBank (b : Fin 32)
  /-- DRAM channel controller queue -/
  | dram (c : Fin 8)
deriving DecidableEq, Repr

/-- How the ECC of a CSI-2 packet header came out (R310, R314). -/
inductive HdrEcc where
  | ok | corrected | bad
deriving DecidableEq, Repr

/-- The body of a CSI-2 packet: frame start, frame end, or one line of components in the order of the data type
(RAW one per pixel; YUV422 U Y V Y; RGB888 R G B), with the outcome of the payload CRC. -/
inductive CsiBody where
  | frameStart
  | frameEnd
  /-- a long packet; `full`: it finds the port's buffer of 64 lines full (R313) -/
  | line (px : List Nat) (crcOk full : Bool)
deriving DecidableEq, Repr

/-- A CSI-2 packet (R310). -/
structure CsiPacket where
  vc : Fin 32
  dt : BitVec 6
  ecc : HdrEcc
  body : CsiBody
deriving DecidableEq, Repr

/-- A decoded picture, in the component order of a YUV422 line or of one component per pixel, and whether its decode
went without error; `unit` is the place, among the access units in decode, of the one that coded it (R311). The decoding itself is
that of the standards that R311 names. -/
structure Picture where
  unit : Nat
  ok : Bool
  lines : List (List Nat)
deriving DecidableEq, Repr

/-- A received Ethernet frame (R312, R486). -/
structure EthFrame where
  /-- the frame is a gPTP message -/
  gptp : Bool
  /-- the frame is a UDP datagram -/
  udp : Bool
  dstPort : Nat
  checksumOk : Bool
  payload : List Byte
deriving DecidableEq, Repr

/-- A CAN FD frame (R344, R493). -/
structure CanFrame where
  id : Nat
  ext : Bool
  data : List Byte
deriving DecidableEq, Repr

/-- A CSI-2 port, or an Ethernet sensor stream, which follows the same table of states (R337). -/
inductive PortId where
  | csi (p : Fin 4)
  | eth (n : Fin 8)
deriving DecidableEq, Repr

/-- The causes that put a deputy in FAULTED (R397). -/
inductive DepFault where
  | lockstep | doubleFault | watchdog | sram | lampCheck
deriving DecidableEq, Repr

/-- A lockstep pair (R408). -/
inductive Pair where
  | mp
  | dep (d : Fin 2)
deriving DecidableEq, Repr

/-- The latent-fault tests of R412. -/
inductive LatentTest where
  | lampMp
  | lampDep (d : Fin 2)
  | depEcc (d : Fin 2)
  | aggregator
  | monitors
  | tempSensors
  | firewalls
  | thermtrip
  | depWatchdog (d : Fin 2)
  | pinReadback (d : Fin 2)
deriving DecidableEq, Repr

/-- What the read of a reference word reports (R423). -/
inductive RefEcc where
  | clean | corrected | uncorrectable
deriving DecidableEq, Repr

/-- A clock island of R24 that a droop detector or a clock monitor watches. -/
inductive Island where
  | tile (t : Fin 136)
  | dieFabric (d : Fin 4)
  | hubFabric | mp | planner | fusion | intakeRx | intakeVideo
  | cvu (u : Fin 4)
  | dram (c : Fin 8)
deriving DecidableEq, Repr

/-- A supply rail of R430. -/
inductive Rail where
  | cd (d : Fin 4)
  | hub | sa | sb | ao | vddq | phy | io18
deriving DecidableEq, Repr

/-- The reading of the coolant thermistor (R451, R547): open, shorted, or a temperature in tenths of a degree. -/
inductive NtcReading where
  | openCircuit
  | shorted
  | temp (tenths : Int)
deriving DecidableEq, Repr

/-- Why a compute die is declared lost (R470). -/
inductive DieLossCause where
  | rail | clock | crosscuts
deriving DecidableEq, Repr

/-- A message of a gallery link (R498). -/
structure GalMsg where
  typ : BitVec 8
  epoch : BitVec 8
  tag : BitVec 16
  label : BitVec 48
  addr : BitVec 40
  len : BitVec 8
  data : List Byte
deriving DecidableEq, Repr

/-- A PCIe window (R484). -/
inductive Bar where
  | bar0 | bar2
deriving DecidableEq, Repr

/-- The JTAG instructions of R511. -/
inductive JtagInstr where
  | bypass | idcode | samplePreload | extest
deriving DecidableEq, Repr

/-- What debug run control asks (R410, R512). -/
inductive RunAction where
  | halt | step | resume
  | breakpoint (slot : Fin 4) (addr : Option (BitVec 64))
  | writeReg (n : BitVec 5) (v : BitVec 64)
deriving DecidableEq, Repr

/-- How a long operation that depends on the hardware comes out (R231). -/
inductive HwResult where
  | ok | fault | lost
deriving DecidableEq, Repr

/-- What start-up observes at a stage (R517, R519): lanes that fail training, whether the MP firmware is valid and its
version, whether the MP lamp check passed, tiles and dies that fail, the bin each channel trains at, and whether a
channel needed full training. -/
structure StageObs where
  /-- (crosscut, direction towards the higher end, number of failed lanes) -/
  lanes : List (Fin 12 × Bool × Nat)
  fwOk : Bool
  fwMaj : BitVec 8
  fwMin : BitVec 8
  lampOk : Bool
  tilesBad : List (Fin 136)
  diesBad : List (Fin 4)
  /-- the channels that train at no bin -/
  chBad : List (Fin 8)
  /-- the highest bin at which full training of a channel finds a setting, where it is below 4 -/
  bins : List (Fin 8 × Fin 5)
  /-- the channels whose pattern read at the stored training result fails (R300) -/
  patBad : List (Fin 8)
deriving DecidableEq, Repr

/-- One command of the block: a row of spec/opcode_table.json with its operands. -/
inductive Instr where
  -- Bunov-C (R112)
  | aluRegOp (p : Proc) (op : AluOp) (e : Enc)
  | aluImmOp (p : Proc) (op : AluOp) (e : Enc)
  | movi (p : Proc) (e : Enc)
  | movhi (p : Proc) (e : Enc)
  | compare (p : Proc) (op : CmpOp) (imm : Bool) (e : Enc)
  | predicateLogic (p : Proc) (op : PredOp) (e : Enc)
  | br (p : Proc) (e : Enc)
  | jr (p : Proc) (e : Enc)
  | call (p : Proc) (e : Enc)
  | callr (p : Proc) (e : Enc)
  | ret (p : Proc) (e : Enc)
  | trap (p : Proc) (e : Enc)
  | eret (p : Proc) (e : Enc)
  | mfsr (p : Proc) (e : Enc)
  | mtsr (p : Proc) (e : Enc)
  | nop (p : Proc) (e : Enc)
  | ld (p : Proc) (e : Enc) (ups : List Upset) (core : CoreUpset)
  | st (p : Proc) (e : Enc)
  | ldResponse (p : Proc)
  | stErrorResponse (p : Proc)
  | dmaG (p : Proc) (e : Enc)
  | dmaS (p : Proc) (e : Enc)
  | dmaDescriptorComplete (p : Proc) (slot : Fin 32)
  | signal (p : Proc) (e : Enc)
  | wait (p : Proc) (e : Enc)
  | waitt (p : Proc) (e : Enc)
  | sigr (p : Proc) (e : Enc)
  | sigrResult (p : Proc)
  | trapEntry (p : Proc)
  | deferredTrap (p : Proc)
  -- Bunov-T (R140, R177)
  | tdset (p : Proc) (e : Enc)
  | tdget (p : Proc) (e : Enc)
  | tldw (p : Proc) (e : Enc)
  | tmul (p : Proc) (e : Enc) (core : CoreUpset)
  | tout (p : Proc) (e : Enc)
  | tclr (p : Proc) (e : Enc)
  | accxA (p : Proc) (e : Enc)
  | accxE (p : Proc) (e : Enc)
  | vectorLaneOp (p : Proc) (op : LaneOp) (e : Enc)
  | vcmp (p : Proc) (e : Enc)
  | vsel (p : Proc) (e : Enc)
  | vcvt (p : Proc) (e : Enc)
  | vectorTableFunction (p : Proc) (op : FuncOp) (e : Enc)
  | vectorReduction (p : Proc) (op : RedOp) (e : Enc)
  | vld (p : Proc) (e : Enc) (ups : List Upset) (core : CoreUpset)
  | vst (p : Proc) (e : Enc)
  | vbcast (p : Proc) (e : Enc)
  | vdw (p : Proc) (e : Enc)
  | vpool (p : Proc) (e : Enc)
  | argmaxc (p : Proc) (e : Enc)
  | attQk (p : Proc) (e : Enc)
  | attSmx (p : Proc) (e : Enc)
  | attPv (p : Proc) (e : Enc)
  | attMerge (p : Proc) (e : Enc)
  | attAccept (p : Proc) (e : Enc)
  | kvapp (p : Proc) (e : Enc)
  | kvtrim (p : Proc) (e : Enc)
  -- core tile (R70, R84, R98)
  | arrayPowerDown (t : Fin 136)
  | arrayPowerUpDone (t : Fin 136)
  | localStoreScrub (t : Fin 136) (line : Fin 24576) (ups : List Upset)
  | haltReq (src : Src) (t : Fin 136)
  | coreResume (src : Src) (t : Fin 136)
  | run (src : Src) (t : Fin 136)
  | coreRst (src : Src) (t : Fin 136)
  | coreHalted (t : Fin 136)
  -- tally homes (R199); island 0 to 3 compute dies, 4 hub
  | tallySignalApply (isl : Fin 5)
  | tallyWaitApply (isl : Fin 5)
  | tallyGrant (home : Fin 16384)
  | waittExpiry (isl : Fin 5)
  | waitWithdrawal (isl : Fin 5)
  | tileWake (d : Fin 4)
  | tlyDbgSel (src : Src) (v : BitVec 32)
  -- CSR (R532, R534)
  | loReadCapture (src : Src) (off : Nat)
  | registerWrite (src : Src) (off : Nat) (v : BitVec 32)
  -- command queues (R216 to R225)
  | cmdSqTail (src : Src) (q : Fin 16) (v : BitVec 32) (hostWrites : List MemCell)
  | cmdCqHead (src : Src) (q : Fin 16) (v : BitVec 32)
  | cmdQEnable (src : Src) (q : Fin 16) (v : BitVec 32)
  | commandFetch
  | completionPost (q : Fin 16)
  | nopCommand (q : Fin 16)
  | load (q : Fin 16)
  | start (q : Fin 16)
  | stop (q : Fin 16)
  | unload (q : Fin 16)
  | suspend (q : Fin 16)
  | resume (q : Fin 16)
  | cancel (q : Fin 16)
  | queryOp (q : Fin 16)
  | snapshot (q : Fin 16)
  | checkscan (q : Fin 16)
  | scrub (q : Fin 16)
  | retrain (q : Fin 16)
  | migrate (q : Fin 16)
  | repairHardDram (q : Fin 16)
  | repairLaneTest (q : Fin 16)
  | repairTileTest (q : Fin 16)
  | repairReplace (q : Fin 16)
  | calRead (q : Fin 16)
  | calWrite (q : Fin 16) (flashOk : Bool)
  | timeSetStepDt (q : Fin 16)
  | timeSetOffset (q : Fin 16)
  | timeSetSource (q : Fin 16)
  | powerBudget (q : Fin 16)
  | fence (q : Fin 16)
  | longOpStart (slot : Fin 64)
  | longOpSuspendPoint (slot : Fin 64)
  | longOpEnd (slot : Fin 64) (res : HwResult)
  | snapshotDone
  | timeBaseRelease (task : Nat)
  | deadlineCheck (task : Nat)
  | readmission
  -- fabric (R250 to R272)
  | requestIssue (src : Src) (slot : Fin 32)
  | arbiterGrant (a : Arb)
  | agePromotion (id : Nat)
  | promotionTokenRefill (src : Src)
  | fabricRequest (id : Nat) (ups : List Upset)
  | crosscutFailure (x : Fin 12)
  | laneRepair (x : Fin 12) (toHigh : Bool) (errs : List (Fin 68 × Nat))
  -- DRAM (R273 to R308)
  | dramRead (id : Nat) (ups : List Upset)
  | dramWrite (id : Nat)
  | dramRefresh (sub : Fin 16)
  | dramTempPoll (c : Fin 8) (status : Fin 3)
  | patrolScrub (c : Fin 8) (ups : List Upset)
  | alertN (c : Fin 8) (duringReplay : Bool)
  | marginMeasure (c : Fin 8) (rd wr ca corr : BitVec 8)
  | channelRetrain (c : Fin 8) (works : BitVec 5)
  | frequencyChange (c : Fin 8) (bin : Fin 5) (patternOk : Bool)
  | maintWindowEnd (c : Fin 8)
  | softPpr (c : Fin 8) (row : Nat) (resourceLeft : Bool)
  | channelRetire (c : Fin 8)
  | copierMove
  | dramInitDone
  -- intake (R309 to R339)
  | csi2Packet (port : Fin 4) (pkt : CsiPacket)
  | sampleComplete (n : Fin 56)
  | slotReady (n : Fin 56) (v : Fin 8)
  | framesetClose (g : Fin 8)
  | bitstreamDescriptor (n : Fin 56)
  | decodeDone (n : Fin 56) (pic : Picture)
  | ethFrameRx (port : Fin 4) (f : EthFrame)
  | portLossTimeout (p : PortId)
  | portRetryTimeout (p : PortId)
  | canary (n : Fin 56)
  -- fusion and planner (R340 to R389)
  | fusionCycle
  | egoStep
  | wheelFrame (c : Fin 4) (f : CanFrame)
  | imuRead (bytes : List Byte)
  | egoTimeout
  | plannerCycle
  | queryServe (pops : Nat)
  | queryBudgetExpiry
  | plannerIdlePoll
  -- deputies and error state (R390 to R415)
  | deputyStart (d : Fin 2) (testsOk : Bool)
  | deputyImageRetry (d : Fin 2)
  | deputyFaulted (d : Fin 2) (cause : DepFault)
  | deputyWatchdogExpiry (d : Fin 2)
  | dwdt (d : Fin 2) (v : BitVec 64)
  | dreport (d : Fin 2) (v : BitVec 64)
  | dfcmd (d : Fin 2) (v : BitVec 64)
  | observerFetchDone (d : Fin 2)
  | dctrlRel (d : Fin 2) (set : Bool)
  | dctrlReady (d : Fin 2)
  | dctrlDbgEn (d : Fin 2)
  | dctrlErrclr (d : Fin 2)
  | dctrlPintest (d : Fin 2)
  | pintestEnd (d : Fin 2) (readbackOk : Bool)
  | errorRecord
  | deputyErrorReaction (d : Fin 2)
  | hubHeartbeat (reachA : Bool) (reachB : Bool)
  | deputyHeartbeat (d : Fin 2)
  | hubLost (d : Fin 2)
  | deputyLost (d : Fin 2)
  | refugeTransmission (d : Fin 2)
  | lockstepMismatch (w : Pair)
  | latentFaultTest (t : LatentTest) (passed : Bool)
  | debugActionReplay (w : Pair)
  -- check-value units (R416 to R429)
  | checkJobStart (u : Fin 4) (job : Fin 256)
  | scanEnd (u : Fin 4) (ea eb : RefEcc)
  | checkscanSuspendPoint (u : Fin 4)
  -- power, clocks, thermal, MP (R430 to R458)
  | tierRaise (src : Src) (d : Fin 4)
  | tierLower (src : Src) (d : Fin 4)
  | relockDone (d : Fin 4)
  | railSettled (d : Fin 4) (mv : Nat)
  | tierSwitch (d : Fin 4)
  | powerEstimate (pkgMw : Nat) (amps : Vector Nat 4) (mv : Vector Nat 4)
  | burstCreditExhausted
  | peakPeriodLimit
  | peakLockoutEnd
  | peakAllowanceExhausted (d : Fin 4)
  | droopDetect (isl : Island) (cycles : Nat)
  | clockMonitorWindow (isl : Island) (khz : Nat) (noEdge160 : Bool)
  | voltageMonitorFault (r : Rail) (mv : Nat)
  | thermalSample (readings : List Int)
  | throttleStep (u : Fin 5)
  | coolantRead (r : NtcReading)
  | thermtrip
  | avsbusRetry (d : Fin 4) (ack : Bool)
  | mpMajorFrame (usedUs : Nat) (telemetry : Nat)
  | mpBudgetOverrun (order : Fin 4)
  | mpWatchdogExpiry
  | mpRestartDone
  | stressAccrual
  | thermalCycleSample
  | ledgerAoUpdate
  | ledgerFlashWrite
  | tileSelfTestDone (t : Fin 136) (pass : Bool)
  | spareRetest
  | migrationStop (lc : Fin 128)
  | dieLost (d : Fin 4) (cause : DieLossCause)
  -- interfaces (R483 to R513)
  | hostRequest (bar : Bar) (off : Nat) (len : Nat) (write : Bool) (data : List Byte)
  | pcieReset
  | gptpEventMessage (port : Fin 4) (phaseNs : Int)
  | servoAdjust (phaseNs : Int)
  | ppsIn
  | ppsOut
  | canFrameRx (c : Fin 4) (f : CanFrame)
  | canFrameTx (c : Fin 4)
  | gpioEdge (pin : Fin 16) (level : Bool)
  | galleryFrameRx (l : Fin 2) (raw : List Byte)
  | galleryHunt (l : Fin 2) (stream : List Byte)
  | galleryReadRequest (l : Fin 2)
  | galleryWriteRequest (l : Fin 2)
  | galleryReadResponse (l : Fin 2)
  | galleryWriteAck (l : Fin 2)
  | gallerySignal (l : Fin 2)
  | gallerySignalAck (l : Fin 2)
  | galleryErrorResponse (l : Fin 2)
  | galleryIdle (l : Fin 2)
  | linkTrainingDone (l : Fin 2) (serial : BitVec 64) (half : Bool)
  | linkLost (l : Fin 2)
  | linkRetryTimeout (l : Fin 2)
  | linkTrainingRetry (l : Fin 2)
  | calendarSecond
  | calSnap (src : Src)
  | calCommit (src : Src)
  | jtagInstruction (ji : JtagInstr)
  | runControl (p : Proc) (a : RunAction)
  | traceSync
  -- start-up and reset (R514 to R528)
  | railValid (r : Rail)
  | startupStage (o : StageObs)
  | mpFirmwareRetry (fwOk : Bool)
  | porstN (low : Bool)
  | wrstN (low : Bool)
  | saRstN (low : Bool)
  | sbRstN (low : Bool)
  | supplyDropout (r : Rail)
  | stAcknowledge (p : Proc)
  | deputyRailDropout (d : Fin 2)
  | droopRecovery (isl : Island)
deriving DecidableEq, Repr

end Sys2Proof
end

