-- ==== Sys2Proof/Decode.lean ====
section
/-! DEFINITION. The commands a word of the table spells (none: the table gives no row any bits), and the Bunov instruction
words (R105, R112, R140): the command of a word, and the word of a command. -/

namespace Sys2Proof

/-- The command that a word of the table spells. No row of spec/opcode_table.json gives bits. -/
def decodeTableWord (nbits w : Nat) : Option Instr :=
  match nbits, w with
  | _, _ => none

/-- The operations of majors 0x00 and 0x01 by MINOR (R112). -/
def aluOps : List AluOp :=
  [.add, .sub, .and, .or, .xor, .shl, .shr, .sra, .mul, .mulh, .mulhu, .div, .divu, .rem, .remu, .min, .max, .minu, .maxu]

def cmpOps : List CmpOp := [.eq, .ne, .lt, .ge, .ltu, .geu]
def predOps : List PredOp := [.and, .or, .xor]
def laneOps : List LaneOp := [.add, .sub, .mul, .fma, .min, .max, .abs, .neg, .and, .or, .xor, .shl, .shr, .sra]
def funcOps : List FuncOp := [.exp2, .log2, .rcp, .rsqrt, .tanh]
def redOps : List RedOp := [.sum, .max, .min]

/-- MINOR of an integer operation (R112). -/
def aluMinor : AluOp → Nat
  | .add => 0 | .sub => 1 | .and => 2 | .or => 3 | .xor => 4 | .shl => 5 | .shr => 6 | .sra => 7 | .mul => 8 | .mulh => 9
  | .mulhu => 10 | .div => 11 | .divu => 12 | .rem => 13 | .remu => 14 | .min => 15 | .max => 16 | .minu => 17 | .maxu => 18

def cmpMinor : CmpOp → Nat
  | .eq => 0 | .ne => 1 | .lt => 2 | .ge => 3 | .ltu => 4 | .geu => 5

def predMinor : PredOp → Nat
  | .and => 0x20 | .or => 0x21 | .xor => 0x22

def laneMinor : LaneOp → Nat
  | .add => 0 | .sub => 1 | .mul => 2 | .fma => 3 | .min => 4 | .max => 5 | .abs => 6 | .neg => 7 | .and => 8 | .or => 9
  | .xor => 10 | .shl => 11 | .shr => 12 | .sra => 13

def funcMinor : FuncOp → Nat
  | .exp2 => 0 | .log2 => 1 | .rcp => 2 | .rsqrt => 3 | .tanh => 4

def redMinor : RedOp → Nat
  | .sum => 0 | .max => 1 | .min => 2

/-- The word of an instruction from its fields (R105). -/
def encWord (major minor : Nat) (e : Enc) : BitVec 64 :=
  BitVec.ofNat 6 major ++ BitVec.ofNat 6 minor ++ e.pred ++ BitVec.ofBool e.pneg ++ e.ops

/-- Bits below MAJOR and MINOR. -/
def wordEnc (w : BitVec 64) : Enc := { pred := w.extractLsb' 49 3, pneg := w.getLsbD 48, ops := w.extractLsb' 0 48 }

/-- The word of a command that is a Bunov instruction (R105, R112, R140). -/
def bunovWord : Instr → Option (BitVec 64)
  | .aluRegOp _ op e => some (encWord 0x00 (aluMinor op) e)
  | .aluImmOp _ op e => some (encWord 0x01 (aluMinor op) e)
  | .movi _ e => some (encWord 0x02 0 e)
  | .movhi _ e => some (encWord 0x02 1 e)
  | .compare _ op imm e => some (encWord 0x03 (cmpMinor op + if imm then 0x10 else 0) e)
  | .predicateLogic _ op e => some (encWord 0x03 (predMinor op) e)
  | .br _ e => some (encWord 0x04 0 e)
  | .jr _ e => some (encWord 0x04 1 e)
  | .call _ e => some (encWord 0x05 0 e)
  | .callr _ e => some (encWord 0x05 1 e)
  | .ret _ e => some (encWord 0x05 2 e)
  | .trap _ e => some (encWord 0x06 0 e)
  | .eret _ e => some (encWord 0x06 1 e)
  | .mfsr _ e => some (encWord 0x07 0 e)
  | .mtsr _ e => some (encWord 0x07 1 e)
  | .nop _ e => some (encWord 0x07 2 e)
  | .ld _ e _ _ => some (encWord 0x10 0 e)
  | .st _ e => some (encWord 0x11 0 e)
  | .dmaG _ e => some (encWord 0x12 0 e)
  | .dmaS _ e => some (encWord 0x12 1 e)
  | .signal _ e => some (encWord 0x18 0 e)
  | .wait _ e => some (encWord 0x18 1 e)
  | .waitt _ e => some (encWord 0x18 2 e)
  | .sigr _ e => some (encWord 0x19 0 e)
  | .tdset _ e => some (encWord 0x20 0 e)
  | .tdget _ e => some (encWord 0x20 1 e)
  | .tldw _ e => some (encWord 0x21 0 e)
  | .tmul _ e _ => some (encWord 0x22 0 e)
  | .tout _ e => some (encWord 0x23 0 e)
  | .tclr _ e => some (encWord 0x24 0 e)
  | .accxA _ e => some (encWord 0x25 0 e)
  | .accxE _ e => some (encWord 0x25 1 e)
  | .vectorLaneOp _ op e => some (encWord 0x30 (laneMinor op) e)
  | .vcmp _ e => some (encWord 0x31 0 e)
  | .vsel _ e => some (encWord 0x31 1 e)
  | .vcvt _ e => some (encWord 0x32 0 e)
  | .vectorTableFunction _ op e => some (encWord 0x33 (funcMinor op) e)
  | .vectorReduction _ op e => some (encWord 0x34 (redMinor op) e)
  | .vld _ e _ _ => some (encWord 0x35 0 e)
  | .vst _ e => some (encWord 0x35 1 e)
  | .vbcast _ e => some (encWord 0x35 2 e)
  | .vdw _ e => some (encWord 0x36 0 e)
  | .vpool _ e => some (encWord 0x37 0 e)
  | .argmaxc _ e => some (encWord 0x38 0 e)
  | .attQk _ e => some (encWord 0x3A 0 e)
  | .attSmx _ e => some (encWord 0x3A 1 e)
  | .attPv _ e => some (encWord 0x3A 2 e)
  | .attMerge _ e => some (encWord 0x3A 3 e)
  | .attAccept _ e => some (encWord 0x3A 4 e)
  | .kvapp _ e => some (encWord 0x3B 0 e)
  | .kvtrim _ e => some (encWord 0x3B 1 e)
  | _ => none

/-- The instruction of majors 0x00 to 0x1F that a word names (R112). -/
def decodeControl (p : Proc) (major minor : Nat) (e : Enc) : Option Instr :=
  match major with
  | 0x00 => (aluOps[minor]?).map fun op => .aluRegOp p op e
  | 0x01 => (aluOps[minor]?).map fun op => .aluImmOp p op e
  | 0x02 => match minor with | 0 => some (.movi p e) | 1 => some (.movhi p e) | _ => none
  | 0x03 =>
    if minor < 0x10 then (cmpOps[minor]?).map fun op => .compare p op false e
    else if minor < 0x20 then (cmpOps[minor - 0x10]?).map fun op => .compare p op true e
    else (predOps[minor - 0x20]?).map fun op => .predicateLogic p op e
  | 0x04 => match minor with | 0 => some (.br p e) | 1 => some (.jr p e) | _ => none
  | 0x05 => match minor with | 0 => some (.call p e) | 1 => some (.callr p e) | 2 => some (.ret p e) | _ => none
  | 0x06 => match minor with | 0 => some (.trap p e) | 1 => some (.eret p e) | _ => none
  | 0x07 => match minor with | 0 => some (.mfsr p e) | 1 => some (.mtsr p e) | 2 => some (.nop p e) | _ => none
  | 0x10 => match minor with | 0 => some (.ld p e [] .none) | _ => none
  | 0x11 => match minor with | 0 => some (.st p e) | _ => none
  | 0x12 => match minor with | 0 => some (.dmaG p e) | 1 => some (.dmaS p e) | _ => none
  | 0x18 => match minor with | 0 => some (.signal p e) | 1 => some (.wait p e) | 2 => some (.waitt p e) | _ => none
  | 0x19 => match minor with | 0 => some (.sigr p e) | _ => none
  | _ => none

/-- The instruction of majors 0x20 to 0x3F that a word names (R140). -/
def decodeTensor (p : Proc) (major minor : Nat) (e : Enc) : Option Instr :=
  match major with
  | 0x20 => match minor with | 0 => some (.tdset p e) | 1 => some (.tdget p e) | _ => none
  | 0x21 => match minor with | 0 => some (.tldw p e) | _ => none
  | 0x22 => match minor with | 0 => some (.tmul p e .none) | _ => none
  | 0x23 => match minor with | 0 => some (.tout p e) | _ => none
  | 0x24 => match minor with | 0 => some (.tclr p e) | _ => none
  | 0x25 => match minor with | 0 => some (.accxA p e) | 1 => some (.accxE p e) | _ => none
  | 0x30 => (laneOps[minor]?).map fun op => .vectorLaneOp p op e
  | 0x31 => match minor with | 0 => some (.vcmp p e) | 1 => some (.vsel p e) | _ => none
  | 0x32 => match minor with | 0 => some (.vcvt p e) | _ => none
  | 0x33 => (funcOps[minor]?).map fun op => .vectorTableFunction p op e
  | 0x34 => (redOps[minor]?).map fun op => .vectorReduction p op e
  | 0x35 => match minor with | 0 => some (.vld p e [] .none) | 1 => some (.vst p e) | 2 => some (.vbcast p e) | _ => none
  | 0x36 => match minor with | 0 => some (.vdw p e) | _ => none
  | 0x37 => match minor with | 0 => some (.vpool p e) | _ => none
  | 0x38 => match minor with | 0 => some (.argmaxc p e) | _ => none
  | 0x3A =>
    match minor with
    | 0 => some (.attQk p e) | 1 => some (.attSmx p e) | 2 => some (.attPv p e) | 3 => some (.attMerge p e)
    | 4 => some (.attAccept p e) | _ => none
  | 0x3B => match minor with | 0 => some (.kvapp p e) | 1 => some (.kvtrim p e) | _ => none
  | _ => none

/-- The command of an instruction word for a processor; `none` for a (MAJOR, MINOR) pair that no table lists (R112, R140). -/
def decodeBunov (p : Proc) (w : BitVec 64) : Option Instr :=
  let major := (w.extractLsb' 58 6).toNat
  let minor := (w.extractLsb' 52 6).toNat
  if major < 0x20 then decodeControl p major minor (wordEnc w) else decodeTensor p major minor (wordEnc w)

/-- The processor of a command that is a Bunov instruction. -/
def bunovProc : Instr → Option Proc
  | .aluRegOp p _ _ | .aluImmOp p _ _ | .movi p _ | .movhi p _ | .compare p _ _ _ | .predicateLogic p _ _ | .br p _ | .jr p _
  | .call p _ | .callr p _ | .ret p _ | .trap p _ | .eret p _ | .mfsr p _ | .mtsr p _ | .nop p _ | .ld p _ _ _ | .st p _
  | .dmaG p _ | .dmaS p _ | .signal p _ | .wait p _ | .waitt p _ | .sigr p _ | .tdset p _ | .tdget p _ | .tldw p _ | .tmul p _ _
  | .tout p _ | .tclr p _ | .accxA p _ | .accxE p _ | .vectorLaneOp p _ _ | .vcmp p _ | .vsel p _ | .vcvt p _
  | .vectorTableFunction p _ _ | .vectorReduction p _ _ | .vld p _ _ _ | .vst p _ | .vbcast p _ | .vdw p _ | .vpool p _
  | .argmaxc p _ | .attQk p _ | .attSmx p _ | .attPv p _ | .attMerge p _ | .attAccept p _ | .kvapp p _ | .kvtrim p _ => some p
  | _ => none

/-- The fields of a word alone: what nature does to the storage that an instruction reads is not in the word. -/
def Enc.bare (e : Enc) : Enc := { e with core := .none }

/-- A command with the fields of its instruction word changed. -/
def Instr.mapEnc (f : Enc → Enc) : Instr → Instr
  | .aluRegOp p op e => .aluRegOp p op (f e)
  | .aluImmOp p op e => .aluImmOp p op (f e)
  | .movi p e => .movi p (f e)
  | .movhi p e => .movhi p (f e)
  | .compare p op i e => .compare p op i (f e)
  | .predicateLogic p op e => .predicateLogic p op (f e)
  | .br p e => .br p (f e)
  | .jr p e => .jr p (f e)
  | .call p e => .call p (f e)
  | .callr p e => .callr p (f e)
  | .ret p e => .ret p (f e)
  | .trap p e => .trap p (f e)
  | .eret p e => .eret p (f e)
  | .mfsr p e => .mfsr p (f e)
  | .mtsr p e => .mtsr p (f e)
  | .nop p e => .nop p (f e)
  | .ld p e u c => .ld p (f e) u c
  | .st p e => .st p (f e)
  | .dmaG p e => .dmaG p (f e)
  | .dmaS p e => .dmaS p (f e)
  | .signal p e => .signal p (f e)
  | .wait p e => .wait p (f e)
  | .waitt p e => .waitt p (f e)
  | .sigr p e => .sigr p (f e)
  | .tdset p e => .tdset p (f e)
  | .tdget p e => .tdget p (f e)
  | .tldw p e => .tldw p (f e)
  | .tmul p e c => .tmul p (f e) c
  | .tout p e => .tout p (f e)
  | .tclr p e => .tclr p (f e)
  | .accxA p e => .accxA p (f e)
  | .accxE p e => .accxE p (f e)
  | .vectorLaneOp p op e => .vectorLaneOp p op (f e)
  | .vcmp p e => .vcmp p (f e)
  | .vsel p e => .vsel p (f e)
  | .vcvt p e => .vcvt p (f e)
  | .vectorTableFunction p op e => .vectorTableFunction p op (f e)
  | .vectorReduction p op e => .vectorReduction p op (f e)
  | .vld p e u c => .vld p (f e) u c
  | .vst p e => .vst p (f e)
  | .vbcast p e => .vbcast p (f e)
  | .vdw p e => .vdw p (f e)
  | .vpool p e => .vpool p (f e)
  | .argmaxc p e => .argmaxc p (f e)
  | .attQk p e => .attQk p (f e)
  | .attSmx p e => .attSmx p (f e)
  | .attPv p e => .attPv p (f e)
  | .attMerge p e => .attMerge p (f e)
  | .attAccept p e => .attAccept p (f e)
  | .kvapp p e => .kvapp p (f e)
  | .kvtrim p e => .kvtrim p (f e)
  | i => i

/-- A command as the decoder gives it: the errors that its sender says have struck are not in the word. -/
def Instr.bare (i : Instr) : Instr :=
  match i.mapEnc Enc.bare with
  | .ld p e _ _ => .ld p e [] .none
  | .tmul p e _ => .tmul p e .none
  | .vld p e _ _ => .vld p e [] .none
  | j => j

end Sys2Proof
end

