-- ==== Sys2Proof/Config.lean ====
section
/-! DEFINITION. What the spec leaves open: free values (constants with no body, so that no proof can see what they are),
and the sizes that a part fixes. The assumption log names each. -/

namespace Sys2Proof.Config

/-- A byte whose value the spec leaves undefined: the data of an ABSENT slot (R328). The argument is the free-value
counter of `State`, advanced once per byte. -/
opaque freeByte : Nat → BitVec 8

/-- A word whose value the spec leaves open, by the free-value counter of `State`. -/
opaque freeWord : Nat → BitVec 64

/-- A choice the spec leaves open, by the free-value counter of `State`. -/
opaque freeBool : Nat → Bool

/-- The correctly rounded value of a table-assisted function (R161), a sine, a cosine or an arctangent (R345, R349)
whose rounding the model's interval enclosures do not decide; the arguments are a code of the function, of the format and
mode, and of the operand bits. -/
opaque undecidedRounding : Nat → Nat → Nat → BitVec 64

/-- The row, of its channel, that holds a DRAM line: the placement inside a subchannel is internal to the device (R278). -/
opaque dramRow : Nat → Nat

/-- The bank, of its subchannel, that holds a DRAM line (R278, R286). -/
opaque dramBank : Nat → Nat

/-- The bank that a same-bank refresh covers, by the number of refreshes before it: the spec does not give the order (R288). -/
opaque refreshBank : Nat → Nat

/-- The alert window of R293 in ns: the spec gives no length. -/
opaque alertWindow : Nat

/-- The unit of R447 that a temperature sensor of a compute die (0 to 3) or of the hub (4) belongs to: a tile's slot, the die
fabric, or a hub unit's code. -/
opaque sensorUnit : Nat → Nat → BitVec 8

/-- The demosaiced value, in quarters, of a colour whose neighbours lie partly outside the input (R319), by the neighbours that
lie inside it. -/
opaque edgeMean : List Nat → Nat

/-- The quotient of R318 for a SCALE of 0, by the dividend. -/
opaque zeroScale : Int → Int

end Sys2Proof.Config
end

