-- ==== Sys2Proof/Machine/State.lean ====
section
/-! DEFINITION. The state of the device as plain data, every register, queue, buffer, counter, mode and pin that the spec
gives it; the reasons for which a step can stop; the state after reset. -/

namespace Sys2Proof.Machine

/-! ## Processors -/

/-- RUNSTATE of CD_CORE_STATUS (R99). The MP and the deputies use the same names. -/
inductive RunState where
  | off | reset | running | waiting | halted | faulted
deriving DecidableEq, Repr

/-- A trap condition that has been raised and not yet entered (R120, R123). `epc` is the address that EPC takes; `ord` is the
place of its instruction in program order, among those that send requests (R124). -/
structure TrapReq where
  cause : BitVec 8
  deferred : Bool
  eaddr : BitVec 64
  epc : BitVec 64
  ord : Nat
deriving DecidableEq, Repr

/-- The response that has come back for a device-physical LD (R562): data, or an error's trap cause and address. -/
inductive LdResp where
  | data (v : BitVec 64)
  | error (cause : BitVec 8) (addr : BitVec 64)
deriving DecidableEq, Repr

/-- A device-physical LD that has not completed (R128): destination code, size, U, address, and the response if it has
arrived. -/
structure LdWait where
  rd : BitVec 5
  size : BitVec 2
  zext : Bool
  addr : Nat
  resp : Option LdResp
deriving DecidableEq, Repr

/-- A SIGR without a result, or with one not yet written to its predicate (R139). -/
structure SigrSlot where
  pd : BitVec 3
  home : Nat
  n : BitVec 8
  link : Fin 2
  epoch : BitVec 8
  tag : BitVec 16
  result : Option Bool
deriving DecidableEq, Repr

/-- What has become of an outstanding WAIT or WAITT at its home (R137, R138, R200, R561). -/
inductive WaitOutcome where
  | pending
  | granted
  | timedOut
  | refused
deriving DecidableEq, Repr

/-- The outstanding WAIT or WAITT of a processor: its number among all waits, home, N, deadline of a WAITT, destination
predicate, outcome, and whether a withdrawal of it is on its way to the home (R561). -/
structure WaitSt where
  tag : Nat
  home : Nat
  n : BitVec 8
  deadline : Option (BitVec 64)
  pd : BitVec 3
  outcome : WaitOutcome
  withdrawn : Bool
deriving DecidableEq, Repr

/-- A SIGNAL or SIGR that waits for its release condition (R135, R139). -/
structure PendSig where
  home : Nat
  n : BitVec 8
  d : Bool
  remote : Bool
  pd : BitVec 3
deriving DecidableEq, Repr

/-- The registers of a Bunov-C processor (R86 to R89) and what it has outstanding. -/
structure Seq where
  run : RunState
  pc : BitVec 64
  g : Vector (BitVec 64) 16
  /-- w4 to w15 of each of the eight ring slots (R87) -/
  ring : Vector (Vector (BitVec 64) 12) 8
  /-- w0 to w15 of the trap frame -/
  tf : Vector (BitVec 64) 16
  /-- p7 to p0 -/
  preds : BitVec 8
  floor : BitVec 16
  depth : BitVec 16
  selen : Bool
  sel : BitVec 3
  inTrap : Bool
  spillBase : BitVec 64
  trapBase : BitVec 64
  epc : BitVec 64
  ecause : BitVec 64
  eaddr : BitVec 64
  taskLbl : BitVec 64
  /-- a precise trap that waits in step 1 of R120 -/
  pend : Option TrapReq
  /-- an execution-time error that has not been taken as a deferred trap (R124) -/
  deferred : Option TrapReq
  /-- posted device-physical STs without an acknowledgement -/
  postedSt : Nat
  /-- error responses to posted STs that have arrived: cause, address and place in program order, oldest first -/
  stErr : List (BitVec 8 × BitVec 64 × Nat)
  /-- acknowledgements of posted STs that have returned and have not been taken by the sequencer -/
  stAck : Nat
  ldWait : Option LdWait
  sigrs : List SigrSlot
  wait : Option WaitSt
  pendSig : Option PendSig
  /-- a debug halt is asked for (R98, R512) -/
  dbgHalt : Bool
  /-- one instruction may run before the halt takes hold again (single step, R512) -/
  dbgStep : Bool
  /-- instruction-address breakpoints (R512) -/
  bps : Vector (Option (BitVec 64)) 4
  /-- breakpoints take effect at the present PC: not while the instruction that a resume or a step starts with is due -/
  bpArmed : Bool
deriving DecidableEq, Repr

/-- A sequencer after reset (R126): every system register 0, one resident frame of depth 0. -/
def Seq.reset (r : RunState) (pc : BitVec 64) : Seq where
  run := r
  pc := pc
  g := Vector.replicate 16 0
  ring := Vector.replicate 8 (Vector.replicate 12 0)
  tf := Vector.replicate 16 0
  preds := 0
  floor := 0
  depth := 0
  selen := false
  sel := 0
  inTrap := false
  spillBase := 0
  trapBase := 0
  epc := 0
  ecause := 0
  eaddr := 0
  taskLbl := 0
  pend := none
  deferred := none
  postedSt := 0
  stErr := []
  stAck := 0
  ldWait := none
  sigrs := []
  wait := none
  pendSig := none
  dbgHalt := false
  dbgStep := false
  bps := Vector.replicate 4 none
  bpArmed := true

/-! ## Core tiles -/

/-- A tensor descriptor with its shape record (R143, R144), as an instruction reads it at issue (R145). -/
structure Desc where
  base : Nat
  fmt : Nat
  bs : Bool
  kv : Bool
  shape : Nat
  ext : Nat × Nat × Nat × Nat
  str : Int × Int × Int
  sbase : Nat
  sstr : Int × Int
deriving DecidableEq, Repr

/-- A TMUL that has been issued and waits for the array's columns (R70): its fields, and the activation descriptor and the
coordinates that it read at issue (R145). -/
structure TmulHeld where
  enc : Enc
  desc : Desc
  at_ : Int × Int × Int × Int
deriving DecidableEq, Repr

/-- The window and kernel registers of the depthwise path (R75, R167) after a VDW: the descriptor register, origin and group that it
named, the image rows that the window holds, each with its row index and its bytes from the origin's column on, and the bytes of
the kernel's taps. -/
structure DwWin where
  ta : Nat
  at_ : Int × Int × Int × Int
  g : Nat
  rows : List (Int × List (BitVec 8))
  kernel : List (BitVec 8)
deriving DecidableEq, Repr

/-- FRAME of an accumulator entry (R52). -/
inductive Frame where
  | empty | f0 | fs | fb
deriving DecidableEq, Repr

/-- SPECIAL of an accumulator entry (R52). -/
inductive Special where
  | none | pinf | ninf | nan
deriving DecidableEq, Repr

/-- An accumulator entry (R52). `anchored` says that an FS entry holds an anchor (R54). An FB entry holds its FP32 value
in the low bits of `a` (R62). -/
structure AccEntry where
  a : BitVec 128
  frame : Frame
  special : Special
  x : BitVec 9
  anchored : Bool
deriving DecidableEq, Repr

/-- The entry that TCLR leaves (R52). -/
def AccEntry.cleared : AccEntry := { a := 0, frame := .empty, special := .none, x := 0, anchored := false }

/-- A weight plane (R67, R150): whether it has been loaded, the format and block scaling of its weights, its row count,
and the element codes and scale bytes of its 64 columns, column by column. -/
structure Plane where
  loaded : Bool
  fmt : BitVec 4
  bs : Bool
  rows : Nat
  w : List (List Nat)
  sc : List (List Nat)
deriving DecidableEq, Repr

/-- A plane whose record is clear (R559, R566). -/
def Plane.cleared : Plane := { loaded := false, fmt := 0, bs := false, rows := 0, w := [], sc := [] }

/-- Where a transaction of a DMA descriptor stands. -/
inductive DmaPhase where
  | idle
  /-- its read is in the fabric, under this request number -/
  | reading (id : Nat)
  /-- its data has been read -/
  | have (data : List (BitVec 8))
  /-- its write is in the fabric -/
  | writing (id : Nat) (len : Nat)
deriving DecidableEq, Repr

/-- A DMA descriptor in flight (R132 to R134). -/
structure DmaSlot where
  scatter : Bool
  indexed : Bool
  statusEn : Bool
  cl : Bool
  pl : Bool
  cls : BitVec 3
  dl : BitVec 24
  tally : BitVec 14
  contig : Nat
  pattern : Nat
  count0 : Nat
  count1 : Nat
  count2 : Nat
  stride1 : Int
  stride2 : Int
  /-- local-space address of the descriptor -/
  addr : Nat
  /-- a descriptor error of R134 -/
  bad : Bool
  /-- bytes of the contiguous side done -/
  done : Nat
  phase : DmaPhase
  /-- CODE of the transaction that failed -/
  fail : Option (BitVec 8)
  /-- issued past its issuer's cut point in a snapshot (R246) -/
  marked : Bool
deriving DecidableEq, Repr

/-- The tensor array's power (R70). -/
inductive ArrayPower where
  | off | rising | on
deriving DecidableEq, Repr

/-- A physical core tile (R66 to R104) and its registers. -/
structure Tile where
  seq : Seq
  aflags : BitVec 7
  td : Vector (BitVec 64) 16
  /-- v0 to v31, 256 B each -/
  vr : Vector (BitVec 2048) 32
  /-- accumulator entries that are not `AccEntry.cleared`, by 8192 bank + 64 row + column, rising -/
  acc : List (Nat × AccEntry)
  /-- row product counts that are not 0, by 128 bank + row, rising -/
  rowCount : List (Nat × BitVec 30)
  planes : Vector Plane 2
  array : ArrayPower
  /-- DT of the last TLDW, TMUL or ACCX -/
  arrayUse : BitVec 64
  /-- a TMUL that waits for the array's columns -/
  tmulWait : Option TmulHeld
  /-- the depthwise path's registers, if a VDW was the last vector-queue instruction -/
  window : Option DwWin
  arrayHold : Bool
  haltReq : Bool
  ceCount : BitVec 16
  ueCount : BitVec 8
  eccValid : Bool
  eccUe : Bool
  eccAddr : BitVec 17
  fault : BitVec 8
  dma : Vector (Option DmaSlot) 32
  /-- writes of KVAPP in the fabric, past their core's DMA engine (R183) -/
  kvOut : Nat
  /-- the tile has its clock: not stopped by THERMTRIP (R452) nor with its die (R470) -/
  clocked : Bool
deriving DecidableEq, Repr

/-- A tile after power-up (R566, R98 to R104). -/
def Tile.reset : Tile where
  seq := Seq.reset .off 0x100
  aflags := 0
  td := Vector.replicate 16 0
  vr := Vector.replicate 32 0
  acc := []
  rowCount := []
  planes := Vector.replicate 2 Plane.cleared
  array := .off
  arrayUse := 0
  tmulWait := none
  window := none
  arrayHold := false
  haltReq := false
  ceCount := 0
  ueCount := 0
  eccValid := false
  eccUe := false
  eccAddr := 0
  fault := 0
  dma := Vector.replicate 32 none
  kvOut := 0
  clocked := true

/-! ## Errors -/

/-- An error record of R399: DT, category, origin (0 hub, 1 SD-A, 2 SD-B), source, partition and INFO. -/
structure ErrRec where
  dt : BitVec 48
  cat : BitVec 8
  origin : BitVec 8
  src : BitVec 12
  part : BitVec 4
  info : BitVec 48
deriving DecidableEq, Repr

/-- The record of a log slot that holds nothing: every byte 0. -/
def ErrRec.zero : ErrRec := { dt := 0, cat := 0, origin := 0, src := 0, part := 0, info := 0 }

/-- The kind of an error that a store's word or line holds (R81, R84, R290, R291). -/
inductive EccKind where
  /-- a single error that a read corrects -/
  | single
  /-- in DRAM, errors confined to one stored symbol of the codeword, which a read corrects (R289) -/
  | symbol (i : Fin 80)
  /-- an uncorrectable error that nothing has entered yet -/
  | hard
  /-- the poison check code: uncorrectable, and entered once -/
  | poison
deriving DecidableEq, Repr

/-! ## Tallies -/

/-- A waiter entry (R207): source, the number of its wait, N, deadline of a WAITT. -/
structure Waiter where
  src : BitVec 12
  tag : Nat
  n : BitVec 8
  deadline : Option (BitVec 64)
deriving DecidableEq, Repr

/-- Mode of a tally (R197). -/
inductive TallyMode where
  | disabled | counting | event
deriving DecidableEq, Repr

/-- The barrier fields of a tally (R197, R198, R211): K, the lag threshold in 8 ns units, arrivals of the round, the last
arriver (0xFF none) and lag of the last completed round, and the DT of the latest arrival. -/
structure Barrier where
  k : BitVec 8
  threshold : BitVec 16
  arrived : BitVec 8
  lastLc : BitVec 8
  lag : BitVec 16
  lastDt : BitVec 64
  /-- the logical cores that have arrived in the round (R212) -/
  cores : List Nat
deriving DecidableEq, Repr

/-- A tally (R197). -/
structure Tally where
  mode : TallyMode
  count : BitVec 16
  ovf : Bool
  lost : BitVec 16
  part : BitVec 4
  /-- last signaller: source and DT [47:0] -/
  last : Option (BitVec 12 × BitVec 48)
  waiters : List Waiter
  barrier : Option Barrier
deriving DecidableEq, Repr

/-- An undeclared tally (R198). -/
def Tally.off : Tally :=
  { mode := .disabled, count := 0, ovf := false, lost := 0, part := 0, last := none, waiters := [], barrier := none }

/-- An operation on its way to a home, or queued at it (R199). `ack` is the gallery link and tag to acknowledge (R504). -/
inductive TallyOp where
  | sig (home : Nat) (src : BitVec 12) (part : BitVec 4) (n : BitVec 8) (marked : Bool) (ack : Option (Fin 2 × BitVec 16))
  | wait (home : Nat) (src : BitVec 12) (part : BitVec 4) (tag : Nat) (n : BitVec 8) (deadline : Option (BitVec 64)) (poll : Bool) (marked : Bool)
  | withdraw (home : Nat) (src : BitVec 12) (tag : Nat)
deriving DecidableEq, Repr

/-- The tallies and what stands around them (R196 to R215). -/
structure TallySt where
  /-- the tallies that are not `Tally.off`, by home, rising -/
  tab : List (Nat × Tally)
  /-- operations queued at the islands CD0 to CD3 and hub, oldest first -/
  queue : Vector (List TallyOp) 5
  /-- logical cores granted and not yet released from clock gating, per die, in the order of their grants (R446) -/
  wake : Vector (List (Fin 136)) 4
  /-- DTs at which tiles of each die were released, newest first, as far as the sliding window needs (R446) -/
  wakeLog : Vector (List (BitVec 64)) 4
  dbgSel : BitVec 14
  /-- the captured home's state (R213): none until the first capture -/
  dbgCap : Option Tally
  /-- for each logical core, the late marks of its last completions, newest first (R212) -/
  late : Vector (List Bool) 128
  /-- number of the next wait -/
  nextWait : Nat
deriving DecidableEq, Repr

def TallySt.reset : TallySt where
  tab := []
  queue := Vector.replicate 5 []
  wake := Vector.replicate 4 []
  wakeLog := Vector.replicate 4 []
  dbgSel := 0
  dbgCap := none
  late := Vector.replicate 128 []
  nextWait := 1

/-! ## Fabric -/

/-- The errors that a request's own port or its target decides (R35, R81, R272, R562). -/
inductive AccessErr where
  | decode | firewall | link | data | dataLost
deriving DecidableEq, Repr

/-- Who waits for a request's outcome. -/
inductive Origin where
  | ld (p : Proc)
  | st (p : Proc)
  | dma (p : Proc) (slot : Fin 32)
  | kv (t : Fin 136)
  | host
  | partner (l : Fin 2) (tag : BitVec 16)
  | debug
deriving DecidableEq, Repr

/-- A fabric request with its label (R252) and where it stands. -/
structure Req where
  id : Nat
  src : BitVec 12
  part : BitVec 4
  cls : BitVec 3
  dl : BitVec 24
  addr : Nat
  len : Nat
  write : Bool
  data : List (BitVec 8)
  org : Origin
  /-- arbiters still ahead, the present one first -/
  hops : List Arb
  /-- DT at which it reached its first arbiter (R262) -/
  since : BitVec 64
  /-- DT at which it reached its present arbiter (R258) -/
  arr : BitVec 64
  /-- deadline of a promoted request (R262) -/
  promoted : Option (BitVec 24)
  /-- the cut mark of a snapshot (R246) -/
  marked : Bool
  /-- its place among all requests issued; 0 while it waits at its source port -/
  iss : Nat
  /-- the tile to which the logical window of its address led when it was issued (R28) -/
  tile : Option (Fin 136)
  /-- it is retried, or held, after a crosscut failure (R22) -/
  hold : Bool
deriving DecidableEq, Repr

/-- A response on its way to its requester (R251, R259): the request that it answers, the bytes read, or the error. -/
structure Resp where
  req : Req
  data : List (BitVec 8)
  err : Option AccessErr
  /-- arbiters still ahead, the present one first -/
  hops : List Arb
  /-- DT at which it reached its present arbiter -/
  arr : BitVec 64
deriving DecidableEq, Repr

/-- Where the weighted round-robin of an arbiter stands (R258): the class being served and its transactions left. -/
structure Wrr where
  cls : BitVec 2
  left : Nat
deriving DecidableEq, Repr

/-- A token bucket (R260, R269): level in 1/256 B and the DT up to which it has been filled. -/
structure Bucket where
  level : Nat
  dt : BitVec 64
deriving DecidableEq, Repr

/-- One direction of a crosscut (R19, R20, R471): lanes out of use, spares used, half width. -/
structure XDir where
  badLanes : List (Fin 68)
  half : Bool
deriving DecidableEq, Repr

/-- A crosscut: failed or not, and its two directions (towards the higher end: hub, or the higher-numbered die). -/
structure Crosscut where
  failed : Bool
  toHigh : XDir
  toLow : XDir
deriving DecidableEq, Repr

/-- The fabric (R250 to R272) and the FAB registers. -/
structure FabSt where
  nextId : Nat
  /-- place in the order of issue of the next request -/
  nextIss : Nat
  /-- requests that wait at their source ports, oldest first -/
  ports : List Req
  /-- requests at arbiters, in arrival order -/
  flight : List Req
  /-- requests that have reached their target, in order -/
  arrived : List Req
  /-- requests in the DRAM channel queues, in order -/
  dramQ : List Req
  /-- responses at arbiters, in arrival order (R259) -/
  resps : List Resp
  /-- buckets of a source for a class in a group (true: D), where not full -/
  buckets : List ((BitVec 12 × BitVec 3 × Bool) × Bucket)
  /-- budget buckets of a partition at an arbiter in Mode P (R269), where not full -/
  budgets : List ((BitVec 4 × Arb) × Bucket)
  /-- promotion tokens of a source, where not full (R263) -/
  promo : List (BitVec 12 × Nat)
  /-- DT of the last refill of a source's promotion bucket (R263), where there has been one -/
  promoDt : List (BitVec 12 × BitVec 64)
  wrr : List (Arb × Wrr)
  /-- the same of the arbiters' response channels -/
  wrrR : List (Arb × Wrr)
  xcuts : Vector Crosscut 12
  loaded : Bool
  modeP : Bool
  hostPart : BitVec 4
  lock : Bool
  age : Vector (BitVec 16) 4
  promoDepth : BitVec 4
  promoPeriod : BitVec 16
  statPromoted : BitVec 16
  statLabelFix : BitVec 16
  violValid : Bool
  violWrite : Bool
  violCount : BitVec 10
  violPart : BitVec 4
  violSrc : BitVec 12
  violAddr : BitVec 48
  /-- _HI halves captured by a _LO read, by source and CSR offset of the _HI register (R534) -/
  hiCap : List ((BitVec 12 × Nat) × BitVec 32)
deriving DecidableEq, Repr

def XDir.good : XDir := { badLanes := [], half := false }
def Crosscut.good : Crosscut := { failed := false, toHigh := .good, toLow := .good }

def FabSt.reset : FabSt where
  nextId := 1
  nextIss := 1
  ports := []
  flight := []
  arrived := []
  dramQ := []
  resps := []
  buckets := []
  budgets := []
  promo := []
  promoDt := []
  wrr := []
  wrrR := []
  xcuts := Vector.replicate 12 Crosscut.good
  loaded := false
  modeP := false
  hostPart := 0
  lock := false
  age := #v[0x09C4, 0x04E2, 0x0271, 0x00FA]
  promoDepth := 4
  promoPeriod := 0x00FA
  statPromoted := 0
  statLabelFix := 0
  violValid := false
  violWrite := false
  violCount := 0
  violPart := 0
  violSrc := 0
  violAddr := 0
  hiCap := []

/-! ## Command queues, programs, long operations -/

/-- A command entry (R219). -/
structure CmdEntry where
  opcode : BitVec 8
  irq : Bool
  hostmem : Bool
  rsv : Bool
  cid : BitVec 16
  p : Vector (BitVec 64) 7
deriving DecidableEq, Repr

/-- A completion entry (R219), before its PHASE is known, and whether VECTOR is to be raised. -/
structure ComplEnt where
  cid : BitVec 16
  sqhead : BitVec 16
  status : BitVec 8
  long : Bool
  final : Bool
  info0 : BitVec 32
  info1 : BitVec 32
  irq : Bool
deriving DecidableEq, Repr

/-- A queue pair and its registers (R216, R217). -/
structure QPair where
  sqBase : BitVec 64
  cqBase : BitVec 64
  enable : Bool
  sqLoc : Bool
  cqLoc : Bool
  vector : BitVec 8
  cqSize : BitVec 4
  sqSize : BitVec 4
  sqTail : BitVec 32
  sqHead : BitVec 32
  cqHead : BitVec 32
  cqTail : BitVec 32
  phase : Bool
  /-- the command fetched and not yet completed or accepted -/
  cur : Option CmdEntry
  /-- completions that wait for a free entry, oldest first (R221) -/
  held : List ComplEnt
  /-- the number, among all commands fetched, of the last one fetched from this pair (R225) -/
  order : Nat
deriving DecidableEq, Repr

def QPair.reset : QPair where
  sqBase := 0
  cqBase := 0
  enable := false
  sqLoc := false
  cqLoc := false
  vector := 0
  cqSize := 4
  sqSize := 4
  sqTail := 0
  sqHead := 0
  cqHead := 0
  cqTail := 0
  phase := true
  cur := none
  held := []
  order := 0

/-- State code of a long operation (R230). -/
inductive OpState where
  | queued | running | suspending | suspended | cancelling | done | cancelled | failed
deriving DecidableEq, Repr

/-- A long operation (R227 to R233). `result` holds the status and INFO words with which it will end. -/
structure LongOp where
  seq : BitVec 18
  opcode : BitVec 8
  state : OpState
  started : Bool
  q : Fin 16
  cid : BitVec 16
  irq : Bool
  hostmem : Bool
  p : Vector (BitVec 64) 7
  /-- bytes, channels, rows or units done -/
  progress : Nat
  /-- progress in thousandths (R222) -/
  permille : Nat
  result : Option (BitVec 8 × BitVec 32 × BitVec 32)
  /-- fetch order number, for FENCE (R225) -/
  order : Nat
  /-- submission head after the command was fetched (R219) -/
  sqhead : BitVec 16
  /-- its final entry waits for the end of an MP restart (R457) -/
  unposted : Bool
  /-- created by the MP, with no completion to post (R473 kind 0x10) -/
  internal : Bool
  /-- the scan descriptor that a CHECKSCAN has copied (R425) -/
  desc : List (BitVec 8)
  /-- data of a U region was lost during the operation (R292) -/
  lost : Bool
deriving DecidableEq, Repr

/-- The command processor and the long operations. -/
structure CmdSt where
  q : Vector QPair 16
  rr : Fin 16
  /-- commands for the MP that are queued, oldest first (R454) -/
  mpq : List (Fin 16)
  ops : Vector (Option LongOp) 64
  nextSeq : BitVec 18
  /-- commands fetched so far -/
  fetched : Nat
  /-- MSI-X vectors raised, newest first (R485) -/
  msix : List (BitVec 8)
deriving DecidableEq, Repr

def CmdSt.reset : CmdSt where
  q := Vector.replicate 16 QPair.reset
  rr := 0
  mpq := []
  ops := Vector.replicate 64 none
  nextSeq := 1
  fetched := 0
  msix := []

/-- Program state (R222). -/
inductive PState where
  | none | loading | loaded | running | readmitting | faulted
deriving DecidableEq, Repr

/-- A task record (R236). -/
structure Task where
  agent : Nat
  cls : BitVec 3
  overlap : Bool
  part : BitVec 4
  crit : Nat
  shed : Nat
  pred : Nat
  period : Nat
  deadline : Nat
  offset : Nat
  wcc : Nat
  release : Nat
  releaseN : Nat
  tb : Bool
  done : Nat
  migpts : Nat
  energy : Nat
  nrdDram : Nat
  nrdHub : Nat
  nrdDie : Nat
  nwait : Nat
  wdist : Nat
  wisland : Nat
  bytesDram : Nat
  bytesHub : Nat
  rateDram : Nat
  rateHub : Nat
deriving DecidableEq, Repr

/-- Protection class of a region (R235). -/
inductive RClass where
  | u | m | e
deriving DecidableEq, Repr

/-- A DRAM region (R235), its count of lost data (R292), and the layouts of a re-placement (R308): below the first offset
of `segs` the present layout holds; from each offset on, up to the next, the older one of the in-service mask beside it. The
first offset is the watermark. -/
structure Region where
  base : Nat
  size : Nat
  cls : RClass
  owner : BitVec 4
  rd : BitVec 16
  wr : BitVec 16
  dataLost : Nat
  segs : List (Nat × BitVec 16)
deriving DecidableEq, Repr

/-- A tally declaration (R198, R235). -/
structure TallyDecl where
  home : Nat
  mode : TallyMode
  part : BitVec 4
  barrier : Bool
  init : Nat
  k : Nat
  lag : Nat
deriving DecidableEq, Repr

/-- A KV sequence record and a KV binding record (R235). -/
structure KvSeq where
  seq : Nat
  part : BitVec 4
  maxlen : Nat
  layers : Nat
  heads : Nat
  dh : Nat
  fmt : Nat
  bs : Bool
  split : Nat
  region : Nat
deriving DecidableEq, Repr

structure KvBind where
  seq : Nat
  lc : Nat
  hbase : Nat
  hcount : Nat
  addr : Nat
deriving DecidableEq, Repr

/-- An entry of the partition table (R237). -/
structure PartEnt where
  num : BitVec 4
  split : Bool
  maint : Bool
  dram : Nat
  xcut : Nat
  /-- shares of pre-processing, fusion, planner, check-value units and video decode -/
  shares : Vector Nat 5
deriving DecidableEq, Repr

/-- What the loader keeps of an image (R234 to R237). -/
structure Image where
  lcMask : BitVec 128
  dieBytes : Vector Nat 4
  hubBytes : Nat
  regions : List Region
  tallies : List TallyDecl
  kvSeqs : List KvSeq
  kvBinds : List KvBind
  tasks : List Task
  modeP : Bool
  snapRate : Nat
  parts : List PartEnt
  /-- tables of pre-processing, fusion, planner and check-value units, as bytes; empty where the image has none -/
  pre : List (BitVec 8)
  fus : List (BitVec 8)
  pln : List (BitVec 8)
  chk : List (BitVec 8)
  /-- sections with a destination: device-physical address, offset and length in the image, in table order -/
  copies : List (Nat × Nat × Nat)
deriving DecidableEq, Repr

/-- No image. -/
def Image.empty : Image where
  lcMask := 0
  dieBytes := Vector.replicate 4 0
  hubBytes := 0
  regions := []
  tallies := []
  kvSeqs := []
  kvBinds := []
  tasks := []
  modeP := false
  snapRate := 0
  parts := []
  pre := []
  fus := []
  pln := []
  chk := []
  copies := []

/-- The program and admission (R222 to R244), with the ADM registers. -/
structure ProgSt where
  state : PState
  img : Image
  /-- the image that an accepted LOAD has checked and not yet copied, with its bytes -/
  staged : Option (Image × List (BitVec 8))
  /-- what the sections of a LOAD in its copy phase have overwritten, newest first (R233) -/
  undo : List (Nat × List (BitVec 8))
  reason : BitVec 8
  task : BitVec 16
  margin : BitVec 32
  pbase : BitVec 32
  budget : BitVec 32
  shedCount : BitVec 32
  missCount : BitVec 32
  epoch : BitVec 32
  /-- ADM_CAP_EPOCH at the check of the LOAD (R241) -/
  checkedEpoch : BitVec 32
  shed : List Nat
  startDt : BitVec 64
  /-- per task, the next k of its time-base releases (R241), where not 0 -/
  nextK : List (Nat × Nat)
  /-- per task, counts applied to its RELEASE home since the last deadline started (R242), where not 0 -/
  relCount : List (Nat × Nat)
  /-- deadlines that the monitor tracks: task and DT (R242) -/
  deadlines : List (Nat × BitVec 64)
  /-- tiles, by logical core, that a STOP still waits for -/
  stopQ : Option (Fin 16)
  /-- jobs' migration points used in the present job, by logical core (R240) -/
  migrated : List Nat
deriving DecidableEq, Repr

def ProgSt.reset : ProgSt where
  state := .none
  img := Image.empty
  staged := none
  undo := []
  reason := 0
  task := 0
  margin := 0
  pbase := 0
  budget := 180000
  shedCount := 0
  missCount := 0
  epoch := 0
  checkedEpoch := 0
  shed := []
  startDt := 0
  nextK := []
  relCount := []
  deadlines := []
  stopQ := none
  migrated := []

/-! ## DRAM -/

/-- STATE of DMC_CH_STATUS (R273 ff.). -/
inductive ChState where
  | untrained | training | active | maint | error | retired
deriving DecidableEq, Repr

/-- What a maintenance window does (R298): a change of frequency, a step of a retraining, the soft repair of a row. -/
inductive WindowKind where
  | freq
  | retrain
  | repair (row : Nat)
deriving DecidableEq, Repr

/-- A shadow timing set (R299): the bin whose timings it holds, and the training result. -/
structure Shadow where
  bin : BitVec 3
  train : BitVec 64
deriving DecidableEq, Repr

/-- A training result in boot flash (R300): bin, result and its CRC-32C. -/
structure TrainRec where
  bin : BitVec 3
  train : BitVec 64
  crc : BitVec 32
deriving DecidableEq, Repr

/-- A command in a channel's retry buffer (R293): number of its request, write, line, DT of its issue. -/
structure DramCmd where
  id : Nat
  write : Bool
  line : Nat
  dt : BitVec 64
deriving DecidableEq, Repr

/-- A DRAM channel controller and its registers. -/
structure Channel where
  state : ChState
  bin : BitVec 3
  set : Bool
  maxbin : BitVec 3
  refrate : BitVec 2
  sppr : BitVec 8
  stepdown : BitVec 8
  ce : BitVec 16
  ue : BitVec 8
  replays : BitVec 8
  errAddr : BitVec 42
  errValid : Bool
  errUe : Bool
  errSub : Bool
  mRd : BitVec 8
  mWr : BitVec 8
  mCa : BitVec 8
  /-- the last commands issued, newest first, at most 64 (R293) -/
  retry : List DramCmd
  /-- rows left open under PAGE = 1: bank and row (R286) -/
  openRows : List (Nat × Nat)
  /-- consecutive replays during which ALERT_n asserted (R294) -/
  alerts : Nat
  /-- the open maintenance window (R298), with the timing set and bin in force before it -/
  window : Option (WindowKind × Bool × BitVec 3)
  /-- a retraining is due (R301) -/
  retrainDue : Bool
  /-- window steps of the retraining under way, at most 64 (R301) -/
  steps : Nat
  /-- a retraining has found no setting, and the channel keeps its last good one (R301, outcome 1) -/
  keeps : Bool
  /-- the two shadow timing sets, number 0 and 1 (R299) -/
  shadow : Vector Shadow 2
  /-- the training results in boot flash, and the last bin in service (R300) -/
  stored : List TrainRec
  lastBin : Option (BitVec 3)
  /-- bins found to have no working setting since cold reset (R301), bit b -/
  noBin : BitVec 5
  /-- entries into ERROR, for the wear ledger (R474) -/
  errors : Nat
  /-- corrected errors counted against rows in the last 24 h: row and DT (R304) -/
  rowCe : List (Nat × BitVec 64)
  /-- rows that are repair candidates (R304) -/
  cands : List Nat
  /-- soft repairs in force, by row (R305) -/
  soft : List Nat
  /-- hard repairs made, by row (R305) -/
  hard : List Nat
  /-- rows recorded as unrepairable (R306) -/
  unrep : List Nat
  /-- next copy of a line of the patrol scrub, and DT at which its pass began (R295) -/
  scrubPos : Nat
  scrubDt : BitVec 64
  /-- refresh commands issued -/
  refreshes : Nat
deriving DecidableEq, Repr

def Channel.reset : Channel where
  state := .untrained
  bin := 0
  set := false
  maxbin := 4
  refrate := 0
  sppr := 0
  stepdown := 0
  ce := 0
  ue := 0
  replays := 0
  errAddr := 0
  errValid := false
  errUe := false
  errSub := false
  mRd := 0
  mWr := 0
  mCa := 0
  retry := []
  openRows := []
  alerts := 0
  window := none
  retrainDue := false
  steps := 0
  keeps := false
  shadow := Vector.replicate 2 { bin := 0, train := 0 }
  stored := []
  lastBin := none
  noBin := 0
  errors := 0
  rowCe := []
  cands := []
  soft := []
  hard := []
  unrep := []
  scrubPos := 0
  scrubDt := 0
  refreshes := 0

/-- The DRAM controllers and the device-wide DMC registers. -/
structure DmcSt where
  ch : Vector Channel 8
  minMargin : BitVec 8
  scrubHours : BitVec 8
  refmode : Bool
  page : Bool
  inserv : BitVec 16
  restripe : BitVec 32
  rowCeLimit : BitVec 8
  repairRate : BitVec 16
  /-- COPYX of R307 applies: re-placement runs -/
  replacing : Bool
  /-- a re-placement waits for a free slot of the long operations (R307) -/
  replaceDue : Bool
  /-- DT at which the last maintenance window opened (R298) -/
  windowDt : Option (BitVec 64)
deriving DecidableEq, Repr

def DmcSt.reset : DmcSt where
  ch := Vector.replicate 8 Channel.reset
  minMargin := 0x20
  scrubHours := 0x18
  refmode := false
  page := false
  inserv := 0
  restripe := 0
  rowCeLimit := 8
  repairRate := 0x1000
  replacing := false
  replaceDue := false
  windowDt := none

/-! ## Intake -/

/-- STATE of INT_STREAM_STATUS (R339). -/
inductive StrState where
  | off | active | lost | resync | down
deriving DecidableEq, Repr

/-- A slot that a variant has taken and that has not been signalled (R324, R327): its variant, ring slot, and the header
fields known so far. -/
structure SlotTake where
  variant : Nat
  slot : Nat
  session : BitVec 16
  dropped : BitVec 16
  frameno : BitVec 64
  flip : Bool
  dx : BitVec 8
  dy : BitVec 8
  scale : BitVec 16
  gain : BitVec 16
  bias : BitVec 16
  paramMiss : Bool
  /-- set when the slot's data is written and its READY is due: SUBSTITUTE, ABSENT, TS_FALLBACK -/
  ready : Option (Bool × Bool × Bool)
  capture : BitVec 64
  complete : BitVec 64
  srcframe : BitVec 64
deriving DecidableEq, Repr

/-- The sample that a stream is receiving. -/
structure Sample where
  frameno : BitVec 64
  capture : BitVec 64
  complete : Option (BitVec 64)
  tsFallback : Bool
  corrupt : Bool
  /-- DT was stepped while it was received (R317) -/
  stepped : Bool
  /-- it contributes to a frame-set -/
  emit : Bool
  lines : List (List Nat)
  pkts : List (List (BitVec 8))
deriving DecidableEq, Repr

/-- The last good output of a variant (R330): CAPTURE_DT, COMPLETE_DT, SRCFRAME; its bytes lie at LGBASE. -/
structure LastGood where
  variant : Nat
  capture : BitVec 64
  complete : BitVec 64
  srcframe : BitVec 64
  tsFallback : Bool
deriving DecidableEq, Repr

/-- An access unit in decode (R311, R317): its capture DT, whether DT was stepped meanwhile, and whether it could be read. -/
structure DecUnit where
  capture : BitVec 64
  stepped : Bool
  readable : Bool
deriving DecidableEq, Repr

/-- An intake stream (R309 to R339). -/
structure Stream where
  state : StrState
  session : BitVec 16
  stale : BitVec 16
  corrupt : BitVec 16
  subst : BitVec 16
  absent : BitVec 16
  pmiss : BitVec 16
  canaries : BitVec 16
  /-- number of the next canary (R335) -/
  canSeq : BitVec 64
  dropped : BitVec 16
  sample : Option Sample
  takes : List SlotTake
  good : List LastGood
  sinceCanary : Nat
  /-- next access-unit descriptor, and the access units in decode, oldest first (R311) -/
  bsNext : Nat
  decoding : List DecUnit
  /-- Ethernet stream: DT of its last valid datagram, and its retry timer -/
  lastValid : BitVec 64
  retryAt : Option (BitVec 64)
deriving DecidableEq, Repr

def Stream.reset : Stream where
  state := .off
  session := 0
  stale := 0
  corrupt := 0
  subst := 0
  absent := 0
  pmiss := 0
  canaries := 0
  canSeq := 0
  dropped := 0
  sample := none
  takes := []
  good := []
  sinceCanary := 0
  bsNext := 0
  decoding := []
  lastValid := 0
  retryAt := none

/-- A CSI-2 port (R337). -/
structure CsiPort where
  state : StrState
  lastValid : BitVec 64
  retryAt : Option (BitVec 64)
deriving DecidableEq, Repr

/-- An intake ring (R324, R339). -/
structure Ring where
  overrun : BitVec 16
  alarms : BitVec 8
  next : BitVec 6
deriving DecidableEq, Repr

/-- A group of streams (R323): the next frame-set number, the DT at which the open frame-set closes and its members that
have a sample. -/
structure Group where
  nextF : BitVec 64
  closeAt : Option (BitVec 64)
  joined : List (Fin 56)
deriving DecidableEq, Repr

/-- The sensor intake. -/
structure IntSt where
  str : Vector Stream 56
  port : Vector CsiPort 4
  ring : Vector Ring 8
  grp : Vector Group 8
deriving DecidableEq, Repr

def IntSt.reset : IntSt where
  str := Vector.replicate 56 Stream.reset
  port := Vector.replicate 4 { state := .off, lastValid := 0, retryAt := none }
  ring := Vector.replicate 8 { overrun := 0, alarms := 0, next := 0 }
  grp := Vector.replicate 8 { nextF := 0, closeAt := none, joined := [] }

/-! ## Fusion and planner -/

/-- A track (R353); an empty slot has ID 0. -/
structure Track where
  id : BitVec 32
  x : BitVec 32
  y : BitVec 32
  vx : BitVec 32
  vy : BitVec 32
  heading : BitVec 16
  length : BitVec 16
  width : BitVec 16
  exist : BitVec 8
  cls : BitVec 8
  sensors : BitVec 32
  age : BitVec 32
deriving DecidableEq, Repr

/-- An ego-history entry (R345): t_k and X, Y, psi, v, omega as FP64. -/
structure EgoEntry where
  t : BitVec 64
  x : BitVec 64
  y : BitVec 64
  psi : BitVec 64
  v : BitVec 64
  om : BitVec 64
deriving DecidableEq, Repr

/-- An engine's wait on its RELEASE home (R204, R354, R367): its home, its number among all waits, and what has become of it. -/
structure EngWait where
  home : Nat
  tag : Nat
  outcome : WaitOutcome
deriving DecidableEq, Repr

/-- A fusion input (R341 to R343, R359, R360). -/
structure FusIn where
  /-- next buffer of the ring -/
  next : Nat
  /-- CAPTURE_DT of the held value -/
  held : Option (BitVec 64)
  fresh : Bool
  missed : BitVec 8
  incon : BitVec 16
  /-- consecutive cycles with a residual above the limit, per sector -/
  streak : Vector Nat 16
  age : BitVec 32
deriving DecidableEq, Repr

/-- The fusion engine (R340 to R366). -/
structure FusSt where
  /-- position, among the tasks of the engine, of the one it waits for or serves (R271) -/
  task : Nat
  /-- the wait on its RELEASE home, if it has been sent and not granted -/
  wait : Option EngWait
  /-- the DT of the grant of the cycle in progress, if there is one -/
  startDt : Option (BitVec 64)
  egoValid : Bool
  calValid : Bool
  a3 : Bool
  late : BitVec 16
  discard : BitVec 16
  calWcount : BitVec 32
  /-- applied level of each sector -/
  levels : Vector (BitVec 2) 16
  /-- recovery counters of the sectors with the highest computed level they have seen, and that of A3 -/
  recover : Vector (Nat × BitVec 2) 16
  a3Recover : Nat
  inp : Vector FusIn 32
  /-- tracks in service, by slot, rising -/
  tracks : List (Nat × Track)
  nextTrack : BitVec 32
  cycle : BitVec 64
  tprev : BitVec 64
  /-- newest first, at most 2,048 -/
  hist : List EgoEntry
  /-- DT at which the next step ends, and at which the next IMU read is due -/
  egoNext : BitVec 64
  imuNext : BitVec 64
  /-- DT and speed (FP64) of the wheel frames received, newest first, as far as a step may still need them -/
  wheel : List (BitVec 64 × BitVec 64)
  /-- DT and value (FP64) of the yaw-rate samples that no step has taken, oldest first -/
  yaw : List (BitVec 64 × BitVec 64)
  /-- DT of the last IMU sample -/
  imuDt : Option (BitVec 64)
  /-- transforms and intrinsics read at START (R348), by input: 16 and 4 FP32 words -/
  calT : List (Nat × List (BitVec 32))
  calK : List (Nat × List (BitVec 32))
deriving DecidableEq, Repr

def FusSt.reset : FusSt where
  task := 0
  wait := none
  startDt := none
  egoValid := false
  calValid := false
  a3 := false
  late := 0
  discard := 0
  calWcount := 0
  levels := Vector.replicate 16 0
  recover := Vector.replicate 16 (0, 0)
  a3Recover := 0
  inp := Vector.replicate 32
    { next := 0, held := none, fresh := false, missed := 0, incon := 0, streak := Vector.replicate 16 0, age := 0xFFFFFFFF }
  tracks := []
  nextTrack := 1
  cycle := 0
  tprev := 0
  hist := []
  egoNext := 0
  imuNext := 0
  wheel := []
  yaw := []
  imuDt := none
  calT := []
  calK := []

/-- A query in progress (R381, R384): its record, the DT at which it was taken, whether its search has been run as far as
its budget goes, and the nodes popped. -/
structure Query where
  record : List (BitVec 8)
  tq : BitVec 64
  searched : Bool
  popped : Nat
  /-- the refuge was released while it was served (R377) -/
  released : Bool
deriving DecidableEq, Repr

/-- The planner engine (R367 to R389). -/
structure PlnSt where
  /-- position, among the tasks of the engine, of the one it waits for or serves (R271) -/
  task : Nat
  /-- the wait on its RELEASE home, if it has been sent and not granted -/
  wait : Option EngWait
  /-- a signal has been applied to its RELEASE home since tp (R386) -/
  relSince : Bool
  running : Bool
  /-- the DT of a grant whose cycle has not adopted its inputs yet -/
  granted : Option (BitVec 64)
  released : Bool
  a3 : Bool
  decel : BitVec 2
  nofree : Bool
  nolane : Bool
  unchecked : BitVec 7
  refuge : BitVec 16
  paths : BitVec 16
  dropQ : BitVec 16
  dropN : BitVec 16
  age : BitVec 32
  /-- cycles committed since START -/
  seq : BitVec 64
  /-- grants of FUS_OUT since START (R368) -/
  grants : BitVec 64
  tp : BitVec 64
  gridDt : BitVec 64
  /-- the grid held: 16 slices of 65,536 cell values -/
  grid : Option (List (BitVec 8))
  /-- a grid mismatch keeps the planner without a grid (R368) -/
  mismatch : Bool
  /-- the held lane buffer -/
  lane : Option (List (BitVec 8))
  laneNext : Nat
  qNext : Nat
  /-- start state in the grid frame: x, y, heading, speed, as FP64 (R370) -/
  start : BitVec 64 × BitVec 64 × BitVec 64 × BitVec 64
  query : Option Query
  doneSent : Bool
  /-- DT at which the present idle of 250 ns began -/
  idle : Option (BitVec 64)
deriving DecidableEq, Repr

def PlnSt.reset : PlnSt where
  task := 0
  wait := none
  relSince := false
  running := false
  granted := none
  released := false
  a3 := false
  decel := 0
  nofree := false
  nolane := false
  unchecked := 0
  refuge := 0
  paths := 0
  dropQ := 0
  dropN := 0
  age := 0xFFFFFFFF
  seq := 0
  grants := 0
  tp := 0
  gridDt := 0
  grid := none
  mismatch := false
  lane := none
  laneNext := 0
  qNext := 0
  start := (0, 0, 0, 0)
  query := none
  doneSent := false
  idle := none

/-! ## Snapshots -/

/-- A snapshot in progress (R245 to R249): its operation, output area, options and request DT; the logical cores past their
cut points with the tile state and local store (by offset) recorded there; the other agents past theirs, by source ID, with the
engines' state recorded there; the tally states that unmarked operations alone produce, where they differ; the before-image log of
memory lines, by line address; and how many records, and bytes of them, have been written. -/
structure Snap where
  slot : Fin 64
  out : Nat
  outLen : Nat
  hostmem : Bool
  dram : Bool
  eng : Bool
  dt : BitVec 64
  cut : List (Fin 128)
  cutEng : List (BitVec 12)
  tiles : List (Fin 128 × Tile)
  stores : List (Fin 128 × Mem)
  fus : Option FusSt
  pln : Option PlnSt
  shadow : List (Nat × Tally)
  log : List (Nat × List (BitVec 8))
  pos : Nat
  bytes : Nat
deriving DecidableEq, Repr

/-! ## Deputies and the aggregated error state -/

/-- State of a deputy (R396, R397, R415): held in reset, running its ROM or without a READY program, READY, FAULTED. -/
inductive DepState where
  | reset | starting | ready | faulted
deriving DecidableEq, Repr

/-- A deputy (R393 to R407). -/
structure Deputy where
  seq : Seq
  sram : Mem
  /-- words of the SRAM with an error -/
  ecc : List (Nat × EccKind)
  state : DepState
  /-- its reset pin is low; its rail is valid -/
  rstLow : Bool
  railOk : Bool
  /-- step 2 of R396 has been reached -/
  operational : Bool
  /-- an image has been loaded and its program started -/
  loaded : Bool
  /-- the last load of an image failed (category 0x07 is held), and the deputy's time at which it was tried -/
  imgBad : Bool
  imgTry : BitVec 64
  ready : Bool
  dbgEn : Bool
  rel : Bool
  latched : Bool
  /-- a PIN or SAFE record has come since the program last wrote ERRCLR (R401) -/
  pinCause : Bool
  /-- it drives its error pin high -/
  pinHigh : Bool
  /-- DT at which the pin-test pulse ends -/
  pinTest : Option (BitVec 64)
  /-- it pulls SAFE_REQ_N low -/
  safeLow : Bool
  wdtTimeout : BitVec 17
  wdtKey : BitVec 8
  wdtSince : BitVec 64
  wdtRun : Bool
  dfsrc : BitVec 48
  dfCrc : BitVec 32
  dfBusy : Bool
  dfOvr : Bool
  dfCode : BitVec 8
  /-- source, length and destination of the fetch in progress -/
  fetch : Option (Nat × Nat × Nat)
  imgLen : Nat
  wdt : BitVec 32
  canId : BitVec 32
  rates : BitVec 16
  rpt : BitVec 16
  react : BitVec 512
  /-- index of the next record of its own log (R399) -/
  logNext : BitVec 6
  /-- records on their way from the hub, oldest first -/
  inbox : List ErrRec
  /-- the number of the last heartbeat received and the deputy's time at which it came (R403) -/
  hbSeq : BitVec 32
  hbAt : BitVec 64
  hubLost : Bool
  /-- device time as the deputy keeps it: set by each heartbeat, and kept by its own crystal (R403) -/
  ownDt : BitVec 64
  /-- frames transmitted on its own CAN FD port, newest first (R407) -/
  canTx : List CanFrame
  /-- DT at which the next transmission is due while released -/
  nextTx : Option (BitVec 64)
  /-- debug actions that wait for the checker core (R410) -/
  replay : List RunAction
deriving DecidableEq, Repr

/-- A deputy from its reset on (R516, R522, R527), with the reset values of DCTRL, DWDT and DFSTAT. It has started, and pulls
SAFE_REQ_N low, once its rail is valid and its reset pin high. -/
def Deputy.reset (railOk rstLow : Bool) : Deputy where
  seq := Seq.reset .reset 0
  sram := []
  ecc := []
  state := if railOk && !rstLow then .starting else .reset
  rstLow := rstLow
  railOk := railOk
  operational := false
  loaded := false
  imgBad := false
  imgTry := 0
  ready := false
  dbgEn := false
  rel := false
  latched := false
  pinCause := false
  pinHigh := false
  pinTest := none
  safeLow := railOk && !rstLow
  wdtTimeout := 0x2710
  wdtKey := 0x5A
  wdtSince := 0
  wdtRun := false
  dfsrc := 0
  dfCrc := 0
  dfBusy := false
  dfOvr := false
  dfCode := 0
  fetch := none
  imgLen := 0
  wdt := 0
  canId := 0
  rates := 0
  rpt := 0
  react := 0
  logNext := 0
  inbox := []
  hbSeq := 0
  hbAt := 0
  hubLost := false
  ownDt := 0
  canTx := []
  nextTx := none
  replay := []

/-- The error aggregator and the SAF block (R399, R403, R415). -/
structure SafSt where
  /-- records detected and not yet entered in the log -/
  raised : List ErrRec
  log : Vector ErrRec 256
  next : BitVec 8
  entered : BitVec 16
  /-- records per category, where not 0 -/
  cats : List (BitVec 8 × BitVec 32)
  daState : BitVec 2
  dbState : BitVec 2
  erra : Bool
  errb : Bool
  safereq : Bool
  rela : Bool
  relb : Bool
  degraded : Bool
  mpUnprot : Bool
  /-- number of the last heartbeat sent -/
  hbSeq : BitVec 32
  /-- DT of the last heartbeat from each deputy, none before the first -/
  depHb : Vector (Option (BitVec 64)) 2
deriving DecidableEq, Repr

def SafSt.reset : SafSt where
  raised := []
  log := Vector.replicate 256 ErrRec.zero
  next := 0
  entered := 0
  cats := []
  daState := 0
  dbState := 0
  erra := true
  errb := true
  safereq := false
  rela := false
  relb := false
  degraded := false
  mpUnprot := false
  hbSeq := 0
  depHb := Vector.replicate 2 none

/-! ## Check-value units -/

/-- Kind of a scan (R429). -/
inductive ScanKind where
  | canary (n : Fin 56)
  | job (i : Fin 256)
  | host (slot : Fin 64)
deriving DecidableEq, Repr

/-- A scan in progress or yielded (R424, R426): its descriptor, position and register. -/
structure Scan where
  kind : ScanKind
  desc : List (BitVec 8)
  result : Nat
  hostmem : Bool
  pos : Nat
  crc : BitVec 64
deriving DecidableEq, Repr

/-- A check-value unit (R416 to R429). -/
structure Cvu where
  cur : Option Scan
  lastst : BitVec 8
  job : BitVec 9
  mism : BitVec 16
  susp : BitVec 16
  value : BitVec 64
  /-- canaries that wait for the unit, oldest first -/
  canaries : List (Fin 56)
  /-- jobs with a granted start -/
  jobs : List (Fin 256)
  /-- the CHECKSCAN that yielded -/
  yielded : Option Scan
deriving DecidableEq, Repr

def Cvu.reset : Cvu where
  cur := none
  lastst := 0
  job := 0
  mism := 0
  susp := 0
  value := 0
  canaries := []
  jobs := []
  yielded := none

/-! ## Power, clocks, thermal, MP -/

/-- Where a tier change of a die stands (R436): its direction, and for a raise whether the generators have relocked and
the rail has settled. -/
inductive TierChange where
  | raising (relocked settled : Bool)
  | lowering (relocked : Bool)
deriving DecidableEq, Repr

/-- A compute die's clocks and rail (R430 to R448). -/
structure DiePwr where
  tier : BitVec 2
  /-- the tier being changed to, and how far the change has come -/
  change : Option (BitVec 2 × TierChange)
  /-- tiles of the die that have switched in the present change, and the DT of the last switch of tiles (R446) -/
  switched : Nat
  switchDt : Option (BitVec 64)
  /-- target in force, mV, and the last measured voltage and current -/
  target : Nat
  volt : BitVec 10
  current : BitVec 8
  /-- peak allowance, µs (R444) -/
  allowUs : Nat
  /-- µs below peak since the last ms of allowance accrued -/
  accrueUs : Nat
  aging : BitVec 8
  slew : BitVec 8
  /-- an AVSBus write that was not acknowledged (R495) -/
  avsRetry : Bool
  /-- stretched cycles in force (R437), and their count -/
  stretch : Bool
  stretches : Nat
  /-- the clocks run at no more than Fmax of the measured voltage after a voltage fault (R433) -/
  fmax : Bool
deriving DecidableEq, Repr

/-- A unit of thermal management: compute dies 0 to 3, hub 4 (R447, R448). -/
structure Therm where
  step : BitVec 4
  hot : BitVec 8
  unit : BitVec 8
  temp : Int
  /-- the sensors' last readings -/
  readings : List Int
  /-- they were hot enough for 0x32, which has been entered (R449) -/
  tooHot : Bool := false
deriving DecidableEq, Repr

/-- Power, clocks, thermal management and the MP executive, with the PWR registers. -/
structure PwrSt where
  drops : BitVec 8
  denied : BitVec 8
  mpAbsent : Bool
  peakLock : Bool
  maxtier : BitVec 8
  lock : Bool
  /-- burst credit, µs, and sustained time still needed to end the lockout, µs (R441, R442) -/
  creditUs : Nat
  lockoutUs : Nat
  /-- µs of the present peak period -/
  peakUs : Nat
  powerMw : Nat
  /-- the last ten estimates, newest first (R439) -/
  samples : List Nat
  die : Vector DiePwr 4
  tj : BitVec 8
  therm : Vector Therm 5
  coolFault : Bool
  inlet : BitVec 16
  restarts : BitVec 8
  overruns : BitVec 8
  skipped : BitVec 16
  busy : BitVec 16
  /-- DT of the last write of the MP watchdog (R456) -/
  mpKick : BitVec 64
  /-- THERMTRIP_N is asserted (R452) -/
  thermtrip : Bool
  /-- the monitors are on the coarse trims fused at test, and the governor treats MAXTIER as sustained (R481) -/
  coarse : Bool
  /-- islands whose generator stretches cycles (R437) -/
  droop : List Island
  /-- islands with one window out of bounds: high (true) or low (R438) -/
  badWindow : List (Island × Bool)
  /-- PMBus telemetry log length (R453) -/
  telemetry : Nat
  /-- DRAM channels reported to be above their operating range (R288), bit c -/
  dramHot : BitVec 8
  /-- the MP's forecast of the last frame (R450): power of each die in mW, and junction temperature in 1/1000 K -/
  forecastMw : Vector Nat 4
  forecastT : Vector Int 4
deriving DecidableEq, Repr

def PwrSt.reset : PwrSt where
  drops := 0
  denied := 0
  mpAbsent := false
  peakLock := false
  maxtier := 0xAA
  lock := false
  creditUs := 2000000
  lockoutUs := 0
  peakUs := 0
  powerMw := 0
  samples := []
  die := Vector.replicate 4
    { tier := 0, change := none, switched := 0, switchDt := none, target := 720, volt := 0, current := 0, allowUs := 0, accrueUs := 0,
      aging := 0, slew := 5, avsRetry := false, stretch := false, stretches := 0, fmax := false }
  tj := 0x73
  therm := Vector.replicate 5 { step := 0, hot := 0, unit := 0xFF, temp := 0, readings := [] }
  coolFault := false
  inlet := 0
  restarts := 0
  overruns := 0
  skipped := 0
  busy := 0
  mpKick := 0
  thermtrip := false
  coarse := false
  droop := []
  badWindow := []
  telemetry := 0
  dramHot := 0
  forecastMw := Vector.replicate 4 0
  forecastT := Vector.replicate 4 0

/-! ## Calendar time -/

/-- A date and time of the calendar (R505). -/
structure CalTime where
  year : BitVec 8
  month : BitVec 8
  day : BitVec 8
  hour : BitVec 5
  minute : BitVec 6
  second : BitVec 6
  sub : BitVec 15
deriving DecidableEq, Repr

/-- 2000-01-01 00:00:00 (R509). -/
def CalTime.epoch : CalTime := { year := 0, month := 1, day := 1, hour := 0, minute := 0, second := 0, sub := 0 }

/-! ## Wear -/

/-- STATE of DEV_TILE_STATE (R31). -/
inductive TileState where
  | untested | active | spare | retired | migrating
deriving DecidableEq, Repr

/-- The wear ledger's items of a compute die (R474 to R477). S in 2^-40 equivalent hours, C in units of
1/13,107,200 (a half cycle of one 1/64 K), counts of cycles per bin, ms at peak, losses, daily totals, and the rainflow residue of temperature reversals in 1/64 K. -/
structure WearDie where
  s : Nat
  c : Nat
  bins : Vector Nat 4
  peakMs : Nat
  losses : Nat
  lost : Bool
  perm : Bool
  life : BitVec 16
  limit : BitVec 2
  days : List (Nat × Nat)
  residue : List Int
deriving DecidableEq, Repr

/-- The wear of a tile: state, logical core, suspect mark, corrected errors in hourly buckets, candidate, cause. -/
structure WearTile where
  state : TileState
  lc : BitVec 8
  suspect : Bool
  /-- corrected errors in each of the last 24 hours, newest first -/
  ceHours : List Nat
  cand : Bool
  cause : BitVec 8
  /-- calendar time of the retirement (R474) -/
  date : Option CalTime
  /-- corrected and uncorrectable errors so far (R474) -/
  ces : Nat
  ues : Nat
  selfTests : Nat
  /-- a directed self-test is running -/
  testing : Bool
  /-- the state that the ledger goes on recording while the tile of a lost die reads UNTESTED (R27, R470) -/
  kept : Option TileState
deriving DecidableEq, Repr

/-- A migration stop past its first step (R465): the logical core, its source and target tiles, and the operation's slot. -/
structure Moving where
  lc : Fin 128
  src : Fin 136
  dst : Fin 136
  slot : Option (Fin 64)
deriving DecidableEq, Repr

/-- Binding of a logical core (R30). -/
structure MapEnt where
  mapped : Bool
  epoch : BitVec 8
  tile : Fin 136
deriving DecidableEq, Repr

/-- The wear ledger's items of a DRAM channel (R474): bin, step-downs, entries into ERROR, retirement, soft and hard repairs,
unrepairable rows. -/
structure LedChan where
  bin : BitVec 3
  stepdown : BitVec 8
  errors : Nat
  retired : Bool
  soft : List Nat
  hard : List Nat
  unrep : List Nat
deriving DecidableEq, Repr

/-- A copy of the ledger with its sequence number and the validity of its CRC (R474). `lanes`: the failed lanes of each crosscut,
towards its higher end and towards its lower. `sramCand`, `sramSoft`, `sramUnrep`: candidate, repaired and unrepairable rows (R472). -/
structure Ledger where
  seq : Nat
  valid : Bool
  dies : Vector WearDie 4
  tiles : List (Nat × WearTile)
  sramCand : List Nat
  sramSoft : List Nat
  sramUnrep : List Nat
  lanes : Vector (List (Fin 68) × List (Fin 68)) 12
  chans : Vector LedChan 8
  wcount : BitVec 32
  drives : Nat
  mpRestarts : Nat
deriving DecidableEq, Repr

/-- Wear, sparing and repair, with the core map. -/
structure WearSt where
  map : Vector MapEnt 128
  tile : Vector WearTile 136
  die : Vector WearDie 4
  /-- logical cores armed for migration: target tile, or none to be unmapped (R467), with the operation's slot -/
  armed : List (Fin 128 × Option (Fin 136) × Option (Fin 64))
  /-- migration stops in progress (R465) -/
  moving : List Moving
  ceLimit : BitVec 8
  lock : Bool
  calValid : Bool
  calWcount : BitVec 32
  /-- SRAM rows that are repair candidates, soft-repaired and unrepairable, by row address (R472) -/
  sramCand : List Nat
  sramSoft : List Nat
  sramUnrep : List Nat
  /-- corrected errors of SRAM rows in the last 24 h: row and DT (R472) -/
  sramCe : List (Nat × BitVec 64)
  drives : Nat
  mpRestarts : Nat
  /-- the hour of the buckets of `ceHours` (R462), counted from the start of device time -/
  hour : Nat
  /-- the copy in AO SRAM, and the records in flash, newest first -/
  ao : Option Ledger
  flash : List Ledger
deriving DecidableEq, Repr

def WearDie.reset : WearDie where
  s := 0
  c := 0
  bins := Vector.replicate 4 0
  peakMs := 0
  losses := 0
  lost := false
  perm := false
  life := 0xFFFF
  limit := 0
  days := []
  residue := []

def WearTile.reset : WearTile where
  state := .untested
  lc := 0xFF
  suspect := false
  ceHours := []
  cand := false
  cause := 0
  date := none
  ces := 0
  ues := 0
  selfTests := 0
  testing := false
  kept := none

def WearSt.reset : WearSt where
  map := Vector.replicate 128 { mapped := false, epoch := 0, tile := 0 }
  tile := Vector.replicate 136 WearTile.reset
  die := Vector.replicate 4 WearDie.reset
  armed := []
  moving := []
  ceLimit := 0x10
  lock := false
  calValid := false
  calWcount := 0
  sramCand := []
  sramSoft := []
  sramUnrep := []
  sramCe := []
  drives := 0
  mpRestarts := 0
  hour := 0
  ao := none
  flash := []

/-! ## Interfaces, time, debug -/

/-- A CAN FD controller (R493): enabled, acceptance filters (identifier and extended), receive ring (base, entries,
tally, next entry) and transmit ring (base, entries, next entry); frames transmitted, newest first. -/
structure Can where
  enabled : Bool
  filters : List (Nat × Bool)
  rxBase : Nat
  rxSize : Nat
  rxTally : Nat
  rxHead : Nat
  txBase : Nat
  txSize : Nat
  txHead : Nat
  sent : List CanFrame
  drop : BitVec 32
deriving DecidableEq, Repr

/-- State of a gallery link (R501). -/
inductive LinkState where
  | down | up | lost
deriving DecidableEq, Repr

/-- A gallery link and its receiver (R497 to R504). -/
structure Link where
  state : LinkState
  half : Bool
  epoch : BitVec 8
  stale : BitVec 16
  retryAt : Option (BitVec 64)
  partner : Option (BitVec 64)
  locked : Bool
  badHdr : Nat
  badPay : Nat
  rxSeq : BitVec 16
  /-- the last 58 received bits of the descrambler, newest first in bit 0 -/
  descr : BitVec 58
  /-- frames received out of order, by SEQ, awaiting a repeated one -/
  early : List (BitVec 16 × List (BitVec 8))
  /-- SEQ numbers asked for again -/
  asked : List (BitVec 16)
  /-- payload bytes delivered in order and not yet taken as messages -/
  stream : List (BitVec 8)
  /-- messages handed to the transmitter, newest first -/
  sent : List GalMsg
  /-- requests that wait for an answer: tag, request -/
  out : List (BitVec 16 × Req)
  nextTag : BitVec 16
deriving DecidableEq, Repr

def Link.reset : Link where
  state := .down
  half := false
  epoch := 0
  stale := 0
  retryAt := none
  partner := none
  locked := false
  badHdr := 0
  badPay := 0
  rxSeq := 0
  descr := 0
  early := []
  asked := []
  stream := []
  sent := []
  out := []
  nextTag := 0

/-- The external interfaces' own state (R483 to R496). -/
structure IfcSt where
  bar2 : BitVec 16
  ethDrop : Vector (BitVec 32) 4
  can : Vector Can 4
  link : Vector Link 2
  /-- levels of the GPIO pins, and the DT of the last edge of each input -/
  gpio : BitVec 16
  gpioDt : Vector (BitVec 64) 16
  /-- ports with peer delay, and the last measured phase of each (R487) -/
  gptpMask : BitVec 4
  gptpPhase : Vector (Option Int) 4
  gptpStamp : Vector (BitVec 64) 4
  ppsOut : Bool
  /-- the last response to a host access: data and 0, or 1 Unsupported Request, or 2 a poisoned TLP -/
  hostResp : Option (List (BitVec 8) × BitVec 2)
  /-- host accesses without a response -/
  hostOut : Nat
deriving DecidableEq, Repr

def IfcSt.reset : IfcSt where
  bar2 := 0
  ethDrop := Vector.replicate 4 0
  can := Vector.replicate 4
    { enabled := false, filters := [], rxBase := 0, rxSize := 0, rxTally := 0, rxHead := 0, txBase := 0,
      txSize := 0, txHead := 0, sent := [], drop := 0 }
  link := Vector.replicate 2 Link.reset
  gpio := 0
  gpioDt := Vector.replicate 16 0
  gptpMask := 0
  gptpPhase := Vector.replicate 4 none
  gptpStamp := Vector.replicate 4 0
  ppsOut := false
  hostResp := none
  hostOut := 0

/-- The time base and the calendar (R488 to R510). -/
structure TimSt where
  dt : BitVec 64
  ptpOffset : BitVec 64
  src : BitVec 2
  locked : Bool
  steps : BitVec 8
  rate : BitVec 16
  /-- seconds for which the phase error has been below 1 µs -/
  goodSec : Nat
  live : CalTime
  snap : CalTime
  stage : CalTime
  calValid : Bool
  calWrap : Bool
  calErr : Bool
deriving DecidableEq, Repr

def TimSt.reset : TimSt where
  dt := 0
  ptpOffset := 0
  src := 0
  locked := false
  steps := 0
  rate := 0
  goodSec := 0
  live := CalTime.epoch
  snap := CalTime.epoch
  stage := CalTime.epoch
  calValid := false
  calWrap := false
  calErr := false

/-- The debug subsystem (R511 to R513, R539). -/
structure DbgSt where
  probe : Bool
  trace : Bool
  tdrop : BitVec 16
  /-- instruction of the TAP -/
  tap : JtagInstr
  /-- an EXTEST was refused -/
  refused : Bool
  /-- logical cores and homes selected for trace -/
  traceLc : List (Fin 128)
  traceHome : List (Fin 16384)
  /-- DT synchronisation packets emitted, newest first -/
  packets : List (BitVec 64)
  /-- debug actions that wait for the MP's checker core (R410) -/
  replay : List RunAction
deriving DecidableEq, Repr

def DbgSt.reset : DbgSt where
  probe := false
  trace := false
  tdrop := 0
  tap := .idcode
  refused := false
  traceLc := []
  traceHome := []
  packets := []
  replay := []

/-- STAGE of DEV_BOOT (R528). -/
inductive Stage where
  | hub | crosscuts | mp | map | dram | ready | failed
deriving DecidableEq, Repr

/-- Start-up and reset (R514 to R528). -/
structure BootSt where
  stage : Stage
  fullTrain : Bool
  dinit : Bool
  chfail : BitVec 8
  readyMs : BitVec 16
  cSupply : Bool
  cWarm : Bool
  cPin : Bool
  cPower : Bool
  fwMaj : BitVec 8
  fwMin : BitVec 8
  /-- t0 has passed: hub and compute dies run; and the DT from which the stages are timed (R517, R523) -/
  started : Bool
  t0 : BitVec 64
  /-- the last reset of the hub was a cold one -/
  cold : Bool
  /-- the rails that are valid -/
  valid : List Rail
  porstLow : Bool
  wrstLow : Bool
  /-- a hub rail that dropped out holds the device in cold reset (R524) -/
  held : Bool
deriving DecidableEq, Repr

def BootSt.reset : BootSt where
  stage := .hub
  fullTrain := false
  dinit := false
  chfail := 0
  readyMs := 0
  cSupply := false
  cWarm := false
  cPin := false
  cPower := true
  fwMaj := 0
  fwMin := 0
  started := true
  t0 := 0
  cold := true
  valid := [.cd 0, .cd 1, .cd 2, .cd 3, .hub, .sa, .sb, .ao, .vddq, .phy, .io18]
  porstLow := false
  wrstLow := false
  held := false

/-- What a part fixes at test and on its board (R27, R273, R458, R536, R537, R300): spare slots per die, AVS offsets in mV,
serial number, DRAM bytes installed, rating of the DRAM components, and each channel's stored training. -/
structure Fuses where
  spare : Vector (Fin 34 × Fin 34) 4
  avsOff : Vector (BitVec 8) 4
  serial : BitVec 64
  dramBytes : Nat
  maxbin : BitVec 3
deriving DecidableEq, Repr

/-! ## The whole machine -/

/-- The state of the MVZ-4128. -/
structure State where
  tiles : Vector Tile 136
  mp : Seq
  deps : Vector Deputy 2
  /-- local stores (at the physical window), die stores, hub store and DRAM, by device-physical address -/
  mem : Mem
  /-- words and lines of `mem` that hold an error, by address, rising -/
  ecc : List (Nat × EccKind)
  /-- descriptors of the MP's DMA in flight (R110) -/
  mpDma : Vector (Option DmaSlot) 32
  mpSram : Mem
  mpEcc : List (Nat × EccKind)
  /-- bytes that the MP's data cache holds, by address (R130) -/
  mpCache : List MemCell
  flash : Mem
  /-- host memory as the device reaches it over PCIe, by bus address -/
  hostMem : Mem
  tly : TallySt
  fab : FabSt
  cmd : CmdSt
  prog : ProgSt
  snap : Option Snap
  dmc : DmcSt
  int : IntSt
  fus : FusSt
  pln : PlnSt
  saf : SafSt
  cvu : Vector Cvu 4
  pwr : PwrSt
  wear : WearSt
  ifc : IfcSt
  tim : TimSt
  dbg : DbgSt
  boot : BootSt
  fuse : Fuses
  /-- the model's own counter of free values -/
  free : Nat
  /-- commands that wait, first in, first out -/
  pending : List Instr
deriving DecidableEq, Repr

/-- The device right after a power-up cold reset with every supply valid: t0 (R516, R522). -/
def State.reset : State where
  tiles := Vector.replicate 136 Tile.reset
  mp := Seq.reset .reset 0x100
  deps := Vector.replicate 2 (Deputy.reset true false)
  mem := []
  ecc := []
  mpDma := Vector.replicate 32 none
  mpSram := []
  mpEcc := []
  mpCache := []
  flash := []
  hostMem := []
  tly := TallySt.reset
  fab := FabSt.reset
  cmd := CmdSt.reset
  prog := ProgSt.reset
  snap := none
  dmc := DmcSt.reset
  int := IntSt.reset
  fus := FusSt.reset
  pln := PlnSt.reset
  saf := SafSt.reset
  cvu := Vector.replicate 4 Cvu.reset
  pwr := PwrSt.reset
  wear := WearSt.reset
  ifc := IfcSt.reset
  tim := TimSt.reset
  dbg := DbgSt.reset
  boot := BootSt.reset
  fuse := { spare := #v[(32, 33), (32, 33), (32, 33), (32, 33)], avsOff := #v[0, 0, 0, 0], serial := 0,
            dramBytes := 64 * 2 ^ 30, maxbin := 4 }
  free := 0
  pending := []

/-- Where a device-physical address leads (R32, R529): installed DRAM, the physical window of a tile's local store, the
logical window of a logical core, a die store, the hub store, a CSR offset, the partner's memory, or nothing. -/
inductive Target where
  | dram (a : Nat)
  | localPhys (t : Fin 136) (off : Nat)
  | localLog (lc : Fin 128) (off : Nat)
  | dieStore (d : Fin 4) (off : Nat)
  | hubStore (off : Nat)
  | csr (off : Nat)
  | partner (a : Nat)
  | unmapped
deriving DecidableEq, Repr

/-- Why the machine stops with a fault. No command of this block does: each has the effect the spec gives it, and an event
whose condition does not hold does not occur. `outside` is kept for an operand that no command can carry; none raises it
(safe). -/
inductive Fault where
  | outside
deriving DecidableEq, Repr

/-- Why a command is refused. -/
inductive Refusal where
  /-- raised by an arm of `exec` that has no meaning yet, under the command's mnemonic; safe -/
  | notModelled (mnemonic : String)
deriving DecidableEq, Repr

end Sys2Proof.Machine
end

