-- ==== Sys2Proof/Machine/Ops.lean ====
section
/-! DEFINITION. The named operations over stores, registers, errors, traps and tally messages that every family of commands
shares. -/

namespace Sys2Proof.Machine

abbrev Out := Host.Outcome State Fault Refusal

/-! ## Tables in canonical form: keys strictly rising, no entry equal to the default -/

/-- The value at a key; `d` where the table lists none. -/
def tabGet {α : Type} (d : α) : List (Nat × α) → Nat → α
  | [], _ => d
  | (a, b) :: m, x => if x < a then d else if x = a then b else tabGet d m x

/-- Writes a value at a key; writing the default removes the entry. -/
def tabPut {α : Type} [DecidableEq α] (d : α) : List (Nat × α) → Nat → α → List (Nat × α)
  | [], x, v => if v = d then [] else [(x, v)]
  | (a, b) :: m, x, v =>
    if x < a then (if v = d then (a, b) :: m else (x, v) :: (a, b) :: m)
    else if x = a then (if v = d then m else (x, v) :: m)
    else (a, b) :: tabPut d m x v

/-- Every key of the table is above `lo` (`none`: any key), keys rise strictly, and no entry is the default. -/
def tabWfFrom {α : Type} [DecidableEq α] (d : α) : Option Nat → List (Nat × α) → Bool
  | _, [] => true
  | lo, (a, b) :: m => (match lo with | none => true | some l => decide (l < a)) && decide (b ≠ d) && tabWfFrom d (some a) m

/-- The canonical form of a table. -/
def tabWf {α : Type} [DecidableEq α] (d : α) (m : List (Nat × α)) : Bool := tabWfFrom d none m

/-- Memory in canonical form: addresses strictly rising, no byte 0 listed. -/
def Memory.wf (m : Mem) : Bool := tabWf (0 : Byte) m

/-- One byte of a store; a byte nothing has written reads as 0 (R518, R566). -/
def memGet (m : Mem) (a : Nat) : Byte := tabGet 0 m a

def memPut (m : Mem) (a : Nat) (b : Byte) : Mem := tabPut 0 m a b

/-- `n` bytes from address `a`. -/
def memGetN (m : Mem) (a n : Nat) : List Byte := (List.range n).map fun i => memGet m (a + i)

/-- Writes bytes at rising addresses from `a`. -/
def memPutN : Mem → Nat → List Byte → Mem
  | m, _, [] => m
  | m, a, b :: bs => memPutN (memPut m a b) (a + 1) bs

/-- Entries of a table outside `[a, a + n)`. -/
def tabErase {α : Type} (m : List (Nat × α)) (a n : Nat) : List (Nat × α) := m.filter fun c => c.1 < a || a + n ≤ c.1

/-! ## Little-endian numbers (R12) -/

def leNat : List Byte → Nat
  | [] => 0
  | b :: bs => b.toNat + 256 * leNat bs

/-- The low `n` bytes of a number, least significant first. -/
def natLe : Nat → Nat → List Byte
  | 0, _ => []
  | n + 1, v => BitVec.ofNat 8 v :: natLe n (v / 256)

/-- `n` bytes at offset `o` of a byte list as a number; bytes past the end count 0. -/
def leAt (l : List Byte) (o n : Nat) : Nat := leNat ((l.drop o).take n)

/-- Bits `[lo + k - 1 : lo]` of a number. -/
def nbits (v lo k : Nat) : Nat := v / 2 ^ lo % 2 ^ k

/-- Bits `[lo + k - 1 : lo]` of a word. -/
def bits {n : Nat} (w : BitVec n) (lo k : Nat) : BitVec k := w.extractLsb' lo k

/-- A number read as two's complement of `k` bits. -/
def sgn (k v : Nat) : Int := if v % 2 ^ k < 2 ^ (k - 1) then (v % 2 ^ k : Nat) else (v % 2 ^ k : Nat) - (2 ^ k : Nat)

def b2n (b : Bool) : Nat := if b then 1 else 0

/-- Saturating increment of a counter. -/
def satInc {n : Nat} (c : BitVec n) : BitVec n := if c = BitVec.allOnes n then c else c + 1

/-- Saturating sum of a counter and a number. -/
def satAdd {n : Nat} (c : BitVec n) (k : Nat) : BitVec n := BitVec.ofNat n (min (c.toNat + k) (2 ^ n - 1))

/-! ## Vectors -/

def vmod {α : Type} {n : Nat} (v : Vector α n) (i : Fin n) (f : α → α) : Vector α n := v.set i (f v[i])

/-- As `vmod` at a number; no effect out of range. -/
def vmodN {α : Type} {n : Nat} (v : Vector α n) (i : Nat) (f : α → α) : Vector α n :=
  if h : i < n then vmod v ⟨i, h⟩ f else v

def vgetN {α : Type} {n : Nat} (v : Vector α n) (i : Nat) (d : α) : α := if h : i < n then v[i] else d

def finOf (n v : Nat) : Option (Fin n) := if h : v < n then some ⟨v, h⟩ else none

/-! ## Parts of the state -/

/-- DT now (R15). -/
def State.dt (s : State) : BitVec 64 := s.tim.dt

def State.dtN (s : State) : Nat := s.tim.dt.toNat

def State.modTile (s : State) (t : Fin 136) (f : Tile → Tile) : State := { s with tiles := vmod s.tiles t f }

def State.modDep (s : State) (d : Fin 2) (f : Deputy → Deputy) : State := { s with deps := vmod s.deps d f }

/-- Hub and compute dies run: t0 has passed and no reset holds them (R516, R522, R524). -/
def State.hubAlive (s : State) : Bool := s.boot.started && !s.boot.porstLow && !s.boot.wrstLow && !s.boot.held

/-- The MP does not run its frame: not started yet, or restarting (R456, R517). -/
def State.mpGone (s : State) : Bool := s.pwr.mpAbsent || s.mp.run == .reset

/-- An event of the hub or the compute dies: none occurs while they are held in reset. -/
def whenAlive (s : State) (f : State → State) : Out := .next (if s.hubAlive then f s else s)

/-- The sequencer of a processor. -/
def State.seq (s : State) : Proc → Seq
  | .core t => s.tiles[t].seq
  | .mp => s.mp
  | .dep d => s.deps[d].seq

def State.modSeq (s : State) (p : Proc) (f : Seq → Seq) : State :=
  match p with
  | .core t => s.modTile t fun x => { x with seq := f x.seq }
  | .mp => { s with mp := f s.mp }
  | .dep d => s.modDep d fun x => { x with seq := f x.seq }

def State.modTly (s : State) (f : TallySt → TallySt) : State := { s with tly := f s.tly }
def State.modFab (s : State) (f : FabSt → FabSt) : State := { s with fab := f s.fab }
def State.modCmd (s : State) (f : CmdSt → CmdSt) : State := { s with cmd := f s.cmd }
def State.modProg (s : State) (f : ProgSt → ProgSt) : State := { s with prog := f s.prog }
def State.modDmc (s : State) (f : DmcSt → DmcSt) : State := { s with dmc := f s.dmc }
def State.modInt (s : State) (f : IntSt → IntSt) : State := { s with int := f s.int }
def State.modFus (s : State) (f : FusSt → FusSt) : State := { s with fus := f s.fus }
def State.modPln (s : State) (f : PlnSt → PlnSt) : State := { s with pln := f s.pln }
def State.modSaf (s : State) (f : SafSt → SafSt) : State := { s with saf := f s.saf }
def State.modCvu (s : State) (u : Fin 4) (f : Cvu → Cvu) : State := { s with cvu := vmod s.cvu u f }
def State.modPwr (s : State) (f : PwrSt → PwrSt) : State := { s with pwr := f s.pwr }
def State.modWear (s : State) (f : WearSt → WearSt) : State := { s with wear := f s.wear }
def State.modIfc (s : State) (f : IfcSt → IfcSt) : State := { s with ifc := f s.ifc }
def State.modTim (s : State) (f : TimSt → TimSt) : State := { s with tim := f s.tim }
def State.modDbg (s : State) (f : DbgSt → DbgSt) : State := { s with dbg := f s.dbg }
def State.modBoot (s : State) (f : BootSt → BootSt) : State := { s with boot := f s.boot }
def State.modQ (s : State) (q : Fin 16) (f : QPair → QPair) : State := s.modCmd fun c => { c with q := vmod c.q q f }
def State.modCh (s : State) (c : Fin 8) (f : Channel → Channel) : State := s.modDmc fun d => { d with ch := vmod d.ch c f }
def State.modStr (s : State) (n : Fin 56) (f : Stream → Stream) : State := s.modInt fun i => { i with str := vmod i.str n f }
def State.modLink (s : State) (l : Fin 2) (f : Link → Link) : State := s.modIfc fun i => { i with link := vmod i.link l f }

/-- The next `n` free values are used up. -/
def State.useFree (s : State) (n : Nat) : State := { s with free := s.free + n }

/-! ## Cores, tiles and sources (R27 to R31, R91, R253, R254) -/

/-- Compute die of a tile. -/
def tileDie (t : Fin 136) : Fin 4 := ⟨t.val / 34, by omega⟩

/-- Slot of a tile on its die. -/
def tileSlot (t : Fin 136) : Nat := t.val % 34

/-- The logical core bound to a tile (R31). -/
def State.lcOf (s : State) (t : Fin 136) : Option (Fin 128) := finOf 128 (s.wear.tile[t].lc).toNat

/-- The tile bound to a logical core (R30). -/
def State.tileOf (s : State) (lc : Fin 128) : Option (Fin 136) :=
  let m := s.wear.map[lc]
  if m.mapped then some m.tile else none

/-- A compute die is in service: not declared lost (R470). -/
def State.dieOk (s : State) (d : Fin 4) : Bool := !(s.wear.die[d]).lost

/-- Source ID of a processor's own requests (R91, R253); 0xFFF for a tile that no logical core is bound to. -/
def State.srcOf (s : State) : Proc → Src
  | .core t => match s.lcOf t with | some lc => BitVec.ofNat 12 (2 * lc.val) | none => 0xFFF
  | .mp => 0x100
  | .dep d => BitVec.ofNat 12 (0x102 + d.val)

/-- Source ID of a processor's DMA engine. The MP's descriptors carry the MP's own ID. -/
def State.dmaSrcOf (s : State) : Proc → Src
  | .core t => match s.lcOf t with | some lc => BitVec.ofNat 12 (2 * lc.val + 1) | none => 0xFFF
  | p => s.srcOf p

/-- A system source (R253). -/
def isSystem (src : Src) : Bool := 0x100 ≤ src.toNat && src.toNat ≤ 0x108

/-- A partition agent (R253). -/
def isPartAgent (src : Src) : Bool :=
  let n := src.toNat
  n < 0x100 || (0x110 ≤ n && n ≤ 0x113) || n == 0x120 || n == 0x121 || (0x124 ≤ n && n ≤ 0x127)

/-- A request arriving from the partner (R253). -/
def isPartnerSrc (src : Src) : Bool := src.toNat == 0x138 || src.toNat == 0x139

/-- The AGENT code (R236) of a source: its logical core, or the engine. -/
def agentOf (src : Src) : Option Nat :=
  let n := src.toNat
  if n < 0x100 then some (n / 2)
  else if n == 0x110 || n == 0x112 || n == 0x113 then some 0x100
  else if n == 0x111 then some 0x101
  else if n == 0x120 then some 0x102
  else if n == 0x121 then some 0x103
  else if 0x124 ≤ n && n ≤ 0x127 then some (0x104 + (n - 0x124))
  else none

/-- The tasks of an agent in the loaded image. -/
def State.tasksOf (s : State) (a : Nat) : List Task := s.prog.img.tasks.filter fun t => t.agent == a

/-- The partition of an agent's tasks (R254); P0 for an agent without tasks. -/
def State.partOfAgent (s : State) (a : Nat) : BitVec 4 :=
  match s.tasksOf a with | t :: _ => t.part | [] => 0

/-- The task at a position among those of an agent, which it serves in their order (R271). -/
def State.taskAt (s : State) (a k : Nat) : Option Task := let ts := s.tasksOf a; ts[k % ts.length]?

/-- The task that the fusion engine or the planner waits for or serves. -/
def State.fusTask (s : State) : Option Task := s.taskAt 0x102 s.fus.task
def State.plnTask (s : State) : Option Task := s.taskAt 0x103 s.pln.task

/-- PART of a source's requests (R254, R268): an engine has that of the task it serves. -/
def State.partOf (s : State) (src : Src) : BitVec 4 :=
  if src == 0x130 then s.fab.hostPart
  else if src == 0x120 then (match s.fusTask with | some t => t.part | none => 0)
  else if src == 0x121 then (match s.plnTask with | some t => t.part | none => 0)
  else match agentOf src with | some a => s.partOfAgent a | none => 0

/-- An engine may start work of a partition now (R271): always in Mode I; in Mode P in the partition's slots of the frame of 1,000 µs,
by share `k` of its entry. That frames begin at multiples of 1,000 µs of DT is DEDUCED (log 119). -/
def State.inShare (s : State) (k : Fin 5) (p : BitVec 4) : Bool :=
  let slot := s.dtN % 1000000 * 256 / 1000000
  let from_ := ((s.prog.img.parts.filter fun e => e.num.toNat < p.toNat).map fun e => e.shares[k]).foldl (· + ·) 0
  !s.fab.modeP || s.prog.img.parts.any fun e => e.num == p && from_ ≤ slot && slot < from_ + e.shares[k]

/-! ## The address map (R32 to R36) -/

/-- Physical-window address of a tile's local store. -/
def localBase (t : Fin 136) : Nat := 0x1000000000 + (t.val / 34) * 0x100000000 + (t.val % 34) * 0x1000000

def dieBase (d : Fin 4) : Nat := 0x1800000000 + d.val * 0x4000000

def hubBase : Nat := 0x1C00000000

def csrBase : Nat := 0x1F00000000

/-- Bytes of a local store. -/
def localSize : Nat := 0xC0000

/-- Bytes of the local space of the MP and of a deputy (R110). -/
def sramSize : Nat := 0x200000

/-- Where an address leads under R32. -/
def decodeAddr (s : State) (a : Nat) : Target :=
  if a < 0x1000000000 then (if a < s.fuse.dramBytes then .dram a else .unmapped)
  else if a < 0x1400000000 then
    let d := (a - 0x1000000000) / 0x100000000
    let r := (a - 0x1000000000) % 0x100000000
    let sl := r / 0x1000000
    if sl < 34 && r % 0x1000000 < localSize then
      (match finOf 136 (34 * d + sl) with | some t => .localPhys t (r % 0x1000000) | none => .unmapped)
    else .unmapped
  else if a < 0x1400000000 + 128 * 0x1000000 then
    let r := a - 0x1400000000
    if r % 0x1000000 < localSize then
      (match finOf 128 (r / 0x1000000) with | some lc => .localLog lc (r % 0x1000000) | none => .unmapped)
    else .unmapped
  else if 0x1800000000 ≤ a && a < 0x1800000000 + 4 * 0x4000000 then
    let r := a - 0x1800000000
    if r % 0x4000000 < 0x1000000 then
      (match finOf 4 (r / 0x4000000) with | some d => .dieStore d (r % 0x4000000) | none => .unmapped)
    else .unmapped
  else if hubBase ≤ a && a < hubBase + 0x2000000 then .hubStore (a - hubBase)
  else if csrBase ≤ a && a < csrBase + 0x3000000 then .csr (a - csrBase)
  else if 0x10000000000 ≤ a && a < 0x20000000000 then .partner (a - 0x10000000000)
  else .unmapped

/-- A gallery link is in service (R501). -/
def State.linkUp (s : State) : Bool := s.ifc.link[0].state == .up || s.ifc.link[1].state == .up

/-- What the requester's own port decides before a request enters the fabric (R35, R562): the store address of a memory
target, or an error. The last byte must lie in the same target as the first. -/
def portCheck (s : State) (a n : Nat) : Except AccessErr Target :=
  let inside (off size : Nat) : Bool := off + n ≤ size
  match decodeAddr s a with
  | .dram x => if inside x s.fuse.dramBytes then .ok (.dram x) else .error .decode
  | .localPhys t off =>
    if inside off localSize && s.dieOk (tileDie t) then .ok (.localPhys t off) else .error .decode
  | .localLog lc off =>
    match s.tileOf lc with
    | some t => if inside off localSize && s.dieOk (tileDie t) then .ok (.localLog lc off) else .error .decode
    | none => .error .decode
  | .dieStore d off => if inside off 0x1000000 && s.dieOk d then .ok (.dieStore d off) else .error .decode
  | .hubStore off => if inside off 0x2000000 then .ok (.hubStore off) else .error .decode
  | .csr off => if n == 4 && off % 4 == 0 then .ok (.csr off) else .error .decode
  | .partner x => if s.linkUp then .ok (.partner x) else .error .link
  | .unmapped => .error .decode

/-- The address in `mem` of a memory target; a logical window is translated through the core map (R7, R28). -/
def storeAddr (s : State) : Target → Option Nat
  | .dram a => some a
  | .localPhys t off => some (localBase t + off)
  | .localLog lc off => (s.tileOf lc).map fun t => localBase t + off
  | .dieStore d off => some (dieBase d + off)
  | .hubStore off => some (hubBase + off)
  | _ => none

/-! ## Deputies: their copy of the error state, reactions, pins and release (R399 to R406) -/

/-- The 16 bytes of an error record (R399). -/
def ErrRec.bytes (r : ErrRec) : List Byte :=
  natLe 6 r.dt.toNat ++ [r.cat, r.origin] ++ natLe 2 (r.src.toNat + 4096 * r.part.toNat) ++ natLe 6 r.info.toNat

/-- A category that R402 lists. -/
def catKnown (c : Nat) : Bool :=
  (1 ≤ c && c ≤ 0x0B) || (0x10 ≤ c && c ≤ 0x15) || (0x20 ≤ c && c ≤ 0x24) || (0x30 ≤ c && c ≤ 0x34) ||
  (0x40 ≤ c && c ≤ 0x44) || (0x50 ≤ c && c ≤ 0x53) || (0x60 ≤ c && c ≤ 0x62) || (0x70 ≤ c && c ≤ 0x7F) || c == 0xFE

/-- The categories whose reaction in the deputy that detects them is R397's own (R400, R402). -/
def catOwn (c : Nat) : Bool := c == 0x02 || (0x04 ≤ c && c ≤ 0x07)

/-- The minimum reaction of a category (R402): 0 LOG, 1 PIN, 2 SAFE. -/
def catMin (c : Nat) : Nat :=
  if c == 0x09 || c == 0x33 || c == 0x43 then 2
  else if c == 0x03 || c == 0x0A || c == 0x0B || (0x30 ≤ c && c ≤ 0x32) || c == 0x44 || (0x70 ≤ c && c ≤ 0x74) then 1
  else 0

/-- A latched cause (R402). -/
def catLatched (c : Nat) : Bool := (0x02 ≤ c && c ≤ 0x06) || (0x09 ≤ c && c ≤ 0x0B) || c == 0x33

/-- The reaction that a deputy's table gives to a category (R396, R400). -/
def reactionOf (react : BitVec 512) (c : Nat) : Nat :=
  if !catKnown c then 1
  else
    let v := nbits react.toNat (2 * c) 2
    max (if v = 3 then 1 else v) (catMin c)

/-- A deputy's state, pin and release as the SAF block shows them (R415). -/
def State.syncSaf (s : State) (d : Fin 2) : State :=
  let x := s.deps[d]
  let st : BitVec 2 := match x.state with | .reset => 0 | .starting => 1 | .ready => 2 | .faulted => 3
  let low := !(x.pinHigh && x.pinTest.isNone)
  s.modSaf fun f =>
    let f := if d = 0 then { f with daState := st, erra := low, rela := x.rel } else { f with dbState := st, errb := low, relb := x.rel }
    { f with safereq := s.deps[(0 : Fin 2)].safeLow || s.deps[(1 : Fin 2)].safeLow,
             degraded := (f.daState == 2) != (f.dbState == 2) }

/-- A deputy's release comes into force or ends (R405, R406). With the hub alive, its REL bit and the planner's RELEASED
follow. -/
def State.setRel (s : State) (d : Fin 2) (b : Bool) : State :=
  if s.deps[d].rel = b then s
  else
    let s := s.modDep d fun x => { x with rel := b, safeLow := b, nextTx := if b then some x.ownDt else none }
    if s.deps[d].hubLost then s
    else
      let s := s.syncSaf d
      let r := s.saf.rela || s.saf.relb
      s.modPln fun p => { p with released := r, query := p.query.map fun q => { q with released := q.released || r } }

/-- A deputy drives its error pin low for a PIN or SAFE cause (R400, R401). -/
def State.pinLow (s : State) (d : Fin 2) : State :=
  s.modDep d fun x => { x with pinHigh := false, pinCause := true }

/-- A record enters a deputy's copy of the error state (R399): its log ring and its count. -/
def State.depEnter (s : State) (d : Fin 2) (r : ErrRec) : State :=
  s.modDep d fun x =>
    let m := memPutN x.sram (0x1FFC00 + 16 * x.logNext.toNat) r.bytes
    let ca := 0x1FF800 + 4 * r.cat.toNat
    let n := leNat (memGetN m ca 4)
    { x with sram := memPutN m ca (natLe 4 (min (n + 1) 0xFFFFFFFF)), logNext := x.logNext + 1 }

/-- A deputy's reaction to a record (R400, R401). -/
def State.depReact (s : State) (d : Fin 2) (r : ErrRec) : State :=
  let x := s.deps[d]
  let c := r.cat.toNat
  if !x.operational || x.state = .faulted || x.state = .reset then s
  else if catOwn c && r.origin.toNat = d.val + 1 then s
  else
    let v := reactionOf x.react c
    if v = 0 then s
    else
      let s := s.pinLow d
      let s := s.modDep d fun x => { x with latched := x.latched || catLatched c }
      if v = 2 then s.setRel d true else s

/-! ## Errors (R3, R399, R564) -/

/-- An error detected on the hub or the compute dies goes to the aggregator. -/
def State.raise (s : State) (cat : BitVec 8) (src : Src) (part : BitVec 4) (info : Nat) : State :=
  s.modSaf fun f => { f with raised := f.raised ++
    [{ dt := bits s.dt 0 48, cat := cat, origin := 0, src := src, part := part, info := BitVec.ofNat 48 info }] }

/-- An error that a deputy raises: applied in that deputy at once and sent to the hub; category 0x09 stays in the deputy
(R399). -/
def State.raiseDep (s : State) (d : Fin 2) (cat : BitVec 8) (info : Nat) : State :=
  let x := s.deps[d]
  let r : ErrRec := { dt := bits x.ownDt 0 48, cat := cat,
                      origin := BitVec.ofNat 8 (d.val + 1), src := BitVec.ofNat 12 (0x102 + d.val), part := 0,
                      info := BitVec.ofNat 48 info }
  let s := (s.depEnter d r).depReact d r
  if cat == 0x09 || x.hubLost then s
  else (s.modSaf fun f => { f with raised := f.raised ++ [r] }).syncSaf d

/-- A decode error is entered with the source ID and the address (R35). -/
def State.raiseDecode (s : State) (src : Src) (part : BitVec 4) (a : Nat) : State := s.raise 0x21 src part a

/-- A decode error of a processor's own local space (R35, R127, R562) is entered as well: by its source, or, of a deputy's space,
by the deputy's own hardware (R399). DEDUCED (log 14). -/
def State.localDecode (s : State) (p : Proc) (a : BitVec 64) : State :=
  match p with
  | .dep d => s.raiseDep d 0x21 (a.toNat % 2 ^ 48)
  | p => s.raiseDecode (s.srcOf p) (s.partOf (s.srcOf p)) (a.toNat % 2 ^ 48)

/-- A firewall violation (R272): the FAB violation registers keep the first one since VALID was last cleared. -/
def State.raiseViolation (s : State) (src : Src) (part : BitVec 4) (a : Nat) (write : Bool) : State :=
  let s := s.raise 0x20 src part a
  s.modFab fun f =>
    let f := { f with violCount := satInc f.violCount }
    if f.violValid then f
    else { f with violValid := true, violWrite := write, violPart := part, violSrc := src, violAddr := BitVec.ofNat 48 a }

/-- Trap cause of an access error (R123). -/
def AccessErr.cause : AccessErr → BitVec 8
  | .decode => 0x07 | .firewall => 0x08 | .link => 0x09 | .data => 0x0A | .dataLost => 0x0A

/-- Completion code of an access error (R134). -/
def AccessErr.code : AccessErr → BitVec 8
  | .decode => 0x01 | .firewall => 0x02 | .data => 0x03 | .link => 0x04 | .dataLost => 0x06

/-! ## Tally messages (R196, R199, R561) -/

/-- The island that holds a home (R196): 0 to 3 the compute dies, 4 the hub. -/
def islandOf (home : Nat) : Fin 5 := if h : home < 12288 then ⟨home / 3072, by omega⟩ else 4

/-- An operation reaches the queue of its home's island. -/
def State.sendTally (s : State) (home : Nat) (op : TallyOp) : State :=
  s.modTly fun t => { t with queue := vmod t.queue (islandOf home) (· ++ [op]) }

/-- An agent's requests carry the cut mark of a snapshot (R246). -/
def State.marked (s : State) (src : Src) : Bool :=
  match s.snap with
  | none => false
  | some n =>
    if src.toNat < 0x100 then (match finOf 128 (src.toNat / 2) with | some lc => n.cut.contains lc | none => true)
    else n.cutEng.contains src

/-- The cells of a table in `[a, a + n)`, by their offset from `a`. -/
def cellsAt {α : Type} (m : List (Nat × α)) (a n : Nat) : List (Nat × α) :=
  (m.filter fun c => a ≤ c.1 && c.1 < a + n).map fun c => (c.1 - a, c.2)

/-- A logical core passes its cut point (R246, R247): its registers, accumulators and local store are recorded as they are. -/
def State.cutLc (s : State) (lc : Fin 128) : State :=
  match s.snap with
  | none => s
  | some k =>
    if k.cut.contains lc then s
    else
      let k := { k with cut := k.cut ++ [lc] }
      match s.tileOf lc with
      | some t => { s with snap := some { k with tiles := k.tiles ++ [(lc, s.tiles[t])],
                                                 stores := k.stores ++ [(lc, cellsAt s.mem (localBase t) localSize)] } }
      | none => { s with snap := some k }

/-- The core of a tile passes its cut point. -/
def State.cutCore (s : State) (t : Fin 136) : State := match s.lcOf t with | some lc => s.cutLc lc | none => s

/-- The sources of the agent that a source belongs to: the intake has three. -/
def agentSrcs (src : Src) : List Src := if src == 0x110 || src == 0x112 || src == 0x113 then [0x110, 0x112, 0x113] else [src]

/-- An agent other than a core passes its cut point: the state of the fusion engine or the planner is recorded as it is. -/
def State.cutSrc (s : State) (src : Src) : State :=
  match s.snap with
  | none => s
  | some k =>
    if src.toNat < 0x100 || k.cutEng.contains src then s
    else { s with snap := some { k with cutEng := k.cutEng ++ agentSrcs src, fus := if src == 0x120 then some s.fus else k.fus,
                                        pln := if src == 0x121 then some s.pln else k.pln } }

/-- A processor passes its cut point. -/
def State.cutProc (s : State) (p : Proc) : State := match p with | .core t => s.cutCore t | _ => s.cutSrc (s.srcOf p)

/-- A signal of `n` from a source to a home: a cut point of an engine (R246). -/
def State.sendSignal (s : State) (src : Src) (home n : Nat) : State :=
  let s := s.cutSrc src
  s.sendTally home (.sig home src (s.partOf src) (BitVec.ofNat 8 n) (s.marked src) none)

/-- The processor's outstanding wait, if the home has not settled it, is withdrawn (R561). -/
def State.withdrawWait (s : State) (p : Proc) : State :=
  match (s.seq p).wait with
  | some w =>
    if w.outcome = .pending && !w.withdrawn then
      (s.modSeq p fun q => { q with wait := some { w with withdrawn := true } }).sendTally w.home
        (.withdraw w.home (s.srcOf p) w.tag)
    else s
  | none => s

/-- A tile that is reset or faulted no longer waits to be released from clock gating. -/
def State.noWake (s : State) (t : Fin 136) : State :=
  s.modTly fun y => { y with wake := vmod y.wake (tileDie t) (·.filter (· ≠ t)) }

/-- An engine of the hub sends its wait to a home (R204). -/
def State.sendWait (s : State) (src : Src) (home n : Nat) : State × EngWait :=
  let s := s.cutSrc src
  let tag := s.tly.nextWait
  ((s.modTly fun y => { y with nextWait := tag + 1 }).sendTally home
    (.wait home src (s.partOf src) tag (BitVec.ofNat 8 n) none false (s.marked src)), { home := home, tag := tag, outcome := .pending })

/-- The fusion engine waits on the RELEASE home of its task (R354). -/
def State.fusWait (s : State) : State :=
  match s.fusTask with
  | none => s
  | some t => let (s, w) := s.sendWait 0x120 t.release t.releaseN; s.modFus fun f => { f with wait := some w }

/-- The planner waits on the RELEASE home of its task (R367, R386). -/
def State.plnWait (s : State) : State :=
  match s.plnTask with
  | none => s
  | some t => let (s, w) := s.sendWait 0x121 t.release t.releaseN; s.modPln fun p => { p with running := false, idle := none, wait := some w }

/-- An engine's wait that its home has not settled is withdrawn. -/
def State.withdrawEng (s : State) (src : Src) (w : Option EngWait) : State :=
  match w with
  | some w => if w.outcome = .pending then s.sendTally w.home (.withdraw w.home src w.tag) else s
  | none => s

/-! ## Faults and traps (R95, R110, R119 to R125) -/

/-- The capacity epoch increments, and a RUNNING program is readmitted (R241, R243). -/
def State.newEpoch (s : State) : State :=
  s.modProg fun p => { p with epoch := p.epoch + 1, state := if p.state = .running then .readmitting else p.state }

/-- A loss of capacity (R241, R564): kind 1 core unmapped, 2 die lost, 3 channel retired, 4 stepped down, 5 half width. -/
def State.capLoss (s : State) (kind index : Nat) : State := (s.raise 0x42 0 0 (256 * kind + index)).newEpoch

/-- The binding of a logical core changes (R30, R212). Unmapped, its entry keeps DIE and SLOT of the last tile bound: the spec does
not say what they read then. DESIGN CHOICE (log 108). -/
def State.bind (s : State) (lc : Fin 128) (t : Option (Fin 136)) : State :=
  let s := if t.isNone then s.cutLc lc else s
  let m := s.wear.map[lc]
  let m' : MapEnt := match t with
    | some t => { mapped := true, epoch := m.epoch + 1, tile := t }
    | none => { m with mapped := false, epoch := m.epoch + 1 }
  (s.modWear fun w => { w with map := w.map.set lc m' }).modTly fun y => { y with late := y.late.set lc [] }

/-- A tile takes a state of R31 in which no logical core is bound to it. -/
def State.parkTile (s : State) (t : Fin 136) (st : TileState) : State :=
  s.modWear fun w => { w with tile := vmod w.tile t fun x =>
    { x with state := st, lc := 0xFF, date := if st = .retired && x.state ≠ .retired then some s.tim.live else x.date } }

/-- A faulted tile becomes RETIRED and its logical core unmapped (R468). -/
def State.retireFaulted (s : State) (t : Fin 136) : State :=
  match s.lcOf t with
  | some lc => ((s.bind lc none).parkTile t .retired).capLoss 1 t.val
  | none => s.parkTile t .retired

/-- A core fault (R95): the core stops at the instruction, FAULTED, the cause is recorded and reported, an outstanding wait
is withdrawn, and the tile is retired (R468). -/
def State.coreFault (s : State) (t : Fin 136) (cause : BitVec 8) : State :=
  let src : Src := match s.lcOf t with | some lc => BitVec.ofNat 12 (2 * lc.val) | none => 0
  let part := match s.lcOf t with | some lc => s.partOfAgent lc.val | none => 0
  let s := ((s.cutCore t).withdrawWait (.core t)).noWake t
  let s := s.modTile t fun x =>
    { x with fault := cause, seq := { x.seq with run := .faulted, pend := none, deferred := none, wait := none } }
  let s := s.modWear fun w => { w with tile := vmod w.tile t fun x => { x with cand := true, cause := cause } }
  (s.raise 0x11 src part (cause.toNat * 256 + t.val)).retireFaulted t

/-- A deputy enters FAULTED (R397): its pair halts and its error pin goes low; SAFE_REQ_N stays as it is. -/
def State.depFault (s : State) (d : Fin 2) (cat : BitVec 8) : State :=
  let s := s.modDep d fun x =>
    { x with state := .faulted, pinHigh := false, pinTest := none, latched := true, nextTx := none, wdtRun := false,
             seq := { x.seq with run := .faulted, pend := none, deferred := none } }
  s.raiseDep d cat 0

/-- An uncorrectable error in the MP's private SRAM (R456): entered, and the MP stops until its restart. -/
def State.mpSramBad (s : State) (w : Nat) : State := (s.modSeq .mp fun q => { q with run := .faulted }).raise 0x15 0x100 0 w

/-- A double fault (R110, R122). An MP fault is reported to the deputies; the MP's watchdog restarts it (R456). -/
def State.doubleFault (s : State) : Proc → State
  | .core t => s.coreFault t 0x01
  | .mp => (s.modSeq .mp fun q => { q with run := .faulted, pend := none, deferred := none }).raise 0x34 0x100 0 0
  | .dep d => s.depFault d 0x05

/-- The place in program order of an instruction that issues now: after every request sent so far (R124). -/
def State.nowOrd (s : State) : Nat := 2 * s.fab.nextId

/-- The place in program order of the instruction that sent a request: requests are numbered as they are sent. -/
def Req.ord (r : Req) : Nat := 2 * r.id + 1

/-- A precise trap condition of the instruction at PC (R119, R122). `epc` is the EPC it will take. -/
def State.trapAt (s : State) (p : Proc) (cause : BitVec 8) (eaddr epc : BitVec 64) : State :=
  if (s.seq p).inTrap then s.doubleFault p
  else s.modSeq p fun q => { q with pend := some { cause := cause, deferred := false, eaddr := eaddr, epc := epc, ord := s.nowOrd } }

def State.trap (s : State) (p : Proc) (cause : BitVec 8) (eaddr : BitVec 64) : State :=
  s.trapAt p cause eaddr (s.seq p).pc

/-- An execution-time error of a queued instruction (R124): a deferred trap, before the next issue. EPC is the address of
the next instruction. -/
def State.deferTrap (s : State) (p : Proc) (cause : BitVec 8) (eaddr : BitVec 64) : State :=
  s.modSeq p fun q =>
    { q with pc := q.pc + 8, deferred := some { cause := cause, deferred := true, eaddr := eaddr, epc := q.pc + 8, ord := s.nowOrd } }

/-- The sequencer continues at the next instruction. -/
def State.advance (s : State) (p : Proc) : State := s.modSeq p fun q => { q with pc := q.pc + 8 }

/-! ## Storage errors (R81 to R84) -/

/-- The error, if any, that the word or line at an address holds. -/
def eccAt (e : List (Nat × EccKind)) (a : Nat) : Option EccKind := (e.find? fun c => c.1 == a).map (·.2)

/-- Replaces the error of a word or line. -/
def eccSet : List (Nat × EccKind) → Nat → Option EccKind → List (Nat × EccKind)
  | [], _, none => []
  | [], a, some k => [(a, k)]
  | (b, j) :: l, a, o =>
    if b < a then (b, j) :: eccSet l a o
    else
      let rest := if b = a then l else (b, j) :: l
      match o with | none => rest | some k => (a, k) :: rest

/-- The errors that have struck a store, at granules of `g` bytes of it. A second single error makes a granule's error
uncorrectable. -/
def eccStrike (e : List (Nat × EccKind)) (base g : Nat) (ups : List Upset) : List (Nat × EccKind) :=
  ups.foldl (fun e u =>
    let a := (base + u.addr) / g * g
    match eccAt e a with
    | some .poison => e
    | some _ => eccSet e a (some .hard)
    | none => eccSet e a (some (if u.hard then .hard else .single))) e

/-- The granules of `g` bytes that `[a, a + n)` touches. -/
def granules (g a n : Nat) : List Nat := if n = 0 then [] else (List.range ((a + n - 1) / g - a / g + 1)).map fun i => (a / g + i) * g

def addCand (l : List Nat) (r : Nat) : List Nat := if l.contains r then l else l ++ [r]

/-- The entries of the last 24 h, with one more now (R304, R472). -/
def lastDay (l : List (Nat × BitVec 64)) (row : Nat) (dt : BitVec 64) : List (Nat × BitVec 64) :=
  (l.filter fun x => (dt - x.2).toNat < 86400000000000) ++ [(row, dt)]

/-- A corrected error of an SRAM row: the eighth within 24 h makes it a repair candidate (R472). -/
def WearSt.rowCe (v : WearSt) (dt : BitVec 64) (row : Nat) : WearSt :=
  let l := lastDay v.sramCe row dt
  { v with sramCe := l, sramCand := if 8 ≤ (l.filter fun x => x.1 == row).length then addCand v.sramCand row else v.sramCand }

/-- An uncorrectable error of an SRAM row (R472). -/
def WearSt.rowUe (v : WearSt) (row : Nat) : WearSt := { v with sramCand := addCand v.sramCand row }

/-- A tile becomes a retirement candidate when its corrected errors of the last 24 h exceed the limit (R462). -/
def WearSt.tileCe (v : WearSt) (t : Fin 136) : WearSt :=
  { v with tile := vmod v.tile t fun x =>
      let h := match x.ceHours with | [] => [1] | h :: r => (h + 1) :: r
      { x with ceHours := h, ces := x.ces + 1, cand := x.cand || decide (v.ceLimit.toNat < h.foldl (· + ·) 0) } }

/-- A corrected word of a local store (R81, R102, R103): counted, recorded, written back, and counted for the tile's wear. -/
def lsCorrected (s : State) (t : Fin 136) (w : Nat) : State :=
  let off := w - localBase t
  let s := { s with ecc := eccSet s.ecc w none }
  let s := s.modTile t fun x =>
    let x := { x with ceCount := satInc x.ceCount }
    if !x.eccUe || !x.eccValid then { x with eccValid := true, eccUe := false, eccAddr := BitVec.ofNat 17 (off / 8) } else x
  s.modWear fun v => (v.tileCe t).rowCe s.dt (w / 32 * 32)

/-- An uncorrectable word of a local store met by a requester (R81): counted, recorded, entered with address and source. -/
def lsUncorrectable (s : State) (t : Fin 136) (w : Nat) (src : Src) : State :=
  let off := w - localBase t
  let s := s.modTile t fun x =>
    { x with ueCount := satInc x.ueCount, eccValid := true, eccUe := true, eccAddr := BitVec.ofNat 17 (off / 8) }
  let s := s.modWear fun v => { v.rowUe (w / 32 * 32) with tile := vmod v.tile t fun x => { x with ues := x.ues + 1 } }
  s.raise 0x10 src (s.partOf src) w

/-- The words a read meets are checked one by one: `none` when they are all good, else the first uncorrectable word. -/
def lsCheck (s : State) (t : Fin 136) (src : Src) : List Nat → State × Option Nat
  | [] => (s, none)
  | w :: ws =>
    match eccAt s.ecc w with
    | none => lsCheck s t src ws
    | some .single => lsCheck (lsCorrected s t w) t src ws
    | some _ => (lsUncorrectable s t w src, some w)

/-- A read of `n` bytes of a local store by a source (R81). `.error w`: the word at `w` is uncorrectable. -/
def readLocal (s : State) (t : Fin 136) (off n : Nat) (src : Src) : State × Except Nat (List Byte) :=
  match lsCheck s t src (granules 8 (localBase t + off) n) with
  | (s, none) => (s, .ok (memGetN s.mem (localBase t + off) n))
  | (s, some w) => (s, .error w)

/-- The words of `[a, a + n)` that a write covers only in part (R82). -/
def partialWords (a n : Nat) : List Nat := (granules 8 a n).filter fun w => !(a ≤ w && w + 8 ≤ a + n)

/-- A write of bytes into a local store (R82): a word written in part is read first, and an uncorrectable one is not
written; a word written whole loses its error. -/
def writeLocal (s : State) (t : Fin 136) (off : Nat) (bs : List Byte) (src : Src) : State × Option Nat :=
  let a := localBase t + off
  match lsCheck s t src (partialWords a bs.length) with
  | (s, none) => ({ s with mem := memPutN s.mem a bs, ecc := s.ecc.filter fun c => !(a / 8 * 8 ≤ c.1 && c.1 < a + bs.length) }, none)
  | (s, some w) => (s, some w)

/-! ## Local space of a processor (R110, R127) -/

def localSpace : Proc → Nat
  | .core _ => localSize
  | _ => sramSize

/-- A read of a processor's local space by one of its sources. -/
def readSpaceAs (s : State) (p : Proc) (src : Src) (a n : Nat) : State × Except Nat (List Byte) :=
  match p with
  | .core t =>
    match readLocal s t a n src with
    | (s, .ok d) => (s, .ok d)
    | (s, .error w) => (s, .error (w - localBase t))
  | .mp =>
    match (granules 8 a n).find? fun w => eccAt s.mpEcc w == some .hard || eccAt s.mpEcc w == some .poison with
    | some w => (s.mpSramBad w, .error w)
    | none => ({ s with mpEcc := (granules 8 a n).foldl (fun e w => eccSet e w none) s.mpEcc }, .ok (memGetN s.mpSram a n))
  | .dep d =>
    match (granules 8 a n).find? fun w => eccAt s.deps[d].ecc w == some .hard || eccAt s.deps[d].ecc w == some .poison with
    | some w => (s.depFault d 0x06, .error w)
    | none =>
      (s.modDep d fun x => { x with ecc := (granules 8 a n).foldl (fun e w => eccSet e w none) x.ecc },
       .ok (memGetN s.deps[d].sram a n))

/-- A read by its sequencer. -/
def readSpace (s : State) (p : Proc) (a n : Nat) : State × Except Nat (List Byte) := readSpaceAs s p (s.srcOf p) a n

/-- A write of a processor's local space by one of its sources. -/
def writeSpaceAs (s : State) (p : Proc) (src : Src) (a : Nat) (bs : List Byte) : State × Option Nat :=
  match p with
  | .core t =>
    match writeLocal s t a bs src with
    | (s, none) => (s, none)
    | (s, some w) => (s, some (w - localBase t))
  | .mp =>
    match (partialWords a bs.length).find? fun w => eccAt s.mpEcc w == some .hard || eccAt s.mpEcc w == some .poison with
    | some w => (s.mpSramBad w, some w)
    | none => ({ s with mpSram := memPutN s.mpSram a bs,
                        mpEcc := (granules 8 a bs.length).foldl (fun e w => eccSet e w none) s.mpEcc }, none)
  | .dep d =>
    match (partialWords a bs.length).find? fun w => eccAt s.deps[d].ecc w == some .hard || eccAt s.deps[d].ecc w == some .poison with
    | some w => (s.depFault d 0x06, some w)
    | none =>
      (s.modDep d fun x => { x with sram := memPutN x.sram a bs,
                                    ecc := (granules 8 a bs.length).foldl (fun e w => eccSet e w none) x.ecc }, none)

/-- A write by its sequencer. -/
def writeSpace (s : State) (p : Proc) (a : Nat) (bs : List Byte) : State × Option Nat := writeSpaceAs s p (s.srcOf p) a bs

/-- The errors that a command says have struck a processor's local space. -/
def strikeSpace (s : State) (p : Proc) (ups : List Upset) : State :=
  match p with
  | .core t => { s with ecc := eccStrike s.ecc (localBase t) 8 (ups.filter fun u => u.addr < localSize) }
  | .mp => { s with mpEcc := eccStrike s.mpEcc 0 8 ups }
  | .dep d => s.modDep d fun x => { x with ecc := eccStrike x.ecc 0 8 ups }

end Sys2Proof.Machine
end

