-- ==== Sys2Proof/Machine/Operands.lean ====
section
/-! DEFINITION. The operand forms of a Bunov-C instruction: scalar registers with the register ring and the trap frame
(R86, R87, R89, R108), predicates, immediates, and the layouts of R109. -/

namespace Sys2Proof.Machine

/-! ## The layouts of R109 -/

def opRd (e : Enc) : BitVec 5 := bits e.ops 43 5
def opRa (e : Enc) : BitVec 5 := bits e.ops 38 5
def opRb (e : Enc) : BitVec 5 := bits e.ops 33 5
def opImm (e : Enc) : BitVec 32 := bits e.ops 0 32
def opOff24 (e : Enc) : BitVec 24 := bits e.ops 0 24
/-- pd in bits [47:45] (C.P, and C.R or C.I where the result is a predicate). -/
def opPd (e : Enc) : BitVec 3 := bits e.ops 45 3
/-- ra of formats C.B and D, in bits [47:43]. -/
def opRaB (e : Enc) : BitVec 5 := bits e.ops 43 5
def opHome (e : Enc) : BitVec 14 := bits e.ops 34 14
def opRaS (e : Enc) : BitVec 5 := bits e.ops 29 5
def opRH (e : Enc) : Bool := e.ops.getLsbD 28
def opN (e : Enc) : BitVec 8 := bits e.ops 20 8
def opPdS (e : Enc) : BitVec 3 := bits e.ops 17 3
def opD (e : Enc) : Bool := e.ops.getLsbD 16
def opRt (e : Enc) : BitVec 5 := bits e.ops 11 5
def opL (e : Enc) : Bool := e.ops.getLsbD 37
def opSize (e : Enc) : BitVec 2 := bits e.ops 35 2
def opU (e : Enc) : Bool := e.ops.getLsbD 34

/-- imm32, sign-extended to 64 bits. -/
def sextImm (e : Enc) : BitVec 64 := (opImm e).signExtend 64

/-! ## The register ring (R87) -/

/-- `w_i` of slot `k`: w4 to w15 are its own, w0 to w3 the w12 to w15 of the slot before it. -/
def ringGet (q : Seq) (k : BitVec 3) (i : Fin 16) : BitVec 64 :=
  if h : 4 ≤ i.val then (q.ring[k.toNat])[i.val - 4]'(by omega)
  else (q.ring[(k - 1).toNat])[i.val + 8]'(by omega)

def ringSet (q : Seq) (k : BitVec 3) (i : Fin 16) (v : BitVec 64) : Seq :=
  if h : 4 ≤ i.val then
    { q with ring := q.ring.set k.toNat ((q.ring[k.toNat]).set (i.val - 4) v (by omega)) }
  else { q with ring := q.ring.set (k - 1).toNat ((q.ring[(k - 1).toNat]).set (i.val + 8) v (by omega)) }

/-- Slot of the current frame (R89). -/
def curSlot (q : Seq) : BitVec 3 := q.depth.setWidth 3

/-- A scalar register by its 5-bit code (R108); g0 reads 0. `mem`: the operand is that of an LD or ST, for which SELEN
names the registers of slot SEL while the trap frame is in use (R89). -/
def readReg (q : Seq) (c : BitVec 5) (mem : Bool) : BitVec 64 :=
  if c.toNat < 16 then (if c = 0 then 0 else vgetN q.g c.toNat 0)
  else
    let i : Fin 16 := (c.setWidth 4).toFin
    if q.inTrap then (if q.selen && mem then ringGet q q.sel i else q.tf[i])
    else ringGet q (curSlot q) i

/-- A write of a scalar register; a write of g0 is discarded. -/
def writeReg (q : Seq) (c : BitVec 5) (mem : Bool) (v : BitVec 64) : Seq :=
  if c.toNat < 16 then (if c = 0 then q else { q with g := vmodN q.g c.toNat fun _ => v })
  else
    let i : Fin 16 := (c.setWidth 4).toFin
    if q.inTrap then (if q.selen && mem then ringSet q q.sel i v else { q with tf := q.tf.set i v })
    else ringSet q (curSlot q) i v

/-- A predicate; p0 reads 1. -/
def readPred (q : Seq) (p : BitVec 3) : Bool := p == 0 || q.preds.getLsbD p.toNat

/-- A write of a predicate; a write of p0 is discarded. -/
def writePred (q : Seq) (p : BitVec 3) (b : Bool) : Seq :=
  if p = 0 then q
  else { q with preds := if b then q.preds ||| (1#8 <<< p.toNat) else q.preds &&& ~~~(1#8 <<< p.toNat) }

/-- The predicates that SIGRs without a written result own (R139). -/
def predBusy (q : Seq) (p : BitVec 3) : Bool := p ≠ 0 && q.sigrs.any fun x => x.pd == p

/-! ## Reserved operand bits (R107, R109, R560) -/

/-- The bits of `[47:0]` that a mask lists are 0. -/
def zeroBits (e : Enc) (mask : BitVec 48) : Bool := e.ops &&& mask == 0

/-- Which bits the format C.R leaves: [32:0]. -/
def crOk (e : Enc) : Bool := zeroBits e 0x1FFFFFFFF#48

/-- C.I: bits [37:32]. -/
def ciOk (e : Enc) : Bool := zeroBits e 0x3F00000000#48

def aluShift : AluOp → Bool
  | .shl | .shr | .sra => true
  | _ => false

/-- Immediate forms: bits [37:32], and imm32 [31:6] of a shift (R113). -/
def aluImmOk (op : AluOp) (e : Enc) : Bool := ciOk e && (!aluShift op || zeroBits e 0xFFFFFFC0#48)

/-- MOVI, MOVHI: ra = 0. -/
def moviOk (e : Enc) : Bool := ciOk e && opRa e == 0

/-- A comparison: bits [44:43] under pd, and the reserved bits of its format. -/
def compareOk (imm : Bool) (e : Enc) : Bool := zeroBits e 0x180000000000#48 && (if imm then ciOk e else crOk e)

/-- C.P: bits [36:0]. -/
def cpOk (e : Enc) : Bool := zeroBits e 0x1FFFFFFFFF#48

/-- C.B with ra = 0: bits [47:24]. -/
def cbOffOk (e : Enc) : Bool := zeroBits e 0xFFFFFF000000#48

/-- C.B with off24 = 0: bits [42:0]. -/
def cbRegOk (e : Enc) : Bool := zeroBits e 0x7FFFFFFFFFF#48

/-- All operand bits 0. -/
def allZero (e : Enc) : Bool := e.ops == 0

/-- MFSR: ra = 0 and imm32 [31:4] = 0; MTSR: rd = 0 and the same. -/
def mfsrOk (e : Enc) : Bool := ciOk e && opRa e == 0 && zeroBits e 0xFFFFFFF0#48
def mtsrOk (e : Enc) : Bool := ciOk e && opRd e == 0 && zeroBits e 0xFFFFFFF0#48

/-- Format M: bits [33:32]; ST also has U = 0 (R127). -/
def ldOk (e : Enc) : Bool := zeroBits e 0x300000000#48
def stOk (e : Enc) : Bool := ldOk e && !opU e

/-- Format D: bits [42:0]. -/
def dOk (e : Enc) : Bool := cbRegOk e

/-- Format S under R560: the fields the instruction does not use, the home field that RH does not select, bits [10:0],
and N not 0. -/
def sOk (usePd useD useRt : Bool) (e : Enc) : Bool :=
  opN e != 0 && zeroBits e 0x7FF#48 && (if opRH e then opHome e == 0 else opRaS e == 0) &&
  (usePd || opPdS e == 0) && (useD || !opD e) && (useRt || opRt e == 0)

/-! ## Where execution may continue (R115) -/

/-- The trap, if any, that a target of JR, CALLR or RET raises: alignment, then fetch address. -/
def targetTrap (p : Proc) (a : BitVec 64) : Option (BitVec 8) :=
  if a &&& 7 ≠ 0 then some 0x05 else if localSpace p ≤ a.toNat then some 0x06 else none

/-! ## Issue (R72, R85, R105 to R107, R119, R124, R125) -/

/-- The MP's or a compute core's profile has this instruction (R110). -/
def isDep : Proc → Bool
  | .dep _ => true
  | _ => false

def isCore : Proc → Bool
  | .core _ => true
  | _ => false

/-- The tile has a tensor instruction that waits for the array's columns (R70). -/
def State.tmulPending (s : State) : Proc → Bool
  | .core t => (s.tiles[t].tmulWait).isSome
  | _ => false

/-- A processor issues its next instruction: it runs, has no trap to take, no response, grant or release condition to
wait for, and no halt asked of it. -/
def State.canIssue (s : State) (p : Proc) : Bool :=
  let q := s.seq p
  q.run == .running && q.pend.isNone && q.deferred.isNone && q.stErr.isEmpty && q.ldWait.isNone && q.wait.isNone &&
  q.pendSig.isNone && (!q.dbgHalt || q.dbgStep) && !s.tmulPending p &&
  (match p with | .core t => !(s.tiles[t]).haltReq && (s.tiles[t]).clocked && (s.wear.tile[t]).state != .migrating | _ => true) &&
  !(q.bps.toList.contains (some q.pc) && q.bpArmed)

/-- The error that the fetch of the instruction meets (R81). -/
def State.fetchErr (s : State) (p : Proc) : Option EccKind :=
  let w := (s.seq p).pc.toNat
  match p with
  | .core t => eccAt s.ecc (localBase t + w)
  | .mp => eccAt s.mpEcc w
  | .dep d => eccAt s.deps[d].ecc w

/-- It is an uncorrectable one. -/
def State.fetchBad (s : State) (p : Proc) : Bool := s.fetchErr p == some .hard || s.fetchErr p == some .poison

/-- A single error in the word fetched is corrected, counted and written back (R81). -/
def State.fetchMend (s : State) (p : Proc) : State :=
  if s.fetchErr p = some .single then
    match p with
    | .core t => lsCorrected s t (localBase t + (s.seq p).pc.toNat)
    | .mp => { s with mpEcc := eccSet s.mpEcc s.mp.pc.toNat none }
    | .dep d => s.modDep d fun x => { x with ecc := eccSet x.ecc x.seq.pc.toNat none }
  else s

/-- The consequence of that error: a core fault with cause 0x02 (R81, R104), a deputy fault (R397), an MP fault. -/
def State.fetchFault (s : State) : Proc → State
  | .core t =>
    match lsCheck s t (s.srcOf (.core t)) [localBase t + (s.tiles[t]).seq.pc.toNat] with
    | (s, _) => s.coreFault t 0x02
  | .mp => (s.modSeq .mp fun q => { q with run := .faulted }).raise 0x15 0x100 0 s.mp.pc.toNat
  | .dep d => s.depFault d 0x06

/-- After an instruction of a single step the halt takes hold again, and breakpoints count again (R512). -/
def State.stepDone (s : State) (p : Proc) : State := s.modSeq p fun q => { q with dbgStep := false, bpArmed := true }

/-- A check of core storage that an instruction meets (R94, R104): the cause of the core fault. -/
def coreUpsetCause : CoreUpset → Option (BitVec 8)
  | .none => Option.none
  | .regParity => some 0x03
  | .accUncorrectable => some 0x04
  | .planeParity => some 0x05
  | .vectorParity => some 0x06
  | .windowParity => some 0x06

/-- A core's instruction reads storage of the kinds in `reads`: the error it meets there, if any, is a core fault (R94, R95). -/
def withCoreCheck (p : Proc) (u : CoreUpset) (reads : List CoreUpset) (s : State) (body : State → State) : State :=
  match p, coreUpsetCause u with
  | .core t, some c => if reads.contains u then s.coreFault t c else body s
  | _, _ => body s

/-- The sender of LD, TMUL and VLD says in an operand beside the fields what the reads of core storage meet; it counts where the fields
name no error. -/
def encMeeting (e : Enc) (core : CoreUpset) : Enc := if e.core = .none then { e with core := core } else e

/-- The registers that the predication of an instruction reads: p0 is no register. -/
def predReads (e : Enc) : List CoreUpset := if e.pred = 0 then [] else [.regParity]

/-- One instruction of a processor. `legal`: the processor implements it and its reserved bits are 0; `preads`: the
predicates it reads beside PRED; `reads`: the core storage that it reads; `body`: its effect once it executes. A processor that
cannot issue, or whose instruction reads a predicate that a SIGR still owns, does nothing now. -/
def issue (p : Proc) (e : Enc) (legal : Bool) (preads : List (BitVec 3)) (reads : List CoreUpset) (s : State) (body : State → State) : State :=
  if !s.canIssue p then s
  else
    let q := s.seq p
    if localSpace p ≤ q.pc.toNat then s.trap p 0x06 q.pc
    else if s.fetchBad p then s.fetchFault p
    else
      let s := s.fetchMend p
      if !legal then (s.stepDone p).trap p 0x01 0
      else if predBusy q e.pred || preads.any (predBusy q) then s
      else withCoreCheck p e.core (predReads e) s fun s =>
        if (readPred q e.pred) != e.pneg then withCoreCheck p e.core reads (s.stepDone p) body
        else (s.stepDone p).advance p

end Sys2Proof.Machine
end

