-- ==== Sys2Proof/Machine/Flags.lean ====
section
/-! DEFINITION. Flag computations: the sticky AFLAGS of a core (R51), the comparisons of R112, predicate logic. -/

namespace Sys2Proof.Machine

/-! AFLAGS bits (R51). -/
def flRounded : BitVec 7 := 0x01
def flUnderflow : BitVec 7 := 0x02
def flOverflow : BitVec 7 := 0x04
def flInvalid : BitVec 7 := 0x08
def flInexact : BitVec 7 := 0x10
def flRange : BitVec 7 := 0x20
def flDivzero : BitVec 7 := 0x40

/-- Sets sticky flags of a tile. -/
def Tile.setFlags (x : Tile) (f : BitVec 7) : Tile := { x with aflags := x.aflags ||| f }

/-- A comparison of 64-bit integers (R112). -/
def cmpVal (op : CmpOp) (a b : BitVec 64) : Bool :=
  match op with
  | .eq => a == b
  | .ne => a != b
  | .lt => a.slt b
  | .ge => !a.slt b
  | .ltu => a.ult b
  | .geu => !a.ult b

/-- PAND, POR, PXOR (R112). -/
def predVal (op : PredOp) (a b : Bool) : Bool :=
  match op with
  | .and => a && b
  | .or => a || b
  | .xor => a != b

/-- The integer operations of majors 0x00 and 0x01 (R113). -/
def aluVal (op : AluOp) (a b : BitVec 64) : BitVec 64 :=
  let sh := (b.setWidth 6).toNat
  match op with
  | .add => a + b
  | .sub => a - b
  | .and => a &&& b
  | .or => a ||| b
  | .xor => a ^^^ b
  | .shl => a <<< sh
  | .shr => a >>> sh
  | .sra => a.sshiftRight sh
  | .mul => a * b
  | .mulh => BitVec.ofInt 64 (a.toInt * b.toInt / 2 ^ 64)
  | .mulhu => BitVec.ofNat 64 (a.toNat * b.toNat / 2 ^ 64)
  | .div => if b = 0 then BitVec.allOnes 64 else a.sdiv b
  | .divu => if b = 0 then BitVec.allOnes 64 else a / b
  | .rem => if b = 0 then a else a.srem b
  | .remu => if b = 0 then a else a % b
  | .min => if a.slt b then a else b
  | .max => if a.slt b then b else a
  | .minu => if a.ult b then a else b
  | .maxu => if a.ult b then b else a

/-- The immediate of majors 0x01: zero-extended for ANDI, ORI and XORI, else sign-extended (R113). -/
def aluImm (op : AluOp) (e : Enc) : BitVec 64 :=
  match op with
  | .and | .or | .xor => (opImm e).setWidth 64
  | _ => sextImm e

end Sys2Proof.Machine
end

