-- ==== Sys2Proof/Machine/Float.lean ====
section
/-! DEFINITION. Number formats, rounding and conversion (R38 to R50), and exact arithmetic on the values they carry. -/

namespace Sys2Proof.Machine

/-- An exact value: NaN, an infinity, or (-1)^neg * m * 2^e. A zero keeps its sign. -/
inductive FVal where
  | nan
  | inf (neg : Bool)
  | fin (neg : Bool) (m : Nat) (e : Int)
deriving DecidableEq, Repr

/-! Formats are named by their codes of R38; code 0x10 is IEEE 754 binary64, which the fusion and planner engines use. -/

def fmtBits : Nat → Nat
  | 0 => 4 | 1 => 8 | 2 => 16 | 3 => 32 | 4 => 4 | 5 => 6 | 6 => 8 | 7 => 8 | 8 => 16 | 9 => 16 | 10 => 32 | 16 => 64 | _ => 0

def fmtIsInt (f : Nat) : Bool := f < 4

/-- Mantissa bits. -/
def fmtMan : Nat → Nat
  | 4 => 1 | 5 => 2 | 6 => 3 | 7 => 2 | 8 => 10 | 9 => 7 | 10 => 23 | 16 => 52 | _ => 0

def fmtBias : Nat → Nat
  | 4 => 1 | 5 => 3 | 6 => 7 | 7 => 15 | 8 => 15 | 9 => 127 | 10 => 127 | 16 => 1023 | _ => 0

/-- Exponent bits. -/
def fmtExp (f : Nat) : Nat := fmtBits f - 1 - fmtMan f

/-- The format has infinities (R42). -/
def fmtHasInf (f : Nat) : Bool := f == 7 || f == 8 || f == 9 || f == 10 || f == 16

/-- FP4 and FP6, which have neither infinity nor NaN (R40, R41). -/
def fmtNarrow (f : Nat) : Bool := f == 4 || f == 5

/-- Code of the largest finite magnitude (R40 to R42). -/
def fmtMaxCode (f : Nat) : Nat :=
  if fmtNarrow f then 2 ^ (fmtBits f - 1) - 1
  else if f == 6 then 0x7E
  else (2 ^ fmtExp f - 1) * 2 ^ fmtMan f - 1

/-- Code of +infinity, for formats that have one. -/
def fmtInfCode (f : Nat) : Nat := (2 ^ fmtExp f - 1) * 2 ^ fmtMan f

/-- The canonical NaN (R44). -/
def fmtNan : Nat → Nat
  | 6 => 0x7F | 7 => 0x7E | 8 => 0x7E00 | 9 => 0x7FC0 | 10 => 0x7FC00000 | 16 => 0x7FF8000000000000 | _ => 0

def fmtSign (f : Nat) (neg : Bool) : Nat := if neg then 2 ^ (fmtBits f - 1) else 0

/-- An integer as an exact value; the sign of zero is plus. -/
def intVal (i : Int) : FVal := .fin (decide (i < 0)) i.natAbs 0

/-- The value that a code of a format stands for (R38). -/
def fmtVal (f code : Nat) : FVal :=
  let c := code % 2 ^ fmtBits f
  if fmtIsInt f then intVal (sgn (fmtBits f) c)
  else
    let neg := c / 2 ^ (fmtBits f - 1) == 1
    let e := c / 2 ^ fmtMan f % 2 ^ fmtExp f
    let m := c % 2 ^ fmtMan f
    if f == 6 && e == 15 && m == 7 then .nan
    else if fmtHasInf f && e == 2 ^ fmtExp f - 1 then (if m = 0 then .inf neg else .nan)
    else if e = 0 then .fin neg m (1 - (fmtBias f : Int) - fmtMan f)
    else .fin neg (2 ^ fmtMan f + m) ((e : Int) - fmtBias f - fmtMan f)

/-! ## Rounding (R47) -/

/-- The magnitude `m * 2^e`, plus something between 0 and `2^e` when `sticky`, as a multiple of `2^q` in a rounding mode
(0 RNE, 1 RTZ, 2 RUP, 3 RDN, 4 RNA), and whether it differs from the exact one. -/
def roundAt (mode : Nat) (neg : Bool) (m : Nat) (e : Int) (sticky : Bool) (q : Int) : Nat × Bool :=
  if q ≤ e then
    let n := m * 2 ^ (e - q).toNat
    if sticky then
      (if (mode == 2 && !neg) || (mode == 3 && neg) then n + 1 else n, true)
    else (n, false)
  else
    let k := (q - e).toNat
    let n := m / 2 ^ k
    let r := m % 2 ^ k
    let h := 2 ^ (k - 1)
    let inexact := r ≠ 0 || sticky
    let up :=
      match mode with
      | 0 => decide (h < r) || (r == h && (sticky || n % 2 == 1))
      | 1 => false
      | 2 => inexact && !neg
      | 3 => inexact && neg
      | _ => decide (h ≤ r)
    (if up then n + 1 else n, inexact)

/-- Largest integer code magnitude and the bound for a sign. -/
def intBound (f : Nat) (neg : Bool) : Nat := if neg then 2 ^ (fmtBits f - 1) else 2 ^ (fmtBits f - 1) - 1

def intCode (f : Nat) (neg : Bool) (n : Nat) : Nat := if neg then (2 ^ fmtBits f - n) % 2 ^ fmtBits f else n

/-- The rounding of an overflow goes to infinity in a mode (IEEE 754, R48). -/
def toInf (mode : Nat) (neg : Bool) : Bool :=
  match mode with
  | 1 => false
  | 2 => !neg
  | 3 => neg
  | _ => true

/-- The result of an overflow in a floating-point format (R48). -/
def overflowCode (f mode : Nat) (ovf neg : Bool) : Nat :=
  if ovf && toInf mode neg && !fmtNarrow f then
    (if fmtHasInf f then fmtSign f neg + fmtInfCode f else fmtNan f)
  else fmtSign f neg + fmtMaxCode f

/-- Converts a magnitude to a format: its code and the flags it sets (R48, R49, R50). -/
def roundMag (f mode : Nat) (ovf neg : Bool) (m : Nat) (e : Int) (sticky : Bool) : Nat × BitVec 7 :=
  if fmtIsInt f then
    let (n, ix) := roundAt mode neg m e sticky 0
    if intBound f neg < n then (intCode f neg (intBound f neg), flOverflow ||| flRounded)
    else (intCode f neg n, if ix then flRounded else 0)
  else if m = 0 then (fmtSign f neg, if sticky then flRounded ||| flUnderflow else 0)
  else
    let top : Int := (Nat.log2 m : Int) + e
    let emin : Int := 1 - (fmtBias f : Int)
    let q : Int := max top emin - fmtMan f
    let (n, ix) := roundAt mode neg m e sticky q
    let code : Int := if n < 2 ^ fmtMan f then n else (q + fmtMan f + fmtBias f) * (2 ^ fmtMan f : Nat) + (n - 2 ^ fmtMan f : Nat)
    if (fmtMaxCode f : Int) < code then (overflowCode f mode ovf neg, flOverflow ||| flRounded)
    else
      (fmtSign f neg + code.toNat, if ix then (if top < emin then flRounded ||| flUnderflow else flRounded) else 0)

/-- Converts an exact value to a format (R48 to R50). -/
def toFmt (f mode : Nat) (ovf : Bool) : FVal → Nat × BitVec 7
  | .fin neg m e => roundMag f mode ovf neg m e false
  | .nan => if fmtIsInt f || fmtNarrow f then (0, flInvalid) else (fmtNan f, 0)
  | .inf neg =>
    if fmtIsInt f then (intCode f neg (intBound f neg), flOverflow)
    else if ovf && fmtHasInf f then (fmtSign f neg + fmtInfCode f, 0)
    else if ovf && f == 6 then (fmtNan f, flOverflow)
    else (fmtSign f neg + fmtMaxCode f, flOverflow)

/-! ## Exact arithmetic -/

def FVal.neg : FVal → FVal
  | .nan => .nan
  | .inf s => .inf !s
  | .fin s m e => .fin (!s) m e

def FVal.abs : FVal → FVal
  | .nan => .nan
  | .inf _ => .inf false
  | .fin _ m e => .fin false m e

def FVal.isZero : FVal → Bool
  | .fin _ m _ => m == 0
  | _ => false

def FVal.isNan : FVal → Bool
  | .nan => true
  | _ => false

def FVal.isNeg : FVal → Bool
  | .nan => false
  | .inf s => s
  | .fin s _ _ => s

/-- A signed magnitude at a given exponent, not above its own. -/
def alignTo (q : Int) (neg : Bool) (m : Nat) (e : Int) : Int :=
  let v : Int := (m * 2 ^ (e - q).toNat : Nat)
  if neg then -v else v

/-- The product and whether the operation is invalid (0 times infinity, R44). -/
def FVal.mul : FVal → FVal → FVal × Bool
  | .nan, _ => (.nan, false)
  | _, .nan => (.nan, false)
  | .inf s, .inf t => (.inf (s != t), false)
  | .inf s, .fin t m _ => if m = 0 then (.nan, true) else (.inf (s != t), false)
  | .fin s m _, .inf t => if m = 0 then (.nan, true) else (.inf (s != t), false)
  | .fin s m e, .fin t n g => (.fin (s != t) (m * n) (e + g), false)

/-- The sum, and whether the operation is invalid (R44). The sign of an exact zero is that of IEEE 754 for the mode. -/
def FVal.add (mode : Nat) : FVal → FVal → FVal × Bool
  | .nan, _ => (.nan, false)
  | _, .nan => (.nan, false)
  | .inf s, .inf t => if s == t then (.inf s, false) else (.nan, true)
  | .inf s, .fin _ _ _ => (.inf s, false)
  | .fin _ _ _, .inf t => (.inf t, false)
  | .fin s m e, .fin t n g =>
    let q := min e g
    let v := alignTo q s m e + alignTo q t n g
    if v = 0 then (.fin (if m = 0 && n = 0 && s == t then s else mode == 3) 0 0, false)
    else (.fin (decide (v < 0)) v.natAbs q, false)

def FVal.sub (mode : Nat) (a b : FVal) : FVal × Bool := a.add mode b.neg

/-- `some c`: the order of two values (zeros of either sign are equal); `none` with a NaN. -/
def FVal.cmp : FVal → FVal → Option Ordering
  | .nan, _ => none
  | _, .nan => none
  | .inf s, .inf t => some (if s == t then .eq else if s then .lt else .gt)
  | .inf s, .fin _ _ _ => some (if s then .lt else .gt)
  | .fin _ _ _, .inf t => some (if t then .gt else .lt)
  | .fin s m e, .fin t n g =>
    let q := min e g
    some (compare (alignTo q s m e) (alignTo q t n g))

def FVal.lt (a b : FVal) : Bool := a.cmp b == some .lt
def FVal.le (a b : FVal) : Bool := a.cmp b == some .lt || a.cmp b == some .eq

/-! ## Correctly rounded division and square root -/

/-- A quotient of magnitudes with 80 bits beyond the binary point of the larger precision, and its sticky rest. -/
def divMag (m : Nat) (e : Int) (n : Nat) (g : Int) : Nat × Int × Bool :=
  let k := 130 + Nat.log2 n
  (m * 2 ^ k / n, e - g - k, m * 2 ^ k % n ≠ 0)

/-- A quotient rounded to a format: its code, its flags, and whether a nonzero number was divided by zero. -/
def divFmt (f mode : Nat) (ovf : Bool) (a b : FVal) : Nat × BitVec 7 × Bool :=
  match a, b with
  | .nan, _ => (fmtNan f, 0, false)
  | _, .nan => (fmtNan f, 0, false)
  | .inf _, .inf _ => (fmtNan f, flInvalid, false)
  | .inf s, .fin t _ _ => let (c, fl) := toFmt f mode ovf (.inf (s != t)); (c, fl, false)
  | .fin s _ _, .inf t => (fmtSign f (s != t), 0, false)
  | .fin s m e, .fin t n g =>
    if n = 0 then
      if m = 0 then (fmtNan f, flInvalid, false)
      else let (c, fl) := toFmt f mode ovf (.inf (s != t)); (c, fl, true)
    else
      let (x, y, st) := divMag m e n g
      let (c, fl) := roundMag f mode ovf (s != t) x y st
      (c, fl, false)

/-- Square root of an integer, rounded down: `n` bits of result are settled one by one from the top. -/
def isqrtAux : Nat → Nat → Nat → Nat
  | 0, _, r => r
  | k + 1, v, r => let c := r + 2 ^ k; isqrtAux k v (if c * c ≤ v then c else r)

def isqrt (v : Nat) : Nat := isqrtAux (Nat.log2 v / 2 + 1) v 0

/-- The square root of a magnitude with at least 70 bits, its exponent, and its sticky rest. -/
def sqrtMag (m : Nat) (e : Int) : Nat × Int × Bool :=
  let sh : Nat := if e % 2 = 0 then 160 else 161
  let v := m * 2 ^ sh
  let r := isqrt v
  (r, (e - sh) / 2, r * r ≠ v)

/-- A square root rounded to a format. -/
def sqrtFmt (f mode : Nat) (a : FVal) : Nat × BitVec 7 :=
  match a with
  | .nan => (fmtNan f, 0)
  | .inf true => (fmtNan f, flInvalid)
  | .inf false => (fmtInfCode f, 0)
  | .fin s m e =>
    if m = 0 then (fmtSign f s, 0)
    else if s then (fmtNan f, flInvalid)
    else let (r, q, st) := sqrtMag m e; roundMag f mode true false r q st

/-! ## IEEE 754 arithmetic to one format, RNE, with infinities (the accumulations of R63 to R65, R76, R340, R349) -/

/-- An operation rounded to nearest even with IEEE infinities: its code and flags. -/
def ieeeRound (f : Nat) (r : FVal × Bool) : Nat × BitVec 7 :=
  let (c, fl) := toFmt f 0 true r.1
  (c, if r.2 then fl ||| flInvalid else fl)

def ieeeAdd (f a b : Nat) : Nat × BitVec 7 := ieeeRound f ((fmtVal f a).add 0 (fmtVal f b))
def ieeeSub (f a b : Nat) : Nat × BitVec 7 := ieeeRound f ((fmtVal f a).sub 0 (fmtVal f b))
def ieeeMul (f a b : Nat) : Nat × BitVec 7 := ieeeRound f ((fmtVal f a).mul (fmtVal f b))
def ieeeDiv (f a b : Nat) : Nat × BitVec 7 := let r := divFmt f 0 true (fmtVal f a) (fmtVal f b); (r.1, r.2.1)

/-- A value moved from one format to another, RNE with IEEE infinities. -/
def ieeeConv (g f a : Nat) : Nat := (toFmt f 0 true (fmtVal g a)).1

/-- `⌊x * 2^k⌋` of a finite value. -/
def floorScaled (neg : Bool) (m : Nat) (e : Int) (k : Int) : Int :=
  let q := e + k
  let v : Int := if neg then -(m : Int) else m
  if 0 ≤ q then v * (2 ^ q.toNat : Nat) else v.fdiv (2 ^ (-q).toNat : Nat)

end Sys2Proof.Machine
end

