-- ==== Sys2Proof/Machine/FloatFn.lean ====
section
/-! DEFINITION. Correctly rounded elementary functions (R161, R162, R345, R349): integer enclosures of the exact value, both
ends of which are rounded; where they round apart, the value is a constant of Config. -/

namespace Sys2Proof.Machine

/-- Fraction bits of the fixed-point enclosures. -/
def fxP : Nat := 320

/-- One in that fixed point. -/
def fxOne : Nat := 2 ^ fxP

/-- Sum of `1 / (k 2^k)` for k = n .. 1. -/
def ln2Aux : Nat → Nat
  | 0 => 0
  | n + 1 => fxOne / ((n + 1) * 2 ^ (n + 1)) + ln2Aux n

/-- ln 2, within 400 units of the last place. -/
def fxLn2 : Nat := ln2Aux 330

/-- Taylor terms of exp from `k`, `n` of them, the first being `term`. -/
def expAux (t : Nat) : Nat → Nat → Nat → Nat
  | 0, _, _ => 0
  | n + 1, k, term => term + expAux t n (k + 1) (term * t / fxOne / (k + 1))

/-- exp of a fixed-point number of at most 1, within 2^12 units. -/
def fxExp (t : Nat) : Nat := expAux t 90 0 fxOne

/-- Terms `u^(2k+1) / (2k+1)`; `sg` alternates their sign. -/
def atanAux (u2 : Nat) (sg : Bool) : Nat → Nat → Nat → Int
  | 0, _, _ => 0
  | n + 1, k, pw =>
    let v : Int := (pw / (2 * k + 1) : Nat)
    (if sg && k % 2 = 1 then -v else v) + atanAux u2 sg n (k + 1) (pw * u2 / fxOne)

/-- artanh of a fixed-point number of at most 1/3. -/
def fxAtanh (u : Nat) : Int := atanAux (u * u / fxOne) false 110 0 u

/-- arctan of a fixed-point number of at most 1/4. -/
def fxAtanSmall (u : Nat) : Int := atanAux (u * u / fxOne) true 90 0 u

/-- π by Machin's formula 16 arctan(1/5) - 4 arctan(1/239). -/
def fxPi : Int := 16 * fxAtanSmall (fxOne / 5) - 4 * fxAtanSmall (fxOne / 239)

/-- Half the width of an enclosure, in units of the last place. -/
def fxSlack : Nat := 2 ^ 20

/-- Both ends of an enclosure `[lo, hi] * 2^e` of a magnitude that is neither a representable number nor a midpoint. -/
def roundEnc (f mode : Nat) (ovf neg : Bool) (lo hi : Nat) (e : Int) : Option (Nat × BitVec 7) :=
  let a := roundMag f mode ovf neg lo e true
  let b := roundMag f mode ovf neg hi e true
  if a = b && lo ≠ 0 then some a else none

/-- A function's rounded value, or the constant that stands for it when the enclosure does not decide it. -/
def decideRound (fn f mode x : Nat) (r : Option (Nat × BitVec 7)) : Nat × BitVec 7 :=
  match r with
  | some v => v
  | none => ((Config.undecidedRounding fn (16 * f + mode) x).toNat % 2 ^ fmtBits f, flRounded)

/-- 2^x of a finite value, rounded to a format. `x0` names the operand for an undecided rounding. -/
def exp2Fin (f mode : Nat) (ovf : Bool) (x0 : Nat) (neg : Bool) (m : Nat) (e : Int) : Nat × BitVec 7 :=
  let n := floorScaled neg m e 0
  if 5000 < n then roundMag f mode ovf false 1 5000 true
  else if n < -5000 then roundMag f mode ovf false 1 (-5000) true
  else
    let fr := floorScaled neg m e fxP - n * (fxOne : Nat)
    if e ≥ 0 || m % 2 ^ (-e).toNat = 0 then roundMag f mode ovf false 1 n false
    else
      let v := fxExp (fr.toNat * fxLn2 / fxOne)
      decideRound 0 f mode x0 (roundEnc f mode ovf false (v - fxSlack) (v + fxSlack) (n - fxP))

/-- log2 of a finite positive value. -/
def log2Fin (f mode : Nat) (ovf : Bool) (x0 m : Nat) (e : Int) : Nat × BitVec 7 :=
  let l := Nat.log2 m
  let ex : Int := (l : Int) + e
  if m = 2 ^ l then roundMag f mode ovf (decide (ex < 0)) ex.natAbs 0 false
  else
    let z := m * 2 ^ fxP / 2 ^ l
    let u := (z - fxOne) * fxOne / (z + fxOne)
    let v : Int := ex * (fxOne : Nat) + 2 * fxAtanh u * (fxOne : Nat) / (fxLn2 : Nat)
    decideRound 1 f mode x0 (roundEnc f mode ovf (decide (v < 0)) (v.natAbs - fxSlack) (v.natAbs + fxSlack) (-fxP))

/-- 1 / sqrt of a finite positive value, exactly rounded. -/
def rsqrtFin (f mode : Nat) (ovf : Bool) (m : Nat) (e : Int) : Nat × BitVec 7 :=
  let odd := e % 2 ≠ 0
  let m := if odd then 2 * m else m
  let e := if odd then e - 1 else e
  let k := 100 + Nat.log2 m
  let r := isqrt (2 ^ (2 * k) / m)
  roundMag f mode ovf false r (-(e / 2) - k) (r * r * m ≠ 2 ^ (2 * k))

/-- tanh of a finite nonzero value. -/
def tanhFin (f mode : Nat) (ovf : Bool) (x0 : Nat) (neg : Bool) (m : Nat) (e : Int) : Nat × BitVec 7 :=
  let top : Int := (Nat.log2 m : Int) + e
  if 7 ≤ top then roundMag f mode ovf neg (2 ^ 200 - 1) (-200) true
  else if top < -30 then
    -- x - x³/3 < tanh x < x - x³/3 + 2 x⁵/15
    let k := 2 * e.natAbs + 200
    let c3 := m * m * m * 2 ^ ((k : Int) + 2 * e).toNat / 3
    let c5 := 2 * (m * m * m * m * m) * 2 ^ ((k : Int) + 2 * e).toNat / 2 ^ (-2 * e).toNat / 15 + 1
    decideRound 4 f mode x0 (roundEnc f mode ovf neg (m * 2 ^ k - c3 - 1) (m * 2 ^ k - c3 + c5) (e - k))
  else
    -- e^(2x) = 2^n * exp(r)
    let y := (floorScaled false m e (fxP + 1)).toNat
    let n := y / fxLn2
    let ex := fxExp (y - n * fxLn2) * 2 ^ n
    let v := (ex - fxOne) * fxOne / (ex + fxOne)
    decideRound 4 f mode x0 (roundEnc f mode ovf neg (v - fxSlack) (min (v + fxSlack) (fxOne - 1)) (-fxP))

/-- 2^x of an exact value with its special cases (R162). -/
def exp2Of (f mode : Nat) (ovf : Bool) (x0 : Nat) (v : FVal) : Nat × BitVec 7 :=
  match v with
  | .nan => (fmtNan f, 0)
  | .inf false => (fmtInfCode f, 0)
  | .inf true => (0, 0)
  | .fin s m e => if m = 0 then roundMag f mode ovf false 1 0 false else exp2Fin f mode ovf x0 s m e

/-- A table-assisted function (R161, R162). -/
def funcVal (op : FuncOp) (f mode : Nat) (ovf : Bool) (x0 : Nat) : Nat × BitVec 7 :=
  let one (neg : Bool) : Nat := (roundMag f 0 false neg 1 0 false).1
  match op, fmtVal f x0 with
  | .exp2, v => exp2Of f mode ovf x0 v
  | _, .nan => (fmtNan f, 0)
  | .log2, .inf false => (fmtInfCode f, 0)
  | .log2, .inf true => (fmtNan f, flInvalid)
  | .log2, .fin s m e =>
    if m = 0 then (fmtSign f true + fmtInfCode f, flDivzero) else if s then (fmtNan f, flInvalid) else log2Fin f mode ovf x0 m e
  | .rcp, .inf s => (fmtSign f s, 0)
  | .rcp, .fin s m e =>
    if m = 0 then (fmtSign f s + fmtInfCode f, flDivzero)
    else let (q, x, st) := divMag 1 0 m e; roundMag f mode ovf s q x st
  | .rsqrt, .inf false => (0, 0)
  | .rsqrt, .inf true => (fmtNan f, flInvalid)
  | .rsqrt, .fin s m e =>
    if m = 0 then (fmtSign f s + fmtInfCode f, flDivzero) else if s then (fmtNan f, flInvalid) else rsqrtFin f mode ovf m e
  | .tanh, .inf s => (one s, 0)
  | .tanh, .fin s m e => if m = 0 then (fmtSign f s, 0) else tanhFin f mode ovf x0 s m e

end Sys2Proof.Machine
end

