-- ==== Sys2Proof/Machine/DepOps.lean ====
section
/-! DEFINITION. The deputy system registers (R394 to R398, R401, R404, R565): their values and the effect of writing them. -/

namespace Sys2Proof.Machine

/-- SAFE_REQ_N is low: a deputy pulls it (R405). -/
def State.safeReqLow (s : State) : Bool := s.deps[(0 : Fin 2)].safeLow || s.deps[(1 : Fin 2)].safeLow

/-- The deputy's own error pin is low (R401, R404). -/
def Deputy.pinIsLow (x : Deputy) : Bool := !x.pinHigh || x.pinTest.isSome

/-- DT as a deputy keeps it (R403). -/
def State.depDt (s : State) (d : Fin 2) : BitVec 64 := s.deps[d].ownDt

/-- DCTRL as it reads. -/
def dctrlRead (s : State) (d : Fin 2) : BitVec 64 :=
  let x := s.deps[d]
  BitVec.ofNat 64 (b2n x.ready * 2 ^ 15 + b2n x.dbgEn * 2 ^ 14 + b2n s.safeReqLow * 2 ^ 5 + b2n x.pinIsLow * 2 ^ 4 +
    b2n (x.latched || x.imgBad) * 2 ^ 3 + b2n x.pinTest.isSome * 2 ^ 2 + b2n x.rel * 2)

/-- DFSTAT as it reads. -/
def dfstatRead (x : Deputy) : BitVec 64 :=
  BitVec.ofNat 64 (x.dfCrc.toNat * 2 ^ 32 + b2n x.dfBusy * 2 ^ 31 + b2n x.dfOvr * 2 ^ 30 + x.dfCode.toNat * 2 ^ 8)

/-- Setting READY (R401): the program is ready; it clears only at reset. -/
def dctrlReadyOp (s : State) (d : Fin 2) : State :=
  let s := s.modDep d fun x => { x with ready := true, state := if x.state = .starting && x.loaded then .ready else x.state }
  if s.deps[d].hubLost then s else s.syncSaf d

/-- Setting DBG_EN enters 0x0A (R410); it clears only at reset. -/
def dctrlDbgEnOp (s : State) (d : Fin 2) : State :=
  if s.deps[d].dbgEn then s else (s.modDep d fun x => { x with dbgEn := true }).raiseDep d 0x0A 0

/-- Writing ERRCLR (R401): the program has acknowledged the last PIN or SAFE record; the pin goes high when READY is 1 and
no latched cause is held. -/
def dctrlErrclrOp (s : State) (d : Fin 2) : State :=
  let s := s.modDep d fun x =>
    let x := { x with pinCause := false }
    if x.ready && !x.latched && !x.imgBad then { x with pinHigh := true } else x
  if s.deps[d].hubLost then s else s.syncSaf d

/-- Writing PINTEST (R404): the pin goes low for 20 µs; no effect while the pin is low. -/
def dctrlPintestOp (s : State) (d : Fin 2) : State :=
  if s.deps[d].pinIsLow then s
  else s.modDep d fun x => { x with pinTest := some (s.depDt d + 20000) }

/-- A write of DCTRL: its fields take effect in the order of R565. -/
def dctrlWrite (s : State) (d : Fin 2) (v : BitVec 64) : State :=
  let s := s.setRel d (v.getLsbD 1)
  let s := if v.getLsbD 15 then dctrlReadyOp s d else s
  let s := if v.getLsbD 14 then dctrlDbgEnOp s d else s
  let s := if v.getLsbD 0 then dctrlErrclrOp s d else s
  if v.getLsbD 2 then dctrlPintestOp s d else s

/-- A write of DWDT (R398): the right key restarts the count and may set TIMEOUT; a wrong one faults the deputy. Before the
program starts the watchdog does not run, and a write only sets a TIMEOUT in range. -/
def dwdtWrite (s : State) (d : Fin 2) (v : BitVec 64) : State :=
  let x := s.deps[d]
  let key : BitVec 8 := bits v 24 8
  let t : BitVec 17 := bits v 0 17
  let setT (x : Deputy) : Deputy := if 100 ≤ t.toNat && t.toNat ≤ 100000 then { x with wdtTimeout := t } else x
  if !x.wdtRun then s.modDep d setT
  else if key = x.wdtKey then
    s.modDep d fun x => setT { x with wdtKey := ~~~x.wdtKey, wdtSince := s.depDt d }
  else s.depFault d 0x04

/-- A write of DREPORT (R394): a category outside 0x70 to 0x7F is entered as 0x7F. -/
def dreportWrite (s : State) (d : Fin 2) (v : BitVec 64) : State :=
  let c : BitVec 8 := bits v 56 8
  s.raiseDep d (if 0x70 ≤ c.toNat && c.toNat ≤ 0x7F then c else 0x7F) (bits v 0 48 : BitVec 48).toNat

/-- A write of DFSRC keeps bits [47:6]. -/
def dfsrcWrite (s : State) (d : Fin 2) (v : BitVec 64) : State :=
  s.modDep d fun x => { x with dfsrc := bits v 0 48 &&& 0xFFFFFFFFFFC0#48 }

/-- Two byte ranges share a byte. -/
def overlaps (a n b m : Nat) : Bool := a < b + m && b < a + n && 0 < n && 0 < m

/-- A write of DFCMD (R395): ignored while BUSY, with OVR set; refused with CODE 0x05; else a fetch starts. -/
def dfcmdWrite (s : State) (d : Fin 2) (v : BitVec 64) : State :=
  let x := s.deps[d]
  let len := (bits v 32 21 : BitVec 21).toNat
  let dst := (bits v 0 21 : BitVec 21).toNat
  if x.dfBusy then s.modDep d fun x => { x with dfOvr := true }
  else
    let bad := (bits v 53 11 : BitVec 11) ≠ 0 || (bits v 21 11 : BitVec 11) ≠ 0 || len < 64 || 1048576 < len || len % 64 ≠ 0 ||
      dst % 64 ≠ 0 || sramSize < dst + len || overlaps dst len 0 x.imgLen || overlaps dst len 0x1FF000 0x440 ||
      overlaps dst len 0x1FF800 0x800
    if bad then s.modDep d fun x => { x with dfOvr := false, dfCode := 0x05 }
    else s.modDep d fun x => { x with dfOvr := false, dfBusy := true, fetch := some (x.dfsrc.toNat, len, dst) }

/-! ## System registers of every processor (R88, R89, R126, R394) -/

/-- The processor implements the system register number (R88, R110, R394). -/
def srImplemented (p : Proc) (n : Nat) : Bool :=
  match p with
  | .core _ => n ≤ 8
  | .mp => 1 ≤ n && n ≤ 8
  | .dep _ => 1 ≤ n && n ≤ 14

/-- RING as it reads (R89). -/
def ringVal (q : Seq) : BitVec 64 :=
  BitVec.ofNat 64 (q.floor.toNat * 2 ^ 48 + q.depth.toNat * 2 ^ 32 + b2n q.selen * 2 ^ 11 + q.sel.toNat * 2 ^ 8 +
    b2n q.inTrap * 2 ^ 7 + (q.depth - q.floor + 1).toNat % 8 * 2 ^ 4)

/-- A write of RING changes FLOOR, SELEN and SEL; a FLOOR that would make DEPTH - FLOOR negative or above 6 is ignored. -/
def ringWrite (q : Seq) (v : BitVec 64) : Seq :=
  let fl : BitVec 16 := bits v 48 16
  let ok := fl.toNat ≤ q.depth.toNat && q.depth.toNat - fl.toNat ≤ 6
  { q with floor := if ok then fl else q.floor, selen := v.getLsbD 11, sel := bits v 8 3 }

/-- DTIME (R88): the low 48 bits of DT. -/
def State.dtime (s : State) (p : Proc) : BitVec 64 :=
  ((match p with | .dep d => s.depDt d | _ => s.dt).setWidth 48 : BitVec 48).setWidth 64

/-- A system register as MFSR reads it. -/
def srRead (s : State) (p : Proc) (n : Nat) : BitVec 64 :=
  let q := s.seq p
  match n with
  | 0 => match p with | .core t => (s.tiles[t]).aflags.setWidth 64 | _ => 0
  | 1 => ringVal q
  | 2 => q.spillBase
  | 3 => q.trapBase
  | 4 => q.epc
  | 5 => q.ecause
  | 6 => q.eaddr
  | 7 => q.taskLbl
  | 8 => s.dtime p
  | 9 => match p with | .dep d => dctrlRead s d | _ => 0
  | 10 => match p with | .dep d => s.deps[d].wdtTimeout.setWidth 64 | _ => 0
  | 12 => match p with | .dep d => s.deps[d].dfsrc.setWidth 64 | _ => 0
  | 14 => match p with | .dep d => dfstatRead s.deps[d] | _ => 0
  | _ => 0

/-- A write of the register is allowed now (R88): RING and EPC only in the trap frame, ECAUSE, EADDR, DTIME and DFSTAT
never. -/
def srWritable (q : Seq) (n : Nat) : Bool :=
  match n with
  | 1 | 4 => q.inTrap
  | 5 | 6 | 8 | 14 => false
  | _ => true

/-- The effect of MTSR on a register that may be written. -/
def srWrite (s : State) (p : Proc) (n : Nat) (v : BitVec 64) : State :=
  match n with
  | 0 => match p with | .core t => s.modTile t fun x => { x with aflags := x.aflags &&& ~~~(bits v 0 7) } | _ => s
  | 1 => s.modSeq p (ringWrite · v)
  | 2 => s.modSeq p fun q => { q with spillBase := v &&& ~~~0x7F#64 }
  | 3 => s.modSeq p fun q => { q with trapBase := v &&& ~~~0x7#64 }
  | 4 => s.modSeq p fun q => { q with epc := v }
  | 7 => s.modSeq p fun q => { q with taskLbl := v &&& 0xFFFFFF07#64 }
  | 9 => match p with | .dep d => dctrlWrite s d v | _ => s
  | 10 => match p with | .dep d => dwdtWrite s d v | _ => s
  | 11 => match p with | .dep d => dreportWrite s d v | _ => s
  | 12 => match p with | .dep d => dfsrcWrite s d v | _ => s
  | 13 => match p with | .dep d => dfcmdWrite s d v | _ => s
  | _ => s

end Sys2Proof.Machine
end

