-- ==== Sys2Proof/Machine/FabOps.lean ====
section
/-! DEFINITION. Requests in the fabric: routes (R21, R22, R250, R251), labels (R252 to R256), issue into a source port,
access rules at a target (R267, R532, R563), and the return of an outcome to the requester (R124, R562). -/

namespace Sys2Proof.Machine

/-! ## Places and routes -/

/-- A place in the fabric: a router of a compute die's drift network, or the hub. -/
abbrev Loc := Option (Fin 4 × Fin 36)

/-- The router that a source attaches to: the tile's slot, or the hub. -/
def State.srcLoc (s : State) (src : Src) : Loc :=
  if src.toNat < 0x100 then
    match finOf 128 (src.toNat / 2) with
    | some lc =>
      match s.tileOf lc with
      | some t => match finOf 36 (tileSlot t) with | some r => some (tileDie t, r) | none => none
      | none => none
    | none => none
  else none

/-- The router of die-store bank `b`: the b-th non-corner edge router, clockwise from (0, 1) (R250). -/
def bankRouter (b : Nat) : Nat :=
  if b < 4 then 1 + b else if b < 8 then 6 * (b - 3) + 5 else if b < 12 then 30 + (12 - b) else 6 * (16 - b)

/-- The router of a crosscut's port on a die (R250). Crosscuts are numbered XH0a, XH0b to XH3b, XC01, XC12, XC23, XC30. -/
def crosscutRouter (d x : Nat) : Fin 36 :=
  if x < 8 then (if x % 2 = 0 then 30 else 35)
  else if x - 8 = d then 5 else 0

/-- The dies at the ends of a ring crosscut: x and the next one round. -/
def ringOther (x d : Nat) : Nat := if x - 8 = d then (d + 1) % 4 else x - 8

def xHub (d ab : Nat) : Nat := 2 * d + ab

/-- The ring crosscut between two neighbouring dies. -/
def ringBetween (a b : Nat) : Option Nat :=
  if (a + 1) % 4 = b then some (8 + a) else if (b + 1) % 4 = a then some (8 + b) else none

def State.xOk (s : State) (x : Nat) : Bool := match finOf 12 x with | some i => !(s.fab.xcuts[i]).failed | none => false

/-- Crosscuts from one place's die to another, in order (R21, R22): a and b of a pair by source bit 0, the other one of the
pair when it has failed, and a route of two hops through the hub or a neighbouring die when a ring crosscut or a pair has
failed; none where no such route is left. `none` stands for the hub. -/
def State.crosscuts (s : State) (src : Src) : Option Nat → Option Nat → List Nat
  | none, none => []
  | some a, none => toHub a
  | none, some b => (toHub b).reverse
  | some a, some b =>
    if a = b then []
    else
      let direct := match ringBetween a b with | some x => [x].filter s.xOk | none => []
      if !direct.isEmpty then direct
      else
        match hubX a, hubX b with
        | some x, some y => [x, y]
        | _, _ => if (ringBetween a b).isSome then [] else ([(a + 1) % 4, (a + 3) % 4].findSome? (via a b)).getD []
where
  hubX (d : Nat) : Option Nat := [xHub d (src.toNat % 2), xHub d (1 - src.toNat % 2)].find? s.xOk
  via (a b c : Nat) : Option (List Nat) :=
    match ringBetween a c, ringBetween c b with
    | some x, some y => if s.xOk x && s.xOk y then some [x, y] else none
    | _, _ => none
  /-- to the hub, through a ring neighbour where both hub crosscuts of the die have failed -/
  toHub (d : Nat) : List Nat :=
    match hubX d with
    | some x => [x]
    | none =>
      ([(d + 1) % 4, (d + 3) % 4].findSome? fun n =>
        match ringBetween d n, hubX n with
        | some x, some y => if s.xOk x then some [x, y] else none
        | _, _ => none).getD []

/-- The output of a router of a die: 0 up, 1 right, 2 down, 3 left, 4 the local one. -/
def routerOut (d : Fin 4) (r c : Nat) (p : Fin 5) : Option Arb := (finOf 36 (6 * r + c)).map fun x => .router d x p

/-- The outputs along column `c` from row `r0` to row `r1`. -/
def alongColumn (d : Fin 4) (c r0 r1 : Nat) : List (Option Arb) :=
  if r0 ≤ r1 then (List.range (r1 - r0)).map fun i => routerOut d (r0 + i) c 2
  else (List.range (r0 - r1)).map fun i => routerOut d (r0 - i) c 0

/-- The outputs along row `r` from column `c0` to column `c1`. -/
def alongRow (d : Fin 4) (r c0 c1 : Nat) : List (Option Arb) :=
  if c0 ≤ c1 then (List.range (c1 - c0)).map fun i => routerOut d r (c0 + i) 1
  else (List.range (c0 - c1)).map fun i => routerOut d r (c0 - i) 3

/-- Router outputs along one die (R251): a request takes the column first and then the row, a response the row first and then
the column; the last output is the local one. -/
def meshPath (response : Bool) (d : Fin 4) (a b : Fin 36) : List Arb :=
  let r0 := a.val / 6; let c0 := a.val % 6; let r1 := b.val / 6; let c1 := b.val % 6
  let way := if response then alongRow d r0 c0 c1 ++ alongColumn d c1 r0 r1 else alongColumn d c0 r0 r1 ++ alongRow d r1 c0 c1
  (way ++ [routerOut d r1 c1 4]).filterMap id

/-- Crosscut transmit ports and the mesh or hub switch between them, from a place along a list of crosscuts, with the place
reached. -/
def walkCrosscuts (response : Bool) : Loc → List Nat → List Arb × Loc
  | l, [] => ([], l)
  | none, x :: xs =>
    -- at the hub: switch output towards the crosscut, then its transmit port
    match finOf 12 x, finOf 4 (x / 2) with
    | some i, some d =>
      let (r, l) := walkCrosscuts response (some (d, crosscutRouter d.val x)) xs
      (.hubSwitch (match finOf 16 (4 + x) with | some n => n | none => 0) :: .crosscut i false :: r, l)
    | _, _ => ([], none)
  | some (d, a), x :: xs =>
    match finOf 12 x with
    | none => ([], some (d, a))
    | some i =>
      let p := meshPath response d a (crosscutRouter d.val x)
      if x < 8 then
        let (r, l) := walkCrosscuts response none xs
        (p ++ .crosscut i true :: r, l)
      else
        let o := ringOther x d.val
        match finOf 4 o with
        | some od =>
          let (r, l) := walkCrosscuts response (some (od, crosscutRouter o x)) xs
          (p ++ .crosscut i (decide (d.val < o)) :: r, l)
        | none => (p, some (d, a))

/-- The die of a place; none for the hub. -/
def locDie (l : Loc) : Option Nat := l.map fun x => x.1.val

/-- A way is left from one place to another (R22). -/
def State.wayOk (s : State) (src : Src) (a b : Loc) : Bool :=
  locDie a == locDie b || !(s.crosscuts src (locDie a) (locDie b)).isEmpty

/-- The arbiters from one place to another, for the traffic of a source. -/
def State.path (s : State) (response : Bool) (src : Src) (a b : Loc) : List Arb :=
  let (p, l) := walkCrosscuts response a (s.crosscuts src (locDie a) (locDie b))
  match l, b with
  | some (d, x), some (_, y) => p ++ meshPath response d x y
  | _, _ => p

/-- Subchannels in service, ascending (R273 ff.). -/
def inservList (m : BitVec 16) : List Nat := (List.range 16).filter fun i => m.getLsbD i

/-- The region of the image that holds an address. -/
def State.regionOf (s : State) (a : Nat) : Option Region :=
  if s.fab.loaded then s.prog.img.regions.find? fun r => r.base ≤ a && a < r.base + r.size else none

/-- The layout, as an in-service mask, at an offset of a region (R308). -/
def Region.layout (r : Region) (now : BitVec 16) (off : Nat) : BitVec 16 :=
  r.segs.foldl (fun m x => if x.1 ≤ off then x.2 else m) now

/-- The place of a byte of DRAM: base, size and class of its region, and the subchannels of its layout. Outside every region the
placement of a U region based at 0 is used. -/
structure DramPlace where
  base : Nat
  size : Nat
  cls : RClass
  subs : List Nat

def State.placeOf (s : State) (a : Nat) : DramPlace :=
  match s.regionOf a with
  | some r => { base := r.base, size := r.size, cls := r.cls, subs := inservList (r.layout s.dmc.inserv (a - r.base)) }
  | none => { base := 0, size := s.fuse.dramBytes, cls := .u, subs := inservList s.dmc.inserv }

/-- The subchannel at a place of the layout, modulo its width. -/
def DramPlace.sub (p : DramPlace) (i : Nat) : Nat := p.subs.getD (i % p.subs.length) 0

/-- Bytes of data in a stripe (R277). -/
def DramPlace.stripe (p : DramPlace) : Nat := 64 * (p.subs.length - 2)

/-- The primary copy's subchannel (R276), and of an E region the data chunk's (R277). -/
def DramPlace.primary (p : DramPlace) (a : Nat) : Nat :=
  let o := a - p.base
  if p.cls = .e && 2 < p.subs.length then p.sub (o % p.stripe / 64 + o / p.stripe) else p.sub (o / 256)

/-- The mirror copy's subchannel (R276). -/
def DramPlace.mirror (p : DramPlace) (a : Nat) : Nat := p.sub ((a - p.base) / 256 + p.subs.length / 2)

/-- The subchannel of a stripe's parity chunk, P or Q (R277). -/
def DramPlace.parity (p : DramPlace) (q : Bool) (a : Nat) : Nat :=
  p.sub (p.subs.length - (if q then 1 else 2) + (a - p.base) / p.stripe)

/-- Address of the first byte of a stripe. -/
def DramPlace.start (p : DramPlace) (a : Nat) : Nat := p.base + (a - p.base) / p.stripe * p.stripe

/-- The subchannel that holds a byte of DRAM. -/
def State.subOf (s : State) (a : Nat) : Nat := (s.placeOf a).primary a

/-- The place of a tile, of a die-store bank, and of a die's power controller (R250). -/
def tileLoc (t : Fin 136) : Loc := (finOf 36 (tileSlot t)).map fun r => (tileDie t, r)
def bankLoc (d : Fin 4) (b : Nat) : Loc := (finOf 36 (bankRouter b)).map fun r => (d, r)
def dieCtlLoc (d : Fin 4) : Loc := some (d, 35)

/-- Where a target stands; `tile` is the tile that a logical window leads to. -/
def targetLoc (tile : Option (Fin 136)) : Target → Loc
  | .localPhys t _ => tileLoc t
  | .localLog _ _ => tile.bind tileLoc
  | .dieStore d off => bankLoc d (off / 64 % 16)
  | .csr off => if 0x2000000 ≤ off then (finOf 4 ((off - 0x2000000) / 0x400000)).bind dieCtlLoc else none
  | _ => none

/-- The arbiters past the way to a target: the hub fabric's output towards it, and the queue of its bank or channel (R258). -/
def State.targetArbs (s : State) : Target → List Arb
  | .dram x => .hubSwitch 1 :: (match finOf 8 (s.subOf x / 2) with | some c => [.dram c] | none => [])
  | .dieStore d off => match finOf 16 (off / 64 % 16) with | some i => [.dieBank d i] | none => []
  | .hubStore off => .hubSwitch 0 :: (match finOf 32 (off / 64 % 32) with | some i => [.hubBank i] | none => [])
  | .csr off => if 0x2000000 ≤ off then [] else [.hubSwitch 2]
  | .partner _ => [.hubSwitch 3]
  | _ => []

/-- The arbiters on the way of a request from its source to its target, the target's own queue last (R258). -/
def State.route (s : State) (src : Src) (tile : Option (Fin 136)) (t : Target) : List Arb :=
  s.path false src (s.srcLoc src) (targetLoc tile t) ++ s.targetArbs t

/-- The arbiters on the way of a response back to the source of its request (R251, R259). With no way left, it waits at the
port of the hub crosscut that it would take. -/
def State.routeBack (s : State) (src : Src) (tile : Option (Fin 136)) (t : Target) : List Arb :=
  let a := targetLoc tile t
  let b := s.srcLoc src
  if s.wayOk src a b then s.path true src a b
  else
    let d := match locDie a with | some d => d | none => (locDie b).getD 0
    match finOf 12 (xHub d (src.toNat % 2)) with | some x => [.crosscut x (locDie a).isSome] | none => []

/-- Where a request's address leads: a logical window to the tile that it led to when the request was issued (R28), which must
still be in service (R470). -/
def State.reqTarget (s : State) (r : Req) : Except AccessErr Target :=
  match r.tile, decodeAddr s r.addr with
  | some t, .localLog lc off => if s.dieOk (tileDie t) then .ok (.localLog lc off) else .error .decode
  | _, _ => portCheck s r.addr r.len

/-- The tile that a target's logical window leads to now. -/
def State.tileAt (s : State) : Target → Option (Fin 136)
  | .localLog lc _ => s.tileOf lc
  | _ => none

/-! ## Labels (R254 to R256) -/

/-- The deadline field of DT: bits [26:3]. -/
def dlOf (dt : BitVec 64) : BitVec 24 := bits dt 3 24

/-- The classes programmed for a source: those of its agent's tasks (R255). -/
def State.classesOf (s : State) (src : Src) : List (BitVec 3) :=
  match agentOf src with
  | some a => (s.tasksOf a).map (·.cls)
  | none => []

/-- The class a request is issued with, and whether its label was fixed (R255). A partition agent's class above its ceiling,
or not programmed for it, becomes 0. -/
def State.issueClass (s : State) (src : Src) (c : BitVec 3) : BitVec 3 × Bool :=
  if isPartAgent src && s.fab.loaded then
    let l := s.classesOf src
    if l.contains c then (c, false) else (0, true)
  else (c, false)

/-- The class whose bucket regulates a request: that of the label, or the lowest programmed one for a fixed label (R255). -/
def State.bucketClass (s : State) (src : Src) (c : BitVec 3) (fixed : Bool) : BitVec 3 :=
  if fixed then (s.classesOf src).foldl (fun m x => if x.toNat < m.toNat then x else m) 7 else c

def State.dmaOf (s : State) (p : Proc) (k : Fin 32) : Option DmaSlot :=
  match p with
  | .core t => (s.tiles[t]).dma[k]
  | .mp => s.mpDma[k]
  | .dep _ => none

/-- A request reaches its source port (R260): it waits there until REQUEST_ISSUE. The answer is its number. -/
def State.submit (s : State) (src : Src) (addr len : Nat) (write : Bool) (data : List Byte) (cls : BitVec 3)
    (dl : BitVec 24) (org : Origin) : State × Nat :=
  let id := s.fab.nextId
  let r : Req := { id := id, src := src, part := s.partOf src, cls := cls, dl := dl, addr := addr, len := len, write := write,
                   data := data, org := org, hops := [], since := s.dt, arr := s.dt, promoted := none,
                   marked := match org with | .dma p k => ((s.dmaOf p k).map (·.marked)).getD false | _ => s.marked src,
                   iss := 0, tile := none, hold := false }
  (s.modFab fun f => { f with nextId := id + 1, ports := f.ports ++ [r] }, id)

/-- A change of every request on this side of the gallery links, and of the requests that responses under way answer. -/
def FabSt.mapReqs (x : FabSt) (f : Req → Req) : FabSt :=
  { x with ports := x.ports.map f, flight := x.flight.map f, arrived := x.arrived.map f, dramQ := x.dramQ.map f,
           resps := x.resps.map fun p => { p with req := f p.req } }

/-- The requests that have been issued and not completed. -/
def State.outstanding (s : State) : List Req :=
  s.fab.flight ++ s.fab.arrived ++ s.fab.dramQ ++ s.fab.resps.map (·.req) ++ (s.ifc.link.toList.flatMap fun k => k.out.map (·.2))

/-! ## Access rules (R33, R267, R532, R563) -/

/-- A partition holds the maintenance right (R237). -/
def State.maint (s : State) (p : BitVec 4) : Bool := s.fab.loaded && s.prog.img.parts.any fun e => e.num == p && e.maint

/-- The blocks that a partition agent and the partner may read: DEV, ADM, TIM (R532). -/
def csrOpen (off : Nat) : Bool :=
  off < 0x100000 || (0x200000 ≤ off && off < 0x300000) || (0x1100000 ≤ off && off < 0x1200000)

/-- The target performs the request under the table of R267; CSR writes are decided per register (R532). -/
def State.allowed (s : State) (src : Src) (part : BitVec 4) (t : Target) (len : Nat) (write : Bool) : Bool :=
  let sys := isSystem src
  let p := part.toNat
  let slices (off size : Nat) : Bool :=
    sys || !s.fab.loaded || !s.fab.modeP || (off / (size / 16) == p && (off + len - 1) / (size / 16) == p)
  let isDepObs := src.toNat == 0x102 || src.toNat == 0x103
  match t with
  | .dram a =>
    sys || !s.fab.loaded ||
    (match s.regionOf a with
     | some r => a + len ≤ r.base + r.size && (if write then r.wr.getLsbD p else r.rd.getLsbD p)
     | none => false)
  | .dieStore _ off => slices off 0x1000000
  | .hubStore off => slices off 0x2000000
  | .localLog lc _ =>
    sys || !s.fab.loaded || src.toNat / 2 == lc.val || part == s.partOfAgent lc.val
  | .localPhys _ _ =>
    src.toNat == 0x100 || src.toNat == 0x108 || isDepObs ||
    (src.toNat == 0x130 && s.maint part)
  | .csr off => sys || src.toNat == 0x130 || (!write && csrOpen off)
  | .partner _ => sys || s.maint part
  | .unmapped => false

/-- What a deputy may reach at all (R393). -/
def depMayRead : Target → Bool
  | .dram _ | .hubStore _ | .csr _ | .localPhys _ _ => true
  | _ => false

/-! ## A gallery link for a source (R503) -/

/-- The link that a source's requests use: SRC mod 2 with both UP, else the one that is UP. -/
def State.linkFor (s : State) (src : Src) : Option (Fin 2) :=
  let u0 := s.ifc.link[0].state == .up
  let u1 := s.ifc.link[1].state == .up
  if u0 && u1 then some (if src.toNat % 2 = 0 then 0 else 1) else if u0 then some 0 else if u1 then some 1 else none

/-- A message is handed to a link's transmitter. -/
def State.sendMsg (s : State) (l : Fin 2) (m : GalMsg) : State := s.modLink l fun k => { k with sent := m :: k.sent }

/-- LABEL of a message (R252, R498). -/
def labelOf (r : Req) : BitVec 48 :=
  BitVec.ofNat 48 (r.src.toNat * 2 ^ 31 + r.part.toNat * 2 ^ 27 + r.cls.toNat * 2 ^ 24 + r.dl.toNat)

/-! ## The outcome returns to the requester -/

def State.setDma (s : State) (p : Proc) (k : Fin 32) (d : Option DmaSlot) : State :=
  match p with
  | .core t => s.modTile t fun x => { x with dma := x.dma.set k d }
  | .mp => { s with mpDma := s.mpDma.set k d }
  | .dep _ => s

/-- The answer to a partner's request goes back over its link (R498, R504). -/
def State.answerPartner (s : State) (l : Fin 2) (tag : BitVec 16) (r : Req) (res : Except AccessErr (List Byte)) : State :=
  let base : GalMsg := { typ := 3, epoch := s.ifc.link[l].epoch, tag := tag, label := labelOf r, addr := 0, len := 0, data := [] }
  match res with
  | .ok d =>
    if r.write then s.sendMsg l { base with typ := 4 }
    else s.sendMsg l { base with data := d, len := BitVec.ofNat 8 ((d.length + 7) / 8 - 1) }
  | .error _ => s.sendMsg l { base with typ := 7 }

/-! ## Release conditions (R135, R139) -/

/-- Class and deadline of a sequencer's own requests: TASKLBL, and for a deputy class 7 with DT + 1 µs (R88, R393). -/
def State.seqLabel (s : State) (p : Proc) : BitVec 3 × BitVec 24 :=
  match p with
  | .dep d => (7, dlOf (s.depDt d + 1000))
  | _ => let l := (s.seq p).taskLbl; (bits l 0 3, bits l 8 24)

/-- No write of a KVAPP is outstanding (R183). -/
def State.kvDone (s : State) : Proc → Bool
  | .core t => (s.tiles[t]).kvOut == 0
  | _ => true

/-- A SIGNAL or SIGR may be sent (R135, R139). Earlier instructions have completed, since each takes effect as it issues. -/
def State.released (s : State) (p : Proc) (d : Bool) : Bool :=
  (s.seq p).postedSt == 0 && (!d || (((List.range 32).filterMap (finOf 32)).all fun k => (s.dmaOf p k).isNone) && s.kvDone p)

/-- A SIGR is sent over its link (R139, R498), or has its result 0 at once with no link in service (R503). -/
def State.sendSigr (s : State) (p : Proc) (x : PendSig) : State :=
  let src := s.srcOf p
  match s.linkFor src with
  | none =>
    (s.raise 0x53 src (s.partOf src) x.home).modSeq p fun q => writePred q x.pd false
  | some l =>
    let tag := s.ifc.link[l].nextTag
    let ep := s.ifc.link[l].epoch
    let (c, dl) := s.seqLabel p
    let lab : BitVec 48 := BitVec.ofNat 48 (src.toNat * 2 ^ 31 + (s.partOf src).toNat * 2 ^ 27 + c.toNat * 2 ^ 24 + dl.toNat)
    let m : GalMsg := { typ := 5, epoch := ep, tag := tag, label := lab, addr := BitVec.ofNat 40 (x.home + x.n.toNat * 2 ^ 14), len := 0, data := [] }
    let s := (s.sendMsg l m).modLink l fun k => { k with nextTag := k.nextTag + 1 }
    s.modSeq p fun q =>
      { q with sigrs := q.sigrs ++ [{ pd := x.pd, home := x.home, n := x.n, link := l, epoch := ep, tag := tag, result := none }] }

/-- A pending SIGNAL or SIGR is sent once its release condition holds. -/
def State.releaseCheck (s : State) (p : Proc) : State :=
  match (s.seq p).pendSig with
  | none => s
  | some x =>
    if s.released p x.d then
      let s := (s.modSeq p fun q => { q with pendSig := none }).advance p
      if x.remote then s.sendSigr p x else s.sendSignal (s.srcOf p) x.home x.n.toNat
    else s

/-- Of two failures, the one that comes first in program order (R124). -/
def firstFailure (a : Option TrapReq) (b : TrapReq) : TrapReq :=
  match a with
  | some x => if x.ord ≤ b.ord then x else b
  | none => b

/-- An error of a KVAPP's write becomes a deferred trap (R124, R185); one that comes earlier in program order stays. -/
def State.kvError (s : State) (t : Fin 136) (cause : BitVec 8) (a ord : Nat) : State :=
  s.modSeq (.core t) fun q =>
    { q with deferred := some (firstFailure q.deferred
        { cause := cause, deferred := true, eaddr := BitVec.ofNat 64 a, epc := q.pc, ord := ord }) }

/-- The outcome of a request reaches its requester (R93, R124, R562). -/
def State.respond (s : State) (r : Req) (res : Except AccessErr (List Byte)) : State :=
  match r.org with
  | .ld p =>
    s.modSeq p fun q =>
      { q with ldWait := q.ldWait.map fun w =>
          { w with resp := some (match res with
              | .ok d => .data (BitVec.ofNat 64 (leNat d))
              | .error e => .error e.cause (BitVec.ofNat 64 r.addr)) } }
  | .st p =>
    match res with
    | .ok _ => s.modSeq p fun q => { q with stAck := q.stAck + 1 }
    | .error e => s.modSeq p fun q => { q with stErr := q.stErr ++ [(e.cause, BitVec.ofNat 64 r.addr, r.ord)] }
  | .dma p k =>
    match s.dmaOf p k with
    | none => s
    | some d =>
      match res with
      | .error e => s.setDma p k (some { d with phase := .idle, fail := some e.code })
      | .ok bs =>
        if r.write then s.setDma p k (some { d with phase := .idle, done := d.done + r.len })
        else s.setDma p k (some { d with phase := .have bs })
  | .kv t =>
    let s := s.modTile t fun x => { x with kvOut := x.kvOut - 1 }
    match res with
    | .ok _ => s.releaseCheck (.core t)
    | .error e => s.kvError t e.cause r.addr r.ord
  | .host =>
    if s.ifc.hostOut = 0 then s
    else s.modIfc fun i => { i with hostOut := i.hostOut - 1, hostResp := some (match res with
      | .ok d => (d, 0)
      | .error .data | .error .dataLost => ([], 2)
      | .error _ => ([], 1)) }
  | .partner l tag => s.answerPartner l tag r res
  | .debug => s

/-- What a response says. -/
def Resp.result (p : Resp) : Except AccessErr (List Byte) := match p.err with | some e => .error e | none => .ok p.data

/-- A target's response goes back to the requester through the fabric's response channel (R251); with no arbiter on its way it
is there at once. -/
def State.sendResp (s : State) (r : Req) (t : Target) (res : Except AccessErr (List Byte)) : State :=
  match s.routeBack r.src r.tile t with
  | [] => s.respond r res
  | hops =>
    let p : Resp := { req := r, data := match res with | .ok d => d | .error _ => [], err := match res with | .ok _ => none | .error e => some e,
                      hops := hops, arr := s.dt }
    s.modFab fun f => { f with resps := f.resps ++ [p] }

/-- The lines of a snapshot's log (R247): 64 B in SRAM, 4 KB in DRAM. -/
def logLine (a : Nat) : Nat := if a < 0x1000000000 then 4096 else 64

/-- A write to memory outside the local stores, as a running snapshot sees it (R246, R247): the first marked write to a line
copies the old line to the log; an unmarked write to a logged line changes the log's copy too. -/
def State.snapLog (s : State) (a : Nat) (d : List Byte) (marked : Bool) : State :=
  match s.snap with
  | none => s
  | some k =>
    if 0x1000000000 ≤ a && a < 0x1400000000 then s
    else
      let g := logLine a
      if marked then
        let ls := (granules g a d.length).filter fun l => !(k.log.any fun e => e.1 == l)
        { s with snap := some { k with log := k.log ++ ls.map fun l => (l, memGetN s.mem l g) } }
      else
        let patch (e : Nat × List Byte) : Nat × List Byte :=
          (e.1, (List.range e.2.length).zipWith (fun i b => if a ≤ e.1 + i && e.1 + i < a + d.length then d.getD (e.1 + i - a) 0 else b) e.2)
        { s with snap := some { k with log := k.log.map patch } }

/-- A signal whose cut mark is given. -/
def State.sendMarked (s : State) (src : Src) (home n : Nat) (marked : Bool) : State :=
  s.sendTally home (.sig home src (s.partOf src) (BitVec.ofNat 8 n) marked none)

end Sys2Proof.Machine
end

