-- ==== Sys2Proof/Machine/Access.lean ====
section
/-! DEFINITION. Accesses performed at their target: local stores (R81, R82), die and hub store, DRAM (R281 to R292), and the
accesses that the device's own engines make. -/

namespace Sys2Proof.Machine

/-! ## The copies of a DRAM line (R276, R277)

The table of storage errors names a copy by a key: the line's address for the primary copy or data chunk, and the address of the
line, or of the stripe, past one of three marks for the mirror copy and for the parity chunks P and Q. -/

def lineOf (a : Nat) : Nat := a / 64 * 64

def mirrorKey (a : Nat) : Nat := 2 ^ 40 + a
def parityKey (q : Bool) (a : Nat) : Nat := (if q then 2 ^ 42 else 2 ^ 41) + a

/-- The line, or the stripe's first line, of a key. -/
def keyLine (k : Nat) : Nat := k % 2 ^ 40

/-- The key is that of a copy in DRAM. -/
def dramKey (k : Nat) : Bool := keyLine k < 0x1000000000 && k < 2 ^ 43

/-- Channel of a DRAM address (R276, R277). -/
def State.chanOf (s : State) (a : Nat) : Fin 8 := match finOf 8 (s.subOf a / 2) with | some c => c | none => 0

def chanOfSub (i : Nat) : Fin 8 := match finOf 8 (i / 2) with | some c => c | none => 0

/-- The subchannel of a copy. -/
def State.subOfKey (s : State) (k : Nat) : Nat :=
  let a := keyLine k
  let p := s.placeOf a
  if k < 2 ^ 40 then p.primary a else if k < 2 ^ 41 then p.mirror a else p.parity (decide (2 ^ 42 ≤ k)) a

/-- A subchannel cannot serve: it is no longer in service, or its channel is in ERROR (R302, R307). -/
def State.subDown (s : State) (i : Nat) : Bool := !s.dmc.inserv.getLsbD i || (s.dmc.ch[chanOfSub i]).state == .error

/-- Index of the region that holds an address. -/
def State.regionIdx (s : State) (a : Nat) : Option Nat :=
  if s.fab.loaded then s.prog.img.regions.findIdx? fun r => r.base ≤ a && a < r.base + r.size else none

/-- The class under which a line's uncorrectable error is handled; U outside every region. -/
def State.classAt (s : State) (a : Nat) : RClass := match s.regionOf a with | some r => r.cls | none => .u

/-- A corrected error of a copy (R290): written back, counted, recorded while nothing is, counted against the row (R304). -/
def State.dramCorrected (s : State) (k : Nat) : State :=
  let row := Config.dramRow k
  let sub := s.subOfKey k
  ({ s with ecc := eccSet s.ecc k none }).modCh (chanOfSub sub) fun c =>
    let l := lastDay c.rowCe row s.dt
    let n := (l.filter fun (x : Nat × BitVec 64) => x.1 == row).length
    let c := { c with ce := satInc c.ce, rowCe := l, cands := if s.dmc.rowCeLimit.toNat ≤ n then addCand c.cands row else c.cands }
    if c.errValid then c
    else { c with errValid := true, errUe := false, errSub := sub % 2 = 1, errAddr := BitVec.ofNat 42 (keyLine k / 64) }

/-- An uncorrectable error of a copy: counted, recorded and entered with its address (R290), its row a repair candidate (R304). -/
def State.dramUncorrected (s : State) (src : Src) (k : Nat) : State :=
  let sub := s.subOfKey k
  (s.modCh (chanOfSub sub) fun c =>
    { c with ue := satInc c.ue, errValid := true, errUe := true, errSub := sub % 2 = 1, errAddr := BitVec.ofNat 42 (keyLine k / 64),
             cands := addCand c.cands (Config.dramRow k) }).raise 0x13 src (s.partOf src) (keyLine k)

/-- A long operation has ended (R229). -/
def OpState.terminal : OpState → Bool
  | .done | .cancelled | .failed => true
  | _ => false

/-- Data is lost during the long operations that run (R292). -/
def State.noteLoss (s : State) : State :=
  s.modCmd fun c => { c with ops := c.ops.map fun o => o.map fun o => if o.started && !o.state.terminal then { o with lost := true } else o }

/-- Data of a line is lost (R292): the line is poisoned, the loss entered with its region and owner, and counted. -/
def State.loseU (s : State) (line : Nat) : State :=
  let s := ({ s with ecc := eccSet s.ecc line (some .poison) }).noteLoss
  match s.regionIdx line with
  | none => s.raise 0x14 0 0 0
  | some i =>
    let owner := match s.prog.img.regions[i]? with | some r => r.owner | none => 0
    (s.raise 0x14 0 owner i).modProg fun p =>
      { p with img := { p.img with regions := p.img.regions.modify i fun r => { r with dataLost := r.dataLost + 1 } } }

/-! ## Parity and reconstruction (R278) -/

/-- Multiplication by g = 0x02 in GF(2^8), field polynomial 0x11D. -/
def gfTimes2 (a : Byte) : Byte := if a.msb then (a <<< 1) ^^^ 0x1D else a <<< 1

/-- Multiplication in GF(2^8). -/
def gfMulN : Nat → Byte → Byte → Byte
  | 0, _, _ => 0
  | n + 1, a, b => (if b.getLsbD 0 then a else 0) ^^^ gfMulN n (gfTimes2 a) (b >>> 1)

def gfMul (a b : Byte) : Byte := gfMulN 8 a b

/-- The power g^j. -/
def gfPow : Nat → Byte
  | 0 => 1
  | j + 1 => gfTimes2 (gfPow j)

/-- The inverse: the 254th power. -/
def gfInv (a : Byte) : Byte :=
  let a2 := gfMul a a
  let a4 := gfMul a2 a2
  let a8 := gfMul a4 a4
  let a16 := gfMul a8 a8
  let a32 := gfMul a16 a16
  let a64 := gfMul a32 a32
  gfMul (gfMul (gfMul a2 a4) (gfMul a8 a16)) (gfMul (gfMul a32 a64) (gfMul a64 a64))

/-- P of a byte position: the sum of the data chunks' bytes, numbered from `j`. -/
def parityP (l : List (Nat × Byte)) : Byte := l.foldl (fun x d => x ^^^ d.2) 0

/-- Q of a byte position. -/
def parityQ (l : List (Nat × Byte)) : Byte := l.foldl (fun x d => x ^^^ gfMul (gfPow d.1) d.2) 0

/-- The byte of data chunk `j` from those that survive, `l`, and the parity bytes that do; `lost`: the data chunks that do not. -/
def reconstruct (l : List (Nat × Byte)) (lost : List Nat) (p q : Option Byte) (j : Nat) : Byte :=
  match lost, p, q with
  | [_], some p, _ => p ^^^ parityP l
  | [_], none, some q => gfMul (q ^^^ parityQ l) (gfInv (gfPow j))
  | [i, k], some p, some q =>
    let o := if j = i then k else i
    gfMul ((q ^^^ parityQ l) ^^^ gfMul (gfPow o) (p ^^^ parityP l)) (gfInv (gfPow i ^^^ gfPow k))
  | _, _, _ => 0

/-! ## Reading copies (R281, R289, R290, R302) -/

/-- What the read of a copy finds: its data; an uncorrectable error; or nothing to read. -/
inductive CopyRead where
  | ok | bad | gone
deriving DecidableEq, Repr

/-- The controller reads a copy. -/
def State.readCopy (s : State) (src : Src) (k : Nat) : State × CopyRead :=
  if s.subDown (s.subOfKey k) then (s, .gone)
  else
    match eccAt s.ecc k with
    | none => (s, .ok)
    | some .hard => (s.dramUncorrected src k, .bad)
    | some .poison => (s, .gone)
    | some _ => (s.dramCorrected k, .ok)

/-- Copies read one after the other: the state, and the keys of those that give no data. -/
def State.readCopies (src : Src) : List Nat → State → List Nat → State × List Nat
  | [], s, l => (s, l)
  | k :: ks, s, l =>
    match s.readCopy src k with
    | (s, .ok) => State.readCopies src ks s l
    | (s, _) => State.readCopies src ks s (l ++ [k])

/-- The data chunks of a line's stripe; past the region's end a chunk is zero. -/
def DramPlace.chunks (p : DramPlace) (a : Nat) : List Nat :=
  ((List.range (p.subs.length - 2)).map fun j => p.start a + 64 * j).filter fun x => x < p.base + p.size

/-- A U line is read: with an uncorrectable error its data is lost. -/
def State.readU (s : State) (src : Src) (a : Nat) : State :=
  match s.readCopy src a with
  | (s, .bad) => s.loseU a
  | (s, _) => s

/-- A line of an M region is read: from the mirror where the primary gives nothing, and then a failing primary is rewritten; with
neither, the data is lost. -/
def State.readM (s : State) (src : Src) (a : Nat) : State :=
  if eccAt s.ecc a = some .poison then s
  else
    match s.readCopy src a with
    | (s, .ok) => s
    | (s, r) =>
      match s.readCopy src (mirrorKey a) with
      | (s, .ok) => if r = .bad then { s with ecc := eccSet s.ecc a none } else s
      | (s, _) => { s with ecc := eccSet s.ecc (mirrorKey a) none }.loseU a

/-- A stripe is read whole: the parity chunks too when data chunks give nothing. Chunks with errors are restored and rewritten;
more than the parity restores are lost. -/
def State.readStripe (s : State) (src : Src) (a : Nat) : State :=
  let p := s.placeOf a
  let (s, gone) := State.readCopies src (p.chunks a) s []
  let (s, par) := match gone with
    | [] => (s, [])
    | _ => State.readCopies src [parityKey false (p.start a), parityKey true (p.start a)] s []
  if gone.length ≤ 2 - par.length then
    { s with ecc := gone.foldl (fun e k => if eccAt e k = some .hard then eccSet e k none else e) s.ecc }
  else gone.foldl (fun s k => if eccAt s.ecc k = some .poison then s else s.loseU k) s

/-- What is read for a line. -/
def State.readLine (s : State) (src : Src) (a : Nat) : State :=
  match s.classAt a with
  | .u => s.readU src a
  | .m => s.readM src a
  | .e => s.readStripe src a

/-- A line has no data to give: it is poisoned, or on a retired channel in a U region (R291). -/
def State.lineGone (s : State) (a : Nat) : Bool :=
  eccAt s.ecc a == some .poison || (s.classAt a == .u && !s.dmc.inserv.getLsbD (s.subOf a))

/-- The lines of `[a, a + n)` for which something is read: of a stripe the first that is touched. -/
def State.readUnits (s : State) (a n : Nat) : List Nat :=
  let p := s.placeOf a
  let l := granules 64 a n
  if p.cls = .e then l.filter fun x => x == lineOf a || p.start x == x else l

/-- A line's data in an E region, of whose chunks some are on channels that cannot serve: reconstructed from the others. -/
def State.stripeLine (s : State) (x : Nat) : List Byte :=
  let p := s.placeOf x
  let cs := (List.range (p.subs.length - 2)).zip ((List.range (p.subs.length - 2)).map fun j => p.start x + 64 * j)
  let byte (c b : Nat) : Byte := if c < p.base + p.size then memGet s.mem (c + b) else 0
  let all (b : Nat) : List (Nat × Byte) := cs.map fun c => (c.1, byte c.2 b)
  let out (c : Nat) : Bool := c < p.base + p.size && s.subDown (p.primary c)
  let lost := (cs.filter fun c => out c.2).map (·.1)
  let left (b : Nat) : List (Nat × Byte) := (cs.filter fun c => !out c.2).map fun c => (c.1, byte c.2 b)
  let j := (x - p.start x) / 64
  (List.range 64).map fun b =>
    reconstruct (left b) lost (if s.subDown (p.parity false x) then none else some (parityP (all b)))
      (if s.subDown (p.parity true x) then none else some (parityQ (all b))) j

/-- The line is a chunk of a stripe on a channel that cannot serve. -/
def State.rebuilt (s : State) (x : Nat) : Bool := s.classAt x == .e && s.subDown (s.subOf x)

/-- The bytes that a read delivers (R281): reconstructed where the chunk's channel cannot serve. -/
def State.dramBytes (s : State) (a n : Nat) : List Byte :=
  if (granules 64 a n).any s.rebuilt then
    (((granules 64 a n).flatMap fun x => if s.rebuilt x then s.stripeLine x else memGetN s.mem x 64).drop (a - lineOf a)).take n
  else memGetN s.mem a n

/-- A read of DRAM (R281, R290, R291). -/
def State.dramFetch (s : State) (src : Src) (a n : Nat) : State × Option AccessErr :=
  let s := (s.readUnits a n).foldl (fun s x => s.readLine src x) s
  (s, if (granules 64 a n).any s.lineGone then some .dataLost else none)

/-! ## Writing copies (R282, R283, R302) -/

/-- The read of a write's stripe (R282, R280): the chunks to be written and the parity, or, when a chunk is lost or fails, the
whole stripe. -/
def State.stripeBefore (s : State) (src : Src) (x : Nat) : State :=
  let p := s.placeOf x
  if (p.chunks x).any (fun c => s.subDown (p.primary c)) || eccAt s.ecc x = some .hard then s.readStripe src x
  else
    let (s, _) := s.readCopy src x
    let (s, bad) := State.readCopies src [parityKey false (p.start x), parityKey true (p.start x)] s []
    { s with ecc := bad.foldl (fun e k => eccSet e k none) s.ecc }

/-- What is read before the lines of `[a, a + n)` are written: of a U or M region the lines that are written in part. -/
def State.readBefore (s : State) (src : Src) (a n : Nat) (part : List Nat) : State :=
  if (s.placeOf a).cls = .e then (granules 64 a n).foldl (fun s x => s.stripeBefore src x) s
  else part.foldl (fun s x => s.readLine src x) s

/-- The copies of a line after it has been written: a copy on a channel in ERROR is not updated (R302). -/
def State.writeCopies (s : State) (x : Nat) : State :=
  let put (e : List (Nat × EccKind)) (k : Nat) : List (Nat × EccKind) :=
    eccSet e k (if s.subDown (s.subOfKey k) then some .hard else none)
  match s.classAt x with
  | .u => { s with ecc := eccSet s.ecc x none }
  | .m => { s with ecc := put (put s.ecc x) (mirrorKey x) }
  | .e =>
    let b := (s.placeOf x).start x
    { s with ecc := eccSet (eccSet (eccSet s.ecc x none) (parityKey false b) none) (parityKey true b) none }

/-- The MP rewrites the copies that a channel missed while it was in ERROR, from the other copies (R302). -/
def State.rewriteCopies (s : State) (c : Fin 8) : State :=
  let stale := (s.ecc.filter fun e => e.2 == .hard && e.1 < 2 ^ 41 && dramKey e.1 && s.classAt (keyLine e.1) == .m && chanOfSub (s.subOfKey e.1) == c).map (·.1)
  stale.foldl (fun s k =>
    match s.readCopy 0x100 (if k < 2 ^ 40 then mirrorKey k else keyLine k) with
    | (s, .ok) => { s with ecc := eccSet s.ecc k none }
    | (s, _) => { s with ecc := eccSet s.ecc k none }.loseU (keyLine k)) s

/-- The errors that have struck copies in DRAM: one more in the same symbol can still be corrected (R289). -/
def State.dramStrike (s : State) (ups : List Upset) : State :=
  { s with ecc := (ups.filter fun u => dramKey u.addr).foldl (fun e u =>
      let k := u.addr / 64 * 64
      match eccAt e k with
      | some .poison => e
      | some (.symbol i) => if u.hard || i ≠ u.symbol then eccSet e k (some .hard) else e
      | some _ => eccSet e k (some .hard)
      | none => eccSet e k (some (if u.hard then .hard else .symbol u.symbol))) s.ecc }

/-! ## Die store and hub store: a check per 64-bit word, as for local stores -/

def State.sramWords (s : State) (src : Src) : List Nat → State × Option AccessErr
  | [] => (s, none)
  | w :: ws =>
    match eccAt s.ecc w with
    | none => State.sramWords s src ws
    | some .single => State.sramWords ({ s with ecc := eccSet s.ecc w none }.modWear fun v => v.rowCe s.dt (w / 64 * 64)) src ws
    | some _ => ((s.modWear fun v => v.rowUe (w / 64 * 64)).raise 0x12 src (s.partOf src) w, some .data)

/-- A word's errors inside `[a, a + n)` are replaced by a write of the whole word or line. -/
def clearEcc (e : List (Nat × EccKind)) (g a n : Nat) : List (Nat × EccKind) :=
  e.filter fun c => !(a ≤ c.1 && c.1 + g ≤ a + n)

/-! ## A memory target -/

/-- The errors that have struck the granules a command reads. -/
def State.strike (s : State) (a n g : Nat) (ups : List Upset) : State :=
  { s with ecc := eccStrike s.ecc 0 g (ups.filter fun u => a / g * g ≤ u.addr && u.addr < a + n) }

/-- A read of `n` bytes at a memory target. -/
def accRead (s : State) (src : Src) (t : Target) (n : Nat) : State × Except AccessErr (List Byte) :=
  let local_ (t : Fin 136) (off : Nat) : State × Except AccessErr (List Byte) :=
    match readLocal s t off n src with
    | (s, .ok d) => (s, .ok d)
    | (s, .error _) => (s, .error .data)
  let sram (a : Nat) : State × Except AccessErr (List Byte) :=
    match s.sramWords src (granules 8 a n) with
    | (s, none) => (s, .ok (memGetN s.mem a n))
    | (s, some e) => (s, .error e)
  match t with
  | .dram a =>
    match s.dramFetch src a n with
    | (s, none) => (s, .ok (s.dramBytes a n))
    | (s, some e) => (s, .error e)
  | .localPhys t off => local_ t off
  | .localLog lc off => match s.tileOf lc with | some t => local_ t off | none => (s, .error .decode)
  | .dieStore d off => sram (dieBase d + off)
  | .hubStore off => sram (hubBase + off)
  | _ => (s, .error .decode)

/-- The lines or words of a write that it covers only in part. -/
def partials (g a n : Nat) : List Nat := (granules g a n).filter fun w => !(a ≤ w && w + g ≤ a + n)

/-- The device's bytes change, and the granules written whole lose their errors. -/
def State.putMem (s : State) (g a : Nat) (d : List Byte) : State :=
  { s with mem := memPutN s.mem a d, ecc := clearEcc s.ecc g a d.length }

/-- A write at a memory target (R82, R282, R283, R291); the old value of a line goes to the log of a running snapshot
first (R247). -/
def accWrite (s : State) (src : Src) (t : Target) (d : List Byte) (marked : Bool) : State × Option AccessErr :=
  let local_ (t : Fin 136) (off : Nat) : State × Option AccessErr :=
    match writeLocal s t off d src with
    | (s, none) => (s, none)
    | (s, some _) => (s, some .data)
  let sram (a : Nat) : State × Option AccessErr :=
    match s.sramWords src (partials 8 a d.length) with
    | (s, none) => ((s.snapLog a d marked).putMem 8 a d, none)
    | (s, some e) => (s, some e)
  match t with
  | .dram a =>
    let part := partials 64 a d.length
    let s := s.readBefore src a d.length part
    let retired (x : Nat) : Bool := s.classAt x == .u && !s.dmc.inserv.getLsbD (s.subOf x)
    if part.any s.lineGone || (granules 64 a d.length).any retired then (s, some .dataLost)
    else
      let s := { s.snapLog a d marked with mem := memPutN s.mem a d }
      ((granules 64 a d.length).foldl State.writeCopies s, none)
  | .localPhys t off => local_ t off
  | .localLog lc off => match s.tileOf lc with | some t => local_ t off | none => (s, some .decode)
  | .dieStore d' off => sram (dieBase d' + off)
  | .hubStore off => sram (hubBase + off)
  | _ => (s, some .decode)

/-! ## Accesses of the device's engines -/

/-- The checks on an access of an engine: its port's, and its target's. -/
def engCheck (s : State) (src : Src) (part : BitVec 4) (a n : Nat) (write : Bool) : State × Except AccessErr Target :=
  match portCheck s a n with
  | .error .link => (s.raise 0x53 src part a, .error .link)
  | .error e => (s.raiseDecode src part a, .error e)
  | .ok t => if s.allowed src part t n write then (s, .ok t) else (s.raiseViolation src part a write, .error .firewall)

/-- An engine reads memory. -/
def engRead (s : State) (src : Src) (a n : Nat) : State × Except AccessErr (List Byte) :=
  match engCheck s src (s.partOf src) a n false with
  | (s, .error e) => (s, .error e)
  | (s, .ok t) => accRead s src t n

/-- An engine writes memory. -/
def engWrite (s : State) (src : Src) (a : Nat) (d : List Byte) : State × Option AccessErr :=
  match engCheck s src (s.partOf src) a d.length true with
  | (s, .error e) => (s, some e)
  | (s, .ok t) => accWrite s src t d (s.marked src)

/-- A write whose failure the engine's own rules do not mention: the error stays in the aggregated error state. -/
def State.engPut (s : State) (src : Src) (a : Nat) (d : List Byte) : State := (engWrite s src a d).1

/-! ## Host memory (R216, R219) -/

def State.hostGet (s : State) (a n : Nat) : List Byte := memGetN s.hostMem a n

def State.hostPut (s : State) (a : Nat) (d : List Byte) : State := { s with hostMem := memPutN s.hostMem a d }

/-- The command processor or the copier reads a buffer in host or device memory. -/
def bufRead (s : State) (src : Src) (host : Bool) (a n : Nat) : State × Except AccessErr (List Byte) :=
  if host then (s, .ok (s.hostGet a n)) else engRead s src a n

def bufWrite (s : State) (src : Src) (host : Bool) (a : Nat) (d : List Byte) : State × Option AccessErr :=
  if host then (s.hostPut a d, none) else engWrite s src a d

end Sys2Proof.Machine
end

