-- ==== Sys2Proof/Machine/CmdOps.lean ====
section
/-! DEFINITION. Completions, long operations and their handles (R219 to R233), and the end of a STOP (R223). -/

namespace Sys2Proof.Machine

/-! ## Status codes (R226) -/

def csOk : BitVec 8 := 0x00
def csResource : BitVec 8 := 0x01
def csDeadline : BitVec 8 := 0x02
def csPartition : BitVec 8 := 0x03
def csBadImage : BitVec 8 := 0x04
def csMismatch : BitVec 8 := 0x05
def csSuspect : BitVec 8 := 0x06
def csCancelled : BitVec 8 := 0x07
def csBusy : BitVec 8 := 0x08
def csIllegal : BitVec 8 := 0x09
def csDataLost : BitVec 8 := 0x0A
def csHwFault : BitVec 8 := 0x0B

/-! ## Commands in hand -/

/-- The commands that pass through the MP's request queue (R221, R454): every one but NOP, STOP, QUERY_OP and FENCE. -/
def opIsMp (op : Nat) : Bool := !(op == 0x00 || op == 0x03 || op == 0x0B || op == 0x1F)

/-- A completion falls due: it waits for a free entry of its ring, or is discarded while the pair is disabled (R221, R521). -/
def State.post (s : State) (q : Fin 16) (c : ComplEnt) : State :=
  if (s.cmd.q[q]).enable then s.modQ q fun x => { x with held := x.held ++ [c] } else s

/-- The pair's command is no longer in hand. -/
def State.dropCmd (s : State) (q : Fin 16) : State :=
  (s.modQ q fun x => { x with cur := none }).modCmd fun c => { c with mpq := c.mpq.filter (· ≠ q) }

/-- The command in hand completes with one entry (R220, R224). -/
def State.finish (s : State) (q : Fin 16) (st : BitVec 8) (i0 i1 : BitVec 32) : State :=
  let x := s.cmd.q[q]
  match x.cur with
  | none => s
  | some e =>
    (s.dropCmd q).post q { cid := e.cid, sqhead := x.sqHead.setWidth 16, status := st, long := false, final := true,
                            info0 := i0, info1 := i1, irq := e.irq }

/-- The command of a row, if it is the one in hand of its pair with the row's opcode and is due: a command for the MP is
served in the order of the MP's queue, and not while the MP restarts (R454, R456). -/
def State.cmdDue (s : State) (q : Fin 16) (op : Nat) : Option CmdEntry :=
  match (s.cmd.q[q]).cur with
  | some e =>
    if e.opcode.toNat = op && (!opIsMp op || (s.cmd.mpq.head? == some q && !s.pwr.mpAbsent)) then some e else none
  | none => none

/-- A command allowed in the program states listed (R222); elsewhere ILLEGAL_STATE. -/
def withState (s : State) (q : Fin 16) (allowed : List PState) (body : State) : State :=
  if allowed.contains s.prog.state then body else s.finish q csIllegal 0 0

/-! ## Long operations (R227 to R233) -/

def OpState.code : OpState → Nat
  | .queued => 0 | .running => 1 | .suspending => 2 | .suspended => 3 | .cancelling => 4 | .done => 5 | .cancelled => 6 | .failed => 7

def handleOf (op : BitVec 8) (seq : BitVec 18) (slot : Fin 64) : BitVec 32 := op ++ seq ++ (BitVec.ofNat 6 slot.val)

def slots64 : List (Fin 64) := (List.range 64).filterMap (finOf 64)

/-- The slot for a new operation (R228): the first free one, else the terminal one with the lowest sequence number. -/
def State.freeSlot (s : State) : Option (Fin 64) :=
  match slots64.find? fun k => (s.cmd.ops[k]).isNone with
  | some k => some k
  | none =>
    slots64.foldl (fun (b : Option (Fin 64)) k =>
      match s.cmd.ops[k] with
      | some o =>
        if o.state.terminal then
          match b with
          | none => some k
          | some j => match s.cmd.ops[j] with | some p => if o.seq.toNat < p.seq.toNat then some k else b | none => b
        else b
      | none => b) none

def State.setOp (s : State) (k : Fin 64) (o : Option LongOp) : State := s.modCmd fun c => { c with ops := c.ops.set k o }

def State.modOp (s : State) (k : Fin 64) (f : LongOp → LongOp) : State :=
  s.modCmd fun c => { c with ops := vmod c.ops k (·.map f) }

/-- The sequence number after one (R227). -/
def seqNext (q : BitVec 18) : BitVec 18 := if q = 0x3FFFF then 1 else q + 1

/-- A new operation takes a slot; the answer is its slot and handle. -/
def State.newOp (s : State) (o : LongOp) (k : Fin 64) : State × BitVec 32 :=
  let sq := s.cmd.nextSeq
  ((s.modCmd fun c => { c with nextSeq := seqNext sq }).setOp k (some { o with seq := sq }), handleOf o.opcode sq k)

/-- A long command is accepted (R220): an acceptance entry with its handle, or BUSY with no free slot. -/
def State.acceptLong (s : State) (q : Fin 16) (onSlot : State → Fin 64 → State) : State :=
  let x := s.cmd.q[q]
  match x.cur with
  | none => s
  | some e =>
    match s.freeSlot with
    | none => s.finish q csBusy 0 0
    | some k =>
      let o : LongOp :=
        { seq := 0, opcode := e.opcode, state := .queued, started := false, q := q, cid := e.cid, irq := e.irq, hostmem := e.hostmem,
          p := e.p, progress := 0, permille := 0, result := none, order := x.order, sqhead := x.sqHead.setWidth 16,
          unposted := false, internal := false, desc := [], lost := false }
      let (s, h) := s.newOp o k
      let s := (s.dropCmd q).post q { cid := e.cid, sqhead := x.sqHead.setWidth 16, status := csOk, long := true, final := false,
                                       info0 := h, info1 := 0, irq := false }
      onSlot s k

/-- The final entry of an operation (R231). -/
def State.postFinal (s : State) (k : Fin 64) : State :=
  match s.cmd.ops[k] with
  | none => s
  | some o =>
    match o.result with
    | none => s
    | some (st, i0, i1) =>
      if o.internal then s
      else (s.modOp k fun o => { o with unposted := false }).post o.q
        { cid := o.cid, sqhead := o.sqhead, status := st, long := true, final := true, info0 := i0, info1 := i1, irq := o.irq }

/-- An operation enters a terminal state; its final entry falls due, after the restart for a CHECKSCAN (R231, R457). One that ends
well after a loss of data during it is FAILED with DATA_LOST (R292). -/
def State.endOp (s : State) (k : Fin 64) (t : OpState) (st : BitVec 8) (i0 i1 : BitVec 32) : State :=
  match s.cmd.ops[k] with
  | none => s
  | some o =>
    if o.state.terminal then s
    else
      let (t, st) := if o.lost && t = .done then (OpState.failed, csDataLost) else (t, st)
      let late := o.opcode = 0x11 && s.pwr.mpAbsent
      let s := s.modOp k fun o => { o with state := t, result := some (st, i0, i1), unposted := late, permille := if t = .done then 1000 else o.permille }
      if late then s else s.postFinal k

/-- An operation ends with no detail of its own: INFO0 is its handle (R219). -/
def State.endH (s : State) (k : Fin 64) (t : OpState) (st : BitVec 8) : State :=
  match s.cmd.ops[k] with
  | none => s
  | some o => s.endOp k t st (handleOf o.opcode o.seq k) 0

/-- The non-terminal operations. -/
def State.liveOps (s : State) : List (Fin 64 × LongOp) :=
  slots64.filterMap fun k => match s.cmd.ops[k] with | some o => if o.state.terminal then none else some (k, o) | none => none

/-- The operation that a handle names (R227). -/
def State.opOf (s : State) (h : BitVec 64) : Option (Fin 64 × LongOp) :=
  match finOf 64 (nbits h.toNat 0 6) with
  | none => none
  | some k =>
    match s.cmd.ops[k] with
    | some o => if h.toNat < 2 ^ 32 && o.seq.toNat ≠ 0 && h.toNat = (handleOf o.opcode o.seq k).toNat then some (k, o) else none
    | none => none

/-- What an operation acts on (R229): channels, a range of DRAM, a logical core, a tile, a crosscut, a check-value unit, or
everything its opcode can act on. -/
inductive OpTarget where
  | chans (m : Nat)
  | range (a n : Nat)
  | core (lc : Nat)
  | tile (t : Nat)
  | crosscut (x : Nat)
  | unit (u : Nat)
  | whole
deriving DecidableEq, Repr

def opTarget (o : LongOp) : OpTarget :=
  let p0 := (o.p[0]).toNat
  let p1 := (o.p[1]).toNat
  match o.opcode.toNat with
  | 0x11 => .unit ((o.p[2]).toNat)
  | 0x12 => if p0 = 0 && p1 = 0 then .range 0 (2 ^ 40) else .range p0 p1
  | 0x13 => .chans (p0 % 256)
  | 0x14 => .core p0
  | 0x15 => if p0 = 1 then .chans p1 else if p0 = 2 then .crosscut p1 else if p0 = 3 then .tile p1 else .whole
  | _ => .whole

def OpTarget.meets : OpTarget → OpTarget → Bool
  | .chans a, .chans b => a &&& b != 0
  | .range a n, .range b m => overlaps a n b m
  | .core a, .core b => a == b
  | .unit a, .unit b => a == b
  | .tile a, .tile b => a == b
  | .crosscut a, .crosscut b => a == b
  | .whole, .whole => true
  | _, _ => false

/-- An earlier operation of the same opcode on the same thing keeps this one QUEUED (R229). -/
def State.opBlocked (s : State) (k : Fin 64) : Bool :=
  match s.cmd.ops[k] with
  | none => true
  | some o => s.liveOps.any fun x => x.1 != k && x.2.opcode == o.opcode && x.2.order < o.order && (opTarget x.2).meets (opTarget o)

/-! ## SRAM repair at LOAD, UNLOAD, STOP and cold start (R472) -/

/-- Bank of a store row: group and bank of a local store (R79), bank of a die store or hub store (R36). -/
def sramBank (row : Nat) : Nat :=
  if row < 0x1400000000 then row / 0x40000 * 0x40000 + row / 32 % 16
  else if row < hubBase then row / 0x4000000 * 0x4000000 + row / 64 % 16
  else hubBase + row / 64 % 32

/-- One candidate row takes a redundant row of its bank, if one of the four is left; else it is unrepairable. -/
def repairRow (w : WearSt) (row : Nat) : WearSt :=
  if (w.sramSoft.filter fun r => sramBank r == sramBank row).length < 4 then { w with sramSoft := w.sramSoft ++ [row] }
  else { w with sramUnrep := addCand w.sramUnrep row }

/-- The MP repairs the candidate rows. -/
def State.sramRepairs (s : State) : State :=
  s.modWear fun w => { w.sramCand.foldl repairRow w with sramCand := [] }

/-! ## The program's cores (R223) -/

/-- The logical cores of the loaded program. -/
def State.progCores (s : State) : List (Fin 128) := ((List.range 128).filterMap (finOf 128)).filter fun n => s.prog.img.lcMask.getLsbD n.val

/-- Their tiles. -/
def State.progTiles (s : State) : List (Fin 136) := s.progCores.filterMap s.tileOf

/-- A STOP completes when no core of the program runs or waits any more (R223). -/
def State.stopCheck (s : State) : State :=
  match s.prog.stopQ with
  | none => s
  | some q =>
    if s.progTiles.all fun t => (s.tiles[t]).seq.run ≠ .running && (s.tiles[t]).seq.run ≠ .waiting then
      ((s.modProg fun p => { p with stopQ := none, state := .loaded }).sramRepairs).finish q csOk 0 0
    else s

/-- A core is asked to halt: HALT_REQ is set, and a wait is withdrawn (R223, R561). -/
def State.stopCore (s : State) (t : Fin 136) : State :=
  (s.modTile t fun x => { x with haltReq := true }).withdrawWait (.core t)

end Sys2Proof.Machine
end

