-- ==== Sys2Proof/Machine/Crc.lean ====
section
/-! DEFINITION. Cyclic redundancy checks: the procedure of R417, and CRC-32C of R234 as an instance of it. -/

namespace Sys2Proof.Machine

/-- The parameters of R417. -/
structure CrcParam where
  width : Nat
  poly : Nat
  init : Nat
  refin : Bool
  refout : Bool
  xorout : Nat
deriving DecidableEq, Repr

/-- The order of the low `w` bits reversed. -/
def reflect : Nat → Nat → Nat
  | 0, _ => 0
  | w + 1, x => (x % 2) * 2 ^ w + reflect w (x / 2)

/-- One bit enters the register. -/
def crcBit (width poly crc : Nat) (bit : Bool) : Nat :=
  let top := crc.testBit (width - 1)
  let sh := crc * 2 % 2 ^ width
  if top != bit then sh ^^^ poly else sh

/-- One byte enters the register. -/
def crcByte (c : CrcParam) (crc : Nat) (b : Byte) : Nat :=
  (List.range 8).foldl (fun r i => crcBit c.width c.poly r (if c.refin then b.getLsbD i else b.getLsbD (7 - i))) crc

/-- The register after some bytes. -/
def crcFold (c : CrcParam) (crc : Nat) (l : List Byte) : Nat := l.foldl (crcByte c) crc

/-- VALUE from the register. -/
def crcOut (c : CrcParam) (crc : Nat) : Nat := (if c.refout then reflect c.width crc else crc) ^^^ c.xorout

/-- VALUE of a range of bytes. -/
def crcValue (c : CrcParam) (l : List Byte) : Nat := crcOut c (crcFold c c.init l)

/-- CRC-32C (R234). -/
def crc32cParam : CrcParam :=
  { width := 32, poly := 0x1EDC6F41, init := 0xFFFFFFFF, refin := true, refout := true, xorout := 0xFFFFFFFF }

def crc32c (l : List Byte) : Nat := crcValue crc32cParam l

end Sys2Proof.Machine
end

