-- ==== Sys2Proof/Machine/Gulvos.lean ====
section
/-! DEFINITION. The Gulvos image (R234 to R237): its layout, and the tables of the engines as the image carries them. -/

namespace Sys2Proof.Machine

/-! ## Fields -/

abbrev Bytes := List Byte

def u8 (b : Bytes) (o : Nat) : Nat := leAt b o 1
def u16 (b : Bytes) (o : Nat) : Nat := leAt b o 2
def u32 (b : Bytes) (o : Nat) : Nat := leAt b o 4
def u64 (b : Bytes) (o : Nat) : Nat := leAt b o 8

/-- Bytes `[o, o + n)`. -/
def sub (b : Bytes) (o n : Nat) : Bytes := (b.drop o).take n

/-- The bytes are all zero. -/
def zeros (b : Bytes) (o n : Nat) : Bool := leAt b o n == 0

/-- The `i`-th record of `n` bytes from offset `o`. -/
def recAt (b : Bytes) (o n i : Nat) : Bytes := sub b (o + n * i) n

/-- `k` records of `n` bytes from offset `o`. -/
def recs (b : Bytes) (o n k : Nat) : List Bytes := (List.range k).map (recAt b o n)

def inRange (lo hi v : Nat) : Bool := lo ≤ v && v ≤ hi

/-- A tally home. -/
def homeOk (v : Nat) : Bool := v < 16384

/-- A hub-store offset on a 64-byte boundary, from which `n` bytes lie in the store. -/
def hubSpan (v n : Nat) : Bool := v % 64 == 0 && v + n ≤ 0x2000000

def hubOff (v : Nat) : Bool := hubSpan v 0

/-- The index of the first element that fails a test. -/
def firstBad {α : Type} (l : List α) (ok : α → Bool) : Option Nat := l.findIdx? fun x => !ok x

/-! ## Header and sections (R234) -/

/-- A section entry. -/
structure Section where
  typ : Nat
  tgt : Nat
  scrc : Nat
  off : Nat
  len : Nat
  dest : Nat
deriving DecidableEq, Repr

def nsect (b : Bytes) : Nat := u16 b 6

def sectionOf (e : Bytes) : Section :=
  { typ := u16 e 0, tgt := u16 e 2, scrc := u32 e 4, off := u64 e 8, len := u64 e 16, dest := u64 e 24 }

def sections (b : Bytes) : List Section := (recs b 64 32 (nsect b)).map sectionOf

def sectBytes (b : Bytes) (s : Section) : Bytes := sub b s.off s.len

/-- The bytes of the only section of a type; empty where there is none. -/
def tableOf (b : Bytes) (typ : Nat) : Bytes :=
  match (sections b).find? fun s => s.typ == typ with | some s => sectBytes b s | none => []

/-- Index of the section of a type. -/
def sectIdx (b : Bytes) (typ : Nat) : Nat := ((sections b).findIdx? fun s => s.typ == typ).getD 0

/-- Header, identity and header CRC (R234, R536). -/
def headerOk (b : Bytes) (len : Nat) : Bool :=
  64 ≤ b.length && u32 b 0 == 0x4F564C47 && u16 b 4 == 1 && inRange 3 1024 (nsect b) && u64 b 8 == len &&
  u16 b 16 == 0x4128 && u8 b 18 ≤ 0xB0 && 64 + 32 * nsect b ≤ b.length &&
  u32 b 60 == crc32c (sub b 0 60 ++ sub b 64 (32 * nsect b))

/-- A section lies in the image and its check value is right. -/
def scrcOk (b : Bytes) (s : Section) : Bool := s.off + s.len ≤ b.length && crc32c (sectBytes b s) == s.scrc

/-! ## Manifest (R235) -/

def nRegion (m : Bytes) : Nat := u16 m 36
def nTally (m : Bytes) : Nat := u16 m 38
def nKvSeq (m : Bytes) : Nat := u16 m 40
def nKvBind (m : Bytes) : Nat := u16 m 42
def offTally (m : Bytes) : Nat := 64 + 32 * nRegion m
def offKvSeq (m : Bytes) : Nat := offTally m + 16 * nTally m
def offKvBind (m : Bytes) : Nat := offKvSeq m + 16 * nKvSeq m
def manifestLen (m : Bytes) : Nat := offKvBind m + 8 * nKvBind m

def regionRecs (m : Bytes) : List Bytes := recs m 64 32 (nRegion m)
def tallyRecs (m : Bytes) : List Bytes := recs m (offTally m) 16 (nTally m)
def kvSeqRecs (m : Bytes) : List Bytes := recs m (offKvSeq m) 16 (nKvSeq m)
def kvBindRecs (m : Bytes) : List Bytes := recs m (offKvBind m) 8 (nKvBind m)

/-- The fields of a region record; the alignment of BASE is a separate check (R174). -/
def regionRecOk (r : Bytes) : Bool :=
  u64 r 8 % 4096 == 0 && u8 r 16 ≤ 2 && u8 r 17 < 16 && zeros r 22 10

def regionFrom (r : Bytes) : Region :=
  { base := u64 r 0, size := u64 r 8, cls := match u8 r 16 with | 1 => .m | 2 => .e | _ => .u,
    owner := BitVec.ofNat 4 (u8 r 17), rd := BitVec.ofNat 16 (u16 r 18), wr := BitVec.ofNat 16 (u16 r 20),
    dataLost := 0, segs := [] }

def tallyRecOk (r : Bytes) : Bool :=
  let mode := nbits (u8 r 2) 0 2
  let bar := (u8 r 3).testBit 4
  homeOk (u16 r 0) && u8 r 2 < 4 && (mode == 1 || mode == 2) && u8 r 3 < 32 && (mode == 1 || u16 r 4 ≤ 1) &&
  (!bar || mode == 1) && (if bar then inRange 2 128 (u8 r 6) else u8 r 6 == 0) && zeros r 7 1 &&
  (if bar then 1 ≤ u16 r 8 else u16 r 8 == 0) && zeros r 10 6

def tallyFrom (r : Bytes) : TallyDecl :=
  { home := u16 r 0, mode := if u8 r 2 = 2 then .event else .counting, part := BitVec.ofNat 4 (u8 r 3),
    barrier := (u8 r 3).testBit 4, init := u16 r 4, k := u8 r 6, lag := u16 r 8 }

/-- The KV formats (R175): INT8, FP8 E4M3, FP8 E5M2, FP16 by their codes of R38. -/
def kvFmtOk (f : Nat) (bs : Bool) : Bool := f == 0x1 || f == 0x6 || f == 0x7 || (f == 0x8 && !bs)

def kvSeqRecOk (m r : Bytes) : Bool :=
  u8 r 0 < 64 && u8 r 1 < 16 && 1 ≤ u16 r 2 && inRange 1 64 (u8 r 5) && inRange 32 256 (u16 r 6) && u16 r 6 % 32 == 0 &&
  u8 r 8 < 32 && kvFmtOk (u8 r 8 % 16) ((u8 r 8).testBit 4) && 1 ≤ u8 r 9 && u16 r 10 < nRegion m && zeros r 12 4

def kvSeqFrom (r : Bytes) : KvSeq :=
  { seq := u8 r 0, part := BitVec.ofNat 4 (u8 r 1), maxlen := u16 r 2, layers := u8 r 4, heads := u8 r 5, dh := u16 r 6,
    fmt := u8 r 8 % 16, bs := (u8 r 8).testBit 4, split := u8 r 9, region := u16 r 10 }

/-- The fields of a binding; an HCOUNT above 4 is left to check 7 (R176). -/
def kvBindRecOk (m : Bytes) (seqs : List KvSeq) (r : Bytes) : Bool :=
  (match seqs.find? fun q => q.seq == u8 r 0 with
   | some q => u8 r 2 + u8 r 3 ≤ q.heads
   | none => false) &&
  u8 r 1 < 128 && (leAt m 0 16).testBit (u8 r 1) && 1 ≤ u8 r 3 && u32 r 4 % 64 == 0 && u32 r 4 + 64 ≤ localSize

def kvBindFrom (r : Bytes) : KvBind := { seq := u8 r 0, lc := u8 r 1, hbase := u8 r 2, hcount := u8 r 3, addr := u32 r 4 }

def manifestOk (m : Bytes) : Bool := 64 ≤ m.length && zeros m 44 20 && m.length == manifestLen m

/-! ## Tasks (R236) -/

def taskFrom (r : Bytes) : Task :=
  { agent := u16 r 0, cls := BitVec.ofNat 3 (u8 r 2), overlap := (u8 r 2).testBit 3, part := BitVec.ofNat 4 (u8 r 2 / 16),
    crit := u8 r 3 % 8, shed := u16 r 4, pred := u16 r 6, period := u32 r 8, deadline := u32 r 12, offset := u32 r 16,
    wcc := u32 r 20, release := u16 r 24, releaseN := u8 r 26, tb := (u8 r 27).testBit 0, done := u16 r 28,
    migpts := u16 r 30, energy := u32 r 32, nrdDram := u16 r 36, nrdHub := u16 r 38, nrdDie := u16 r 40, nwait := u16 r 42,
    wdist := u8 r 44 % 16, wisland := u8 r 45, bytesDram := u32 r 48, bytesHub := u32 r 52, rateDram := u32 r 56,
    rateHub := u32 r 60 }

def isCoreAgent (a : Nat) : Bool := a < 128

/-- The fields of a task record are in range, its reserved ones 0 (R236, R261). -/
def taskRecOk (lcs : Nat) (n : Nat) (r : Bytes) : Bool :=
  let t := taskFrom r
  (if isCoreAgent t.agent then lcs.testBit t.agent && 1 ≤ t.migpts else inRange 0x100 0x107 t.agent) &&
  u8 r 3 ≤ 4 && (t.pred == 0xFFFF || t.pred < n) && inRange 1000 4000000000 t.period && inRange 1 t.period t.deadline &&
  t.offset < t.period && homeOk t.release && 1 ≤ t.releaseN && u8 r 27 < 2 && homeOk t.done && u8 r 44 ≤ 8 && t.wisland ≤ 4 &&
  zeros r 46 2 && (t.bytesDram == 0 || t.rateDram != 0) && (t.bytesHub == 0 || t.rateHub != 0)

/-- The task at the end of `k` steps of a PRED chain; `none` once the chain has ended. -/
def predWalk (ts : List Task) : Nat → Nat → Option Nat
  | 0, i => some i
  | k + 1, i =>
    match ts[i]? with
    | some t => if t.pred = 0xFFFF then none else predWalk ts k t.pred
    | none => none

/-- The PRED chain from a task runs into a cycle. -/
def predCyclic (ts : List Task) (i : Nat) : Bool := (predWalk ts ts.length i).isSome

/-- A task is in the PRED chain of another: shedding `j` sheds `i` too (R243). -/
def chainHas (ts : List Task) (i j : Nat) : Bool := (List.range ts.length).any fun k => predWalk ts (k + 1) i == some j

/-! ## Partitions (R237) -/

def npart (p : Bytes) : Nat := u8 p 1

def partFrom (r : Bytes) : PartEnt :=
  { num := BitVec.ofNat 4 (u8 r 0), split := (u8 r 1).testBit 0, maint := (u8 r 1).testBit 1, dram := u32 r 4, xcut := u32 r 8,
    shares := #v[u8 r 12, u8 r 13, u8 r 14, u8 r 15, u8 r 16] }

def partRecOk (r : Bytes) : Bool := u8 r 0 < 16 && u8 r 1 < 4 && zeros r 2 2 && zeros r 17 15

def partTableOk (p : Bytes) : Bool :=
  16 ≤ p.length && u8 p 0 ≤ 1 && inRange 1 16 (npart p) && zeros p 6 10 && p.length == 16 + 32 * npart p &&
  (recs p 16 32 (npart p)).all partRecOk && ((recs p 16 32 (npart p)).map (u8 · 0)).Nodup

/-! ## The table of the intake (R338, R309, R341) -/

/-- Stream record `n` of the pre-processing table. -/
def strRec (b : Bytes) (n : Nat) : Bytes := recAt b (16 + 64 + 64 + 256) 144 n

def portRecOk (r : Bytes) : Bool :=
  let on := u8 r 0 != 0
  (u8 r 0 == 0 || u8 r 0 == 1 || u8 r 0 == 2 || u8 r 0 == 4) && zeros r 1 1 && zeros r 14 2 &&
  (!on || (inRange 80 4500 (u16 r 2) && inRange 100 100000 (u32 r 8) && inRange 10 5000 (u16 r 12)))

def groupRecOk (r : Bytes) : Bool := inRange 1 100000 (u32 r 0) && zeros r 4 4

def ringRecOk (r : Bytes) : Bool :=
  inRange 1 64 (u8 r 0) && u8 r 1 < 64 && homeOk (u16 r 2) && homeOk (u16 r 4) && zeros r 7 1 &&
  hubSpan (u32 r 12) (u8 r 0 * u32 r 8) && hubSpan (u32 r 16) (64 * u8 r 0) && zeros r 20 12

def csiTypeOk (t : Nat) : Bool := t == 0x2A || t == 0x2B || t == 0x2C || t == 0x1E || t == 0x24

/-- The fields of the image chain (R318 to R335) of a stream record. -/
def chainOk (r : Bytes) : Bool :=
  (u8 r 14 == 0x1 || u8 r 14 == 0x6 || u8 r 14 == 0x8) && (u8 r 15 == 1 || u8 r 15 == 3) && 1 ≤ u16 r 4 && 1 ≤ u16 r 6 &&
  1 ≤ u16 r 16 && 1 ≤ u16 r 18

/-- Reserved bits of a stream record, in service or not. -/
def strRsv (r : Bytes) : Bool := nbits (u8 r 13) 2 2 == 0 && zeros r 141 3

def strRecOk (n : Nat) (r : Bytes) : Bool :=
  let kind := u8 r 0
  strRsv r && if kind = 0 then true
  else
    (if n < 16 then kind == 1 && u8 r 1 == n / 4 && u8 r 2 < 32 && csiTypeOk (u8 r 3) && chainOk r
     else if n < 48 then kind == 2 && u8 r 2 ≤ 2 && chainOk r && homeOk (u16 r 136)
     else kind == 3 && inRange 1 4096 (u16 r 24)) &&
    u8 r 1 < 4 && u16 r 8 ≤ 5000 && u8 r 10 < 8 && u8 r 11 < 8 && inRange 1 8 (u8 r 12 % 16) && u8 r 12 / 16 ≤ 8 &&
    u8 r 13 % 4 ≤ 2 && hubOff (u32 r 28) && hubOff (u32 r 116) && hubOff (u32 r 124) && homeOk (u16 r 120) && homeOk (u16 r 122) &&
    hubOff (u32 r 128) && inRange 1 60 (u8 r 140)

def preTableOk (b : Bytes) : Bool :=
  b.length == 16 + 64 + 64 + 256 + 56 * 144 && u16 b 0 == 1 && zeros b 2 2 && zeros b 10 6 &&
  (recs b 16 16 4).all portRecOk && (recs b 80 8 8).all groupRecOk && (recs b 144 32 8).all ringRecOk &&
  (List.range 56).all fun n => strRecOk n (strRec b n)

/-! ## The table of the fusion engine (R364) -/

def fusHdrOk (b : Bytes) : Bool :=
  u16 b 0 == 1 && inRange 2 4 (u8 b 2) && u8 b 3 < 2 && u32 b 4 % 4096 == 0 && hubSpan (u32 b 4) (u8 b 2 * 0x240000) &&
  ((List.range 4).all fun i => u16 b (8 + 2 * i) == 0xFFFF || homeOk (u16 b (8 + 2 * i))) && inRange 1 100000 (u32 b 16) &&
  u8 b 20 < 4 && u8 b 21 < 2 && inRange 5 1000 (u16 b 22) && ((List.range 4).all fun i => u8 b (28 + i) ≤ 62) &&
  inRange 250 10000 (u16 b 36) && inRange 2 32 (u8 b 39) && u8 b 41 < 2 && 1 ≤ u16 b 42 && 1 ≤ u8 b 66 &&
  inRange 1 127 (u8 b 67) && 1 ≤ u8 b 69 && 1 ≤ u8 b 70 && inRange 1 16 (u8 b 71) && inRange 1 181 (u8 b 73) && zeros b 74 54

def fusInRec (b : Bytes) (i : Nat) : Bytes := recAt b 384 64 i

/-- A stream is the only one of its intake ring. -/
def soleOfRing (pre : Bytes) (n : Nat) : Bool :=
  u8 (strRec pre n) 0 == 3 &&
  (List.range 56).all fun k => k == n || u8 (strRec pre k) 0 == 0 || u8 (strRec pre k) 10 != u8 (strRec pre n) 10

/-- Bytes of a buffer's content: BUFBYTES, or the slot bytes of a points input's ring. -/
def fusInBytes (pre r : Bytes) : Nat := if u8 r 0 = 2 then u32 (recAt pre 144 32 (u8 (strRec pre (u8 r 6)) 10)) 8 else u32 r 12

def fusInOk (pre r : Bytes) : Bool :=
  let kind := u8 r 0
  zeros r 25 3 && zeros r 36 28 && if kind = 0 then true
  else
    kind ≤ 3 &&
    (if kind = 2 then zeros r 1 5 && zeros r 8 8 && inRange 48 55 (u8 r 6) && soleOfRing pre (u8 r 6)
     else inRange 1 64 (u8 r 1) && homeOk (u16 r 2) && homeOk (u16 r 4) && hubSpan (u32 r 8) (u8 r 1 * (64 + u32 r 12))) &&
    1 ≤ u8 r 7 && hubSpan (u32 r 16) (64 + fusInBytes pre r) && u8 r 22 < 64 && (u8 r 23 < 64 || u8 r 23 == 0xFF)

def fusTableOk (pre b : Bytes) : Bool :=
  b.length == 384 + 64 * 32 && fusHdrOk b && (List.range 32).all fun i => fusInOk pre (fusInRec b i)

/-! ## The table of the planner (R379, R380, R387) -/

def plnNprim (b : Bytes) : Nat := u16 b 2
def plnNsample (b : Bytes) : Nat := u16 b 4
def plnPrim (b : Bytes) (i : Nat) : Bytes := recAt b 128 16 i
def plnSampleOff (b : Bytes) : Nat := 128 + 16 * plnNprim b
def plnFootOff (b : Bytes) : Nat := plnSampleOff b + 8 * plnNsample b

def primOk (ns : Nat) (r : Bytes) : Bool :=
  u8 r 0 < 16 && u8 r 1 < 32 && u8 r 2 < 16 && u8 r 3 < 32 && inRange 1 8 (u8 r 6) && u8 r 7 == u8 r 6 &&
  u16 r 10 + u8 r 7 ≤ ns && zeros r 12 4

/-- Primitive records in ascending order of (H0, S0). -/
def primsSorted (b : Bytes) : Bool :=
  (List.range (plnNprim b - 1)).all fun i =>
    let k (r : Bytes) : Nat := u8 r 0 * 32 + u8 r 1
    k (plnPrim b i) ≤ k (plnPrim b (i + 1))

def plnHdrOk (b : Bytes) : Bool :=
  let opt (v : Nat) : Bool := v == 0xFFFF || homeOk v
  u16 b 0 == 1 && inRange 1 4096 (plnNprim b) && inRange 1 32768 (plnNsample b) && u8 b 6 < 2 && 1 ≤ u8 b 7 && homeOk (u16 b 8) &&
  opt (u16 b 10) && opt (u16 b 12) && inRange 1 16 (u8 b 14) && zeros b 15 1 && u32 b 16 + 576 * u8 b 14 ≤ 0x2000000 &&
  hubSpan (u32 b 20) 2176 &&
  homeOk (u16 b 24) && homeOk (u16 b 26) && homeOk (u16 b 28) && inRange 1 512 (u16 b 30) && hubSpan (u32 b 32) (64 * u16 b 30) &&
  u16 b 36 ≤ 200 && inRange 1 8 (u8 b 38) && zeros b 39 1 && ((List.range 8).all fun i => 1 ≤ u8 b (40 + i)) &&
  zeros b 48 80

def plnTableOk (fus b : Bytes) : Bool :=
  128 ≤ b.length && plnHdrOk b && b.length == plnFootOff b + 2048 && (u8 b 6 == 0 || (u8 fus 3).testBit 0) &&
  ((List.range (plnNprim b)).all fun i => primOk (plnNsample b) (plnPrim b i)) && primsSorted b &&
  ((recs b (plnSampleOff b) 8 (plnNsample b)).all fun r => u8 r 4 < 64 && zeros r 5 1)

/-! ## The table of the check-value units (R418, R419, R427) -/

def chkNjob (b : Bytes) : Nat := u16 b 2
def chkJob (b : Bytes) (i : Nat) : Bytes := recAt b 16 80 i

/-- A scan descriptor is valid (R419). -/
def scanOk (s : State) (d : Bytes) : Bool :=
  let w := u8 d 56 % 64 + 1
  let mode := u8 d 57 % 4
  let len := u64 d 8
  let fits (v : Nat) : Bool := v < 2 ^ w
  let mapped (a n : Nat) : Bool := (decodeAddr s a != .unmapped) && (decodeAddr s (a + n - 1) != .unmapped) && a + n ≤ 2 ^ 48
  let refOk (v : Nat) : Bool := v % 8 == 0 && mapped v 8
  u64 d 0 < 2 ^ 48 && inRange 1 (2 ^ 40) len && fits (u64 d 16) && fits (u64 d 24) && fits (u64 d 32) && u8 d 57 < 4 && zeros d 58 6 &&
  mapped (u64 d 0) len &&
  (match mode with
   | 0 => u64 d 40 == 0 && u64 d 48 == 0
   | 1 => fits (u64 d 40) && u64 d 48 == 0
   | 2 => refOk (u64 d 40) && u64 d 48 == 0
   | _ => refOk (u64 d 40) && refOk (u64 d 48))

/-- The partition of a unit's task (R254, R420): the one that the job's START releases, else the unit's first. -/
def jobPart (img : Image) (unit start : Nat) : BitVec 4 :=
  let ts := img.tasks.filter fun t => t.agent == 0x104 + unit
  match ts.find? fun t => t.release == start with
  | some t => t.part
  | none => match ts with | t :: _ => t.part | [] => 0

/-- A range that a source of a partition may read, under an image's firewalls (R267). -/
def mayRead (s : State) (src : Src) (p : BitVec 4) (a n : Nat) : Bool :=
  match portCheck s a n with
  | .ok t => s.allowed src p t n false
  | .error _ => false

/-- A job record; `s` has the image's tables in force. -/
def jobRecOk (s : State) (r : Bytes) : Bool :=
  let d := sub r 0 64
  let u := u8 r 64
  let src : Src := BitVec.ofNat 12 (0x124 + u)
  let p := jobPart s.prog.img u (u16 r 66)
  let mode := u8 d 57 % 4
  u < 4 && zeros r 65 1 && zeros r 70 2 && homeOk (u16 r 66) && homeOk (u16 r 68) && scanOk s d &&
  mayRead s src p (u64 d 0) (u64 d 8) && (mode < 2 || mayRead s src p (u64 d 40) 8) && (mode < 3 || mayRead s src p (u64 d 48) 8)

def chkTableOk (s : State) (b : Bytes) : Bool :=
  16 ≤ b.length && u16 b 0 == 1 && chkNjob b ≤ 256 && zeros b 4 12 && b.length == 16 + 80 * chkNjob b &&
  (recs b 16 80 (chkNjob b)).all (jobRecOk s)

/-! ## The whole image -/

/-- What the loader keeps of an image. -/
def parseImage (b : Bytes) : Image :=
  let m := tableOf b 0x10
  let tt := tableOf b 0x11
  let p := tableOf b 0x12
  { lcMask := BitVec.ofNat 128 (leAt m 0 16)
    dieBytes := #v[u32 m 16, u32 m 20, u32 m 24, u32 m 28]
    hubBytes := u32 m 32
    regions := (regionRecs m).map regionFrom
    tallies := (tallyRecs m).map tallyFrom
    kvSeqs := (kvSeqRecs m).map kvSeqFrom
    kvBinds := (kvBindRecs m).map kvBindFrom
    tasks := (recs tt 0 64 (tt.length / 64)).map taskFrom
    modeP := u8 p 0 == 1
    snapRate := u32 p 2
    parts := (recs p 16 32 (npart p)).map partFrom
    pre := tableOf b 0x20
    fus := tableOf b 0x21
    pln := tableOf b 0x22
    chk := tableOf b 0x23
    copies := ((sections b).filter fun s => s.typ < 0x10).map fun s => (s.dest, s.off, s.len) }

/-- A device in which an image's tables are in force. -/
def State.withImage (s : State) (img : Image) : State :=
  (s.modProg fun p => { p with img := img }).modFab fun f =>
    { f with loaded := true, modeP := img.modeP,
             hostPart := (img.parts.filter (·.maint)).foldl (fun m e => if m = 16 || e.num.toNat < m then e.num.toNat else m) 16 |>
               fun m => if m = 16 then 0 else BitVec.ofNat 4 m }

end Sys2Proof.Machine
end

