-- ==== Sys2Proof/Machine/Admission.lean ====
section
/-! DEFINITION. The checks of LOAD (R238, R239), re-admission plans (R243, R244), and the core map at LOAD (R469). -/

namespace Sys2Proof.Machine

/-- A check fails: its reason, the index concerned, and the signed margin (R238). -/
structure Refuse where
  reason : Nat
  index : Nat
  margin : Int
deriving DecidableEq, Repr

/-- A check that must hold. -/
def need (ok : Bool) (reason index : Nat) (margin : Int) : Except Refuse Unit :=
  if ok then .ok () else .error { reason := reason, index := index, margin := margin }

/-- Every element passes a check, the first failure being reported; elements carry their index. -/
def needAll {α : Type} (l : List α) (f : Nat → α → Except Refuse Unit) : Except Refuse Unit :=
  ((List.range l.length).zip l).foldl (fun r x => match r with | .ok () => f x.1 x.2 | e => e) (.ok ())

/-- Status of a refusal (R238). -/
def Refuse.status (r : Refuse) : BitVec 8 :=
  if r.reason ≤ 2 then csBadImage else if r.reason ≤ 7 then csResource else if r.reason ≤ 9 then csPartition else csDeadline

/-- A number in 32 bits, two's complement, saturating. -/
def sat32 (v : Int) : BitVec 32 := BitVec.ofInt 32 (max (-2147483648) (min 2147483647 v))

def Refuse.info0 (r : Refuse) : BitVec 32 := BitVec.ofNat 32 (r.reason % 256 * 2 ^ 24 + r.index % 65536)
def Refuse.info1 (r : Refuse) : BitVec 32 := sat32 r.margin

/-! ## Checks 1 and 2: the image by itself -/

def check1 (b : Bytes) (len : Nat) : Except Refuse Unit :=
  if headerOk b len then needAll (sections b) fun i s => need (scrcOk b s) 1 i 0 else need false 1 0 0

def countTyp (b : Bytes) (t : Nat) : Nat := ((sections b).filter fun s => s.typ == t).length

/-- Types, offsets and the DEST of table sections (R234). -/
def sectOk (s : Section) : Bool :=
  s.off % 64 == 0 && ((inRange 1 4 s.typ) || ((inRange 0x10 0x12 s.typ || inRange 0x20 0x23 s.typ) && s.dest == 0))

/-- A section's destination lies inside the resources that the image declares (R234). -/
def destOk (img : Image) (s : Section) : Bool :=
  let within (base size : Nat) : Bool := base ≤ s.dest && s.dest + s.len ≤ base + size
  match s.typ with
  | 1 => s.tgt < 128 && img.lcMask.getLsbD s.tgt && within (0x1400000000 + s.tgt * 0x1000000) localSize
  | 2 => (match finOf 4 s.tgt with | some d => within (dieBase d) (min 0x1000000 img.dieBytes[d]) | none => false)
  | 3 => within hubBase (min 0x2000000 img.hubBytes)
  | 4 => img.regions.any fun r => r.base ≤ s.dest && s.dest + s.len ≤ r.base + r.size
  | _ => true

/-- The first KV sequence that lies in a region, by its index. -/
def Image.kvSeqOf (img : Image) (i : Nat) : Option Nat := img.kvSeqs.findIdx? fun q => q.region == i

/-- The index with which a check on regions names a region: that of its first KV sequence, if it is a KV region (R174). -/
def Image.regionIdx (img : Image) (i : Nat) : Nat := (img.kvSeqOf i).getD i

def check2 (s : State) (b : Bytes) : Except Refuse Unit := do
  let img := parseImage b
  let m := tableOf b 0x10
  let tt := tableOf b 0x11
  let p := tableOf b 0x12
  need (zeros b 19 41) 2 0 0
  needAll (sections b) fun i x => need (sectOk x) 2 i 0
  need ([0x10, 0x11, 0x12].all fun t => countTyp b t == 1) 2 0 0
  need ([0x20, 0x21, 0x22, 0x23].all fun t => countTyp b t ≤ 1) 2 0 0
  need (manifestOk m) 2 (sectIdx b 0x10) 0
  needAll (regionRecs m) fun i r => need (regionRecOk r && (u64 r 0 % 4096 == 0 || (img.kvSeqOf i).isSome)) 2 i 0
  needAll (tallyRecs m) fun i r => need (tallyRecOk r) 2 i 0
  needAll (kvSeqRecs m) fun i r => need (kvSeqRecOk m r) 2 i 0
  needAll (kvBindRecs m) fun i r => need (kvBindRecOk m img.kvSeqs r) 2 i 0
  needAll (sections b) fun i x => need (destOk img x) 2 i 0
  need (tt.length % 64 == 0 && inRange 1 4096 (tt.length / 64)) 2 (sectIdx b 0x11) 0
  needAll (recs tt 0 64 (tt.length / 64)) fun i r => need (taskRecOk (leAt m 0 16) (tt.length / 64) r) 2 i 0
  needAll img.tasks fun i _ => need (!predCyclic img.tasks i) 2 i 0
  need (partTableOk p) 2 (sectIdx b 0x12) 0
  need (countTyp b 0x20 == 0 || preTableOk img.pre) 2 (sectIdx b 0x20) 0
  need (countTyp b 0x21 == 0 || fusTableOk img.pre img.fus) 2 (sectIdx b 0x21) 0
  need (countTyp b 0x22 == 0 || plnTableOk img.fus img.pln) 2 (sectIdx b 0x22) 0
  need (countTyp b 0x23 == 0 || chkTableOk (s.withImage img) img.chk) 2 (sectIdx b 0x23) 0

/-! ## Checks 3 to 9: the resources now in service -/

def check3 (s : State) (img : Image) : Except Refuse Unit :=
  let missing := ((List.range 128).filterMap (finOf 128)).filter fun n => img.lcMask.getLsbD n.val && (s.tileOf n).isNone
  match missing with
  | [] => .ok ()
  | n :: _ => need false 3 n.val (-(missing.length : Int))

def check4 (s : State) (img : Image) : Except Refuse Unit := do
  needAll ((List.range 4).filterMap (finOf 4)) fun i d =>
    let cap : Nat := if s.dieOk d then 0x1000000 else 0
    need (img.dieBytes[d] ≤ cap) 4 i ((cap : Int) - (img.dieBytes[d] : Int))
  need (img.hubBytes ≤ 0x2000000) 4 4 (0x2000000 - (img.hubBytes : Int))

/-- Subchannels in service. -/
def State.width (s : State) : Nat := (inservList s.dmc.inserv).length

/-- Bytes of one subchannel (R273). -/
def State.subBytes (s : State) : Nat := s.fuse.dramBytes / 16

/-- The raw capacity of a region at width `w` (R279). -/
def rawSize (w : Nat) (r : Region) : Nat :=
  match r.cls with
  | .u => r.size
  | .m => 2 * r.size
  | .e => if w ≤ 2 then 0 else 64 * w * ((r.size + 64 * (w - 2) - 1) / (64 * (w - 2)))

/-- The class of a region is possible at a width (R279). -/
def classPossible (w : Nat) (r : Region) : Bool :=
  match r.cls with | .u => true | .m => 4 ≤ w | .e => 8 ≤ w

def rawCapacity (s : State) : Nat := s.width * (s.subBytes - 0x100000)

def check5 (s : State) (img : Image) : Except Refuse Unit := do
  needAll img.regions fun i r =>
    need (r.base + r.size ≤ s.fuse.dramBytes) 5 (img.regionIdx i) ((s.fuse.dramBytes : Int) - ((r.base + r.size : Nat) : Int))
  needAll img.regions fun i r =>
    let common (q : Region) : Nat := min (r.base + r.size) (q.base + q.size) - max r.base q.base
    let o : Nat := ((img.regions.take i).map common).foldl max 0
    need (o == 0) 5 (img.regionIdx i) (-(o : Int))
  needAll img.regions fun i r => need (classPossible s.width r) 5 (img.regionIdx i) (-(r.size : Int))
  needAll img.regions fun i _ =>
    let used : Nat := ((img.regions.take (i + 1)).map (rawSize s.width)).foldl (· + ·) 0
    need (used ≤ rawCapacity s) 5 (img.regionIdx i) ((rawCapacity s : Int) - (used : Int))

def check6 (s : State) (img : Image) : Except Refuse Unit :=
  needAll img.tallies fun i t =>
    let onDie := match finOf 4 (islandOf t.home).val with | some d => s.dieOk d | none => true
    need (onDie && !((img.tallies.take i).any fun u => u.home == t.home)) 6 i 0

/-- Streams of the pre-processing table whose input passes the image chain, with their records. -/
def chainStreams (img : Image) (decodeOnly : Bool) : List (Nat × Bytes) :=
  (List.range 48).filterMap fun n =>
    let r := strRec img.pre n
    if u8 r 0 ≠ 0 && (!decodeOnly || 16 ≤ n) then some (n, r) else none

/-- Luma samples, input pixels, output pixels per second of a stream (R311, R313). -/
def inRate (r : Bytes) : Nat := u16 r 4 * u16 r 6 * u8 r 140
def outRate (r : Bytes) : Nat := u16 r 16 * u16 r 18 * (u8 r 12 % 16) * u8 r 140

/-- A decode stream is within level 5.1 of its codec (R311). The limits are those of the standards: H.264 36,864 macroblocks a
picture and 983,040 a second; H.265 8,912,896 luma samples and 534,773,760 a second. -/
def levelOk (r : Bytes) : Bool :=
  let px := u16 r 4 * u16 r 6
  if u8 r 2 = 0 then
    let mbs := ((u16 r 4 + 15) / 16) * ((u16 r 6 + 15) / 16)
    mbs ≤ 36864 && mbs * u8 r 140 ≤ 983040
  else px ≤ 8912896 && px * u8 r 140 ≤ 534773760

/-- A running sum over streams stays within a limit. -/
def rateCheck (l : List (Nat × Bytes)) (f : Bytes → Nat) (limit : Nat) : Except Refuse Unit :=
  needAll l fun i x =>
    let t : Nat := ((l.take (i + 1)).map fun y => f y.2).foldl (· + ·) 0
    need (t ≤ limit) 7 x.1 ((limit : Int) - (t : Int))

def check7 (img : Image) : Except Refuse Unit := do
  needAll img.kvSeqs fun i q => do
    need (i < 64) 7 i (64 - (img.kvSeqs.length : Int))
    need (q.maxlen ≤ 32768) 7 i (32768 - (q.maxlen : Int))
    need (match img.regions[q.region]? with | some r => r.cls ≠ .e && r.base % 4096 == 0 | none => false) 7 i 0
    need (q.split ≤ 16) 7 i (16 - (q.split : Int))
  needAll img.kvBinds fun i b =>
    let t : Nat := (((img.kvBinds.take (i + 1)).filter fun c => c.lc == b.lc).map (·.hcount)).foldl (· + ·) 0
    need (t ≤ 4) 7 i (4 - (t : Int))
  if img.pre.isEmpty then .ok ()
  else do
    needAll (chainStreams img true) fun _ x => need (levelOk x.2) 7 x.1 0
    rateCheck (chainStreams img true) inRate 1990656000
    rateCheck (chainStreams img false) inRate 4800000000
    rateCheck (chainStreams img false) outRate 4800000000

/-- The image's table names a partition. -/
def Image.hasPart (img : Image) (p : BitVec 4) : Bool := img.parts.any fun e => e.num == p

def Image.maskOk (img : Image) (m : BitVec 16) : Bool :=
  (List.range 16).all fun p => !m.getLsbD p || img.hasPart (BitVec.ofNat 4 p)

def check8 (img : Image) : Except Refuse Unit := do
  needAll img.regions fun i r => need (img.hasPart r.owner && img.maskOk r.rd && img.maskOk r.wr) 8 i 0
  needAll img.tallies fun i t => need (img.hasPart t.part) 8 i 0
  needAll img.kvSeqs fun i q => need (img.hasPart q.part) 8 i 0
  needAll img.tasks fun i t => need (img.hasPart t.part) 8 i 0
  needAll img.kvSeqs fun i q => need (q.split ≤ 1 || img.parts.any fun e => e.num == q.part && e.split) 8 i 0
  needAll img.tasks fun i t =>
    need (!isCoreAgent t.agent || (img.tasks.take i).all fun u => u.agent != t.agent || u.part == t.part) 8 i 0

/-- MT/s of a bin code (R274). -/
def binRate (b : BitVec 3) : Nat := 4800 + 800 * b.toNat

/-- The sum over subchannels in service of 4 MT/s bytes per transfer time, in bytes per µs (R239). -/
def State.dramRate (s : State) : Nat :=
  ((inservList s.dmc.inserv).map fun i => match finOf 8 (i / 2) with | some c => 4 * binRate (s.dmc.ch[c]).bin | none => 0).foldl (· + ·) 0

/-- capD of R239. -/
def State.capD (s : State) : Rat := (95 : Rat) / 100 * (s.dramRate : Rat)

def State.mappedCores (s : State) : Nat := (s.wear.map.toList.filter (·.mapped)).length

/-- H of R307. -/
def State.copierH (s : State) : Rat := (5 : Rat) / 100 * (s.dramRate : Rat) - 128 * (s.mappedCores : Rat)

/-- COPYX of R307. -/
def State.copyx (s : State) : Rat :=
  if s.dmc.replacing && decide (s.copierH < 1024) then 1024 - max s.copierH 0 else 0

def State.anyHalf (s : State) : Bool := s.fab.xcuts.toList.any fun x => x.toHigh.half || x.toLow.half

/-- Check 9 (R270), which the spec asks of every image, whatever its MODE. -/
def check9 (s : State) (img : Image) : Except Refuse Unit := do
  let dram : Nat := (img.parts.map (·.dram)).foldl (· + ·) 0 + img.snapRate
  need (decide ((dram : Rat) ≤ s.capD)) 9 0 (s.capD - (dram : Rat)).floor
  let xc : Nat := (img.parts.map (·.xcut)).foldl (· + ·) 0
  let cap : Nat := if s.anyHalf then 60800 else 121600
  need (xc ≤ cap) 9 0 ((cap : Int) - (xc : Int))
  needAll img.parts fun i e =>
    let t : Nat := ((img.tasks.filter fun t => t.part == e.num).map (·.rateDram)).foldl (· + ·) 0
    need (t ≤ e.dram) 9 i ((e.dram : Int) - (t : Int))
  needAll (List.range 5) fun _ k =>
    let t : Nat := (img.parts.map fun e => vgetN e.shares k 0).foldl (· + ·) 0
    need (t ≤ 256) 9 k (256 - (t : Int))

/-! ## Checks 10 to 12 (R239) -/

/-- Tasks with their indices in the task table. -/
abbrev Tasks := List (Nat × Task)

def sumR (l : List Rat) : Rat := l.foldl (· + ·) 0

def check10 (s : State) (snapRate : Nat) (ts : Tasks) : Except Refuse Unit :=
  let load : Rat := (snapRate : Rat) + s.copyx + (((ts.map fun x => x.2.rateDram).foldl (· + ·) 0 : Nat) : Rat)
  need (decide (load ≤ s.capD)) 10 (match ts.find? fun x => 0 < x.2.rateDram with | some x => x.1 | none => 0)
    (s.capD - load).floor

/-- ADM_PBASE (R445). -/
def State.pbaseOf (s : State) : Nat :=
  21000 + 1000 * (((List.range 4).filterMap (finOf 4)).filter s.dieOk).length + 125 * s.mappedCores

/-- ENERGY / PERIOD of a task. -/
def powerRate (t : Task) : Rat := (t.energy : Rat) / (t.period : Rat)

/-- The index of the task with the largest ENERGY / PERIOD, the lowest of equals. -/
def hungriest : Tasks → Option (Nat × Rat)
  | [] => none
  | x :: xs =>
    match hungriest xs with
    | none => some (x.1, powerRate x.2)
    | some y => if powerRate x.2 < y.2 then some y else some (x.1, powerRate x.2)

/-- The power margin of check 11, mW. -/
def powerMargin (s : State) (budget : Nat) (ts : Tasks) : Rat :=
  (budget : Rat) - ((s.pbaseOf : Rat) + 1000000 * sumR (ts.map fun x => powerRate x.2))

def check11 (s : State) (budget : Nat) (ts : Tasks) : Except Refuse Unit :=
  let m := powerMargin s budget ts
  need (decide (0 ≤ m)) 11 (match hungriest ts with | some x => x.1 | none => 0) m.floor

/-- Cycles per ns of an agent (R24). -/
def agentClock (a : Nat) : Rat :=
  if a = 0x101 then 4 / 5 else if a = 0x102 || a = 0x103 then 1 else 6 / 5

/-- The lowest bin among the channels in service, MT/s. -/
def State.lowestRate (s : State) : Nat :=
  ((inservList s.dmc.inserv).filterMap fun i => (finOf 8 (i / 2)).map fun c => binRate (s.dmc.ch[c]).bin).foldl min 8000

/-- What Lrd adds for classes 0 to 3 (R266), ns. -/
def lrdAging (s : State) (c : BitVec 3) : Nat :=
  if h : c.toNat < 4 then 8 * (s.fab.age[c.toNat]).toNat + 8 * s.fab.promoPeriod.toNat else 0

/-- A task may read an E region of the image in force, so that its reads wait for the widened ones (R285). A task record does not say
which regions it reads; that its bound is the one of the slowest it may read is DEDUCED (log 51). -/
def State.readsE (s : State) (t : Task) : Bool := s.prog.img.regions.any fun r => r.cls == .e && r.rd.getLsbD t.part.toNat

/-- Lrd to DRAM (R265, R266, R287), with the reconstruction term of an E region (R285). -/
def lrdDram (s : State) (t : Task) : Rat :=
  (((if s.dmc.page then 1600 else 1500) + (if s.readsE t then 400 else 0) : Nat) : Rat) * 8000 / (s.lowestRate : Rat) +
    (lrdAging s t.cls : Rat)

def lrdHub (s : State) (c : BitVec 3) : Nat := 400 + lrdAging s c
def lrdDie (s : State) (c : BitVec 3) : Nat := 500 + lrdAging s c

/-- Lsig of WDIST (R208), ns. -/
def lsig (d : Nat) : Nat := [4, 12, 24, 32, 40, 120, 152, 900, 64].getD d 64

/-- Agents with a task whose waits lie on an island. -/
def agentsAt (ts : Tasks) (isl : Nat) : Nat := ((ts.filter fun x => x.2.wisland == isl).map (·.2.agent)).eraseDups.length

/-- C[t] of R239, ns. -/
def execNs (s : State) (ts : Tasks) (t : Task) : Nat :=
  let core := isCoreAgent t.agent
  let comp : Rat := (t.wcc : Rat) / agentClock t.agent
  let part (b r : Nat) : Rat := if b = 0 then 0 else 1000 * (b : Rat) / (r : Rat)
  let stream := part t.bytesDram t.rateDram + part t.bytesHub t.rateHub
  let run := if t.overlap then max comp stream else comp + stream
  let wake : Nat := if core then 408 else 0
  let wait : Rat := (lsig t.wdist : Rat) + (834 : Rat) / 1000 * ((agentsAt ts t.wisland - 1 : Nat) : Rat) + (wake : Rat)
  let stall := (t.nrdDram : Rat) * lrdDram s t + ((t.nrdHub * lrdHub s t.cls + t.nrdDie * lrdDie s t.cls : Nat) : Rat) +
    (t.nwait : Rat) * wait
  let extra : Nat := (if core then 20000 else 0) + (if 0 < t.bytesDram || 0 < t.nrdDram then 12000 else 0)
  (run + stall + (extra : Rat)).ceil.toNat

/-- A task of one agent with its C. -/
structure Demand where
  index : Nat
  period : Nat
  deadline : Nat
  c : Nat
deriving DecidableEq, Repr

/-- The first deadline of a task after `x`. -/
def Demand.next (d : Demand) (x : Nat) : Nat :=
  if x < d.deadline then d.deadline else ((x - d.deadline) / d.period + 1) * d.period + d.deadline

def nextDeadline (ds : List Demand) (x : Nat) : Nat := ds.foldl (fun m d => if m = 0 then d.next x else min m (d.next x)) 0

/-- A task has a deadline at `x`. -/
def Demand.at (d : Demand) (x : Nat) : Bool := d.deadline ≤ x && (x - d.deadline) % d.period == 0

/-- The slack at `x` (R239). -/
def slackAt (ds : List Demand) (x : Nat) : Int :=
  let dbf : Nat := (ds.map fun d => if x < d.deadline then 0 else ((x - d.deadline) / d.period + 1) * d.c).foldl (· + ·) 0
  let block : Nat := ((ds.filter fun d => x < d.deadline).map (·.c)).foldl max 0
  (x : Int) - (dbf : Int) - (block : Int)

/-- The deadlines from `x` to `lim`, in ascending order; the smallest slack found so far and its task. -/
def demandLoop (ds : List Demand) (lim : Nat) : Nat → Nat → Option (Int × Nat) → Except Refuse (Option (Int × Nat))
  | 0, _, best => .ok best
  | fuel + 1, x, best =>
    if lim < x then .ok best
    else
      let sl := slackAt ds x
      let t := match ds.find? (Demand.at · x) with | some d => d.index | none => 0
      if sl < 0 then .error { reason := 12, index := t, margin := sl }
      else
        let best := match best with
          | none => some (sl, t)
          | some b => if sl < b.1 then some (sl, t) else some b
        demandLoop ds lim fuel (nextDeadline ds x) best

/-- Check 12 for one agent. -/
def agentCheck (ds : List Demand) (best : Option (Int × Nat)) : Except Refuse (Option (Int × Nat)) :=
  match ds with
  | [] => .ok best
  | d0 :: _ =>
    let u := sumR (ds.map fun d => (d.c : Rat) / (d.period : Rat))
    let maxD := (ds.map (·.deadline)).foldl max 0
    let maxC := (ds.map (·.c)).foldl max 0
    let lim : Nat :=
      if u < 1 then
        let y := (sumR (ds.map fun d => ((d.period - d.deadline : Nat) : Rat) * ((d.c : Rat) / (d.period : Rat))) + (maxC : Rat)) / (1 - u)
        (max (maxD : Rat) y).floor.toNat
      else (ds.map (·.period)).foldl Nat.lcm 1
    if !decide (u < 1) && 2 ^ 40 < lim then .error { reason := 12, index := d0.index, margin := 0 }
    else
      let fuel := (ds.map fun d => lim / d.period + 1).foldl (· + ·) 1
      demandLoop ds lim fuel (nextDeadline ds 0) best

/-- AGENT codes in ascending order. -/
def allAgents : List Nat := List.range 128 ++ (List.range 8).map (0x100 + ·)

def check12 (s : State) (ts : Tasks) : Except Refuse (Option (Int × Nat)) :=
  allAgents.foldl (fun r a =>
    match r with
    | .error e => .error e
    | .ok best =>
      let ds := (ts.filter fun x => x.2.agent == a).map fun x =>
        { index := x.1, period := x.2.period, deadline := x.2.deadline, c := execNs s ts x.2 : Demand }
      agentCheck ds best) (.ok none)

/-- Checks 10 to 12 on some tasks. -/
def admission (s : State) (snapRate budget : Nat) (ts : Tasks) : Except Refuse (Option (Int × Nat)) := do
  check10 s snapRate ts
  check11 s budget ts
  check12 s ts

/-- Checks 3 to 12 of an image, without the tasks shed. -/
def resourceChecks (s : State) (img : Image) (shed : List Nat) : Except Refuse (Option (Int × Nat)) := do
  check3 s img
  check4 s img
  check5 s img
  check6 s img
  check7 img
  check8 img
  check9 s img
  admission (s.withImage img) img.snapRate s.prog.budget.toNat (((List.range img.tasks.length).zip img.tasks).filter fun x => !shed.contains x.1)

/-- All the checks of LOAD on the bytes of an image. -/
def loadChecks (s : State) (b : Bytes) (len : Nat) : Except Refuse (Option (Int × Nat)) := do
  check1 b len
  check2 s b
  resourceChecks s (parseImage b) []

/-- A passing check writes the smallest slack and its task (R240). -/
def State.recordPass (s : State) (best : Option (Int × Nat)) : State :=
  s.modProg fun p =>
    { p with reason := 0, pbase := BitVec.ofNat 32 s.pbaseOf,
             margin := match best with | some b => sat32 b.1 | none => 0x7FFFFFFF,
             task := match best with | some b => BitVec.ofNat 16 b.2 | none => 0 }

/-- A failing check leaves its reason and index in ADM_STATUS. -/
def State.recordFail (s : State) (r : Refuse) : State :=
  s.modProg fun p => { p with reason := BitVec.ofNat 8 r.reason, pbase := BitVec.ofNat 32 s.pbaseOf, task := BitVec.ofNat 16 r.index }

/-! ## The core map at LOAD (R27, R469) -/

def slotsOf (d : Fin 4) : List (Fin 136) := (List.range 34).filterMap fun k => finOf 136 (34 * d.val + k)

def State.tileSt (s : State) (t : Fin 136) : TileState := (s.wear.tile[t]).state

/-- A tile in use: bound to a logical core. -/
def inUse (st : TileState) : Bool := st == .active || st == .migrating

/-- A tile that can take a logical core: SPARE, and not a suspect that awaits its self-test (R463). -/
def State.spareOk (s : State) (t : Fin 136) : Bool := s.tileSt t == .spare && !(s.wear.tile[t]).suspect

/-- The lowest SPARE tile of a die. -/
def State.spareOf (s : State) (d : Fin 4) : Option (Fin 136) := (slotsOf d).find? s.spareOk

/-- A tile's sequencer is in reset, or off. -/
def State.powerTile (s : State) (t : Fin 136) (on : Bool) : State :=
  s.modTile t fun x => { x with seq := Seq.reset (if on then .reset else .off) 0x100, array := .off, tmulWait := none, haltReq := false }

/-- The lowest SPARE tile of a die becomes ACTIVE, at most `k` times, while fewer than 32 are. -/
def State.fillDie (d : Fin 4) : Nat → State → State
  | 0, s => s
  | k + 1, s =>
    if 32 ≤ ((slotsOf d).filter fun t => inUse (s.tileSt t)).length then s
    else
      match s.spareOf d with
      | none => s
      | some t =>
        State.fillDie d k ((s.modWear fun w => { w with tile := vmod w.tile t fun x => { x with state := .active } }).powerTile t true)

/-- LC 32 d + k takes the k-th ACTIVE tile of die d; a binding that stays keeps its epoch (R27, R30). -/
def State.bindDie (d : Fin 4) (s : State) : State :=
  let act := (slotsOf d).filter fun t => inUse (s.tileSt t)
  (List.range 32).foldl (fun s k =>
    match finOf 128 (32 * d.val + k) with
    | none => s
    | some lc =>
      let new := act[k]?
      let s := if s.tileOf lc = new then s else s.bind lc new
      match new with
      | some t => s.modWear fun w => { w with tile := vmod w.tile t fun x => { x with lc := BitVec.ofNat 8 lc.val } }
      | none => s) s

/-- The MP rebuilds the core map of every die in service (R469). -/
def State.rebuildMap (s : State) : State :=
  ((List.range 4).filterMap (finOf 4)).foldl (fun s d => if s.dieOk d then State.bindDie d (State.fillDie d 34 s) else s) s

/-! ## Re-admission plans (R243) -/

def State.allTasks (s : State) : Tasks := (List.range s.prog.img.tasks.length).zip s.prog.img.tasks

/-- An agent is unmapped or lost. -/
def State.agentGone (s : State) (a : Nat) : Bool :=
  match finOf 128 a with | some lc => (s.tileOf lc).isNone | none => false

/-- Shedding a task sheds every task whose PRED chain leads to it. -/
def shedWith (ts : List Task) (shed : List Nat) (j : Nat) : List Nat :=
  let more := (List.range ts.length).filter fun i => i = j || chainHas ts i j
  shed ++ more.filter fun i => !shed.contains i

/-- The next task to shed: lowest CRIT, then highest SHED, then highest index. -/
def shedNext (l : Tasks) : Option Nat :=
  (l.foldl (fun (b : Option (Nat × Task)) x =>
    if x.2.shed = 0 then b
    else
      match b with
      | none => some x
      | some y =>
        if x.2.crit < y.2.crit || (x.2.crit == y.2.crit && (y.2.shed < x.2.shed || (y.2.shed == x.2.shed && y.1 < x.1)))
        then some x else b) none).map (·.1)

/-- Steps 2 to 4 of R243: shed tasks until checks 10 to 12 pass; the tasks shed, and the outcome. -/
def planLoop (s : State) (budget : Nat) : Nat → List Nat → List Nat × Except Refuse (Option (Int × Nat))
  | 0, shed => (shed, admission s s.prog.img.snapRate budget (s.allTasks.filter fun x => !shed.contains x.1))
  | k + 1, shed =>
    let left := s.allTasks.filter fun x => !shed.contains x.1
    match admission s s.prog.img.snapRate budget left with
    | .ok b => (shed, .ok b)
    | .error e =>
      match shedNext left with
      | none => (shed, .error e)
      | some j => planLoop s budget k (shedWith s.prog.img.tasks shed j)

/-- The plan of R243 for a budget: every task shed in the end, and the outcome. -/
def plan (s : State) (budget : Nat) : List Nat × Except Refuse (Option (Int × Nat)) :=
  let gone := (s.allTasks.filter fun x => s.agentGone x.2.agent && !s.prog.shed.contains x.1).map (·.1)
  planLoop s budget s.prog.img.tasks.length (gone.foldl (shedWith s.prog.img.tasks) s.prog.shed)

/-- Tasks are marked as shed: each is entered and counted, and the monitor stops tracking it. -/
def State.shedTasks (s : State) (shed : List Nat) : State :=
  let new := shed.filter fun i => !s.prog.shed.contains i
  let s := new.foldl (fun s i => s.raise 0x41 0 (match s.prog.img.tasks[i]? with | some t => t.part | none => 0) i) s
  s.modProg fun p =>
    { p with shed := shed, shedCount := p.shedCount + BitVec.ofNat 32 new.length,
             deadlines := p.deadlines.filter fun d => !shed.contains d.1 }

/-- The program becomes FAULTED: its cores halt (R243). -/
def State.faultProgram (s : State) (r : Refuse) : State :=
  let s := s.recordFail r
  let s := s.raise 0x43 0x100 0 (r.reason * 65536 + r.index % 65536)
  let s := s.modProg fun p => { p with state := .faulted }
  s.progTiles.foldl State.stopCore s

/-- Re-admission (R243). -/
def State.readmit (s : State) : State :=
  match plan s s.prog.budget.toNat with
  | (shed, .ok b) => ((s.shedTasks shed).recordPass b).modProg fun p => { p with state := .running }
  | (shed, .error e) => (s.shedTasks shed).faultProgram e

end Sys2Proof.Machine
end

