-- ==== Sys2Proof/Machine/CalOps.lean ====
section
/-! DEFINITION. The calibration set (R478 to R481) and the two commands that read and write it. -/

namespace Sys2Proof.Machine

/-- Bytes of the set. -/
def calSize : Nat := 9280

/-- The two flash areas (R479). -/
def calAreas : List Nat := [0x700000, 0x704000]

def calAt (s : State) (area : Nat) : Bytes := memGetN s.flash area calSize

def calCrc (b : Bytes) : Nat := crc32c (sub b 0 0x3C ++ sub b 0x40 0x2400)

/-- The CRC-32C of a set is right (R348). -/
def calCrcOk (b : Bytes) : Bool := b.length == calSize && u32 b 0x3C == calCrc b

/-- MAGIC, VERSION, reserved bytes and CRC are right (R480). -/
def calOk (b : Bytes) : Bool :=
  calCrcOk b && u32 b 0 == 0x4C414356 && u16 b 4 == 1 && zeros b 6 2 && zeros b 0xC 0x30

def calWcountOf (b : Bytes) : Nat := u32 b 8

/-- The area whose set is in force: the valid one with the higher WCOUNT; the first area with none valid. -/
def State.calArea (s : State) : Nat :=
  let a := calAt s 0x700000
  let b := calAt s 0x704000
  if calCrcOk b && (!calCrcOk a || calWcountOf a < calWcountOf b) then 0x704000 else 0x700000

/-- The set in force. -/
def State.calSet (s : State) : Bytes := calAt s s.calArea

/-- WEA_CAL follows the set in force. -/
def State.noteCal (s : State) : State :=
  s.modWear fun w => { w with calValid := calCrcOk s.calSet, calWcount := BitVec.ofNat 32 (calWcountOf s.calSet) }

/-- CAL_READ (R480). -/
def execCalRead (q : Fin 16) (s : State) : Out :=
  .next (match s.cmdDue q 0x18 with
    | none => s
    | some e =>
      if (e.p[1]).toNat < calSize then s.finish q csIllegal 0 0
      else
        match bufWrite s 0x100 e.hostmem (e.p[0]).toNat s.calSet with
        | (s, none) => s.finish q csOk 0 0
        | (s, some .dataLost) => s.finish q csDataLost 0 0
        | (s, some _) => s.finish q csHwFault 0 0)

/-- The set that CAL_WRITE stores: WCOUNT incremented, CRC recomputed. -/
def calNext (b : Bytes) : Bytes :=
  let b := sub b 0 8 ++ natLe 4 (calWcountOf b + 1) ++ b.drop 12
  sub b 0 0x3C ++ natLe 4 (calCrc b) ++ b.drop 0x40

/-- CAL_WRITE (R480). `flashOk` says whether the flash took the write. -/
def execCalWrite (q : Fin 16) (flashOk : Bool) (s : State) : Out :=
  .next (match s.cmdDue q 0x19 with
    | none => s
    | some e =>
      withState s q [.none, .loaded]
        (if (e.p[1]).toNat ≠ calSize then s.finish q csIllegal 0 0
         else
           match bufRead s 0x100 e.hostmem (e.p[0]).toNat calSize with
           | (s, .error .dataLost) => s.finish q csDataLost 0 0
           | (s, .error _) => s.finish q csHwFault 0 0
           | (s, .ok b) =>
             if !calOk b then s.finish q csBadImage 0 0
             else if calWcountOf b ≠ calWcountOf s.calSet then s.finish q csIllegal 0 0
             else if !flashOk then s.finish q csHwFault 0 0
             else
               let other := if s.calArea = 0x700000 then 0x704000 else 0x700000
               (({ s with flash := memPutN s.flash other (calNext b) }).noteCal).finish q csOk 0 0))

end Sys2Proof.Machine
end

