-- ==== Sys2Proof/Machine/Control.lean ====
section
/-! DEFINITION. Bunov-C, majors 0x00 to 0x07 (R112 to R118, R121, R123): integer, compare, predicate, branch, call, system
register instructions. -/

namespace Sys2Proof.Machine

/-- The instruction writes a scalar register and ends. -/
def State.setReg (s : State) (p : Proc) (c : BitVec 5) (v : BitVec 64) : State :=
  (s.modSeq p fun q => writeReg q c false v).advance p

/-- The instruction writes a predicate and ends. -/
def State.setPred (s : State) (p : Proc) (c : BitVec 3) (b : Bool) : State :=
  (s.modSeq p fun q => writePred q c b).advance p

def State.reg (s : State) (p : Proc) (c : BitVec 5) : BitVec 64 := readReg (s.seq p) c false

/-- rd = ra op rb (R113). -/
def execAluRegOp (p : Proc) (op : AluOp) (e : Enc) (s : State) : Out :=
  .next (issue p e (crOk e) [] [.regParity] s fun s => s.setReg p (opRd e) (aluVal op (s.reg p (opRa e)) (s.reg p (opRb e))))

/-- rd = ra op imm32 (R113). -/
def execAluImmOp (p : Proc) (op : AluOp) (e : Enc) (s : State) : Out :=
  .next (issue p e (aluImmOk op e) [] [.regParity] s fun s => s.setReg p (opRd e) (aluVal op (s.reg p (opRa e)) (aluImm op e)))

/-- rd = sext(imm32) (R112). -/
def execMovi (p : Proc) (e : Enc) (s : State) : Out :=
  .next (issue p e (moviOk e) [] [] s fun s => s.setReg p (opRd e) (sextImm e))

/-- rd[63:32] = imm32, rd[31:0] unchanged (R112). -/
def execMovhi (p : Proc) (e : Enc) (s : State) : Out :=
  .next (issue p e (moviOk e) [] [.regParity] s fun s =>
    s.setReg p (opRd e) (opImm e ++ (s.reg p (opRd e)).setWidth 32))

/-- pd = (ra cmp rb) or (ra cmp sext(imm32)) (R112). -/
def execCompare (p : Proc) (op : CmpOp) (imm : Bool) (e : Enc) (s : State) : Out :=
  .next (issue p e (compareOk imm e) [] [.regParity] s fun s =>
    s.setPred p (opPd e) (cmpVal op (s.reg p (opRa e)) (if imm then sextImm e else s.reg p (opRb e))))

/-- pd = (pa XOR na) op (pb XOR nb) (R112). -/
def execPredicateLogic (p : Proc) (op : PredOp) (e : Enc) (s : State) : Out :=
  let pa : BitVec 3 := bits e.ops 42 3
  let pb : BitVec 3 := bits e.ops 38 3
  .next (issue p e (cpOk e) [pa, pb] [.regParity] s fun s =>
    s.setPred p (opPd e)
      (predVal op (readPred (s.seq p) pa != e.ops.getLsbD 41) (readPred (s.seq p) pb != e.ops.getLsbD 37)))

/-- Execution continues at a target, or the target's trap is raised (R115). -/
def State.jump (s : State) (p : Proc) (a : BitVec 64) : State :=
  match targetTrap p a with
  | some c => s.trap p c a
  | none => s.modSeq p fun q => { q with pc := a }

/-- PC + 8 * sext(off24). -/
def brTarget (q : Seq) (e : Enc) : BitVec 64 := q.pc + 8 * (opOff24 e).signExtend 64

/-- BR (R112, R115). -/
def execBr (p : Proc) (e : Enc) (s : State) : Out :=
  .next (issue p e (cbOffOk e) [] [] s fun s => s.jump p (brTarget (s.seq p) e))

/-- JR (R115). -/
def execJr (p : Proc) (e : Enc) (s : State) : Out :=
  .next (issue p e (cbRegOk e) [] [.regParity] s fun s => s.jump p (s.reg p (opRaB e)))

/-- A call (R116): window overflow with seven frames resident, a double fault in the trap frame (R122). -/
def State.doCall (s : State) (p : Proc) (target : BitVec 64) : State :=
  let q := s.seq p
  if q.inTrap then s.doubleFault p
  else if q.depth - q.floor = 6 then s.trap p 0x02 0
  else
    match targetTrap p target with
    | some c => s.trap p c target
    | none => s.modSeq p fun q =>
        let q' := { q with depth := q.depth + 1, pc := target }
        ringSet q' (curSlot q') 4 (q.pc + 8)

/-- CALL (R116). -/
def execCall (p : Proc) (e : Enc) (s : State) : Out :=
  .next (issue p e (cbOffOk e) [] [] s fun s => s.doCall p (brTarget (s.seq p) e))

/-- CALLR (R116). -/
def execCallr (p : Proc) (e : Enc) (s : State) : Out :=
  .next (issue p e (cbRegOk e) [] [.regParity] s fun s => s.doCall p (s.reg p (opRaB e)))

/-- RET (R117): return empty, window underflow, then the check of the address in w4. -/
def execRet (p : Proc) (e : Enc) (s : State) : Out :=
  .next (issue p e (allZero e) [] [.regParity] s fun s =>
    let q := s.seq p
    if q.inTrap then s.doubleFault p
    else if q.depth = 0 then s.trap p 0x04 0
    else if q.depth = q.floor then s.trap p 0x03 0
    else
      let a := ringGet q (curSlot q) 4
      match targetTrap p a with
      | some c => s.trap p c a
      | none => s.modSeq p fun q => { q with depth := q.depth - 1, pc := a })

/-- TRAP (R123): a software trap with code off24; EPC is the next instruction (R120). -/
def execTrap (p : Proc) (e : Enc) (s : State) : Out :=
  .next (issue p e (cbOffOk e) [] [] s fun s => s.trapAt p 0x0D ((opOff24 e).signExtend 64) ((s.seq p).pc + 8))

/-- ERET (R121). It names no check of EPC, and R115 none of an ERET: with an EPC that software has made misaligned, execution goes
on at that address with no alignment trap. DESIGN CHOICE (log 112). -/
def execEret (p : Proc) (e : Enc) (s : State) : Out :=
  .next (issue p e (allZero e) [] [] s fun s =>
    if (s.seq p).inTrap then s.modSeq p fun q => { q with pc := q.epc, inTrap := false, selen := false }
    else s.trap p 0x01 0)

/-- The system register number, imm32 [3:0]. -/
def srNum (e : Enc) : Nat := (bits e.ops 0 4 : BitVec 4).toNat

/-- MFSR (R88). -/
def execMfsr (p : Proc) (e : Enc) (s : State) : Out :=
  .next (issue p e (mfsrOk e && srImplemented p (srNum e)) [] [] s fun s => s.setReg p (opRd e) (srRead s p (srNum e)))

/-- MTSR (R88). A write that faults a deputy leaves it at that instruction. -/
def execMtsr (p : Proc) (e : Enc) (s : State) : Out :=
  .next (issue p e (mtsrOk e && srImplemented p (srNum e)) [] [.regParity] s fun s =>
    if srWritable (s.seq p) (srNum e) then
      let s' := srWrite s p (srNum e) (s.reg p (opRa e))
      if (s'.seq p).run = .faulted then s' else s'.advance p
    else s.trap p 0x01 0)

/-- NOP (R112). -/
def execNop (p : Proc) (e : Enc) (s : State) : Out :=
  .next (issue p e (allZero e) [] [] s fun s => s.advance p)

end Sys2Proof.Machine
end

