-- ==== Sys2Proof/Machine/LoadStore.lean ====
section
/-! DEFINITION. LD, ST and the return of their outcomes (R127 to R130, R124, R135, R562). -/

namespace Sys2Proof.Machine

/-- EA = ra + sext(off32) (R127). -/
def effAddr (q : Seq) (e : Enc) : BitVec 64 := readReg q (opRa e) true + sextImm e

/-- Loaded data extended to 64 bits (R127). -/
def extendLd (size : BitVec 2) (u : Bool) (v : Nat) : BitVec 64 :=
  let k := 8 * 2 ^ size.toNat
  if u then BitVec.ofNat 64 (v % 2 ^ k) else BitVec.ofInt 64 (sgn k v)

/-- The MP's data cache holds every byte of a read (R130). -/
def cacheHit (c : List (Nat × Byte)) (a n : Nat) : Option (List Byte) :=
  (List.range n).mapM fun i => (c.find? fun x => x.1 == a + i).map (·.2)

def cachePut (c : List (Nat × Byte)) (a : Nat) (bs : List Byte) : List (Nat × Byte) :=
  (c.filter fun x => x.1 < a || a + bs.length ≤ x.1) ++ (List.range bs.length).map fun i => (a + i, bs.getD i 0)

/-- The bytes of a write-through store that the cache holds are replaced. -/
def cacheUpdate (c : List (Nat × Byte)) (a : Nat) (bs : List Byte) : List (Nat × Byte) :=
  c.map fun x => if a ≤ x.1 && x.1 < a + bs.length then (x.1, bs.getD (x.1 - a) 0) else x

/-- The checks of a device-physical access at the processor's own port (R127, R393, R503, R562), entered in the error state
where the rule says so. -/
def devCheck (s : State) (p : Proc) (ea : BitVec 64) (n : Nat) : State × Except (BitVec 8) Target :=
  let src := s.srcOf p
  let part := s.partOf src
  if ea.toNat / 2 ^ 48 ≠ 0 then (s.raiseDecode src part (ea.toNat % 2 ^ 48), .error 0x07)
  else
    match portCheck s ea.toNat n with
    | .error .link => (s.raise 0x53 src part ea.toNat, .error 0x09)
    | .error _ => (s.raiseDecode src part ea.toNat, .error 0x07)
    | .ok t => (s, .ok t)

/-- LD (R127, R128). -/
def ldBody (s : State) (p : Proc) (e : Enc) (ups : List Upset) : State :=
  let q := s.seq p
  let ea := effAddr q e
  let n := 2 ^ (opSize e).toNat
  if ea.toNat % n ≠ 0 then s.trap p 0x05 ea
  else if opL e then
    if localSpace p < ea.toNat + n then (s.localDecode p ea).trap p 0x07 ea
    else
      match readSpace (strikeSpace s p ups) p ea.toNat n with
      | (s, .error _) => if (s.seq p).run = .faulted then s else s.trap p 0x0A ea
      | (s, .ok d) => (s.modSeq p fun q => writeReg q (opRd e) true (extendLd (opSize e) (opU e) (leNat d))).advance p
  else
    match devCheck s p ea n with
    | (s, .error c) => s.trap p c ea
    | (s, .ok t) =>
      if isDep p && !depMayRead t then
        (s.raiseViolation (s.srcOf p) 0 ea.toNat false).trap p 0x08 ea
      else
        match if p = .mp && Config.freeBool s.free then cacheHit s.mpCache ea.toNat n else none with
        | some d =>
          ((s.useFree 1).modSeq p fun q => writeReg q (opRd e) true (extendLd (opSize e) (opU e) (leNat d))).advance p
        | none =>
          let s := if p = .mp then s.useFree 1 else s
          let (c, dl) := s.seqLabel p
          let (s, _) := s.submit (s.srcOf p) ea.toNat n false [] c dl (.ld p)
          s.modSeq p fun q => { q with ldWait := some { rd := opRd e, size := opSize e, zext := opU e, addr := ea.toNat, resp := none } }

/-- LD (R127). -/
def execLd (p : Proc) (e : Enc) (ups : List Upset) (core : CoreUpset) (s : State) : Out :=
  .next (issue p (encMeeting e core) (ldOk e) [] [.regParity] s fun s => ldBody s p e ups)

/-- ST (R127, R128): a device-physical store is posted; a deputy's is refused at its port (R393). -/
def stBody (s : State) (p : Proc) (e : Enc) : State :=
  let q := s.seq p
  let ea := effAddr q e
  let n := 2 ^ (opSize e).toNat
  let data := natLe n (readReg q (opRd e) true).toNat
  if ea.toNat % n ≠ 0 then s.trap p 0x05 ea
  else if opL e then
    if localSpace p < ea.toNat + n then (s.localDecode p ea).trap p 0x07 ea
    else
      match writeSpace s p ea.toNat data with
      | (s, some _) => if (s.seq p).run = .faulted then s else s.trap p 0x0A ea
      | (s, none) => s.advance p
  else
    match devCheck s p ea n with
    | (s, .error c) => s.trap p c ea
    | (s, .ok _) =>
      if isDep p then s.trap p 0x08 ea
      else
        let (c, dl) := s.seqLabel p
        let (s, _) := s.submit (s.srcOf p) ea.toNat n true data c dl (.st p)
        let s := if p = .mp then { s with mpCache := cacheUpdate s.mpCache ea.toNat data } else s
        (s.modSeq p fun q => { q with postedSt := q.postedSt + 1 }).advance p

/-- ST (R127). -/
def execSt (p : Proc) (e : Enc) (s : State) : Out :=
  .next (issue p e (stOk e) [] [.regParity] s fun s => stBody s p e)

/-- The response to a device-physical LD returns (R128, R562): its data is delivered, or a precise trap raised. The MP's data
cache keeps device-physical data; that it keeps none of CSR space, a read of which may change with every access, is the model's
reading of R130, DEDUCED (log 111). -/
def execLdResponse (p : Proc) (s : State) : Out :=
  .next (match (s.seq p).ldWait with
    | none => s
    | some w =>
      match w.resp with
      | none => s
      | some (.error c a) => (s.modSeq p fun q => { q with ldWait := none }).trap p c a
      | some (.data v) =>
        let s := if p = .mp && !(csrBase ≤ w.addr && w.addr < csrBase + 0x3000000) then
            { s with mpCache := cachePut s.mpCache w.addr (natLe (2 ^ w.size.toNat) v.toNat) } else s
        (s.modSeq p fun q => writeReg { q with ldWait := none } w.rd true (extendLd w.size w.zext v.toNat)).advance p)

end Sys2Proof.Machine
end

