-- ==== Sys2Proof/Machine/Dma.lean ====
section
/-! DEFINITION. DMA descriptors: issue (R131, R132), the transactions (R133), completion (R92, R93, R134). -/

namespace Sys2Proof.Machine

/-- A descriptor error of R134, from the 64 bytes of the descriptor. -/
def descBad (d : List Byte) : Bool :=
  let w0 := leAt d 0 8
  let indexed := w0 % 2 = 1
  let c0 := leAt d 24 4; let c1 := leAt d 28 4; let c2 := leAt d 32 4
  let strideBad (o : Nat) : Bool := let v := leAt d o 8; BitVec.ofInt 64 (sgn 40 v) ≠ BitVec.ofNat 64 v
  nbits w0 4 12 ≠ 0 || nbits w0 19 5 ≠ 0 || nbits w0 62 2 ≠ 0 || leAt d 14 2 ≠ 0 || leAt d 22 2 ≠ 0 || leAt d 36 4 ≠ 0 ||
  c0 = 0 || 16777216 < c0 || c1 = 0 || 65536 < c1 || c2 = 0 || 65536 < c2 || (indexed && c2 ≠ 1) ||
  2 ^ 32 < c0 * c1 * c2 || (indexed && leAt d 16 8 % 8 ≠ 0) || (!indexed && (strideBad 40 || strideBad 48))

/-- The descriptor slot that 64 bytes at a local-space address describe (R132). -/
def descSlot (scatter marked : Bool) (addr : Nat) (d : List Byte) : DmaSlot :=
  let w0 := leAt d 0 8
  { scatter := scatter, indexed := nbits w0 0 1 = 1, statusEn := nbits w0 1 1 = 1, cl := nbits w0 2 1 = 1, pl := nbits w0 3 1 = 1,
    cls := BitVec.ofNat 3 (nbits w0 16 3), dl := BitVec.ofNat 24 (nbits w0 24 24), tally := BitVec.ofNat 14 (nbits w0 48 14),
    contig := leAt d 8 8 % 2 ^ 48, pattern := leAt d 16 8 % 2 ^ 48, count0 := leAt d 24 4, count1 := leAt d 28 4,
    count2 := leAt d 32 4, stride1 := sgn 40 (leAt d 40 8), stride2 := sgn 40 (leAt d 48 8), addr := addr, bad := descBad d,
    done := 0, phase := .idle, fail := none, marked := marked }

/-- The first free descriptor slot of a processor's engine. -/
def State.freeDma (s : State) (p : Proc) : Option (Fin 32) :=
  ((List.range 32).filterMap (finOf 32)).find? fun k => (s.dmaOf p k).isNone

/-- DMA.G and DMA.S (R131): with all 32 slots in flight the sequencer stalls. -/
def dmaBody (s : State) (p : Proc) (e : Enc) (scatter : Bool) : State :=
  let a := readReg (s.seq p) (opRaB e) false
  match s.freeDma p with
  | none => s
  | some k =>
    if a.toNat % 64 ≠ 0 then s.trap p 0x05 a
    else if localSpace p < a.toNat + 64 then (s.localDecode p a).trap p 0x07 a
    else
      match readSpace s p a.toNat 64 with
      | (s, .error w) => if (s.seq p).run = .faulted then s else s.trap p 0x0A (BitVec.ofNat 64 w)
      | (s, .ok d) => (s.setDma p k (some (descSlot scatter (s.marked (s.srcOf p)) a.toNat d))).advance p

/-- DMA.G (R131). -/
def execDmaG (p : Proc) (e : Enc) (s : State) : Out :=
  .next (issue p e (dOk e && !isDep p) [] [.regParity] s fun s => dmaBody s p e false)

/-- DMA.S (R131). -/
def execDmaS (p : Proc) (e : Enc) (s : State) : Out :=
  .next (issue p e (dOk e && !isDep p) [] [.regParity] s fun s => dmaBody s p e true)

/-! ## Transactions -/

def DmaSlot.total (d : DmaSlot) : Nat := d.count0 * d.count1 * d.count2

/-- The transaction at contiguous offset `o` as the engine forms it: the pattern side's address (a CODE when the index list
cannot be read, or the address is negative), the contiguous side's address and the length; it stops at 256 B and at a
256-byte boundary of either side (R133). -/
def dmaStep (s : State) (p : Proc) (d : DmaSlot) : State × Except (BitVec 8) (Nat × Nat × Nat) :=
  let o := d.done
  let row := o / d.count0
  let i := row % d.count1
  let j := row / d.count1
  let within := o % d.count0
  let fin (s : State) (base : Int) : State × Except (BitVec 8) (Nat × Nat × Nat) :=
    let pa := base + within
    if pa < 0 then (s.raiseDecode (s.dmaSrcOf p) (s.partOf (s.dmaSrcOf p)) (pa % 2 ^ 48).toNat, .error 0x01)
    else
      let pat := pa.toNat
      let con := d.contig + o
      let n := min (min (d.count0 - within) (256 - pat % 256)) (256 - con % 256)
      (s, .ok (pat, con, n))
  if d.indexed then
    let ia := d.pattern + 8 * i
    if localSpace p < ia + 8 then (s.raiseDecode (s.dmaSrcOf p) (s.partOf (s.dmaSrcOf p)) (ia % 2 ^ 48), .error 0x01)
    else
      match readSpaceAs s p (s.dmaSrcOf p) ia 8 with
      | (s, .error _) => (s, .error 0x03)
      | (s, .ok b) => fin s (leNat b : Nat)
  else fin s ((d.pattern : Int) + d.stride2 * j + d.stride1 * i)

/-- A DMA transaction fails before it is sent (R93, R562). -/
def dmaFail (s : State) (p : Proc) (k : Fin 32) (d : DmaSlot) (code : BitVec 8) : State :=
  s.setDma p k (some { d with phase := .idle, fail := some code })

/-- One side of a transaction is read or written: in the local space at once, else as a fabric request. `rd`: the bytes to
read, `none`; a write carries them. -/
def dmaSide (s : State) (p : Proc) (k : Fin 32) (d : DmaSlot) (isLocal : Bool) (a n : Nat) (data : Option (List Byte)) : State :=
  let src := s.dmaSrcOf p
  if isLocal then
    if localSpace p < a + n then (s.raiseDecode src (s.partOf src) a |> fun s => dmaFail s p k d 0x01)
    else
      match data with
      | none =>
        match readSpaceAs s p src a n with
        | (s, .ok b) => s.setDma p k (some { d with phase := .have b })
        | (s, .error _) => dmaFail s p k d 0x03
      | some b =>
        match writeSpaceAs s p src a b with
        | (s, none) => s.setDma p k (some { d with phase := .idle, done := d.done + b.length })
        | (s, some _) => dmaFail s p k d 0x03
  else if 2 ^ 48 ≤ a then dmaFail (s.raiseDecode src (s.partOf src) (a % 2 ^ 48)) p k d 0x01
  else
    match portCheck s a n with
    | .error .link => dmaFail (s.raise 0x53 src (s.partOf src) a) p k d 0x04
    | .error _ => dmaFail (s.raiseDecode src (s.partOf src) a) p k d 0x01
    | .ok _ =>
      let (s, id) := s.submit src a n data.isSome (data.getD []) d.cls d.dl (.dma p k)
      s.setDma p k (some { d with phase := if data.isSome then .writing id n else .reading id })

/-- The processor's DMA engine has its clock: a tile's stops with it (R452, R470). -/
def State.procClocked (s : State) : Proc → Bool
  | .core t => (s.tiles[t]).clocked
  | _ => true

/-- The engine takes the next step of a descriptor: the read of its next transaction, or the write of the data it holds. -/
def dmaAdvance (s : State) (p : Proc) (k : Fin 32) : State :=
  match s.dmaOf p k with
  | none => s
  | some d =>
    if !s.procClocked p || d.bad || d.fail.isSome || d.total ≤ d.done then s
    else
      match d.phase with
      | .idle =>
        match dmaStep s p d with
        | (s, .error c) => dmaFail s p k d c
        | (s, .ok (pat, con, n)) =>
          if d.scatter then dmaSide s p k d d.cl con n none else dmaSide s p k d d.pl pat n none
      | .have b =>
        match dmaStep s p d with
        | (s, .error c) => dmaFail s p k d c
        | (s, .ok (pat, con, _)) =>
          if d.scatter then dmaSide s p k d d.pl pat b.length (some b) else dmaSide s p k d d.cl con b.length (some b)
      | _ => s

/-! ## Completion (R134) -/

/-- Every transaction of the descriptor has completed, or one has failed. -/
def DmaSlot.finished (d : DmaSlot) : Bool := (d.bad || d.fail.isSome || d.total ≤ d.done) && d.phase = .idle

/-- The completion status word (R134). -/
def DmaSlot.status (d : DmaSlot) : Nat :=
  if d.bad then 0x05
  else match d.fail with
    | some c => d.done * 2 ^ 16 + c.toNat
    | none => 0

/-- The descriptor in a slot completes (R134): its status is written if enabled, and its tally signalled. -/
def execDmaDescriptorComplete (p : Proc) (slot : Fin 32) (s : State) : Out :=
  .next (match s.dmaOf p slot with
    | none => s
    | some d =>
      if d.finished && s.procClocked p then
        let s := if d.statusEn then (writeSpaceAs s p (s.dmaSrcOf p) (d.addr + 56) (natLe 8 d.status)).1 else s
        let s := (s.setDma p slot none).sendMarked (s.dmaSrcOf p) d.tally.toNat 1 d.marked
        s.releaseCheck p
      else s)

end Sys2Proof.Machine
end

