-- ==== Sys2Proof/Machine/TallyInstr.lean ====
section
/-! DEFINITION. SIGNAL, WAIT, WAITT and SIGR (R135 to R139, R560), their completion at the processor, and the
acknowledgements that a release waits for. -/

namespace Sys2Proof.Machine

/-- The home of a tally instruction: HOME, or all of ra (R560). -/
def sHome (q : Seq) (e : Enc) : BitVec 64 := if opRH e then readReg q (opRaS e) false else (opHome e).setWidth 64

/-- The registers that the home of a tally instruction reads. -/
def homeReads (e : Enc) : List CoreUpset := if opRH e then [.regParity] else []

/-- A tally instruction past its tally-range check (R136). -/
def withHome (s : State) (p : Proc) (e : Enc) (waits : Bool) (body : State → Nat → State) : State :=
  let h := sHome (s.seq p) e
  if 16383 < h.toNat || (waits && isDep p && h.toNat < 12288) then s.trap p 0x0C h
  else body (s.cutProc p) h.toNat

/-- SIGNAL (R135): sent once its release condition holds. -/
def execSignal (p : Proc) (e : Enc) (s : State) : Out :=
  .next (issue p e (sOk false true false e) [] (homeReads e) s fun s => withHome s p e false fun s h =>
    (s.modSeq p fun q => { q with pendSig := some { home := h, n := opN e, d := opD e, remote := false, pd := 0 } }).releaseCheck p)

/-- A wait is registered at its home, and the processor blocks (R137, R138). -/
def State.startWait (s : State) (p : Proc) (h : Nat) (n : BitVec 8) (deadline : Option (BitVec 64)) (poll : Bool) (pd : BitVec 3) : State :=
  let src := s.srcOf p
  let tag := s.tly.nextWait
  let s := (s.modTly fun y => { y with nextWait := tag + 1 }).modSeq p fun q =>
    { q with run := .waiting,
             wait := some { tag := tag, home := h, n := n, deadline := deadline, pd := pd, outcome := .pending, withdrawn := false } }
  s.sendTally h (.wait h src (s.partOf src) tag n deadline poll (s.marked src))

/-- The conditions of a migration point hold at a core that is about to issue a WAIT (R464). -/
def Tile.atMigrationPoint (x : Tile) : Bool :=
  x.tmulWait.isNone && x.kvOut == 0 && x.dma.toList.all (·.isNone) && x.seq.sigrs.isEmpty && x.seq.pendSig.isNone && !x.seq.inTrap

/-- The core is armed for migration, and has not been migrated in the present job (R240, R465). -/
def State.armedAt (s : State) (t : Fin 136) : Bool :=
  match s.lcOf t with
  | some lc => (s.wear.armed.any fun a => a.1 == lc) && !s.prog.migrated.contains lc.val
  | none => false

/-- An armed core that is about to issue a WAIT stops there for its migration (R465). -/
def State.holdsForMigration (s : State) (p : Proc) : Bool :=
  match p with
  | .core t => s.armedAt t && (s.tiles[t]).atMigrationPoint
  | _ => false

/-- WAIT (R137). -/
def execWait (p : Proc) (e : Enc) (s : State) : Out :=
  .next (issue p e (sOk false false false e) [] (homeReads e) s fun s =>
    if s.holdsForMigration p then s
    else withHome s p e true fun s h => s.startWait p h (opN e) none false 0)

/-- Device time as a processor has it: a deputy keeps its own (R88, R403). -/
def State.procDt (s : State) (p : Proc) : BitVec 64 := match p with | .dep d => s.depDt d | _ => s.dt

/-- WAITT (R138): the deadline is DT + T with T in bits [31:0] of rt. -/
def execWaitt (p : Proc) (e : Enc) (s : State) : Out :=
  .next (issue p e (sOk true false true e) [] [.regParity] s fun s =>
    let t : BitVec 32 := bits (readReg (s.seq p) (opRt e) false) 0 32
    withHome s p e true fun s h => s.startWait p h (opN e) (some (s.procDt p + t.setWidth 64)) (t == 0) (opPdS e))

/-- SIGR (R139): with four SIGRs outstanding it stalls. -/
def execSigr (p : Proc) (e : Enc) (s : State) : Out :=
  .next (issue p e (sOk true true false e && !isDep p) [] (homeReads e) s fun s =>
    if 4 ≤ (s.seq p).sigrs.length then s
    else withHome s p e false fun s h =>
      (s.modSeq p fun q => { q with pendSig := some { home := h, n := opN e, d := opD e, remote := true, pd := opPdS e } }).releaseCheck p)

/-- The oldest SIGR with a result writes it to its predicate (R139). -/
def execSigrResult (p : Proc) (s : State) : Out :=
  .next (match (s.seq p).sigrs.find? fun x => x.result.isSome with
    | none => s
    | some x =>
      s.modSeq p fun q =>
        let q := { q with sigrs := q.sigrs.erase x }
        match x.result with | some b => writePred q x.pd b | none => q)

/-! ## The end of a wait at its processor -/

/-- The processor resumes from its wait: granted (the MP's cache is invalidated, R130) or timed out. -/
def State.resumeWait (s : State) (p : Proc) (granted : Bool) : State :=
  match (s.seq p).wait with
  | none => s
  | some w =>
    let s := if p = .mp && granted then { s with mpCache := [] } else s
    s.modSeq p fun q =>
      let q := if w.deadline.isSome then writePred q w.pd granted else q
      { q with wait := none, run := .running, pc := q.pc + 8 }

/-- The home refused the wait (R200): a bus-error firewall trap with the home in EADDR. -/
def State.refuseWait (s : State) (p : Proc) : State :=
  match (s.seq p).wait with
  | none => s
  | some w => (s.modSeq p fun q => { q with wait := none, run := .running }).trap p 0x08 (BitVec.ofNat 64 w.home)

/-- The processor goes on with the outcome of its wait. -/
def State.settleWait (s : State) (p : Proc) : WaitOutcome → State
  | .pending => s
  | .granted => s.resumeWait p true
  | .timedOut => s.resumeWait p false
  | .refused => s.refuseWait p

/-- The processor of a source that waits (R207): a core by the core map, the MP, a deputy. -/
def State.procOf (s : State) (src : Src) : Option Proc :=
  let n := src.toNat
  if n < 0x100 then (match finOf 128 (n / 2) with | some lc => (s.tileOf lc).map .core | none => none)
  else if n = 0x100 then some .mp
  else if n = 0x102 then some (.dep 0)
  else if n = 0x103 then some (.dep 1)
  else none

/-- The outcome of an engine's wait on its RELEASE home (R204, R354, R367): a grant starts its cycle; a refused wait stays refused,
since an engine has no trap (R200). -/
def State.settleEngine (s : State) (src : Src) (tag : Nat) (o : WaitOutcome) : State :=
  if src == 0x120 then
    match s.fus.wait with
    | some w =>
      if w.tag ≠ tag then s
      else s.modFus fun f => if o = .granted then { f with wait := none, startDt := some s.dt } else { f with wait := some { w with outcome := o } }
    | none => s
  else if src == 0x121 then
    match s.pln.wait with
    | some w =>
      if w.tag ≠ tag then s
      else s.modPln fun p =>
        if o = .granted then { p with wait := none, granted := some s.dt, running := true, relSince := false, idle := none, doneSent := false }
        else { p with wait := some { w with outcome := o } }
    | none => s
  else s

/-- The outcome of a wait reaches its waiter (R138, R200, R205, R207, R210): a clock-gated core waits for its die's wake staging,
every other processor goes on at once. What is for another wait than the one outstanding is discarded (R559, R561). -/
def State.deliverWait (s : State) (src : Src) (tag : Nat) (o : WaitOutcome) : State :=
  match s.procOf src with
  | none => s.settleEngine src tag o
  | some p =>
    match (s.seq p).wait with
    | none => s
    | some w =>
      if w.tag ≠ tag then s
      else
        match p with
        | .core t =>
          (s.modSeq p fun q => { q with wait := some { w with outcome := o } }).modTly fun y =>
            { y with wake := vmod y.wake (tileDie t) (· ++ [t]) }
        | p => s.settleWait p o

/-- The acknowledgement of a posted ST returns (R135): it may release a pending SIGNAL or SIGR. -/
def execStAcknowledge (p : Proc) (s : State) : Out :=
  .next (if (s.seq p).stAck = 0 then s
    else (s.modSeq p fun q => { q with stAck := q.stAck - 1, postedSt := q.postedSt - 1 }).releaseCheck p)

end Sys2Proof.Machine
end

