-- ==== Sys2Proof/Machine/TallyHome.lean ====
section
/-! DEFINITION. What happens at a tally's home (R196 to R213, R246, R247, R446, R561). -/

namespace Sys2Proof.Machine

/-! ## A tally on its own -/

/-- The count covers a wait of `n` (R203, R204). -/
def Tally.covers (t : Tally) (n : BitVec 8) : Bool :=
  match t.mode with
  | .disabled => false
  | .counting => n.toNat ≤ t.count.toNat
  | .event => t.count = 1

/-- The count after a grant of `n` (R203, R204). -/
def Tally.consume (t : Tally) (n : BitVec 8) : Tally :=
  match t.mode with
  | .event => { t with count := 0 }
  | _ => { t with count := t.count - n.setWidth 16 }

/-- A signal of `n` and whether it overflows the count (R201 to R203). -/
def Tally.signal (t : Tally) (n : BitVec 8) : Tally × Bool :=
  match t.mode with
  | .event =>
    ({ t with count := 1, lost := satAdd t.lost (n.toNat - (1 - t.count.toNat)) }, false)
  | _ =>
    if 65535 < t.count.toNat + n.toNat then ({ t with count := 65535, ovf := true }, true)
    else ({ t with count := t.count + n.setWidth 16 }, false)

/-- The home records the last signaller (R197). -/
def Tally.record (t : Tally) (src : Src) (dt : BitVec 64) : Tally := { t with last := some (src, bits dt 0 48) }

/-- A lag in units of 8 ns, saturated (R211, R213). -/
def lagUnits (ns : Nat) : BitVec 16 := BitVec.ofNat 16 (min (ns / 8) 65535)

/-- An arrival at a barrier tally (R211): when it completes the round, the cores that took part, each with its late mark: it
was the last to arrive and the lag exceeded the threshold (R212). -/
def Barrier.arrive (b : Barrier) (lc : Nat) (dt : BitVec 64) : Barrier × List (Nat × Bool) :=
  if b.k.toNat ≤ b.arrived.toNat + 1 then
    let ns := (dt - b.lastDt).toNat
    let who := if b.cores.contains lc then b.cores else b.cores ++ [lc]
    ({ b with arrived := 0, lastLc := BitVec.ofNat 8 lc, lag := lagUnits ns, lastDt := dt, cores := [] },
     who.map fun n => (n, n == lc && decide (8 * b.threshold.toNat < ns)))
  else
    ({ b with arrived := b.arrived + 1, lastDt := dt, cores := if b.cores.contains lc then b.cores else b.cores ++ [lc] }, [])

/-- The head of the waiter list, if the count covers it (R205). -/
def Tally.dueHead (t : Tally) : Option Waiter :=
  match t.waiters with
  | w :: _ => if t.covers w.n then some w else none
  | [] => none

/-- The head is granted (R205). -/
def Tally.grantHead (t : Tally) : Tally :=
  match t.waiters with
  | w :: ws => { t.consume w.n with waiters := ws }
  | [] => t

/-- Every head that the count covers is granted, at most `k` of them. -/
def Tally.drain : Nat → Tally → Tally
  | 0, t => t
  | k + 1, t => if t.dueHead.isSome then Tally.drain k t.grantHead else t

/-- A wait reaches the tally (R204): granted at once, or not; a poll that is not granted does not join the list (R138). -/
def Tally.wait (t : Tally) (w : Waiter) (poll : Bool) : Tally × Bool :=
  if t.waiters.isEmpty && t.covers w.n then (t.consume w.n, true)
  else if poll then (t, false)
  else ({ t with waiters := t.waiters ++ [w] }, false)

/-- A wait leaves the list. -/
def Tally.leave (t : Tally) (tag : Nat) : Tally := { t with waiters := t.waiters.filter fun w => w.tag ≠ tag }

/-! ## Tallies of the device -/

def State.tally (s : State) (home : Nat) : Tally := tabGet Tally.off s.tly.tab home

def State.setTally (s : State) (home : Nat) (t : Tally) : State :=
  s.modTly fun y => { y with tab := tabPut Tally.off y.tab home t }

/-- The state of a tally that the unmarked operations alone produce, in a running snapshot (R247). -/
def Snap.shadowOf (k : Snap) (home : Nat) : Option Tally := (k.shadow.find? fun x => x.1 == home).map (·.2)

/-- An operation changes a tally. In a running snapshot, a marked one leaves the recorded state as it is; an unmarked one
changes it in the same way (R247). -/
def State.applyHome (s : State) (home : Nat) (marked : Bool) (f : Tally → Tally) : State :=
  let old := s.tally home
  let s := s.setTally home (f old)
  match s.snap with
  | none => s
  | some k =>
    match k.shadowOf home with
    | none => if marked then { s with snap := some { k with shadow := k.shadow ++ [(home, old.drain old.waiters.length)] } } else s
    | some sh =>
      if marked then s
      else
        let sh' := f sh
        let sh' := sh'.drain sh'.waiters.length
        { s with snap := some { k with shadow := k.shadow.map fun x => if x.1 = home then (home, sh') else x } }

/-- A grant that only marked signals have made possible is a cut point of the waiter (R246). -/
def State.cutOnGrant (s : State) (home : Nat) (src : Src) : State :=
  match s.snap with
  | none => s
  | some k =>
    match k.shadowOf home with
    | some sh =>
      if sh.waiters.any fun w => w.src == src then
        match s.procOf src with
        | some p => s.cutProc p
        | none => s.cutSrc src
      else s
    | none => s

/-! ## Checks at the home (R200, R267) -/

/-- The firewall lets the operation through (R267). -/
def State.homeAllowed (s : State) (t : Tally) (home : Nat) (src : Src) (part : BitVec 4) (isSignal : Bool) : Bool :=
  let own := part == t.part && !isPartnerSrc src
  let dep := src.toNat == 0x102 || src.toNat == 0x103
  if isSignal then !s.fab.modeP || part == t.part || isSystem src
  else own || isSystem src || (dep && 12288 ≤ home)

/-- The refusal of an operation at its home (R200): the DISABLED check, then the firewall. -/
def State.homeRefuses (s : State) (home : Nat) (src : Src) (part : BitVec 4) (isSignal : Bool) : State × Bool :=
  let t := s.tally home
  if t.mode = .disabled then (s.raise 0x23 src part home, true)
  else if s.homeAllowed t home src part isSignal then (s, false)
  else (s.raiseViolation src part home isSignal, true)

/-! ## Signals -/

/-- The history of barrier completions of a logical core, and the mark SUSPECT (R212). -/
def State.noteLate (s : State) (lc : Nat) (late : Bool) : State :=
  match finOf 128 lc with
  | none => s
  | some n =>
    let h := (late :: s.tly.late[n]).take 4096
    let s := s.modTly fun y => { y with late := y.late.set n h }
    if h.length = 4096 && 1024 < (h.filter id).length then
      match s.tileOf n with
      | some t => s.modWear fun w => { w with tile := vmod w.tile t fun x => { x with suspect := true } }
      | none => s
    else s

/-- The deadline monitor counts the signals applied to RELEASE homes (R242). -/
def State.noteRelease (s : State) (home n : Nat) : State :=
  ((List.range s.prog.img.tasks.length).zip s.prog.img.tasks).foldl (fun s it =>
    let (i, t) := it
    if t.release ≠ home || s.prog.shed.contains i || t.releaseN = 0 then s
    else
      let c := tabGet 0 s.prog.relCount i + n
      let starts := c / t.releaseN
      s.modProg fun p =>
        { p with relCount := tabPut 0 p.relCount i (c % t.releaseN),
                 deadlines := p.deadlines ++ List.replicate starts (i, s.dt + BitVec.ofNat 64 t.deadline) }) s

/-- A core that signals the DONE home of one of its tasks ends a job, in which it may have been migrated (R236, R240). -/
def State.noteJobEnd (s : State) (src : Src) (home : Nat) : State :=
  if src.toNat < 0x100 && src.toNat % 2 = 0 && (s.tasksOf (src.toNat / 2)).any (fun t => t.done == home) then
    s.modProg fun p => { p with migrated := p.migrated.filter (· ≠ src.toNat / 2) }
  else s

/-- A release applied to the RELEASE home of the planner's next cycle ends the repeat loop of the present one (R386). -/
def State.notePlanner (s : State) (home : Nat) : State :=
  match s.taskAt 0x103 (s.pln.task + 1) with
  | some t => if t.release = home then s.modPln fun p => { p with relSince := true } else s
  | none => s

/-- A signal is applied at its home (R201 to R203, R211). -/
def State.applySignal (s : State) (home : Nat) (src : Src) (part : BitVec 4) (n : BitVec 8) (marked : Bool) : State :=
  let t := s.tally home
  let ovf := (t.signal n).2
  let arr : List (Nat × Bool) :=
    match t.barrier with
    | some b => if src.toNat < 0x100 && src.toNat % 2 = 0 then (b.arrive (src.toNat / 2) s.dt).2 else []
    | none => []
  let f (t : Tally) : Tally :=
    let t := ((t.signal n).1).record src s.dt
    match t.barrier with
    | some b =>
      if src.toNat < 0x100 && src.toNat % 2 = 0 then { t with barrier := some (b.arrive (src.toNat / 2) s.dt).1 } else t
    | none => t
  let s := s.applyHome home marked f
  let s := if ovf then s.raise 0x23 src part home else s
  let s := arr.foldl (fun s x => s.noteLate x.1 x.2) s
  ((s.noteRelease home n.toNat).noteJobEnd src home).notePlanner home

/-- The acknowledgement of a signal from the partner (R504). -/
def State.ackSignal (s : State) (ack : Option (Fin 2 × BitVec 16)) : State :=
  match ack with
  | none => s
  | some (l, tag) => s.sendMsg l { typ := 6, epoch := s.ifc.link[l].epoch, tag := tag, label := 0, addr := 0, len := 0, data := [] }

/-- Some tally of the island has a head that its count covers (R199). -/
def State.grantDue (s : State) (isl : Fin 5) : Bool :=
  s.tly.tab.any fun x => islandOf x.1 == isl && x.2.dueHead.isSome

/-- The island's oldest queued operation, if no grant comes before it (R199). -/
def State.nextOp (s : State) (isl : Fin 5) : Option TallyOp := if s.grantDue isl then none else (s.tly.queue[isl]).head?

def State.popOp (s : State) (isl : Fin 5) : State := s.modTly fun y => { y with queue := vmod y.queue isl (·.drop 1) }

/-- The oldest queued operation of an island is a signal: it is applied or refused (R199 to R203). -/
def execTallySignalApply (isl : Fin 5) (s : State) : Out :=
  .next (match s.nextOp isl with
    | some (.sig home src part n marked ack) =>
      let s := s.popOp isl
      match s.homeRefuses home src part true with
      | (s, true) => s.ackSignal ack
      | (s, false) => (s.applySignal home src part n marked).ackSignal ack
    | _ => s)

/-- The oldest queued operation of an island is a wait: granted at once, refused, or appended (R200, R204, R138). -/
def execTallyWaitApply (isl : Fin 5) (s : State) : Out :=
  .next (match s.nextOp isl with
    | some (.wait home src part tag n deadline poll marked) =>
      let s := s.popOp isl
      match s.homeRefuses home src part false with
      | (s, true) => s.deliverWait src tag .refused
      | (s, false) =>
        let w : Waiter := { src := src, tag := tag, n := n, deadline := deadline }
        let granted := ((s.tally home).wait w poll).2
        let s := s.applyHome home marked fun t => (t.wait w poll).1
        if granted then (s.cutOnGrant home src).deliverWait src tag .granted
        else if poll then s.deliverWait src tag .timedOut
        else s
    | _ => s)

/-- A home grants the head of its waiter list while the count covers it (R205). -/
def execTallyGrant (home : Fin 16384) (s : State) : Out :=
  .next (match (s.tally home.val).dueHead with
    | none => s
    | some w =>
      ((s.setTally home.val (s.tally home.val).grantHead).cutOnGrant home.val w.src).deliverWait w.src w.tag .granted)

/-- The waiters of an island whose deadline has passed: home, position, source, deadline. -/
def State.expired (s : State) (isl : Fin 5) : List (Nat × Waiter × BitVec 64) :=
  (s.tly.tab.filter fun x => islandOf x.1 == isl).flatMap fun x =>
    x.2.waiters.filterMap fun w =>
      match w.deadline with
      | some d => if d.toNat ≤ s.dtN then some (x.1, w, d) else none
      | none => none

/-- The earliest of the expired waiters; the first of equal ones. -/
def earliest : List (Nat × Waiter × BitVec 64) → Option (Nat × Waiter × BitVec 64)
  | [] => none
  | x :: xs =>
    match earliest xs with
    | none => some x
    | some y => if y.2.2.toNat < x.2.2.toNat then some y else some x

/-- With no grant due and nothing queued, the island's earliest expired WAITT leaves its list with pd = 0 (R199, R207). -/
def execWaittExpiry (isl : Fin 5) (s : State) : Out :=
  .next (if s.grantDue isl || !(s.tly.queue[isl]).isEmpty then s
    else
      match earliest (s.expired isl) with
      | none => s
      | some (home, w, _) => (s.applyHome home (s.marked w.src) fun t => t.leave w.tag).deliverWait w.src w.tag .timedOut)

/-- A core that STOP has withdrawn from its wait halts at that instruction (R223, R561). -/
def State.haltWithdrawn (s : State) (src : Src) : State :=
  match s.procOf src with
  | some (.core t) =>
    match (s.tiles[t]).seq.wait with
    | some w => if w.withdrawn then (s.modSeq (.core t) fun q => { q with wait := none, run := .halted }).stopCheck else s
    | none => s
  | _ => s

/-- A withdrawal reaches the home (R561): the entry leaves the list and consumes no count; with no entry it has no effect. -/
def execWaitWithdrawal (isl : Fin 5) (s : State) : Out :=
  .next (match s.nextOp isl with
    | some (.withdraw home src tag) =>
      let s := s.popOp isl
      if (s.tally home).waiters.any fun w => w.tag == tag then
        (s.applyHome home (s.marked src) fun t => t.leave tag).haltWithdrawn src
      else s
    | _ => s)

/-- The die power controller releases the oldest tile of its die whose wait has ended from clock gating, at most 8 in any 100 ns (R210,
R446). -/
def execTileWake (d : Fin 4) (s : State) : Out :=
  .next (match s.tly.wake[d] with
    | [] => s
    | t :: ts =>
      let recent := (s.tly.wakeLog[d]).filter fun x => (s.dt - x).toNat < 100
      if 8 ≤ recent.length then s
      else
        let s := s.modTly fun y =>
          { y with wake := y.wake.set d ts, wakeLog := y.wakeLog.set d (s.dt :: recent) }
        match (s.tiles[t]).seq.wait with
        | some w => s.settleWait (.core t) w.outcome
        | none => s)

/-! ## Polls by engines (R138, R199): a WAITT with T = 0 -/

/-- A poll of a tally for `n` by an engine on behalf of a partition: refused, granted or not. -/
def State.pollAs (s : State) (src : Src) (part : BitVec 4) (home n : Nat) : State × Bool :=
  let s := s.cutSrc src
  match s.homeRefuses home src part false with
  | (s, true) => (s, false)
  | (s, false) =>
    let w : Waiter := { src := src, tag := 0, n := BitVec.ofNat 8 n, deadline := none }
    let granted := ((s.tally home).wait w true).2
    (s.applyHome home (s.marked src) fun t => (t.wait w true).1, granted)

/-- An engine's poll of a tally for `n`. -/
def State.poll (s : State) (src : Src) (home n : Nat) : State × Bool := s.pollAs src (s.partOf src) home n

/-- A signal of an engine on behalf of a partition. -/
def State.sendSignalAs (s : State) (src : Src) (part : BitVec 4) (home n : Nat) : State :=
  let s := s.cutSrc src
  s.sendTally home (.sig home src part (BitVec.ofNat 8 n) (s.marked src) none)

/-! ## The debug view (R213, R214) -/

/-- A write to TLY_DBG_SEL captures the selected tally. -/
def tlyDbgSelWrite (s : State) (v : BitVec 32) : State :=
  let h : BitVec 14 := bits v 0 14
  s.modTly fun y => { y with dbgSel := h, dbgCap := some (s.tally h.toNat) }

end Sys2Proof.Machine
end

