-- ==== Sys2Proof/Machine/CoreCtl.lean ====
section
/-! DEFINITION. Control of a core tile: scrubbing of its local store (R84), halt, resume, run and reset through CD_CORE_CTRL
(R97, R98, R559). -/

namespace Sys2Proof.Machine

/-! ## The local-store scrubber (R84) -/

/-- The scrubber meets a word: it corrects a single error, enters and poisons a new uncorrectable one, and skips a poisoned
one. -/
def scrubWord (t : Fin 136) (s : State) (w : Nat) : State :=
  match eccAt s.ecc w with
  | none => s
  | some .single | some (.symbol _) => lsCorrected s t w
  | some .hard =>
    let s := lsUncorrectable s t w (s.srcOf (.core t))
    { s with ecc := eccSet s.ecc w (some .poison) }
  | some .poison => s

/-- LOCAL_STORE_SCRUB: the scrubber reads a 32-byte line. -/
def execLocalStoreScrub (t : Fin 136) (line : Fin 24576) (ups : List Upset) (s : State) : Out := whenAlive s fun s =>
  let base := localBase t + 32 * line.val
  let s := { s with ecc := eccStrike s.ecc (localBase t) 8 (ups.filter fun u => 32 * line.val ≤ u.addr && u.addr < 32 * line.val + 32) }
  ((granules 8 base 32).foldl (scrubWord t) s)

/-! ## CD_CORE_CTRL -/

/-- CSR offset of a tile's register window (R96). -/
def coreCsr (t : Fin 136) : Nat := 0x2000000 + (t.val / 34) * 0x400000 + 0x100000 + (t.val % 34) * 0x10000

/-- A write of a CSR by a source without the right to it (R532). -/
def State.csrViolation (s : State) (src : Src) (off : Nat) : State := s.raiseViolation src (s.partOf src) (csrBase + off) true

/-- Who may write CD_CORE_CTRL (R97): the MP, and the debug subsystem. -/
def coreCtlRight (src : Src) : Bool := src == 0x100 || src == 0x108

/-- HALT_REQ = 1. -/
def haltOp (s : State) (t : Fin 136) : State := s.modTile t fun x => { x with haltReq := true }

/-- HALT_REQ = 0: a halted core resumes, unless run control still holds it. -/
def resumeOp (s : State) (t : Fin 136) : State :=
  s.modTile t fun x =>
    { x with haltReq := false,
             seq := if x.seq.run = .halted && !x.seq.dbgHalt then { x.seq with run := .running } else x.seq }

/-- RUN = 1 starts a reset core at TRAPBASE + 0x100. -/
def runOp (s : State) (t : Fin 136) : State :=
  s.modTile t fun x =>
    if x.seq.run = .reset then { x with seq := { x.seq with run := .running, pc := x.seq.trapBase + 0x100 } } else x

/-- Responses on their way to a sequencer that has been reset are dropped: those of its loads and stores, and those of its KVAPP
writes, whether the request is in the fabric or with the partner. -/
def State.orphan (s : State) (p : Proc) : State :=
  let kv (o : Origin) : Bool := match p with | .core t => o == .kv t | _ => false
  let f (r : Req) : Req := if r.org = .ld p || r.org = .st p || kv r.org then { r with org := .debug } else r
  let s := (s.modFab (·.mapReqs f)).modIfc fun i => { i with link := i.link.map fun k => { k with out := k.out.map fun x => (x.1, f x.2) } }
  match p with
  | .core t => s.modTile t fun x => { x with kvOut := 0 }
  | _ => s

/-- CORE_RST (R559). -/
def coreRstOp (s : State) (t : Fin 136) : State :=
  let s := ((s.withdrawWait (.core t)).noWake t).orphan (.core t)
  (s.modTile t fun x =>
    { x with
      seq := { Seq.reset (if x.seq.run = .off then .off else .reset) 0x100 with bps := x.seq.bps, dbgHalt := x.seq.dbgHalt }
      aflags := 0
      td := Vector.replicate 16 0
      planes := x.planes.map fun p => { p with loaded := false }
      tmulWait := none
      window := none
      fault := 0 }).stopCheck

/-- A command that writes CD_CORE_CTRL, by a source with the right to it. -/
def withCtl (src : Src) (t : Fin 136) (s : State) (op : State → Fin 136 → State) : Out :=
  .next (if coreCtlRight src then op s t else s.csrViolation src (coreCsr t))

def execHaltReq (src : Src) (t : Fin 136) (s : State) : Out := withCtl src t s haltOp

def execCoreResume (src : Src) (t : Fin 136) (s : State) : Out := withCtl src t s resumeOp

def execRun (src : Src) (t : Fin 136) (s : State) : Out := withCtl src t s runOp

def execCoreRst (src : Src) (t : Fin 136) (s : State) : Out := withCtl src t s coreRstOp

/-- The instruction boundary of a core asked to halt: nothing is under way that the halt waits for (R98, R223). -/
def atBoundary (x : Tile) : Bool :=
  x.seq.run == .running && x.seq.pend.isNone && x.seq.deferred.isNone && x.seq.ldWait.isNone && x.seq.wait.isNone &&
  x.seq.pendSig.isNone && x.tmulWait.isNone

/-- The instruction at the program counter has a breakpoint that takes effect (R512). -/
def atBreakpoint (q : Seq) : Bool := q.bpArmed && q.bps.toList.contains (some q.pc)

/-- A core asked to halt, or at a breakpoint, reaches its halt point; a breakpoint's halt is one of run control. -/
def execCoreHalted (t : Fin 136) (s : State) : Out :=
  let x := s.tiles[t]
  let bp := atBreakpoint x.seq
  .next (if atBoundary x && (x.haltReq || bp || (x.seq.dbgHalt && !x.seq.dbgStep)) then
      (s.modSeq (.core t) fun q => { q with run := .halted, dbgHalt := q.dbgHalt || bp }).stopCheck
    else s)

end Sys2Proof.Machine
end

