-- ==== Sys2Proof/Machine/StreamRec.lean ====
section
/-! DEFINITION. A stream record of the pre-processing table (R338), and the last-good buffers of the streams (R330). -/

namespace Sys2Proof.Machine

/-! ## Fields -/

def srKind (r : Bytes) : Nat := u8 r 0
def srPort (r : Bytes) : Nat := u8 r 1
def srInW (r : Bytes) : Nat := u16 r 4
def srInH (r : Bytes) : Nat := u16 r 6
def srRing (r : Bytes) : Nat := u8 r 10
def srGroup (r : Bytes) : Nat := u8 r 11
def srVariants (r : Bytes) : Nat := u8 r 12 % 16
def srCanInt (r : Bytes) : Nat := u8 r 12 / 16
def srAug (r : Bytes) : Nat := u8 r 13 % 4
def srFmt (r : Bytes) : Nat := u8 r 14
def srOutC (r : Bytes) : Nat := u8 r 15
def srOutW (r : Bytes) : Nat := u16 r 16
def srOutH (r : Bytes) : Nat := u16 r 18
def srReady (r : Bytes) : Nat := u16 r 120

/-- Bytes of an element of an output format. -/
def srElem (r : Bytes) : Nat := fmtBits (srFmt r) / 8

/-- Bytes of an output: a planar tensor (R321), or the payloads of an Ethernet sample (R312). -/
def srOutBytes (r : Bytes) : Nat :=
  if srKind r = 3 then u16 r 24 * u16 r 26 else srOutW r * srOutH r * srOutC r * srElem r

def State.strR (s : State) (n : Nat) : Bytes := strRec s.prog.img.pre n

/-- Source ID of a stream's slot traffic (R253): pre-processing, or Ethernet sensor intake. -/
def strSrc (n : Fin 56) : Src := if n.val < 48 then 0x110 else 0x113

def streams56 : List (Fin 56) := (List.range 56).filterMap (finOf 56)

/-! ## Last-good buffers (R330) -/

/-- The last-good output of a variant. -/
def State.goodAddr (s : State) (n : Fin 56) (v : Nat) : Nat :=
  let r := s.strR n.val
  hubBase + u32 r 128 + v * srOutBytes r

/-- The last-good buffer of a stream is cleared: it holds no output, and its bytes are 0 (DEDUCED, log 121). -/
def State.clearGood (s : State) (n : Fin 56) : State :=
  let len := srVariants (s.strR n.val) * srOutBytes (s.strR n.val)
  (s.engPut (strSrc n) (s.goodAddr n 0) (List.replicate len 0)).modStr n fun y => { y with good := [] }

end Sys2Proof.Machine
end

