-- ==== Sys2Proof/Machine/Program.lean ====
section
/-! DEFINITION. The life of a program: the phases of LOAD (R233, R238), START, STOP and UNLOAD (R222, R223, R241), with what
they do to tallies, stores, engines and cores. -/

namespace Sys2Proof.Machine

/-! ## LOAD -/

/-- The state a declared tally takes at LOAD (R198). -/
def TallyDecl.start (t : TallyDecl) : Tally :=
  { Tally.off with
    mode := t.mode, count := BitVec.ofNat 16 t.init, part := t.part,
    barrier := if t.barrier then
        some { k := BitVec.ofNat 8 t.k, threshold := BitVec.ofNat 16 t.lag, arrived := 0, lastLc := 0xFF, lag := 0, lastDt := 0, cores := [] }
      else none }

/-- The tallies of no image: DISABLED, with the OVERFLOW that each keeps until it is loaded again (R202). -/
def freeTallies (tab : List (Nat × Tally)) : List (Nat × Tally) :=
  (tab.filter (·.2.ovf)).map fun x => (x.1, { Tally.off with ovf := true })

/-- Every tally of the image takes its declaration; every other one is DISABLED. -/
def State.setTallies (s : State) (img : Image) : State :=
  s.modTly fun y => { y with tab := img.tallies.foldl (fun m t => tabPut Tally.off m t.home t.start) (freeTallies y.tab) }

/-- The KV slot record of a binding (R175, R235). -/
def kvRecBytes (img : Image) (b : KvBind) : Bytes :=
  match img.kvSeqs.find? fun q => q.seq == b.seq with
  | none => List.replicate 64 0
  | some q =>
    let region := match img.regions[q.region]? with | some r => r.base | none => 0
    natLe 8 region ++ natLe 2 q.maxlen ++ natLe 2 0 ++ natLe 1 q.layers ++ natLe 1 q.heads ++ natLe 1 b.hbase ++ natLe 1 b.hcount ++
      natLe 2 q.dh ++ natLe 1 (q.fmt + 16 * b2n q.bs) ++ natLe 1 q.seq ++ List.replicate 44 0

/-- The loader writes the slot records (R176). -/
def State.writeKvRecs (s : State) (img : Image) : State :=
  img.kvBinds.foldl (fun s b =>
    match finOf 128 b.lc with
    | some lc => (accWrite s 0x100 (.localLog lc b.addr) (kvRecBytes img b) false).1
    | none => s) s

/-- The errors of mirror copies and parity chunks go with the region table that laid them out. -/
def State.dropCopies (s : State) : State := { s with ecc := s.ecc.filter fun e => e.1 < 2 ^ 40 }

/-- The image's partition table is withdrawn (R563). -/
def State.noImage (s : State) : State :=
  (s.dropCopies.modProg fun p => { p with img := Image.empty, staged := none, undo := [], state := .none }).modFab fun f =>
    { f with loaded := false, modeP := false, hostPart := 0, buckets := [], budgets := [] }

/-- The writes of a LOAD are undone, the newest first, and the program is NONE (R233). -/
def State.undoLoad (s : State) : State :=
  let s := s.prog.undo.foldl (fun s u => s.putMem 8 u.1 u.2) s
  s.noImage

/-- A LOAD ends FAILED. -/
def State.failLoad (s : State) (k : Fin 64) (st : BitVec 8) (i0 i1 : BitVec 32) : State :=
  (s.undoLoad).endOp k .failed st i0 i1

def State.failLoadHw (s : State) (k : Fin 64) (st : BitVec 8) : State := (s.undoLoad).endH k .failed st

/-- Locks that the first LOAD sets (FAB_LOCK, WEA_CFG). -/
def State.loadLocks (s : State) : State :=
  (s.modFab fun f => { f with lock := true }).modWear fun w => { w with lock := true }

/-- The check phase of a LOAD (R238, R469). Before DINIT the operation stays in it (R518). -/
def State.loadCheckPhase (s : State) (k : Fin 64) (o : LongOp) : State :=
  if !s.boot.dinit then s
  else
    match bufRead s 0x100 o.hostmem (o.p[0]).toNat (o.p[1]).toNat with
    | (s, .error .dataLost) => s.failLoadHw k csDataLost
    | (s, .error _) => s.failLoadHw k csHwFault
    | (s, .ok b) =>
      let refuse (s : State) (e : Refuse) : State := ((s.recordFail e).failLoad k e.status e.info0 e.info1)
      match check1 b (o.p[1]).toNat with
      | .error e => refuse s e
      | .ok () =>
        match check2 s b with
        | .error e => refuse s e
        | .ok () =>
          let s := (s.sramRepairs).rebuildMap
          let img := parseImage b
          match resourceChecks s img [] with
          | .error e => refuse s e
          | .ok best =>
            let s := ((s.recordPass best).withImage img).loadLocks
            s.modProg fun p => { p with staged := some (img, b), checkedEpoch := p.epoch }

/-- The address in `mem` at which a section's bytes go. -/
def State.copyTarget (s : State) (dest len : Nat) : Option (Target × Nat) :=
  match portCheck s dest len with
  | .ok t => (storeAddr s t).map fun a => (t, a)
  | .error _ => none

/-- The next section of a LOAD is copied (R233). -/
def State.loadCopy (s : State) (k : Fin 64) (o : LongOp) (img : Image) (b : Bytes) : State :=
  match img.copies[o.progress]? with
  | none => s
  | some (dest, off, len) =>
    if len = 0 then s.modOp k fun o => { o with progress := o.progress + 1 }
    else
      match s.copyTarget dest len with
      | none => s.failLoadHw k csHwFault
      | some (t, a) =>
        let old := memGetN s.mem a len
        match accWrite s 0x100 t (sub b off len) false with
        | (s, none) =>
          (s.modProg fun p => { p with undo := (a, old) :: p.undo }).modOp k fun o =>
            { o with progress := o.progress + 1, permille := 1000 * (o.progress + 1) / img.copies.length }
        | (s, some .dataLost) => s.failLoadHw k csDataLost
        | (s, some _) => s.failLoadHw k csHwFault

/-- The counters that count from LOAD are cleared, and the engines' state that a LOAD clears (R330, R339, FAB, ADM). -/
def State.loadClear (s : State) : State :=
  let s := s.modInt fun _ => IntSt.reset
  let s := (streams56.filter fun n => srKind (s.strR n.val) ≠ 0).foldl State.clearGood s
  let s := s.modFab fun f => { f with statPromoted := 0, statLabelFix := 0, buckets := [], budgets := [] }
  s.modProg fun p => { p with shedCount := 0, missCount := 0, shed := [], nextK := [], relCount := [], deadlines := [], migrated := [] }

/-- The last section is in place: the program becomes LOADED. Where data was lost during the LOAD, it fails (R292). -/
def State.loadDone (s : State) (k : Fin 64) (img : Image) : State :=
  if (match s.cmd.ops[k] with | some o => o.lost | none => false) then s.failLoadHw k csDataLost
  else
    let s := (((s.setTallies img).writeKvRecs img).loadClear).dropCopies
    (s.modProg fun p => { p with state := .loaded, staged := none, undo := [] }).endH k .done csOk

/-- One unit of a LOAD's work: its checks, or one section. -/
def State.loadUnit (s : State) (k : Fin 64) (o : LongOp) : State :=
  match s.prog.staged with
  | none => s.loadCheckPhase k o
  | some (img, b) => if o.progress < img.copies.length then s.loadCopy k o img b else s.loadDone k img

/-! ## START -/

/-- A table of the image as the intake, the fusion engine and the planner see it: none where the image has none. -/
def State.hasFusion (s : State) : Bool := !s.prog.img.fus.isEmpty
def State.hasPlanner (s : State) : Bool := !s.prog.img.pln.isEmpty
def State.hasIntake (s : State) : Bool := !s.prog.img.pre.isEmpty

/-- Word `i` of entry `n` of the transforms or intrinsics of the calibration set (R478). -/
def calWords (b : Bytes) (base entry words n : Nat) : List (BitVec 32) :=
  (List.range words).map fun i => BitVec.ofNat 32 (u32 b (base + entry * n + 4 * i))

/-- The fusion engine at START (R343 to R348, R366). -/
def State.startFusion (s : State) : State :=
  if !s.hasFusion then
    s.modFus fun f => { f with late := 0, discard := 0, inp := f.inp.map fun (x : FusIn) => { x with missed := 0 } }
  else
    let c := s.calSet
    let ok := calCrcOk c
    let ins := (List.range 32).filter fun i => u8 (fusInRec s.prog.img.fus i) 0 != 0
    let s := if ok then s else s.raise 0x61 0x120 (s.partOf 0x120) 0
    (s.modFus fun _ =>
      { FusSt.reset with
        egoNext := s.dt + 500000, imuNext := s.dt, calValid := ok, a3 := !ok, calWcount := BitVec.ofNat 32 (calWcountOf c),
        calT := ins.map fun i => (i, calWords c 0x1040 64 16 (u8 (fusInRec s.prog.img.fus i) 22))
        calK := (ins.filter fun i => u8 (fusInRec s.prog.img.fus i) 23 != 0xFF).map fun i =>
          (i, calWords c 0x2040 16 4 (u8 (fusInRec s.prog.img.fus i) 23)) }).fusWait

/-- The planner at START (R368, R375, R389). -/
def State.startPlanner (s : State) : State :=
  if !s.hasPlanner then s.modPln fun p => { p with refuge := 0, paths := 0, dropQ := 0, dropN := 0 }
  else (s.modPln fun p => { PlnSt.reset with released := p.released }).plnWait

/-- The intake at START: groups count from frame-set 0 (R323), and the ports and streams that the table puts in service are
ACTIVE. -/
def State.startIntake (s : State) : State :=
  if !s.hasIntake then s
  else
    let pre := s.prog.img.pre
    s.modInt fun i =>
      { i with
        grp := Vector.replicate 8 { nextF := 0, closeAt := none, joined := [] }
        port := Vector.ofFn fun (p : Fin 4) =>
          { state := if u8 (recAt pre 16 16 p.val) 0 = 0 then .off else .active, lastValid := s.dt, retryAt := none }
        str := Vector.ofFn fun (n : Fin 56) =>
          let x := i.str[n]
          if u8 (strRec pre n.val) 0 = 0 then { x with state := .off }
          else { x with state := .active, sample := none, lastValid := s.dt, retryAt := none } }

/-- A core of the program starts, or goes on where it was halted (R223). -/
def State.startCore (s : State) (t : Fin 136) : State :=
  runOp (resumeOp s t) t

/-- Cores and engines start (R222, R223). -/
def State.startNow (s : State) : State := (((s.progTiles.foldl State.startCore s).startFusion).startPlanner).startIntake

/-- START (R222, R241): the program is RUNNING; its cores and engines start at the start DT, or at once where that is 0 or
past. -/
def State.startProgram (s : State) (at_ : BitVec 64) : State :=
  let now := decide (at_.toNat ≤ s.dtN)
  let s := s.modProg fun p =>
    { p with state := .running, startDt := if now then s.dt else at_, nextK := [], migrated := [] }
  if now then s.startNow else s

/-- The program runs, and its start DT has come. -/
def State.progOn (s : State) : Bool :=
  (s.prog.state == .running || s.prog.state == .readmitting) && decide (s.prog.startDt.toNat ≤ s.dtN)

/-! ## STOP and UNLOAD -/

/-- Engine schedules and time-base releases stop (R222); the engines' waits are withdrawn as those of a core are (R561; DEDUCED, log 118).
The slots that a stream has taken stay taken, each still to end in a READY (R327). The deadlines that
have started are still polled (R242). -/
def State.stopEngines (s : State) : State :=
  let s := s.modInt fun i =>
    { i with str := i.str.map fun x => { x with state := .off, sample := none, retryAt := none }
             port := i.port.map fun x => { x with state := .off, retryAt := none }
             grp := i.grp.map fun g => { g with closeAt := none, joined := [] } }
  let s := (s.withdrawEng 0x120 s.fus.wait).withdrawEng 0x121 s.pln.wait
  let s := s.modFus fun f => { f with startDt := none, wait := none }
  let s := s.modPln fun p => { p with running := false, granted := none, query := none, idle := none, wait := none }
  s.modProg fun p => { p with nextK := [] }

/-- STOP begins (R223): every core is asked to halt, its wait withdrawn; the record 0x44 is entered. -/
def State.beginStop (s : State) (q : Fin 16) : State :=
  let s := (s.stopEngines).raise 0x44 0x101 0 0
  let s := s.progTiles.foldl State.stopCore s
  (s.modProg fun p => { p with stopQ := some q }).stopCheck

/-- A suspect tile that had no spare is tested at UNLOAD (R463). -/
def State.testSuspects (s : State) : State :=
  s.modWear fun w => { w with tile := w.tile.map fun x => if x.suspect && x.state = .active then { x with testing := true } else x }

/-- UNLOAD (R222): every resource of the image is free; no tally is in use. Its cores are reset, so that a later program starts them. -/
def State.unload (s : State) : State :=
  let s := s.progTiles.foldl coreRstOp s
  let s := (s.modTly fun y => { y with tab := freeTallies y.tab }).noImage
  ((s.modInt fun _ => IntSt.reset).sramRepairs).testSuspects

end Sys2Proof.Machine
end

