-- ==== Sys2Proof/Machine/Traps.lean ====
section
/-! DEFINITION. Taking a trap (R119 to R125): the entry, the deferred traps, and the traps of a fetch that no instruction
command can carry. -/

namespace Sys2Proof.Machine

/-- Taking a trap (R120): EPC, ECAUSE and EADDR are set, RING.TRAP becomes 1, and execution continues at TRAPBASE. -/
def State.takeTrap (s : State) (p : Proc) (r : TrapReq) : State :=
  s.modSeq p fun q =>
    { q with epc := r.epc, ecause := BitVec.ofNat 64 (r.cause.toNat + b2n r.deferred * 256), eaddr := r.eaddr, inTrap := true,
             pc := q.trapBase, pend := none }

/-- The word at PC. -/
def State.wordAt (s : State) (p : Proc) : BitVec 64 :=
  let a := (s.seq p).pc.toNat
  BitVec.ofNat 64 (leNat (match p with
    | .core t => memGetN s.mem (localBase t + a) 8
    | .mp => memGetN s.mpSram a 8
    | .dep d => memGetN s.deps[d].sram a 8))

/-- With no trap pending, the fetch itself may raise one (R107, R125): past the end of the local space, or a (MAJOR, MINOR)
pair that is not listed for the processor. -/
def fetchTrap (s : State) (p : Proc) : State :=
  if !s.canIssue p then s
  else
    let q := s.seq p
    if localSpace p ≤ q.pc.toNat then s.trap p 0x06 q.pc
    else if s.fetchBad p then s.fetchFault p
    else
      let s := s.fetchMend p
      let w := s.wordAt p
      let listed := (decodeBunov p w).isSome && (isCore p || (w.extractLsb' 58 6).toNat < 0x20)
      if listed then s else s.trap p 0x01 0

/-- The processor enters a pending trap once every earlier queued instruction has completed and every earlier ST has been
acknowledged (R120). -/
def execTrapEntry (p : Proc) (s : State) : Out :=
  let s := if (s.seq p).pend.isNone then fetchTrap s p else s
  .next (match (s.seq p).pend with
    | none => s
    | some r => if (s.seq p).postedSt = 0 && (s.seq p).deferred.isNone && !s.tmulPending p then s.takeTrap p r else s)

/-- A deferred error becomes the trap to take (R124): it replaces a precise trap that waits, with the address of the
instruction that would have trapped; in the trap frame it is a double fault (R122). Of two deferred errors the one that comes first
in program order is reported; that this holds of two failed STs as well is the model's reading, DEDUCED (log 110). A SIGNAL
that still waits for its release condition has not been issued. -/
def State.deferredTrap (s : State) (p : Proc) (r : TrapReq) : State :=
  if (s.seq p).inTrap then s.doubleFault p
  else s.modSeq p fun q =>
    { q with deferred := none, pendSig := none,
             pend := some { firstFailure (q.pend.filter (·.deferred)) r with deferred := true, epc := q.pc } }

/-- A TMUL that waits for the array behind a failed instruction of the other queue is discarded (R124): it has been issued, so
that the next instruction is the one after it. -/
def State.discardTmul (s : State) (p : Proc) : State :=
  match p with
  | .core t =>
    if (s.tiles[t]).tmulWait.isSome then (s.modTile t fun x => { x with tmulWait := none }).advance p else s
  | _ => s

/-- An execution-time error of a queued instruction raises its deferred trap (R124). -/
def execDeferredTrap (p : Proc) (s : State) : Out :=
  .next (match (s.seq p).deferred with
    | none => s
    | some r => (s.discardTmul p).deferredTrap p r)

/-- An error response to a posted ST raises a deferred trap once every instruction in the queues has completed (R124). -/
def execStErrorResponse (p : Proc) (s : State) : Out :=
  .next (match (s.seq p).stErr with
    | [] => s
    | (c, a, k) :: rest =>
      if (s.seq p).ldWait.isSome || (s.seq p).wait.isSome || s.tmulPending p then s
      else
        let s := s.modSeq p fun q => { q with stErr := rest, postedSt := q.postedSt - 1 }
        s.deferredTrap p { cause := c, deferred := true, eaddr := a, epc := 0, ord := k })

end Sys2Proof.Machine
end

