-- ==== Sys2Proof/Machine/WearOps.lean ====
section
/-! DEFINITION. Wear, sparing and repair (R459 to R477): live migration, self-tests and retirement of tiles, the loss of a
compute die, and the wear ledger. -/

namespace Sys2Proof.Machine

/-! ## Live migration (R464 to R467) -/

/-- The processor's word at PC is a WAIT whose predicate holds. -/
def State.nextIsWait (s : State) (t : Fin 136) : Bool :=
  match decodeBunov (.core t) (s.wordAt (.core t)) with
  | some (.wait _ e) => readPred (s.tiles[t]).seq e.pred != e.pneg && !predBusy (s.tiles[t]).seq e.pred
  | _ => false

/-- Nothing of the tile's work is outstanding. -/
def Tile.quiet (x : Tile) : Bool := x.atMigrationPoint && x.seq.postedSt == 0 && x.seq.ldWait.isNone && x.seq.wait.isNone

/-- An armed core has reached its migration point: a running program's core is about to issue a WAIT (R464); in LOADED the
core is in reset or halted (R466). -/
def State.atStop (s : State) (lc : Fin 128) (t : Fin 136) : Bool :=
  let x := s.tiles[t]
  match s.prog.state with
  | .running | .readmitting =>
    atBoundary x && x.quiet && !s.prog.migrated.contains lc.val && s.nextIsWait t
  | .loaded => (x.seq.run == .reset || x.seq.run == .halted) && x.quiet
  | _ => false

/-- The core is no longer armed. -/
def State.disarm (s : State) (lc : Fin 128) : State := s.modWear fun w => { w with armed := w.armed.filter fun a => a.1 ≠ lc }

/-- The cells of one address range moved to another. -/
def moveCells {α : Type} (m : List (Nat × α)) (src dst n : Nat) : List (Nat × α) :=
  (m.filter fun c => src ≤ c.1 && c.1 < src + n).map fun c => (c.1 - src + dst, c.2)

/-- A table with `[dst, dst + n)` replaced by what `[src, src + n)` holds. -/
def copyRange {α : Type} (m : List (Nat × α)) (src dst n : Nat) : List (Nat × α) :=
  m.filter (fun c => c.1 < dst) ++ moveCells m src dst n ++ m.filter (fun c => dst + n ≤ c.1)

/-- An accumulator entry as a record carries it (R62, R557): a record has no mark of an anchor, so that an entry in frame FS without one
comes back anchored at X = 0. R557 says so of ACCX.A; that it holds of the copier too is DEDUCED (log 109). -/
def AccEntry.recorded (e : AccEntry) : AccEntry := if e.frame = .fs && !e.anchored then { e with anchored := true, x := 0 } else e

/-- The copier moves a tile's architectural state to another tile (R465 step 3). -/
def Tile.moved (x y : Tile) : Tile :=
  { y with seq := { x.seq with bps := y.seq.bps, dbgHalt := y.seq.dbgHalt, dbgStep := y.seq.dbgStep, bpArmed := y.seq.bpArmed }
           aflags := x.aflags, td := x.td, vr := x.vr, acc := x.acc.map fun e => (e.1, e.2.recorded), rowCount := x.rowCount, planes := x.planes,
           window := x.window, haltReq := x.haltReq, tmulWait := none }

/-- Step 1 of a migration stop (R465): both tiles become MIGRATING, and the core map binds the logical core to the target. -/
def State.beginMove (s : State) (lc : Fin 128) (src dst : Fin 136) (slot : Option (Fin 64)) : State :=
  ((s.bind lc (some dst)).parkTile src .migrating).modWear fun v =>
    { v with tile := vmod v.tile dst fun y => { y with state := .migrating, lc := BitVec.ofNat 8 lc.val }
             moving := v.moving ++ [{ lc := lc, src := src, dst := dst, slot := slot }] }

/-- Every request that was issued to the logical core before step 1 has completed at the source tile (R28, R465 step 2). -/
def State.moveDrained (s : State) (m : Moving) : Bool := s.outstanding.all fun r => r.tile != some m.src

/-- Steps 2 to 4 of a migration stop (R465): the copy, and the states of the two tiles after it. -/
def State.endMove (s : State) (m : Moving) : State :=
  let src := m.src
  let dst := m.dst
  let w := s.wear.tile[src]
  let x := s.tiles[src]
  let s := s.modWear fun v => { v with moving := v.moving.filter fun y => y.lc ≠ m.lc }
  let s := { s with mem := copyRange s.mem (localBase src) (localBase dst) localSize,
                    ecc := copyRange s.ecc (localBase src) (localBase dst) localSize }
  let s := s.modTile dst x.moved
  let s := s.powerTile src false
  let s := s.parkTile src (if w.cand then .retired else .spare)
  let s := s.modWear fun v => { v with
    tile := vmod (vmod v.tile dst fun y => { y with state := .active, testing := false }) src
      fun y => { y with testing := y.testing || (w.suspect && !w.cand) } }
  s.modProg fun p => { p with migrated := p.migrated ++ [m.lc.val] }

/-- The tile that an armed core moves to: the one asked for while it is still SPARE, else the lowest spare of the die. -/
def State.migTarget (s : State) (src : Fin 136) (want : Option (Fin 136)) : Option (Fin 136) :=
  match want with
  | some t => if s.spareOk t && tileDie t = tileDie src then some t else none
  | none => s.spareOf (tileDie src)

/-- A migration's operation, if it has one, ends. -/
def State.endMig (s : State) (slot : Option (Fin 64)) (ok : Bool) : State :=
  match slot with
  | some k => if ok then s.endH k .done csOk else s.endH k .failed csHwFault
  | none => s

/-- A candidate tile without a spare: it is RETIRED, its core unmapped, and the epoch increments (R467). -/
def State.retireUnmap (s : State) (lc : Fin 128) (t : Fin 136) : State :=
  let s := s.modTile t fun x => { x with seq := { x.seq with run := .off } }
  (((s.bind lc none).parkTile t .retired).capLoss 1 t.val).stopCheck

/-- A migration stop in progress goes on once the requests of step 2 have completed, and its operation ends. -/
def State.tryMove (s : State) (m : Moving) : State :=
  if s.moveDrained m then ((s.endMove m).endMig m.slot true).stopCheck else s

/-- An armed core stops at its migration point (R465, R467): step 1, or, for a candidate without a spare, the end of its
mapping. In LOADED the steps are performed at once (R466). -/
def State.startMove (s : State) (lc : Fin 128) (t : Fin 136) (want : Option (Fin 136)) (slot : Option (Fin 64)) : State :=
  let loaded := s.prog.state == .loaded
  let s := s.disarm lc
  match s.migTarget t want with
  | some dst =>
    let s := s.beginMove lc t dst slot
    let s := match slot with | some k => s.modOp k fun o => { o with permille := 500 } | none => s
    if loaded then s.tryMove { lc := lc, src := t, dst := dst, slot := slot } else s
  | none =>
    let s := s.endMig slot false
    if (s.wear.tile[t]).cand then s.retireUnmap lc t else s

/-- MIGRATION_STOP (R465 to R467): step 1 at the migration point; steps 2 to 4 when the earlier requests have completed. -/
def execMigrationStop (lc : Fin 128) (s : State) : Out :=
  .next (match s.wear.moving.find? fun m => m.lc == lc with
    | some m => s.tryMove m
    | none =>
      match s.tileOf lc, s.wear.armed.find? fun a => a.1 == lc with
      | some t, some (_, want, slot) => if s.atStop lc t then s.startMove lc t want slot else s
      | _, _ => s)

/-- The MP arms a logical core (R465). -/
def State.arm (s : State) (lc : Fin 128) (want : Option (Fin 136)) (slot : Option (Fin 64)) : State :=
  (s.disarm lc).modWear fun w => { w with armed := w.armed ++ [(lc, want, slot)] }

/-- The cores that the MP arms of itself: candidates (R462, R467), and suspects while a spare is left (R463). -/
def State.armWorn (s : State) : State :=
  ((List.range 128).filterMap (finOf 128)).foldl (fun s lc =>
    match s.tileOf lc with
    | none => s
    | some t =>
      let w := s.wear.tile[t]
      if (s.wear.armed.any fun a => a.1 == lc) || w.state ≠ .active then s
      else if w.cand || (w.suspect && (s.spareOf (tileDie t)).isSome) then s.arm lc none none
      else s) s

/-! ## Self-tests (R460, R461, R463, R473) -/

/-- The running REPAIR operation that tests a tile. -/
def State.testOp (s : State) (t : Fin 136) : Option (Fin 64 × LongOp) :=
  s.liveOps.find? fun x => x.2.opcode == 0x15 && (x.2.p[0]).toNat % 256 == 3 && (x.2.p[1]).toNat == t.val && x.2.started

/-- A tile that fails its self-test becomes RETIRED, with CAUSE 0x07 (R461); a core bound to it becomes unmapped. -/
def State.testFailed (s : State) (t : Fin 136) : State :=
  let s := s.modTile t fun x => { x with fault := 0x07 }
  let s := s.modWear fun v => { v with tile := vmod v.tile t fun x => { x with cause := 0x07 } }
  s.retireFaulted t

/-- A tile that passes: SPARE after a move or a test at start; SUSPECT is cleared (R463). -/
def State.testPassed (s : State) (t : Fin 136) : State :=
  s.modWear fun v => { v with tile := vmod v.tile t fun x =>
    { x with suspect := false, state := if x.state = .untested then .spare else x.state } }

/-- TILE_SELF_TEST_DONE: the test that runs on a tile ends. -/
def execTileSelfTestDone (t : Fin 136) (pass : Bool) (s : State) : Out :=
  .next (if !(s.wear.tile[t]).testing then s
    else
      let s := s.modWear fun v => { v with tile := vmod v.tile t fun x => { x with testing := false, selfTests := x.selfTests + 1 } }
      let s := if pass then s.testPassed t else s.testFailed t
      match s.testOp t with
      | some (k, o) => if o.state = .cancelling then s.endH k .cancelled csCancelled else s.endH k .done csOk
      | none => s)

/-- SPARE_RETEST: a test starts on every SPARE tile of a die in service (R461). -/
def execSpareRetest (s : State) : Out :=
  .next (s.modWear fun v => { v with
    tile := Vector.ofFn fun (t : Fin 136) =>
      let x := v.tile[t]
      if x.state = .spare && s.dieOk (tileDie t) then { x with testing := true } else x })

/-! ## The loss of a compute die (R470) -/

/-- Every processor with a wait outstanding at one of the die's homes ends it as a refused wait (R200, R470). -/
def State.refuseWaitsAt (s : State) (d : Fin 4) : State :=
  let ps : List Proc := ((List.range 136).filterMap (finOf 136)).map Proc.core ++ [.mp, .dep 0, .dep 1]
  ps.foldl (fun s p =>
    match (s.seq p).wait with
    | some w =>
      if (islandOf w.home).val = d.val && w.outcome = .pending then
        (s.raise 0x23 (s.srcOf p) (s.partOf (s.srcOf p)) w.home).refuseWait p
      else s
    | none => s) s

/-- The die's homes read DISABLED; waits and withdrawals under way to them end with it. -/
def State.dropHomes (s : State) (d : Fin 4) : State :=
  s.modTly fun y =>
    { y with
      tab := y.tab.filter fun x => (islandOf x.1).val ≠ d.val
      queue := vmodN y.queue d.val fun q => q.filter fun o => match o with | .sig .. => true | _ => false
      wake := y.wake.set d [] }

/-- A migration of one of the die's cores is abandoned. -/
def State.abandonMigrations (s : State) (d : Fin 4) : State :=
  let s := (s.wear.armed.filter fun a => match s.tileOf a.1 with | some t => tileDie t = d | none => true).foldl
    (fun s a => (s.disarm a.1).endMig a.2.2 false) s
  let gone := s.wear.moving.filter fun m => tileDie m.src = d
  let s := s.modWear fun w => { w with moving := w.moving.filter fun m => tileDie m.src ≠ d }
  gone.foldl (fun s m =>
    let s := s.parkTile m.src (if (s.wear.tile[m.src]).cand then .retired else .spare)
    (s.modWear fun w => { w with tile := vmod w.tile m.dst fun y => { y with state := .active } }).endMig m.slot false) s

/-- The die's clocks stop and its tiles read UNTESTED; their cores are unmapped. -/
def State.stopDie (s : State) (d : Fin 4) : State :=
  (slotsOf d).foldl (fun s t =>
    let s := match s.lcOf t with | some lc => s.bind lc none | none => s
    let s := s.modWear fun w => { w with tile := vmod w.tile t fun x => { x with kept := x.kept.or (some x.state) } }
    let s := s.parkTile t .untested
    (s.orphan (.core t)).modTile t fun x =>
      { x with clocked := false, tmulWait := none, array := .off, kvOut := 0, dma := Vector.replicate 32 none,
               seq := { x.seq with run := .off, wait := none, pend := none, deferred := none, ldWait := none, pendSig := none, sigrs := [] } }) s

/-- Die `d` is declared lost (R470). -/
def State.loseDie (s : State) (d : Fin 4) : State :=
  let s := s.abandonMigrations d
  let s := s.stopDie d
  let s := s.modPwr fun p => { p with die := vmod p.die d fun x => { x with tier := 0, change := none, target := 550 } }
  let s := (s.dropHomes d).refuseWaitsAt d
  let s := s.modWear fun w => { w with die := vmod w.die d fun x =>
    { x with lost := true, losses := x.losses + 1, perm := decide (3 ≤ x.losses + 1) } }
  (s.capLoss 2 d.val).stopCheck

/-- All four crosscuts of a die have failed. -/
def State.dieCut (s : State) (d : Fin 4) : Bool :=
  [2 * d.val, 2 * d.val + 1, 8 + d.val, 8 + (d.val + 3) % 4].all fun x => !s.xOk x

/-- DIE_LOST. -/
def execDieLost (d : Fin 4) (cause : DieLossCause) (s : State) : Out := whenAlive s fun s =>
  (if !s.dieOk d || (cause = .crosscuts && !s.dieCut d) then s else s.loseDie d)

/-! ## The wear ledger (R474 to R477) -/

/-- `2^(k/50)` of an integer `k`, times 2^-40 hours for 1 ms, in units of 2^-40 hours, rounded down. -/
def stressUnits (k : Int) : Nat :=
  let n := k / 50
  let f := (k % 50).toNat
  let v := fxExp (f * fxLn2 / 50)
  let m : Nat := 2 ^ 40 * v
  if n < 0 then m / (3600000 * fxOne * 2 ^ (-n).toNat) else m * 2 ^ n.toNat / (3600000 * fxOne)

/-- The stress term of 1 ms at a voltage in mV and a temperature in °C (R475). -/
def stressTerm (mv : Nat) (t : Int) : Nat := stressUnits ((mv : Int) - 720 + 5 * (t - 105))

/-- Today's totals of S and C grow. -/
def addDay (l : List (Nat × Nat)) (ds dc : Nat) : List (Nat × Nat) :=
  match l with
  | [] => [(ds, dc)]
  | x :: r => (x.1 + ds, x.2 + dc) :: r

/-- A new hour begins: its bucket opens. -/
def State.newHour (s : State) : State :=
  let h := s.dtN / 3600000000000
  if h = s.wear.hour then s
  else
    let n := min 24 (h - s.wear.hour)
    s.modWear fun w => { w with
      hour := h, tile := w.tile.map fun x => { x with ceHours := (List.replicate n 0 ++ x.ceHours).take 24 } }

/-- STRESS_ACCRUAL. -/
def execStressAccrual (s : State) : Out :=
  .next (if s.mpGone then s
    else
      let s := s.newHour
      s.modWear fun w => { w with
        die := Vector.ofFn fun (d : Fin 4) =>
          let x := w.die[d]
          if x.lost then x
          else
            let p := s.pwr.die[d]
            let k := stressTerm p.volt.toNat (vgetN s.pwr.therm d.val { step := 0, hot := 0, unit := 0xFF, temp := 0, readings := [] }).temp
            { x with s := x.s + k, days := addDay x.days k 0, peakMs := if p.tier = 2 then x.peakMs + 1 else x.peakMs } })

/-- The range of a cycle between two reversals, 1/64 K. -/
def rangeOf (a b : Int) : Nat := (a - b).natAbs

/-- Damage of a full cycle in units of 1/13,107,200: 2 r² for a range of r/64 K, that is (r / 2,560)² (R476). -/
def cycleDamage (r : Nat) : Nat := if r < 640 then 0 else 2 * r * r

/-- The bin of a range: 10-19, 20-39, 40-79, from 80 K. -/
def cycleBin (r : Nat) : Nat := if r < 1280 then 0 else if r < 2560 then 1 else if r < 5120 then 2 else 3

/-- A full cycle is counted. -/
def WearDie.cycle (x : WearDie) (r : Nat) : WearDie :=
  if r < 640 then x
  else { x with c := x.c + cycleDamage r, days := addDay x.days 0 (cycleDamage r), bins := vmodN x.bins (cycleBin r) (· + 1) }

/-- Four-point rainflow on the confirmed reversals, newest first: the full cycles found, and what is left. -/
def fourPoint : Nat → List Int → List Nat × List Int
  | k + 1, d :: c :: b :: a :: r =>
    if rangeOf b c ≤ rangeOf a b && rangeOf b c ≤ rangeOf c d then
      let (f, l) := fourPoint k (d :: a :: r)
      (rangeOf b c :: f, l)
    else ([], d :: c :: b :: a :: r)
  | _, l => ([], l)

/-- A sample of the signal, 1/64 K: the newest entry of the residue is the running extremum, confirmed as a reversal once
the signal has moved back by 1 K. -/
def WearDie.sample (x : WearDie) (v : Int) : WearDie :=
  match x.residue with
  | [] => { x with residue := [v] }
  | [e] => if 64 ≤ rangeOf v e then { x with residue := [v, e] } else x
  | e :: p :: r =>
    if (p < e && e < v) || (e < p && v < e) then { x with residue := v :: p :: r }
    else if 64 ≤ rangeOf v e then
      let (f, l) := fourPoint (r.length + 2) (e :: p :: r)
      { f.foldl WearDie.cycle x with residue := v :: l }
    else x

/-- At power-off each residual half cycle adds half of a full cycle's damage. -/
def WearDie.powerOff (x : WearDie) : WearDie :=
  let l := x.residue
  let halves := (l.zip (l.drop 1)).map fun y => cycleDamage (rangeOf y.1 y.2) / 2
  let t : Nat := halves.foldl (· + ·) 0
  { x with c := x.c + t, days := addDay x.days 0 t, residue := [] }

/-- THERMAL_CYCLE_SAMPLE: the mean of each die's 64 sensors, in whole °C, is their sum in 1/64 K. -/
def execThermalCycleSample (s : State) : Out :=
  .next (if s.mpGone then s
    else s.modWear fun w => { w with
      die := Vector.ofFn fun (d : Fin 4) =>
        let x := w.die[d]
        let l := (vgetN s.pwr.therm d.val { step := 0, hot := 0, unit := 0xFF, temp := 0, readings := [] }).readings
        if x.lost || l.isEmpty then x else x.sample (l.foldl (· + ·) 0) })

/-- A term of R477, in months, as a fraction `budget left * 6 / accrued in 180 days`; `none` when unlimited. -/
def lifeTerm (limit used accrued : Nat) : Option Rat :=
  if limit ≤ used then some 0
  else if accrued = 0 then none
  else some (6 * ((limit - used : Nat) : Rat) / (accrued : Rat))

/-- LIFE and LIMIT (R477). -/
def WearDie.lifeOf (x : WearDie) : BitVec 16 × BitVec 2 :=
  let d := x.days.take 180
  let st := lifeTerm (40000 * 2 ^ 40) x.s (d.foldl (fun a y => a + y.1) 0)
  let cy := lifeTerm (100000 * 13107200) x.c (d.foldl (fun a y => a + y.2) 0)
  let out (v : Rat) (l : BitVec 2) : BitVec 16 × BitVec 2 :=
    if decide (65535 ≤ v) then (0xFFFF, 2) else (BitVec.ofNat 16 v.floor.toNat, l)
  if x.days.length < 30 then (0xFFFF, 2)
  else
    match st, cy with
    | none, none => (0xFFFF, 2)
    | some a, none => out a 0
    | none, some b => out b 1
    | some a, some b => if b < a then out b 1 else out a 0

/-- The wear ledger's items (R474), as a copy. -/
def State.ledgerNow (s : State) : Ledger :=
  { seq := (match s.wear.flash with | l :: _ => l.seq | [] => 0) + 1, valid := true, dies := s.wear.die,
    tiles := ((List.range 136).filterMap (finOf 136)).map fun t =>
      let x := s.wear.tile[t]
      (t.val, { x with state := x.kept.getD x.state, kept := none }),
    sramCand := s.wear.sramCand, sramSoft := s.wear.sramSoft, sramUnrep := s.wear.sramUnrep,
    lanes := s.fab.xcuts.map fun x => (x.toHigh.badLanes, x.toLow.badLanes),
    chans := s.dmc.ch.map fun c => { bin := c.bin, stepdown := c.stepdown, errors := c.errors, retired := c.state == .retired,
                                     soft := c.soft, hard := c.hard, unrep := c.unrep },
    wcount := s.wear.calWcount, drives := s.wear.drives, mpRestarts := s.wear.mpRestarts }

/-- LEDGER_AO_UPDATE: the copy in AO SRAM, and the remaining life. -/
def execLedgerAoUpdate (s : State) : Out :=
  .next (if s.mpGone then s
    else
      let s := s.modWear fun w => { w with die := w.die.map fun x => let l := x.lifeOf; { x with life := l.1, limit := l.2 } }
      s.modWear fun w => { w with ao := some s.ledgerNow })

/-- LEDGER_FLASH_WRITE: the next of the 256 record slots. -/
def execLedgerFlashWrite (s : State) : Out :=
  .next (if s.mpGone then s else s.modWear fun w => { w with flash := (s.ledgerNow :: w.flash).take 256 })

end Sys2Proof.Machine
end

