-- ==== Sys2Proof/Machine/CvuOps.lean ====
section
/-! DEFINITION. The check-value units (R416 to R429): scans, their outcome, the order of work, and the host's CHECKSCAN. -/

namespace Sys2Proof.Machine

/-! ## A scan descriptor (R418) -/

def scanStart (d : Bytes) : Nat := u64 d 0
def scanLen (d : Bytes) : Nat := u64 d 8
def scanMode (d : Bytes) : Nat := u8 d 57 % 4
def scanRef (d : Bytes) (i : Nat) : Nat := u64 d (40 + 8 * i)

def scanParam (d : Bytes) : CrcParam :=
  { width := u8 d 56 % 64 + 1, poly := u64 d 16, init := u64 d 24, refin := (u8 d 56).testBit 6, refout := (u8 d 56).testBit 7,
    xorout := u64 d 32 }

/-- Source ID of a unit (R416). -/
def cvuSrc (u : Fin 4) : Src := BitVec.ofNat 12 (0x124 + u.val)

/-- Partition of a scan's reads and signals (R254, R420). -/
def State.scanPart (s : State) (u : Fin 4) : ScanKind → BitVec 4
  | .canary _ => s.partOf (cvuSrc u)
  | .job i => jobPart s.prog.img u.val (u16 (chkJob s.prog.img.chk i.val) 66)
  | .host _ => s.fab.hostPart

/-! ## Reading (R420, R424) -/

/-- The transactions of a range: none crosses a 256-byte boundary. -/
def pieces : Nat → Nat → Nat → List (Nat × Nat)
  | 0, _, _ => []
  | k + 1, a, n => if n = 0 then [] else let m := min n (256 - a % 256); (a, m) :: pieces k (a + m) (n - m)

/-- Transactions of a partition's engine, in ascending order, up to the first that fails. -/
def readPieces (src : Src) (part : BitVec 4) : List (Nat × Nat) → State → State × Except AccessErr Bytes
  | [], s => (s, .ok [])
  | (a, n) :: l, s =>
    match engCheck s src part a n false with
    | (s, .error e) => (s, .error e)
    | (s, .ok t) =>
      match accRead s src t n with
      | (s, .error e) => (s, .error e)
      | (s, .ok b) =>
        match readPieces src part l s with
        | (s, .ok r) => (s, .ok (b ++ r))
        | (s, .error e) => (s, .error e)

def readRange (s : State) (src : Src) (part : BitVec 4) (a n : Nat) : State × Except AccessErr Bytes :=
  readPieces src part (pieces (n / 256 + 2) a n) s

/-- The scan folds its next `n` bytes. -/
def Scan.fold (x : Scan) (u : Fin 4) (n : Nat) (s : State) : State × Except AccessErr Scan :=
  match readRange s (cvuSrc u) (s.scanPart u x.kind) (scanStart x.desc + x.pos) n with
  | (s, .error e) => (s, .error e)
  | (s, .ok b) => (s, .ok { x with pos := x.pos + n, crc := BitVec.ofNat 64 (crcFold (scanParam x.desc) x.crc.toNat b) })

/-- A reference word: its value when it is readable, and whether its read had an ECC event (R423). `e` is the error that
the word holds now. -/
def readRef (s : State) (u : Fin 4) (part : BitVec 4) (a : Nat) (e : RefEcc) : State × Option Nat × Bool :=
  let g := if a < 0x1000000000 then 64 else 8
  let w := match (portCheck s a 8).toOption with | some t => (storeAddr s t).getD a | none => a
  let hit (h : Bool) : State := if g = 64 then s.dramStrike [{ addr := w, hard := h }] else s.strike w 8 g [{ addr := w, hard := h }]
  let s := match e with
    | .clean => s
    | .corrected => hit false
    | .uncorrectable => hit true
  let ev := (granules g w 8).any fun x => (eccAt s.ecc x).isSome
  match readRange s (cvuSrc u) part a 8 with
  | (s, .ok b) => (s, some (leNat b), ev)
  | (s, .error _) => (s, none, true)

/-! ## The outcome (R423) -/

/-- What a scan that read all its data found. -/
structure Outcome where
  status : BitVec 8
  refA : Nat
  refB : Nat
  mA : Bool
  mB : Bool
  eA : Bool
  eB : Bool
  suspect : Bool
deriving DecidableEq, Repr

def scanOutcome (mode v ref0 : Nat) (a b : Option Nat) (eA eB : Bool) : Outcome :=
  let mA := match mode with | 0 => false | 1 => v == ref0 | _ => a == some v
  let mB := mode == 3 && b == some v
  let st : BitVec 8 × Bool :=
    match mode with
    | 0 => (csOk, false)
    | 1 => (if mA then csOk else csMismatch, false)
    | 2 => if mA then (csOk, false) else (csMismatch, eA)
    | _ =>
      if mA && mB then (csOk, false)
      else if mA || mB then (csSuspect, true)
      else (csMismatch, !(a.isSome && b.isSome && a == b) || eA || eB)
  { status := st.1, refA := a.getD 0, refB := b.getD 0, mA := mA, mB := mB, eA := eA, eB := eB, suspect := st.2 }

/-- A scan that ended without a compare (R424). -/
def Outcome.failed (st : BitVec 8) : Outcome :=
  { status := st, refA := 0, refB := 0, mA := false, mB := false, eA := false, eB := false, suspect := false }

/-- The result record (R424). -/
def Outcome.record (o : Outcome) (v : Nat) (dt : BitVec 64) : Bytes :=
  natLe 8 v ++ natLe 8 o.refA ++ natLe 8 o.refB ++
  natLe 1 (b2n o.mA + 2 * b2n o.mB + 4 * b2n o.eA + 8 * b2n o.eB + 16 * b2n o.suspect) ++ natLe 1 o.status.toNat ++
  natLe 6 (dt.toNat % 2 ^ 48)

/-- The unit keeps its last result and counts it (R429). -/
def Cvu.note (x : Cvu) (o : Outcome) (v : Nat) : Cvu :=
  { x with lastst := o.status, value := BitVec.ofNat 64 v,
           mism := if o.status = csMismatch then satInc x.mism else x.mism,
           susp := if o.suspect then satInc x.susp else x.susp }

/-! ## The unit's next work (R428) -/

/-- A canary's output, 256 x 16 pixels at CANSRC + 64 KB, as a scan. -/
def canaryScan (pre : Bytes) (n : Fin 56) : Scan :=
  let r := strRec pre n.val
  let len := 4096 * u8 r 15 * (if u8 r 14 = 8 then 2 else 1)
  let d := natLe 8 (hubBase + u32 r 124 + 65536) ++ natLe 8 len ++ natLe 8 0x1EDC6F41 ++ natLe 8 0xFFFFFFFF ++ natLe 8 0xFFFFFFFF ++
    natLe 8 0 ++ natLe 8 0 ++ natLe 1 0xDF ++ List.replicate 7 0
  { kind := .canary n, desc := d, result := hubBase + u32 r 124 + 131072, hostmem := false, pos := 0, crc := 0xFFFFFFFF }

def jobScan (chk : Bytes) (i : Fin 256) : Scan :=
  let r := chkJob chk i.val
  { kind := .job i, desc := sub r 0 64, result := u64 r 72, hostmem := false, pos := 0, crc := BitVec.ofNat 64 (u64 r 24) }

/-- The operation of a host scan is RUNNING. -/
def State.scanRuns (s : State) (x : Scan) : Bool :=
  match x.kind with
  | .host k => (match s.cmd.ops[k] with | some o => o.state == .running | none => false)
  | _ => true

/-- The unit takes its next work. -/
def State.cvuNext (s : State) (u : Fin 4) : State :=
  let x := s.cvu[u]
  if x.cur.isSome then s
  else
    match x.canaries with
    | n :: r => s.modCvu u fun x => { x with canaries := r, cur := some (canaryScan s.prog.img.pre n) }
    | [] =>
      match x.jobs with
      | j :: r =>
        let i := r.foldl (fun a b => if b.val < a.val then b else a) j
        s.modCvu u fun x => { x with jobs := x.jobs.erase i, cur := some (jobScan s.prog.img.chk i), job := BitVec.ofNat 9 i.val }
      | [] =>
        match x.yielded with
        | some y => if s.scanRuns y then s.modCvu u fun x => { x with yielded := none, cur := some y } else s
        | none => s

/-! ## The end of a scan (R424) -/

/-- What the end of a scan does by its kind: the record, then DONE or the final entry. -/
def State.scanDone (s : State) (u : Fin 4) (x : Scan) (o : Outcome) (v : Nat) : State :=
  let s := s.modCvu u fun c => { c with cur := none }.note o v
  match x.kind with
  | .canary n =>
    let r := strRec s.prog.img.pre n.val
    let src : Src := 0x110
    let rec_ := natLe 8 (s.int.str[n]).canSeq.toNat ++ natLe 4 v ++ natLe 4 0 ++ natLe 8 s.dtN ++ List.replicate 8 0
    let s := s.engPut src x.result rec_
    (s.modStr n fun y => { y with canSeq := y.canSeq + 1, canaries := y.canaries + 1 }).sendSignal src (u16 r 122) 1
  | .job i =>
    let s := s.engPut (cvuSrc u) x.result (o.record v s.dt)
    s.sendSignalAs (cvuSrc u) (s.scanPart u x.kind) (u16 (chkJob s.prog.img.chk i.val) 68) 1
  | .host k =>
    let s := (bufWrite s (cvuSrc u) x.hostmem x.result (o.record v s.dt)).1
    let i0 := BitVec.ofNat 32 v
    let i1 := BitVec.ofNat 32 (v / 2 ^ 32)
    if o.status = csDataLost || o.status = csHwFault then s.endOp k .failed o.status i0 i1 else s.endOp k .done o.status i0 i1

/-- Status of a scan that could not read its data (R424). -/
def readFail : AccessErr → BitVec 8
  | .dataLost => csDataLost
  | _ => csHwFault

/-- The scan reads what is left of its range and its references, and ends. -/
def State.scanFinish (s : State) (u : Fin 4) (x : Scan) (ea eb : RefEcc) : State :=
  match x.fold u (scanLen x.desc - x.pos) s with
  | (s, .error e) => s.scanDone u x (.failed (readFail e)) 0
  | (s, .ok x) =>
    let v := crcOut (scanParam x.desc) x.crc.toNat
    let part := s.scanPart u x.kind
    let m := scanMode x.desc
    let (s, a, eA) := if 2 ≤ m then readRef s u part (scanRef x.desc 0) ea else (s, none, false)
    let (s, b, eB) := if m = 3 then readRef s u part (scanRef x.desc 1) eb else (s, none, false)
    s.scanDone u x (scanOutcome m v (scanRef x.desc 0) a b eA eB) v

/-- The bytes to the next suspend point of a host scan (R426). -/
def Scan.step (x : Scan) : Nat := 65536 - x.pos % 65536

/-- SCAN_END: the scan of a unit ends; a host scan with a suspend point still ahead has not. One that is SUSPENDING ends DONE, and
one that is CANCELLING ends at its range's end without a record (R232, R426). -/
def execScanEnd (u : Fin 4) (ea eb : RefEcc) (s : State) : Out :=
  .next (match if s.pwr.thermtrip then none else (s.cvu[u]).cur with
    | none => s
    | some x =>
      match x.kind with
      | .host k =>
        if x.step < scanLen x.desc - x.pos then s
        else
          (match (s.cmd.ops[k]).map (fun o => o.state) with
           | some OpState.running | some OpState.suspending => (s.scanFinish u x ea eb).cvuNext u
           | some OpState.cancelling => ((s.modCvu u fun c => { c with cur := none }).endH k .cancelled csCancelled).cvuNext u
           | _ => s)
      | _ => (s.scanFinish u x ea eb).cvuNext u)

/-! ## Suspend points of a CHECKSCAN (R426) -/

/-- The operation of a host scan at a boundary: CANCELLING ends it, SUSPENDING suspends it. -/
def State.scanPoint (s : State) (u : Fin 4) (x : Scan) : State :=
  match x.kind with
  | .host k =>
    (match s.cmd.ops[k] with
     | some o =>
       (match o.state with
        | .cancelling => (s.modCvu u fun c => { c with cur := none, yielded := none }).endH k .cancelled csCancelled
        | .suspending => (s.modCvu u fun c => { c with cur := none, yielded := some x }).modOp k fun o => { o with state := .suspended }
        | _ => s.modCvu u fun c => { c with cur := none, yielded := some x })
     | none => s.modCvu u fun c => { c with cur := none, yielded := none })
  | _ => s

/-- CHECKSCAN_SUSPEND_POINT: the scan reaches its next 64 KB boundary, and the unit takes its next work. -/
def execCheckscanSuspendPoint (u : Fin 4) (s : State) : Out :=
  .next (match (s.cvu[u]).cur with
    | none =>
      (match if s.pwr.thermtrip then none else (s.cvu[u]).yielded with
       | some y => (s.scanPoint u y).cvuNext u
       | none => s)
    | some x =>
      match x.kind with
      | .host k =>
        if s.pwr.thermtrip || scanLen x.desc - x.pos ≤ x.step then s
        else
          (match x.fold u x.step s with
           | (s, .error e) => (s.scanDone u x (.failed (readFail e)) 0).cvuNext u
           | (s, .ok x) =>
             let s := s.modOp k fun o => { o with progress := x.pos, permille := 1000 * x.pos / scanLen x.desc }
             (s.scanPoint u x).cvuNext u)
      | _ => s)

/-! ## Jobs (R427) -/

/-- CHECK_JOB_START: the unit's WAITT for 1 on the job's START home is granted. -/
def execCheckJobStart (u : Fin 4) (job : Fin 256) (s : State) : Out :=
  let chk := s.prog.img.chk
  let r := chkJob chk job.val
  let busy := (s.cvu[u]).jobs.contains job || (match (s.cvu[u]).cur with | some x => x.kind == .job job | none => false)
  .next (if chk.isEmpty || chkNjob chk ≤ job.val || u8 r 64 ≠ u.val || busy ||
      !s.progOn || s.pwr.thermtrip || !s.inShare 3 (s.scanPart u (.job job)) then s
    else
      match s.pollAs (cvuSrc u) (s.scanPart u (.job job)) (u16 r 66) 1 with
      | (s, true) => (s.modCvu u fun c => { c with jobs := c.jobs ++ [job] }).cvuNext u
      | (s, false) => s)

/-! ## The host's scan (R425) -/

/-- CHECKSCAN. -/
def execCheckscan (q : Fin 16) (s : State) : Out :=
  .next (match s.cmdDue q 0x11 with
    | none => s
    | some e =>
      let p1 := (e.p[1]).toNat
      if p1 % 32 ≠ 0 || 3 < (e.p[2]).toNat then s.finish q csIllegal 0 0
      else
        match bufRead s 0x101 e.hostmem (e.p[0]).toNat 64 with
        | (s, .error .dataLost) => s.finish q csDataLost 0 0
        | (s, .error _) => s.finish q csHwFault 0 0
        | (s, .ok d) =>
          if !scanOk s d then s.finish q csIllegal 0 0
          else s.acceptLong q fun s k => s.modOp k fun o => { o with desc := d })

/-- A CHECKSCAN becomes RUNNING: its unit takes it when it is free. -/
def State.startScan (s : State) (k : Fin 64) (o : LongOp) : State :=
  match finOf 4 ((o.p[2]).toNat) with
  | none => s
  | some u =>
    let y : Scan := { kind := .host k, desc := o.desc, result := (o.p[1]).toNat, hostmem := o.hostmem, pos := 0,
                      crc := BitVec.ofNat 64 (u64 o.desc 24) }
    (s.modCvu u fun c => { c with yielded := some y }).cvuNext u

end Sys2Proof.Machine
end

