-- ==== Sys2Proof/Machine/FabRows.lean ====
section
/-! DEFINITION. The fabric's own events (R255 to R263, R269, R19 to R22, R471): issue from a source port, grants, aging, and
the failure and repair of crosscuts. -/

namespace Sys2Proof.Machine

/-! ## Issue regulation (R260, R261, R280) -/

/-- The group of a request's target: D (true), H (false), or none when it is not regulated (R260). -/
def State.groupOf (s : State) (src : Src) (t : Target) : Option Bool :=
  let onDie (d : Fin 4) : Option Bool :=
    match s.srcLoc src with | some l => if l.1 = d then none else some false | none => some false
  match t with
  | .dram _ => some true
  | .localPhys t _ => onDie (tileDie t)
  | .localLog lc _ => (match s.tileOf lc with | some t => onDie (tileDie t) | none => none)
  | .dieStore d _ => onDie d
  | .csr off => if 0x2000000 ≤ off then (match finOf 4 ((off - 0x2000000) / 0x400000) with | some d => onDie d | none => none)
                else (match s.srcLoc src with | some _ => some false | none => none)
  | .hubStore _ => (match s.srcLoc src with | some _ => some false | none => none)
  | .partner _ => some false
  | .unmapped => none

/-- RATE in bytes per µs and BURST in bytes of a bucket (R261). -/
def State.bucketRate (s : State) (src : Src) (c : BitVec 3) (d : Bool) : Nat × Nat :=
  if src.toNat < 0x100 && src.toNat % 2 = 0 then (128, 1024)
  else
    let ts : List Task := match agentOf src with | some a => (s.tasksOf a).filter fun t => t.cls == c | none => []
    ((ts.map fun t => if d then t.rateDram else t.rateHub).foldl (· + ·) 0, 4096)

/-- Die-fabric cycles of 1.2 GHz in some ns. -/
def cycles12 (ns : Nat) : Nat := ns * 6 / 5

/-- What a bucket that fills at `rate` / `den` B per µs gains between two DTs, in 1/256 B, with the steps of whole cycles
(R260). -/
def gainOf (rate den t0 t1 : Nat) : Nat := rate * 256 * cycles12 t1 / (1200 * den) - rate * 256 * cycles12 t0 / (1200 * den)

/-- The level of a bucket now. -/
def Bucket.now (b : Bucket) (rate den burst t : Nat) : Nat := min (256 * burst) (b.level + gainOf rate den b.dt.toNat t)

def bucketFind {κ : Type} [BEq κ] (l : List (κ × Bucket)) (k : κ) : Option Bucket := (l.find? fun x => x.1 == k).map (·.2)

/-- The bucket holds `n` bytes: its level after they are removed. -/
def takeBucket {κ : Type} [BEq κ] (l : List (κ × Bucket)) (k : κ) (rate den burst : Nat) (dt : BitVec 64) (n : Nat) :
    Option (List (κ × Bucket)) :=
  let lvl := match bucketFind l k with | some b => b.now rate den burst dt.toNat | none => 256 * burst
  if 256 * n ≤ lvl then some ((l.filter fun x => !(x.1 == k)) ++ [(k, { level := lvl - 256 * n, dt := dt })]) else none

/-- A channel that holds part of a stripe has lost it: in ERROR, or no longer in service (R280, R302). -/
def State.stripeLost (s : State) (r : Region) (off : Nat) : Bool :=
  (inservList (r.layout s.dmc.inserv off)).any fun i =>
    !s.dmc.inserv.getLsbD i || (match finOf 8 (i / 2) with | some c => (s.dmc.ch[c]).state == .error | none => false)

/-- DRAM bytes that a request of `n` bytes causes (R280). -/
def State.chargeD (s : State) (a n : Nat) (write : Bool) : Nat :=
  match s.regionOf a with
  | none => n
  | some r =>
    match r.cls with
    | .u => n
    | .m => if write then 2 * n else n
    | .e =>
      let off := a - r.base
      let w := (inservList (r.layout s.dmc.inserv off)).length
      let st := 64 * (w - 2)
      if st = 0 then n
      else
        let k := (off + n - 1) / st - off / st + 1
        let c := (granules 64 off n).length
        if !write then st * k
        else if s.stripeLost r off then st * k + 64 * c + 128 * k
        else 2 * (64 * c + 128 * k)

/-- A request is regulated by a bucket (R261): partition agents, and of a sequencer its posted stores only. -/
def State.regulated (s : State) (r : Req) : Bool :=
  s.fab.loaded && isPartAgent r.src &&
  (match r.org with | .ld _ => false | _ => true)

/-- What a request is charged with in its group, and the bucket that pays (R255, R260). -/
def State.issueBuckets (s : State) (r : Req) (t : Target) (fixed : Bool) :
    Option (List ((BitVec 12 × BitVec 3 × Bool) × Bucket)) :=
  if !s.regulated r then some s.fab.buckets
  else
    match s.groupOf r.src t with
    | none => some s.fab.buckets
    | some d =>
      let c := s.bucketClass r.src r.cls fixed
      let (rate, burst) := s.bucketRate r.src c d
      takeBucket s.fab.buckets (r.src, c, d) rate 1 burst s.dt (if d then s.chargeD r.addr r.len r.write else r.len)

/-! ## REQUEST_ISSUE -/

/-- The processor whose DMA engine has a source ID. -/
def State.dmaProc (s : State) (src : Src) : Option Proc :=
  if src = 0x100 then some .mp
  else if src.toNat < 0x100 && src.toNat % 2 = 1 then (finOf 128 (src.toNat / 2)).bind fun lc => (s.tileOf lc).map .core
  else none

/-- A request belongs to a descriptor slot, or to none. -/
def Req.ofSlot (r : Req) (k : Fin 32) : Bool := match r.org with | .dma _ j => j == k | _ => true

/-- The label that a request is issued with: a sequencer's is that of its TASKLBL at that moment (R255, R264). -/
def State.portLabel (s : State) (r : Req) : Req :=
  match r.org with
  | .ld p | .st p => let (c, dl) := s.seqLabel p; { r with cls := c, dl := dl }
  | _ => r

/-- The target of a request, as far as order goes (R257). -/
def targetKey (s : State) (r : Req) : Nat :=
  match decodeAddr s r.addr with
  | .dram _ => 1
  | .hubStore _ => 2
  | .csr _ => 3
  | .partner _ => 4
  | .dieStore d _ => 8 + d.val
  | .localPhys t _ => 16 + t.val
  | .localLog lc _ => match r.tile.or (s.tileOf lc) with | some t => 16 + t.val | none => 5
  | .unmapped => 6

/-- Two requests of one source to one target. -/
def sameQueue (s : State) (r x : Req) : Bool := x.src == r.src && targetKey s x == targetKey s r

/-- The port sends a request into the fabric, with the class that R255 leaves it. While requests of the source to the same
target are retried after a crosscut failure it is held behind them (R22). -/
def State.issueReq (s : State) (r : Req) : State :=
  let r := s.portLabel r
  match portCheck s r.addr r.len with
  | .error e =>
    let s := s.modFab fun f => { f with ports := f.ports.filter fun x => x.id ≠ r.id }
    let s := if e = .link then s.raise 0x53 r.src r.part r.addr else s.raiseDecode r.src r.part r.addr
    s.respond r (.error e)
  | .ok t =>
    let (c, fixed) := s.issueClass r.src r.cls
    let tile := s.tileAt t
    if !s.wayOk r.src (s.srcLoc r.src) (targetLoc tile t) then s
    else
      match s.issueBuckets r t fixed with
      | none => s
      | some bs =>
        let s := if fixed then (s.raise 0x22 r.src r.part 0).modFab fun f => { f with statLabelFix := satInc f.statLabelFix } else s
        let r := { r with cls := c, tile := tile }
        let r' := { r with hops := s.route r.src tile t, since := s.dt, arr := s.dt, iss := s.fab.nextIss,
                           hold := s.fab.flight.any fun x => x.hold && sameQueue s r x }
        s.modFab fun f =>
          { f with buckets := bs, nextIss := f.nextIss + 1, ports := f.ports.filter fun x => x.id ≠ r.id,
                   flight := if r'.hops.isEmpty then f.flight else f.flight ++ [r'],
                   arrived := if r'.hops.isEmpty then f.arrived ++ [r'] else f.arrived }

/-- REQUEST_ISSUE: a DMA engine forms the next transaction of a descriptor; the port issues the oldest request that waits. -/
def execRequestIssue (src : Src) (slot : Fin 32) (s : State) : Out :=
  let s : State := match s.dmaProc src with
    | some p => if s.fab.ports.any fun (r : Req) => r.org == Origin.dma p slot then s else dmaAdvance s p slot
    | none => s
  .next (match s.fab.ports.find? fun r => r.src == src && r.ofSlot slot with
    | some r => s.issueReq r
    | none => s)

/-! ## Arbitration (R256 to R259, R269) -/

/-- A deadline against DT: the signed 24-bit distance (R256). -/
def dlDist (dl : BitVec 24) (dt : BitVec 64) : Int := (dl - dlOf dt).toInt

/-- A label as an arbiter ranks it: with a deadline (class 4 to 7, or promoted), or a class 0 to 3. -/
inductive Rank where
  | timed (dist : Int) (cls : Nat)
  | low (cls : Nat)
deriving DecidableEq, Repr

def Req.rank (r : Req) (dt : BitVec 64) : Rank :=
  match r.promoted with
  | some d => .timed (dlDist d dt) 5
  | none => if 4 ≤ r.cls.toNat then .timed (dlDist r.dl dt) r.cls.toNat else .low r.cls.toNat

/-- The first label is more urgent. -/
def Rank.above : Rank → Rank → Bool
  | .timed a c, .timed b d => a < b || (a == b && d < c)
  | .timed _ _, .low _ => true
  | .low _, .timed _ _ => false
  | .low c, .low d => d < c

/-- The most urgent label of a queue. -/
def bestRank (dt : BitVec 64) : List Req → Rank
  | [] => .low 0
  | [r] => r.rank dt
  | r :: rs => let b := bestRank dt rs; if b.above (r.rank dt) then b else r.rank dt

/-- Channels in service. -/
def State.channels (s : State) : Nat := (inservList s.dmc.inserv).length / 2

/-- The rate of a partition's budget at an arbiter, as a fraction (R269): DRAM channels and crosscut directions only. -/
def State.budgetOf (s : State) (part : BitVec 4) (a : Arb) : Option (Nat × Nat) :=
  match s.prog.img.parts.find? fun e => e.num == part with
  | none => none
  | some e =>
    match a with
    | .dram _ => some (e.dram, s.channels)
    | .crosscut _ _ => some (e.xcut, 1)
    | _ => none

/-- A request passes its partition's budget: the buckets after it. -/
def State.passBudget (s : State) (r : Req) (a : Arb) : Option (List ((BitVec 4 × Arb) × Bucket)) :=
  if !s.fab.loaded || !s.fab.modeP || isSystem r.src then some s.fab.budgets
  else
    match s.budgetOf r.part a with
    | none => some s.fab.budgets
    | some (rate, den) => takeBucket s.fab.budgets (r.part, a) rate den 4096 s.dt r.len

/-- The requests that wait at an arbiter, in order of arrival. -/
def State.waitingAt (s : State) (a : Arb) : List Req := s.fab.flight.filter fun r => r.hops.head? == some a

/-- A retried or held request waits until every earlier request of its source has completed (R22). -/
def State.heldBack (s : State) (r : Req) : Bool := r.hold && s.outstanding.any fun x => x.src == r.src && x.iss < r.iss

/-- The channels that a request meets: its primary's, both copies' for a write of an M region, every one for an E region. -/
def State.channelsOf (s : State) (r : Req) : List (Fin 8) :=
  match s.regionOf r.addr with
  | none => [s.chanOf r.addr]
  | some g =>
    let l := inservList (g.layout s.dmc.inserv (r.addr - g.base))
    let chan (i : Nat) : List (Fin 8) := match finOf 8 (i / 2) with | some c => [c] | none => []
    match g.cls with
    | .u => [s.chanOf r.addr]
    | .m =>
      let m := chan ((s.placeOf r.addr).mirror r.addr)
      if r.write then s.chanOf r.addr :: m else if s.subDown (s.subOf r.addr) then m else [s.chanOf r.addr]
    | .e => l.flatMap chan

/-- A request is held at its channel: before DINIT, while a window is open, and for U data while the channel is in ERROR
(R298, R302, R518). -/
def State.dramHeld (s : State) (r : Req) : Bool :=
  !s.boot.dinit ||
  (s.channelsOf r).any fun c =>
    let st := (s.dmc.ch[c]).state
    st == .maint || (st == .error && s.classAt r.addr == .u)

/-- The arbiter can serve the request now: a crosscut that has not failed, and a channel whose next command can be issued, one
transaction running to completion before the next (R258, R259). -/
def State.servable (s : State) (a : Arb) (r : Req) : Bool :=
  match a with
  | .crosscut x _ => !(s.fab.xcuts[x]).failed
  | .dram c =>
    !s.dramHeld r && (s.fab.arrived ++ s.fab.dramQ).all fun x => !(decide (x.addr < 0x1000000000) && s.chanOf x.addr == c)
  | _ => true

/-- The heads of the queues of one source to one target, in order of issue, each with the label it competes with (R257). -/
def State.heads (s : State) (a : Arb) : List (Req × Rank) :=
  let l := s.waitingAt a
  (l.filter fun r => (l.all fun x => !sameQueue s r x || r.iss ≤ x.iss) && !s.heldBack r && s.servable a r &&
    (s.passBudget r a).isSome).map fun r => (r, bestRank s.dt (l.filter (sameQueue s r)))

/-- The first of the two is granted before the second. -/
def grantBefore (x y : Req × Rank) : Bool :=
  x.2.above y.2 || (x.2 == y.2 && x.1.src.toNat < y.1.src.toNat && x.1.arr == y.1.arr)

/-- Rule 1 of R258: the earliest deadline, then the higher class, then the earlier arrival, then the lower SRC. -/
def pickTimed : List (Req × Rank) → Option Req
  | [] => none
  | x :: xs =>
    match x.2 with
    | .low _ => pickTimed xs
    | _ => some (xs.foldl (fun b y => match y.2 with | .low _ => b | _ => if grantBefore y b then y else b) x).1

def wrrWeight (c : Nat) : Nat := [1, 2, 4, 8].getD c 1

/-- Rule 2 of R258: the class being served while it has transactions left in its turn, else the next class with a request. -/
def pickRound (w : Wrr) (l : List (Req × Rank)) : Option (Req × Wrr) :=
  let first (c : Nat) : Option Req := (l.find? fun x => x.2 == .low c).map (·.1)
  let now := w.cls.toNat
  match if 0 < w.left then first now else none with
  | some r => some (r, { w with left := w.left - 1 })
  | none =>
    ([1, 2, 3, 4].map fun k => (now + k) % 4).findSome? fun c =>
      (first c).map fun r => (r, { cls := BitVec.ofNat 2 c, left := wrrWeight c - 1 })

def wrrAt (l : List (Arb × Wrr)) (a : Arb) : Wrr := match l.find? fun x => x.1 == a with | some x => x.2 | none => { cls := 0, left := 1 }

def wrrPut (l : List (Arb × Wrr)) (a : Arb) (w : Wrr) : List (Arb × Wrr) := (l.filter fun x => x.1 ≠ a) ++ [(a, w)]

/-- The choice of an arbiter among the heads of its queues: the request, and where its round stands (R258). -/
def chooseHead (w : Wrr) (l : List (Req × Rank)) : Option (Req × Wrr) :=
  match pickTimed l with
  | some r => some (r, w)
  | none => pickRound w l

/-- The grant of an arbiter in its request channel. -/
def State.grantAt (s : State) (a : Arb) : Option (Req × Wrr) := chooseHead (wrrAt s.fab.wrr a) (s.heads a)

/-- One request moves on to its next arbiter, or reaches its target. -/
def State.grantRequest (s : State) (a : Arb) : State :=
  match s.grantAt a with
  | none => s
  | some (r, w) =>
    let bs := (s.passBudget r a).getD s.fab.budgets
    let r' := { r with hops := r.hops.drop 1, arr := s.dt }
    s.modFab fun f =>
      let rest := f.flight.filter fun x => x.id ≠ r.id
      { f with budgets := bs, wrr := wrrPut f.wrr a w,
               flight := if r'.hops.isEmpty then rest else rest ++ [r'],
               arrived := if r'.hops.isEmpty then f.arrived ++ [r'] else f.arrived }

/-- The responses that wait at an arbiter, with the labels of their requests (R259). -/
def State.respHeads (s : State) (a : Arb) : List (Req × Rank) :=
  let ok := match a with | .crosscut x _ => !(s.fab.xcuts[x]).failed | _ => true
  if ok then (s.fab.resps.filter fun p => p.hops.head? == some a).map fun p => ({ p.req with arr := p.arr }, p.req.rank s.dt) else []

/-- One response moves on to its next arbiter, or reaches its requester. -/
def State.grantResponse (s : State) (a : Arb) : State :=
  match chooseHead (wrrAt s.fab.wrrR a) (s.respHeads a) with
  | none => s
  | some (r, w) =>
    match s.fab.resps.find? fun p => p.req.id == r.id with
    | none => s
    | some p =>
      let p' := { p with hops := p.hops.drop 1, arr := s.dt }
      let s := s.modFab fun f =>
        let rest := f.resps.filter fun x => x.req.id ≠ r.id
        { f with wrrR := wrrPut f.wrrR a w, resps := if p'.hops.isEmpty then rest else rest ++ [p'] }
      if p'.hops.isEmpty then s.respond p.req p.result else s

/-- ARBITER_GRANT: one request and one response, each in its own virtual channel, move on (R251, R258, R259). -/
def execArbiterGrant (a : Arb) (s : State) : Out := .next ((s.grantRequest a).grantResponse a)

/-! ## Aging (R262, R263) -/

/-- Promotion tokens of a source. -/
def State.tokens (s : State) (src : Src) : Nat :=
  match s.fab.promo.find? fun x => x.1 == src with | some x => x.2 | none => s.fab.promoDepth.toNat

def FabSt.setTokens (f : FabSt) (src : Src) (n : Nat) : FabSt :=
  { f with promo := (f.promo.filter fun x => x.1 ≠ src) ++ (if n = f.promoDepth.toNat then [] else [(src, n)]) }

/-- A request of class 0 to 3 has waited longer than its class's limit. -/
def State.aged (s : State) (r : Req) : Bool :=
  match finOf 4 r.cls.toNat with
  | some c => r.promoted.isNone && 8 * (s.fab.age[c]).toNat < (s.dt - r.since).toNat
  | none => false

/-- AGE_PROMOTION. -/
def execAgePromotion (id : Nat) (s : State) : Out :=
  .next (match s.fab.flight.find? fun r => r.id == id with
    | none => s
    | some r =>
      if s.aged r && 0 < s.tokens r.src then
        s.modFab fun f =>
          { f.setTokens r.src (s.tokens r.src - 1) with
            statPromoted := satInc f.statPromoted
            flight := f.flight.map fun x => if x.id = id then { x with promoted := some (dlOf s.dt) } else x }
      else s)

/-- PROMOTION_TOKEN_REFILL: one token every PERIOD. -/
def execPromotionTokenRefill (src : Src) (s : State) : Out :=
  let due := match s.fab.promoDt.find? fun x => x.1 == src with
    | some x => 8 * s.fab.promoPeriod.toNat ≤ (s.dt - x.2).toNat
    | none => true
  .next (if !due then s
    else s.modFab fun f =>
      { f.setTokens src (min (s.tokens src + 1) f.promoDepth.toNat) with
        promoDt := (f.promoDt.filter fun x => x.1 ≠ src) ++ [(src, s.dt)] })

/-! ## Crosscuts (R19 to R22, R471) -/

def overCrosscut (x : Fin 12) (hops : List Arb) : Bool := hops.any fun h => match h with | .crosscut y _ => y == x | _ => false

/-- The hops lead over one direction of a crosscut. -/
def overDirection (x : Fin 12) (toHigh : Bool) (hops : List Arb) : Bool := hops.contains (.crosscut x toHigh)

/-- A request in flight whose way leads over what has gone out of service is retried on the new route, in the order of issue, and
a response takes its new route (R22). With no way left each stays where it is. -/
def State.rerouteOver (s : State) (hit : List Arb → Bool) : State :=
  let req (r : Req) : Req :=
    if hit r.hops then
      match s.reqTarget r with
      | .ok t => if s.wayOk r.src (s.srcLoc r.src) (targetLoc r.tile t) then { r with hops := s.route r.src r.tile t, hold := true } else r
      | .error _ => r
    else r
  let resp (p : Resp) : Resp :=
    if hit p.hops then { p with hops := s.routeBack p.req.src p.req.tile (decodeAddr s p.req.addr) } else p
  s.modFab fun y => { y with flight := y.flight.map req, resps := y.resps.map resp }

def State.reroute (s : State) (x : Fin 12) : State := s.rerouteOver (overCrosscut x)

def State.setFailed (s : State) (x : Fin 12) (b : Bool) : State :=
  s.modFab fun f => { f with xcuts := vmod f.xcuts x fun c => { c with failed := b } }

/-- A lane swap takes the direction out of service, and its traffic follows R22 (R471); afterwards it is in service again. -/
def State.laneSwap (s : State) (x : Fin 12) (toHigh : Bool) : State :=
  ((s.setFailed x true).rerouteOver (overDirection x toHigh)).setFailed x (s.fab.xcuts[x]).failed

/-- CROSSCUT_FAILURE. -/
def execCrosscutFailure (x : Fin 12) (s : State) : Out := whenAlive s fun s =>
  (if (s.fab.xcuts[x]).failed then s
    else (s.setFailed x true).reroute x)

/-- Lanes with more than 16 errors in the window are replaced; with more lost than the 4 spares replace, half width (R20). -/
def XDir.repair (d : XDir) (errs : List (Fin 68 × Nat)) : XDir :=
  let bad := errs.foldl (fun l e => if 16 < e.2 && !l.contains e.1 then l ++ [e.1] else l) d.badLanes
  { badLanes := bad, half := d.half || decide (4 < bad.length) }

/-- Lanes of a crosscut direction are replaced or lost: entered, and half width is a loss of capacity (R20, R241). -/
def State.laneLoss (s : State) (x : Fin 12) (toHigh : Bool) (errs : List (Fin 68 × Nat)) : State :=
  let old := if toHigh then (s.fab.xcuts[x]).toHigh else (s.fab.xcuts[x]).toLow
  let new := old.repair errs
  let s := s.modFab fun f => { f with xcuts := vmod f.xcuts x fun c => if toHigh then { c with toHigh := new } else { c with toLow := new } }
  let s := if new.badLanes.length = old.badLanes.length then s else (s.laneSwap x toHigh).raise 0x52 0 0 0
  if new.half && !old.half then s.capLoss 5 (2 * x.val + b2n (!toHigh)) else s

/-- LANE_REPAIR: the end of a 1 s window of a direction. -/
def execLaneRepair (x : Fin 12) (toHigh : Bool) (errs : List (Fin 68 × Nat)) (s : State) : Out := whenAlive s fun s =>
  (if (s.fab.xcuts[x]).failed then s else s.laneLoss x toHigh errs)

end Sys2Proof.Machine
end

