-- ==== Sys2Proof/Machine/DramOps.lean ====
section
/-! DEFINITION. The DDR5 controllers (R273 to R308): reads and writes at a channel, refresh, scrubbing, replays, training and
maintenance windows, repair of rows, retirement of a channel and re-placement. -/

namespace Sys2Proof.Machine

def chans8 : List (Fin 8) := (List.range 8).filterMap (finOf 8)

/-! ## DRAM_READ and DRAM_WRITE (R281 to R283, R290, R298, R302, R518) -/

/-- The oldest request in a channel's queue, with this number. -/
def State.dramTake (s : State) (id : Nat) (write : Bool) : Option Req :=
  match s.fab.dramQ.find? fun r => r.id == id with
  | none => none
  | some r =>
    let c := s.chanOf r.addr
    if r.write = write && !s.dramHeld r && ((s.fab.dramQ.find? fun x => s.chanOf x.addr == c).map (·.id)) == some id then some r else none

/-- A row is open after a command with PAGE = 1; with PAGE = 0 every command carries auto-precharge (R286). -/
def Channel.openRow (page : Bool) (line : Nat) (c : Channel) : Channel :=
  if page then { c with openRows := (c.openRows.filter fun x => x.1 ≠ Config.dramBank line) ++ [(Config.dramBank line, Config.dramRow line)] }
  else { c with openRows := [] }

/-- The request leaves the queue; its command enters the retry buffer of each channel that it meets (R293). -/
def State.dramPop (s : State) (r : Req) : State :=
  (s.channelsOf r).eraseDups.foldl (fun t c => t.modCh c fun x =>
      { x.openRow s.dmc.page (lineOf r.addr) with
        retry := ({ id := r.id, write := r.write, line := lineOf r.addr, dt := s.dt } :: x.retry).take 64, alerts := 0 })
    (s.modFab fun f => { f with dramQ := f.dramQ.filter fun x => x.id ≠ r.id })

/-- DRAM_READ. `ups`: the errors that have struck copies in DRAM. -/
def execDramRead (id : Nat) (ups : List Upset) (s : State) : Out :=
  .next (match s.dramTake id false with
    | none => s
    | some r =>
      let s := (s.dramStrike ups).dramPop r
      match accRead s r.src (.dram r.addr) r.len with
      | (s, .ok d) => s.respond r (.ok d)
      | (s, .error e) => s.respond r (.error e))

/-- DRAM_WRITE: every copy and parity chunk is written before it completes. -/
def execDramWrite (id : Nat) (s : State) : Out :=
  .next (match s.dramTake id true with
    | none => s
    | some r =>
      let s := s.dramPop r
      match accWrite s r.src (.dram r.addr) r.data r.marked with
      | (s, none) => s.respond r (.ok [])
      | (s, some e) => s.respond r (.error e))

/-! ## Refresh and temperature (R288) -/

/-- DRAM_REFRESH: a refresh of a subchannel whose channel runs. It closes the rows that it covers: one bank's with REFMODE = 0, every
bank's with REFMODE = 1 (R286, R288). -/
def execDramRefresh (sub : Fin 16) (s : State) : Out :=
  let c : Fin 8 := ⟨sub.val / 2, by omega⟩
  .next (if (s.dmc.ch[c]).state = .active then
      s.modCh c fun x =>
        { x with refreshes := x.refreshes + 1
                 openRows := if s.dmc.refmode then [] else x.openRows.filter fun r => r.1 ≠ Config.refreshBank x.refreshes }
    else s)

/-- DRAM_TEMP_POLL: the status demands a refresh rate; above the operating range it is entered with the channel, and reported to the
thermal manager. -/
def execDramTempPoll (c : Fin 8) (status : Fin 3) (s : State) : Out :=
  .next (if (s.dmc.ch[c]).state = .retired || (s.dmc.ch[c]).state = .untrained then s
    else
      let s := s.modCh c fun x => { x with refrate := BitVec.ofNat 2 status.val }
      let bit : BitVec 8 := (1 : BitVec 8) <<< c.val
      let s := s.modPwr fun p => { p with dramHot := if status = 2 then p.dramHot ||| bit else p.dramHot &&& ~~~bit }
      if status = 2 then s.raise 0x51 0 0 c.val else s)

/-! ## Patrol scrub (R295, R296) -/

/-- The error of a copy that a scrub has read is handled under R290: a mirror is rewritten from the primary, parity from the data. -/
def State.scrubKey (s : State) (src : Src) (k : Nat) : State :=
  let a := keyLine k
  if k < 2 ^ 40 then s.readLine src a
  else
    match s.readCopy src k with
    | (s, .bad) =>
      if k < 2 ^ 41 then
        (match s.readCopy src a with
         | (s, .ok) => { s with ecc := eccSet s.ecc k none }
         | (s, _) => { s with ecc := eccSet s.ecc k none }.loseU a)
      else { (s.readStripe src a) with ecc := eccSet (s.readStripe src a).ecc k none }
    | (s, _) => s

/-- The first address at or after `a` that lies in a region of class `c`. -/
def State.nextIn (s : State) (c : RClass) (a : Nat) : Option Nat :=
  if !s.fab.loaded then none
  else
    (s.prog.img.regions.filter fun r => r.cls == c && decide (a < r.base + r.size)).foldl
      (fun (b : Option Nat) r => let x := max a r.base; match b with | none => some x | some y => some (min x y)) none

/-- The first key at or after `k` that names a copy: the lines in ascending order, then the mirror copies, then P and Q of the
stripes. The order in which a controller takes the copies is the model's: a copy's place in its subchannel is internal (R278). -/
def State.keyFrom (s : State) (k : Nat) : Option Nat :=
  let a := keyLine k
  if k < 2 ^ 40 && a < s.fuse.dramBytes then some k
  else
    match if k < 2 ^ 41 then s.nextIn .m (if k < 2 ^ 40 then 0 else a) else none with
    | some x => some (mirrorKey x)
    | none =>
      let up (q : Bool) (b : Nat) : Option Nat :=
        match s.nextIn .e b with
        | some x =>
          let p := s.placeOf x
          let y := if p.start x = x then x else p.start x + p.stripe
          if y < p.base + p.size then some (parityKey q y) else (s.nextIn .e (p.base + p.size)).map (parityKey q)
        | none => none
      match if k < 2 ^ 42 then up false (if k < 2 ^ 41 then 0 else a) else none with
      | some x => some x
      | none => up true (if k < 2 ^ 42 then 0 else a)

/-- The next copy on a channel at or after `k`, among `n`; none at the end of the pass. -/
def State.nextLine (s : State) (c : Fin 8) : Nat → Nat → Option Nat
  | 0, _ => none
  | n + 1, k =>
    match s.keyFrom k with
    | none => none
    | some x => if chanOfSub (s.subOfKey x) = c then some x else State.nextLine s c n (x + 64)

/-- PATROL_SCRUB: one copy is read, corrected and written back as one unit. A pass begins once SCRUB_HOURS have gone by since the
last one began. -/
def execPatrolScrub (c : Fin 8) (ups : List Upset) (s : State) : Out :=
  .next (
    let x := s.dmc.ch[c]
    if x.state ≠ .active || !s.boot.dinit then s
    else
      match s.nextLine c 1024 x.scrubPos with
      | some a => ((s.dramStrike ups).scrubKey 0 a).modCh c fun x => { x with scrubPos := a + 64 }
      | none =>
        if (s.dt - x.scrubDt).toNat < s.dmc.scrubHours.toNat * 3600000000000 then s
        else s.modCh c fun x => { x with scrubPos := 0, scrubDt := s.dt })

/-! ## ALERT_n (R293, R294) -/

/-- The window of a channel closes with the timing set in force before it opened; the MP plans its step again (R294). -/
def State.windowBack (s : State) (c : Fin 8) : State :=
  s.modCh c fun x =>
    match x.window with
    | some (k, set, bin) =>
      let x := { x with window := none, state := .active, set := set, bin := bin }
      (match k with
       | .repair row => { x with cands := addCand x.cands row, soft := x.soft.filter (· ≠ row), sppr := BitVec.ofNat 8 (x.sppr.toNat - 1) }
       | .retrain => { x with retrainDue := true }
       | .freq => x)
    | none => x

/-- The replay of the commands within the alert window, in their original order (R293). What a write stores is in place already: the
replay stores the same bytes at the same place. -/
def Channel.replay (page : Bool) (now : BitVec 64) (x : Channel) : Channel :=
  (x.retry.reverse.filter fun r => (now - r.dt).toNat ≤ Config.alertWindow).foldl (fun c r => c.openRow page r.line)
    { x with openRows := [], replays := satInc x.replays }

/-- ALERT_N: the banks are precharged and the buffer is replayed; an alert during a third replay in a row puts the channel in ERROR. -/
def execAlertN (c : Fin 8) (duringReplay : Bool) (s : State) : Out :=
  .next (match (s.dmc.ch[c]).state with
    | .active | .maint =>
      let s := s.windowBack c
      let n := if duringReplay then (s.dmc.ch[c]).alerts + 1 else 0
      if 3 ≤ n then (s.modCh c fun x => { x with state := .error, alerts := 0, openRows := [], errors := x.errors + 1 }).raise 0x50 0 0 c.val
      else s.modCh c fun x => { x.replay s.dmc.page s.dt with alerts := n }
    | _ => s)

/-! ## Margins, training, frequency (R298 to R302) -/

/-- A bin has no working setting. -/
def Channel.failBin (x : Channel) (b : Nat) : Channel := { x with noBin := x.noBin ||| ((1 : BitVec 5) <<< b) }

/-- No bin up to the present one has a working setting (R301, outcome 3). -/
def Channel.noneLeft (x : Channel) : Bool := (List.range (x.bin.toNat + 1)).all x.noBin.getLsbD

/-- Every margin is at or above the minimum, and no row's corrected errors have reached the limit (R301). -/
def State.marginOk (s : State) (x : Channel) : Bool :=
  let m := s.dmc.minMargin.toNat
  m ≤ x.mRd.toNat && m ≤ x.mWr.toNat && m ≤ x.mCa.toNat && x.cands.isEmpty

/-- A retraining has found no working setting: the channel keeps its last good one while the margins allow, else its bin has
none (R301). -/
def State.noSetting (s : State) (x : Channel) : Channel :=
  let x := { x with retrainDue := false, steps := 0 }
  if s.marginOk x then { x with keeps := true } else { x.failBin x.bin.toNat with keeps := false }

/-- MARGIN_MEASURE: a correction of at most 1/32 UI, 8/256, needs no window; a larger one needs a retraining. A channel that keeps a
setting does so while the margins allow. -/
def execMarginMeasure (c : Fin 8) (rd wr ca corr : BitVec 8) (s : State) : Out :=
  .next (if (s.dmc.ch[c]).state = .active then
      s.modCh c fun x =>
        let x := { x with mRd := rd, mWr := wr, mCa := ca, retrainDue := x.retrainDue || decide (8 < corr.toNat) }
        if x.keeps then s.noSetting { x with keeps := false, retrainDue := false } else x
    else s)

/-- The highest bin, at or below `b`, at which a channel trains. -/
def bestBin (works : BitVec 5) : Nat → Option Nat
  | 0 => if works.getLsbD 0 then some 0 else none
  | b + 1 => if works.getLsbD (b + 1) then some (b + 1) else bestBin works b

/-- A channel has stepped down a bin: a loss of capacity (R241, R301). -/
def State.stepDown (s : State) (c : Fin 8) : State := (s.modCh c fun x => { x with stepdown := satInc x.stepdown }).capLoss 4 c.val

/-- A training result for a bin: the one stored in boot flash with a good CRC, else one that training yields now, an open value. -/
def Channel.storedAt (x : Channel) (b : BitVec 3) : Option (BitVec 64) :=
  (x.stored.find? fun t => t.bin == b && t.crc == BitVec.ofNat 32 (crc32c (natLe 8 t.train.toNat))).map (·.train)

/-- The result of a training is stored in boot flash (R300). -/
def Channel.store (x : Channel) (b : BitVec 3) (v : BitVec 64) : Channel :=
  { x with stored := (x.stored.filter fun t => t.bin ≠ b) ++ [{ bin := b, train := v, crc := BitVec.ofNat 32 (crc32c (natLe 8 v.toNat)) }] }

/-- Training at a bin finds a setting, which goes into one of the shadow sets and into boot flash. -/
def State.trained (s : State) (c : Fin 8) (set : Bool) (b : BitVec 3) : State :=
  let v := Config.freeWord s.free
  (s.useFree 1).modCh c fun x => { x.store b v with shadow := vmodN x.shadow (b2n set) fun _ => { bin := b, train := v } }

/-- The MP loads a shadow set for a bin: with the stored result, or with one of training now (R299, R301). -/
def State.loadSet (s : State) (c : Fin 8) (set : Bool) (b : BitVec 3) : State :=
  match (s.dmc.ch[c]).storedAt b with
  | some v => s.modCh c fun x => { x with shadow := vmodN x.shadow (b2n set) fun _ => { bin := b, train := v } }
  | none => s.trained c set b

/-- A job is live whose release came no later than the last window opened: a further window would be its second (R240, R298). -/
def State.jobHadWindow (s : State) : Bool :=
  match s.dmc.windowDt with
  | none => false
  | some t => s.prog.deadlines.any fun d =>
      match s.prog.img.tasks[d.1]? with
      | some k => decide (s.dtN ≤ d.2.toNat) && decide (d.2.toNat ≤ t.toNat + k.deadline)
      | none => false

/-- The MP may open a window on a channel: it runs, no other window is open in the device, and none has been in a live job's
window (R298). -/
def State.mayOpen (s : State) (c : Fin 8) : Bool :=
  (s.dmc.ch[c]).state == .active && !s.pwr.mpAbsent && (s.dmc.ch.toList.all fun x => x.window.isNone) && !s.jobHadWindow

/-- A window opens on a channel. -/
def State.openWindow (s : State) (c : Fin 8) (k : WindowKind) : State :=
  (s.modDmc fun d => { d with windowDt := some s.dt }).modCh c fun x =>
    { x with state := .maint, window := some (k, x.set, x.bin), openRows := [] }

/-- CHANNEL_RETRAIN. `works`: the bins at which training finds a setting. In ERROR, the channel goes on at the highest bin that works
with its copies rewritten, or at none. A running channel makes one of the window steps of its retraining: it ends when a setting has
been found, or without one after the 64th (R301). -/
def execChannelRetrain (c : Fin 8) (works : BitVec 5) (s : State) : Out :=
  let x := s.dmc.ch[c]
  .next (if s.pwr.mpAbsent then s
    else
      match x.state with
      | .error =>
        (match bestBin works x.bin.toNat with
         | some b =>
           let s := s.trained c x.set (BitVec.ofNat 3 b)
           let s := s.modCh c fun x => { x with state := .active, bin := BitVec.ofNat 3 b, retrainDue := false, keeps := false, steps := 0 }
           let s := s.rewriteCopies c
           if b < x.bin.toNat then s.stepDown c else s
         | none => s.modCh c fun x => { x with noBin := 0x1F })
      | .active =>
        if !x.retrainDue || !s.mayOpen c then s
        else if works.getLsbD x.bin.toNat then
          ((s.trained c x.set x.bin).openWindow c .retrain).modCh c fun x => { x with retrainDue := false, keeps := false, steps := 0 }
        else if x.steps + 1 < 64 then (s.openWindow c .retrain).modCh c fun x => { x with steps := x.steps + 1 }
        else (s.openWindow c .retrain).modCh c s.noSetting
      | _ => s)

/-- FREQUENCY_CHANGE: one window; a failed pattern read returns to the old set, and the bin has no working setting. -/
def execFrequencyChange (c : Fin 8) (bin : Fin 5) (patternOk : Bool) (s : State) : Out :=
  let x := s.dmc.ch[c]
  .next (if !s.mayOpen c || x.maxbin.toNat < bin.val || x.noBin.getLsbD bin.val then s
    else
      ((s.loadSet c (!x.set) (BitVec.ofNat 3 bin.val)).openWindow c .freq).modCh c fun x =>
        if patternOk then { x with set := !x.set, bin := BitVec.ofNat 3 bin.val, keeps := false }
        else x.failBin bin.val)

/-- MAINT_WINDOW_END: the window closes and the held requests are served; a lower bin is a loss of capacity. -/
def execMaintWindowEnd (c : Fin 8) (s : State) : Out :=
  let x := s.dmc.ch[c]
  .next (match x.window with
    | none => s
    | some (_, _, old) =>
      let s := s.modCh c fun x => { x with window := none, state := .active, retrainDue := x.retrainDue && x.bin == old, lastBin := some x.bin }
      if x.bin.toNat < old.toNat then s.stepDown c else s)

/-! ## Rows (R304 to R306) -/

/-- The copies on a channel's row that hold an error. -/
def State.rowLines (s : State) (c : Fin 8) (row : Nat) : List Nat :=
  (s.ecc.filter fun e => dramKey e.1 && e.1 % 64 == 0 && Config.dramRow e.1 == row && chanOfSub (s.subOfKey e.1) == c).map (·.1)

/-- SOFT_PPR: the row's data is read, corrected or restored, and written back to the row that replaces it; with no resource left the
row is unrepairable (R306). -/
def execSoftPpr (c : Fin 8) (row : Nat) (resourceLeft : Bool) (s : State) : Out :=
  .next (if !(s.dmc.ch[c]).cands.contains row || !s.mayOpen c then s
    else if !resourceLeft then s.modCh c fun x => { x with cands := x.cands.filter (· ≠ row), unrep := addCand x.unrep row }
    else
      let s := (s.rowLines c row).foldl (fun s l => s.scrubKey 0 l) s
      (s.openWindow c (.repair row)).modCh c fun x =>
        { x with cands := x.cands.filter (· ≠ row), soft := addCand x.soft row, sppr := satInc x.sppr,
                 rowCe := x.rowCe.filter fun e => e.1 ≠ row })

/-! ## Retirement and re-placement (R307, R308) -/

/-- A line of a region is lost when only subchannels `alive` are left: U its copy, M both copies, E more than two chunks. -/
def Region.lineLost (r : Region) (now alive : BitVec 16) (off : Nat) : Bool :=
  let l := inservList (r.layout now off)
  let w := l.length
  let dead (i : Nat) : Bool := !alive.getLsbD (l.getD (i % w) 0)
  match r.cls with
  | .u => dead (off / 256)
  | .m => dead (off / 256) && dead (off / 256 + w / 2)
  | .e => 2 < (l.filter fun i => !alive.getLsbD i).length

/-- The lines of a region that are lost now and hold no poison. -/
def State.newlyLost (s : State) (r : Region) (alive : BitVec 16) : List Nat :=
  (List.range (r.size / 64)).filterMap fun i =>
    if r.lineLost s.dmc.inserv alive (64 * i) && eccAt s.ecc (r.base + 64 * i) != some .poison then some (r.base + 64 * i) else none

/-- A region's lost lines are poisoned, and its loss entered and counted once (R291, R292). -/
def State.loseRegion (s : State) (alive : BitVec 16) (i : Nat) : State :=
  match s.prog.img.regions[i]? with
  | none => s
  | some r =>
    match s.newlyLost r alive with
    | [] => s
    | ls =>
      let s := { s with ecc := ls.foldl (fun e a => eccSet e a (some .poison)) s.ecc }.noteLoss
      (s.raise 0x14 0 r.owner i).modProg fun p =>
        { p with img := { p.img with regions := p.img.regions.modify i fun r => { r with dataLost := r.dataLost + 1 } } }

/-- Every region goes on in the layout it has, and is to be re-placed from its start. -/
def Region.restart (r : Region) (was : BitVec 16) : Region :=
  match r.segs with
  | [] => if r.size = 0 then r else { r with segs := [(0, was)] }
  | (o, m) :: l => { r with segs := if o = 0 then (0, m) :: l else (0, was) :: (o, m) :: l }

/-- An operation of the MP's own (R473 kind 0x10). -/
def replaceOp : LongOp :=
  { seq := 0, opcode := 0x15, state := .queued, started := false, q := 0, cid := 0, irq := false, hostmem := false,
    p := #v[0x10, 0, 0, 0, 0, 0, 0], progress := 0, permille := 0, result := none, order := 0, sqhead := 0, unposted := false,
    internal := true, desc := [], lost := false }

/-- The MP starts a re-placement and writes its handle to DMC_RESTRIPE; with no slot free it does so once one is. -/
def State.startReplace (s : State) : State :=
  match s.freeSlot with
  | none => s.modDmc fun d => { d with replaceDue := true }
  | some k =>
    let (s, h) := s.newOp replaceOp k
    s.modDmc fun d => { d with restripe := h, replacing := true, replaceDue := false }

/-- A re-placement that waits for a slot is started. -/
def State.replaceWaits (s : State) : State := if s.dmc.replaceDue then s.startReplace else s

/-- A channel is retired (R307): it leaves service and the epoch increments; the lost granules are poisoned; the program is
READMITTING; the re-placement starts. -/
def State.retireChannel (s : State) (c : Fin 8) : State :=
  let was := s.dmc.inserv
  let alive := was &&& ~~~((3 : BitVec 16) <<< (2 * c.val))
  let s := s.modCh c fun x => { x with state := .retired, window := none, retrainDue := false, openRows := [] }
  let s := s.modProg fun p => { p with img := { p.img with regions := p.img.regions.map (·.restart was) } }
  let s := s.modDmc fun d => { d with inserv := alive }
  let s := s.raise 0x42 0 0 (256 * 3 + c.val)
  let s := s.modProg fun p => { p with epoch := p.epoch + 1 }
  let s := (List.range s.prog.img.regions.length).foldl (State.loseRegion · alive) s
  (s.modProg fun p => { p with state := if p.state = .running then .readmitting else p.state }).startReplace

/-- CHANNEL_RETIRE: no setting works even at 4800 MT/s. -/
def execChannelRetire (c : Fin 8) (s : State) : Out :=
  .next (if (s.dmc.ch[c]).noneLeft && (s.dmc.ch[c]).state ≠ .retired && (s.dmc.ch[c]).state ≠ .untrained then s.retireChannel c else s)

/-- The regions in the order of re-placement: E, then M, then U, each in ascending index. -/
def State.replaceOrder (s : State) : List (Nat × Region) :=
  let l := (List.range s.prog.img.regions.length).zip s.prog.img.regions
  [RClass.e, .m, .u].flatMap fun c => l.filter fun x => x.2.cls == c

/-- The next region to be moved, and the raw capacity that it and those before it occupy. -/
def nextMove (w : Nat) : Nat → List (Nat × Region) → Option (Nat × Region × Nat)
  | _, [] => none
  | used, (i, r) :: l =>
    let used := used + rawSize w r
    if r.segs.isEmpty then nextMove w used l else some (i, r, used)

/-- One unit of a region has reached the new layout. -/
def Region.move (w : Nat) (r : Region) : Region × Nat :=
  let unit := match r.cls with | .e => 64 * (w - 2) | _ => 256
  match r.segs with
  | [] => (r, 0)
  | (o, m) :: l =>
    let o' := min (o + unit) r.size
    let segs := if r.size ≤ o' then [] else match l with | (o2, _) :: _ => if o2 ≤ o' then l else (o', m) :: l | [] => [(o', m)]
    ({ r with segs := segs }, o' - o)

/-- The running re-placement, if there is one. -/
def State.replaceRun (s : State) : Option (Fin 64 × LongOp) :=
  s.liveOps.find? fun x =>
    let k := (x.2.p[0]).toNat % 256
    x.2.opcode == 0x15 && (k == 4 || k == 0x10) && (x.2.state == .running || x.2.state == .suspending)

/-- The bytes that a re-placement still has to move. -/
def bytesLeft (l : List Region) : Nat := (l.map fun r => match r.segs with | [] => 0 | (o, _) :: _ => r.size - o).foldl (· + ·) 0

/-- The copies of moved lines are written in the new layout: only poison stays. -/
def State.copiesMoved (s : State) (a n : Nat) : State :=
  { s with ecc := (granules 64 a n).foldl (fun e x =>
      let e := eccSet (eccSet (eccSet e (mirrorKey x) none) (parityKey false x) none) (parityKey true x) none
      if eccAt e x = some .poison then e else eccSet e x none) s.ecc }

/-- The copier reads one stripe or granule and writes it in the new layout, or stops before the first region that does not fit
(R308). -/
def State.copierStep (s : State) (k : Fin 64) : State :=
  match nextMove s.width 0 s.replaceOrder with
  | none => s
  | some (i, r, used) =>
    if !classPossible s.width r || rawCapacity s < used then
      (s.endH k .failed csHwFault).faultProgram { reason := 5, index := i, margin := (rawCapacity s : Int) - (used : Int) }
    else
      let (r', n) := r.move s.width
      let a := r.base + (match r.segs with | (o, _) :: _ => o | [] => 0)
      let s := (s.readUnits a n).foldl (fun s x => s.readLine 0x107 x) s
      let s := s.modProg fun p => { p with img := { p.img with regions := p.img.regions.modify i fun x => { x with segs := r'.segs } } }
      let s := s.copiesMoved a n
      let left := bytesLeft s.prog.img.regions
      s.modOp k fun o => { o with progress := o.progress + n, permille := 1000 * (o.progress + n) / (o.progress + n + left) }

/-- Nothing is left to be re-placed. -/
def State.replaced (s : State) : Bool := s.prog.img.regions.all fun r => r.segs.isEmpty

/-- COPIER_MOVE. -/
def execCopierMove (s : State) : Out :=
  .next (let s := s.replaceWaits
    match s.replaceRun with
    | none => s
    | some (k, _) => if s.pwr.mpAbsent then s else s.copierStep k)

/-- DRAM_INIT_DONE: after the DRAM stage every line holds zero, and held accesses are released (R518). -/
def execDramInitDone (s : State) : Out :=
  .next (if s.boot.stage = .dram || s.boot.stage = .ready then s.modBoot fun b => { b with dinit := true } else s)

end Sys2Proof.Machine
end

