-- ==== Sys2Proof/Machine/CmdRows.lean ====
section
/-! DEFINITION. The command queues (R216 to R221) and the commands of R222 that no other file holds, with the time-base
releases, the deadline monitor and re-admission (R241 to R244). -/

namespace Sys2Proof.Machine

/-! ## Doorbells (R217, R218) -/

/-- CSR offset of a register of a queue pair. -/
def cmdCsr (q : Fin 16) (o : Nat) : Nat := 0x101000 + 0x40 * q.val + o

/-- A doorbell write that is not applied puts the pair out of service (R218). -/
def State.badDoorbell (s : State) (q : Fin 16) : State :=
  (s.modQ q fun x => { x with enable := false }).raise 0x24 0x130 s.fab.hostPart q.val

/-- A write of CMD_SQ_TAIL_n. -/
def sqTailWrite (s : State) (q : Fin 16) (v : BitVec 32) : State :=
  if v.toNat < 2 ^ (s.cmd.q[q]).sqSize.toNat then s.modQ q fun x => { x with sqTail := v } else s.badDoorbell q

/-- A value lies from the present head of a completion ring to its tail, in ring order. -/
def QPair.mayConsume (x : QPair) (v : BitVec 32) : Bool :=
  let n := 2 ^ x.cqSize.toNat
  v.toNat < n && (v.toNat + n - x.cqHead.toNat) % n ≤ (x.cqTail.toNat + n - x.cqHead.toNat) % n

/-- A write of CMD_CQ_HEAD_n. -/
def cqHeadWrite (s : State) (q : Fin 16) (v : BitVec 32) : State :=
  if (s.cmd.q[q]).mayConsume v then s.modQ q fun x => { x with cqHead := v } else s.badDoorbell q

def ringSizeOk (k : BitVec 4) : Bool := inRange 4 12 k.toNat

/-- A write of CMD_Q_CFG_n: while the pair is enabled only ENABLE changes. -/
def qCfgWrite (s : State) (q : Fin 16) (v : BitVec 32) : State :=
  s.modQ q fun x =>
    let x := if x.enable then x
      else { x with sqLoc := v.getLsbD 30, cqLoc := v.getLsbD 29, vector := bits v 16 8, cqSize := bits v 4 4, sqSize := bits v 0 4 }
    { x with enable := v.getLsbD 31 && ringSizeOk x.cqSize && ringSizeOk x.sqSize }

/-- A write of a register of the pair by the host, its only writer. -/
def hostWrite (src : Src) (q : Fin 16) (o : Nat) (s : State) (f : State → State) : Out :=
  .next (if src = 0x130 then f s else s.csrViolation src (cmdCsr q o))

/-- CMD_SQ_TAIL. `hostWrites`: what the host has written in its own memory before it rang the doorbell. -/
def execCmdSqTail (src : Src) (q : Fin 16) (v : BitVec 32) (hostWrites : List MemCell) (s : State) : Out :=
  let s := { s with hostMem := hostWrites.foldl (fun m c => memPut m c.1 c.2) s.hostMem }
  hostWrite src q 0x14 s fun s => sqTailWrite s q v

def execCmdCqHead (src : Src) (q : Fin 16) (v : BitVec 32) (s : State) : Out := hostWrite src q 0x1C s fun s => cqHeadWrite s q v

def execCmdQEnable (src : Src) (q : Fin 16) (v : BitVec 32) (s : State) : Out := hostWrite src q 0x10 s fun s => qCfgWrite s q v

/-! ## Fetching (R219, R220) -/

/-- A command entry from its 64 bytes. -/
def entryOf (b : Bytes) : CmdEntry :=
  { opcode := BitVec.ofNat 8 (u8 b 0), irq := (u8 b 1).testBit 0, hostmem := (u8 b 1).testBit 1,
    rsv := u8 b 1 / 4 != 0 || u32 b 4 != 0, cid := BitVec.ofNat 16 (u16 b 2),
    p := Vector.ofFn fun (i : Fin 7) => BitVec.ofNat 64 (u64 b (8 + 8 * i.val)) }

/-- The opcodes of R222. -/
def opKnown (op : Nat) : Bool :=
  op ≤ 4 || inRange 0x08 0x0B op || inRange 0x10 0x15 op || op == 0x18 || op == 0x19 || op == 0x1A || op == 0x1C || op == 0x1F

/-- A REPAIR kind or a TIME_SET mode that its table lists. -/
def kindOk (e : CmdEntry) : Bool :=
  (e.opcode != 0x15 || inRange 1 4 (e.p[0]).toNat) && (e.opcode != 0x1A || (e.p[0]).toNat ≤ 2)

/-- A pair from which the command processor may fetch. -/
def QPair.ready (x : QPair) : Bool := x.enable && x.cur.isNone && x.held.isEmpty && x.sqHead != x.sqTail

def pairs16 (from_ : Fin 16) : List (Fin 16) := (List.range 16).map fun i => from_ + Fin.ofNat 16 i

/-- The ring address of an entry of `n` bytes; bits [11:0] of the base are ignored. -/
def ringAddr (base : BitVec 64) (n : Nat) (i : BitVec 32) : Nat := base.toNat / 4096 * 4096 + n * i.toNat

/-- The next index of a ring. -/
def ringNext (k : BitVec 4) (i : BitVec 32) : BitVec 32 := BitVec.ofNat 32 ((i.toNat + 1) % 2 ^ k.toNat)

/-- A fetched command goes to the MP's request queue, or waits for its turn in its pair. -/
def State.accept (s : State) (q : Fin 16) (e : CmdEntry) : State :=
  if e.rsv || !opKnown e.opcode.toNat || !kindOk e then s.finish q csIllegal 0 0
  else if !opIsMp e.opcode.toNat then s
  else if 32 ≤ s.cmd.mpq.length then (s.modPwr fun p => { p with busy := satInc p.busy }).finish q csBusy 0 0
  else s.modCmd fun c => { c with mpq := c.mpq ++ [q] }

/-- COMMAND_FETCH: the next enabled pair in turn that has a command and no entry in hand or held. -/
def execCommandFetch (s : State) : Out :=
  .next (if s.boot.stage ≠ .ready then s
    else
      match (pairs16 s.cmd.rr).find? fun q => (s.cmd.q[q]).ready with
      | none => s
      | some q =>
        let x := s.cmd.q[q]
        match bufRead s 0x101 (!x.sqLoc) (ringAddr x.sqBase 64 x.sqHead) 64 with
        | (s, r) =>
          let n := s.cmd.fetched + 1
          let take (s : State) (e : CmdEntry) : State :=
            (s.modQ q fun x => { x with sqHead := ringNext x.sqSize x.sqHead, cur := some e, order := n }).modCmd fun c =>
              { c with fetched := n, rr := q + 1 }
          match r with
          | .ok b => (take s (entryOf b)).accept q (entryOf b)
          | .error _ => (take s (entryOf [])).finish q csHwFault 0 0)

/-! ## Completions (R217, R219, R221, R485) -/

def ComplEnt.bytes (c : ComplEnt) (phase : Bool) : Bytes :=
  natLe 2 c.cid.toNat ++ natLe 2 c.sqhead.toNat ++ [c.status] ++ natLe 1 (b2n phase + 2 * b2n c.long + 4 * b2n c.final) ++ natLe 2 0 ++
    natLe 4 c.info0.toNat ++ natLe 4 c.info1.toNat

/-- A free entry: one entry of the ring is kept free, so that a tail equal to the head is an empty ring. -/
def QPair.hasRoom (x : QPair) : Bool := ringNext x.cqSize x.cqTail != x.cqHead

/-- COMPLETION_POST: the oldest completion of a pair is written to its ring, and its vector raised. -/
def execCompletionPost (q : Fin 16) (s : State) : Out :=
  let x := s.cmd.q[q]
  .next (match x.held with
    | [] => s
    | c :: r =>
      if !x.enable then s.modQ q fun x => { x with held := r }
      else if !x.hasRoom then s
      else
        let t := ringNext x.cqSize x.cqTail
        let s := (bufWrite s 0x101 (!x.cqLoc) (ringAddr x.cqBase 16 x.cqTail) (c.bytes x.phase)).1
        let s := s.modQ q fun x => { x with held := r, cqTail := t, phase := if t = 0 then !x.phase else x.phase }
        if c.irq && c.final then s.modCmd fun m => { m with msix := x.vector :: m.msix } else s)

/-! ## Commands that complete at once (R222) -/

/-- The row of a command: its effect when the command is in hand and due. -/
def cmdRow (q : Fin 16) (op : Nat) (s : State) (body : CmdEntry → State → State) : Out :=
  .next (match s.cmdDue q op with | none => s | some e => body e s)

def execNopCommand (q : Fin 16) (s : State) : Out := cmdRow q 0x00 s fun _ s => s.finish q csOk 0 0

/-- LOAD (R222, R224): its checks are made once it has been accepted. -/
def execLoad (q : Fin 16) (s : State) : Out :=
  cmdRow q 0x01 s fun _ s => withState s q [.none]
    (s.acceptLong q fun s _ => s.modProg fun p => { p with state := .loading, staged := none, undo := [] })

/-- START (R241): checks 3 to 12 again when the epoch has changed. -/
def execStart (q : Fin 16) (s : State) : Out :=
  cmdRow q 0x02 s fun e s => withState s q [.loaded]
    (if s.prog.epoch = s.prog.checkedEpoch then (s.startProgram (e.p[0])).finish q csOk 0 0
     else
       match resourceChecks s s.prog.img s.prog.shed with
       | .error r => (s.recordFail r).finish q r.status r.info0 r.info1
       | .ok best => ((s.recordPass best).startProgram (e.p[0])).finish q csOk 0 0)

/-- STOP (R223): it completes in `State.stopCheck`. A second STOP waits for the first. -/
def execStop (q : Fin 16) (s : State) : Out :=
  cmdRow q 0x03 s fun _ s =>
    if s.prog.stopQ.isSome then s else withState s q [.running, .readmitting, .faulted] (s.beginStop q)

def execUnload (q : Fin 16) (s : State) : Out :=
  cmdRow q 0x04 s fun _ s => withState s q [.loaded] (s.unload.finish q csOk 0 0)

/-! ## SUSPEND, RESUME, CANCEL, QUERY_OP (R230, R232) -/

/-- The command acts on the operation that P0 names; an unknown or stale handle completes with ILLEGAL_STATE. -/
def withOp (q : Fin 16) (e : CmdEntry) (s : State) (body : Fin 64 → LongOp → State → State) : State :=
  match s.opOf (e.p[0]) with
  | none => s.finish q csIllegal 0 0
  | some (k, o) => body k o s

/-- The operation takes a state, and the command completes OK. -/
def State.opTo (s : State) (q : Fin 16) (k : Fin 64) (st : OpState) : State :=
  (s.modOp k fun o => { o with state := st }).finish q csOk 0 0

def execSuspend (q : Fin 16) (s : State) : Out :=
  cmdRow q 0x08 s fun e s => withOp q e s fun k o s =>
    match o.state with
    | .queued | .suspended => s.opTo q k .suspended
    | .running | .suspending => s.opTo q k .suspending
    | _ => s.finish q csIllegal 0 0

/-- A CHECKSCAN that runs again is taken by its unit when the unit is free. -/
def State.resumeScan (s : State) (o : LongOp) : State :=
  if o.opcode = 0x11 then (match finOf 4 (o.p[2]).toNat with | some u => s.cvuNext u | none => s) else s

def execResume (q : Fin 16) (s : State) : Out :=
  cmdRow q 0x09 s fun e s => withOp q e s fun k o s =>
    match o.state with
    | .queued => s.opTo q k .queued
    | .running | .suspending => s.opTo q k .running
    | .suspended => if o.started then (s.opTo q k .running).resumeScan o else s.opTo q k .queued
    | _ => s.finish q csIllegal 0 0

/-- An operation that has not started ends CANCELLED; a LOAD leaves the program NONE (R233). -/
def State.cancelNow (s : State) (k : Fin 64) (o : LongOp) : State :=
  (if o.opcode = 0x01 then s.undoLoad else s).endH k .cancelled csCancelled

/-- CANCEL. A migration that still waits for its point is no longer armed. -/
def execCancel (q : Fin 16) (s : State) : Out :=
  cmdRow q 0x0A s fun e s => withOp q e s fun k o s =>
    let go (s : State) : State :=
      let s := s.modWear fun w => { w with armed := w.armed.filter fun a => a.2.2 ≠ some k }
      s.opTo q k .cancelling
    match o.state with
    | .queued => (s.cancelNow k o).finish q csOk 0 0
    | .suspended => if o.started then go s else (s.cancelNow k o).finish q csOk 0 0
    | .running | .suspending | .cancelling => go s
    | _ => s.finish q csIllegal 0 0

def execQueryOp (q : Fin 16) (s : State) : Out :=
  cmdRow q 0x0B s fun e s => withOp q e s fun _ o s =>
    s.finish q csOk (BitVec.ofNat 32 o.state.code) (BitVec.ofNat 32 o.permille)

/-! ## Acceptance of long commands -/

/-- A long command whose parameters pass the checks made before acceptance (R224). -/
def acceptIf (q : Fin 16) (ok : Bool) (s : State) : State := if ok then s.acceptLong q fun s _ => s else s.finish q csIllegal 0 0

/-- SNAPSHOT (R222, R229, R245). -/
def execSnapshot (q : Fin 16) (s : State) : Out :=
  cmdRow q 0x10 s fun e s => withState s q [.loaded, .running]
    (if s.prog.state = .running && s.prog.img.snapRate = 0 then s.finish q csResource 0 0
     else acceptIf q ((e.p[2]).toNat ≤ 3 && !(s.liveOps.any fun x => x.2.opcode == 0x10)) s)

/-- SCRUB (R297). -/
def execScrub (q : Fin 16) (s : State) : Out :=
  cmdRow q 0x12 s fun e s =>
    let a := (e.p[0]).toNat
    let n := (e.p[1]).toNat
    acceptIf q (a % 4096 == 0 && n % 4096 == 0 && ((a == 0 && n == 0) || (1 ≤ n && a + n ≤ s.fuse.dramBytes))) s

/-- RETRAIN (R303). -/
def execRetrain (q : Fin 16) (s : State) : Out := cmdRow q 0x13 s fun e s => acceptIf q ((e.p[0]).toNat < 256) s

/-- The target that MIGRATE names is a SPARE tile of the die of the tile that serves the core (R466). -/
def State.migOk (s : State) (lc tile : Nat) : Bool :=
  match finOf 128 lc with
  | none => false
  | some n =>
    match s.tileOf n with
    | none => false
    | some t =>
      if tile = 0xFF then (s.spareOf (tileDie t)).isSome
      else match finOf 136 tile with | some d => s.tileSt d == .spare && tileDie d == tileDie t | none => false

/-- MIGRATE (R222, R466). -/
def execMigrate (q : Fin 16) (s : State) : Out :=
  cmdRow q 0x14 s fun e s => withState s q [.loaded, .running] (acceptIf q (s.migOk (e.p[0]).toNat (e.p[1]).toNat) s)

/-- A kind of REPAIR (R473). -/
def repairRow' (q : Fin 16) (kind : Nat) (s : State) (ok : CmdEntry → State → Bool) : Out :=
  .next (match s.cmdDue q 0x15 with
    | none => s
    | some e => if (e.p[0]).toNat ≠ kind then s else acceptIf q (ok e s) s)

def execRepairHardDram (q : Fin 16) (s : State) : Out :=
  repairRow' q 1 s fun e s => (s.prog.state == .none || s.prog.state == .loaded) && (e.p[1]).toNat < 256

def execRepairLaneTest (q : Fin 16) (s : State) : Out := repairRow' q 2 s fun e _ => (e.p[1]).toNat < 12

def execRepairTileTest (q : Fin 16) (s : State) : Out :=
  repairRow' q 3 s fun e s => match finOf 136 (e.p[1]).toNat with | some t => s.tileSt t == .spare | none => false

def execRepairReplace (q : Fin 16) (s : State) : Out := repairRow' q 4 s fun e _ => e.p[1] == 0

/-! ## TIME_SET (R491) -/

/-- The timers that count elapsed time, not device time, go on from where they stood when DT is stepped by `n`. -/
def State.shiftTimers (s : State) (n : BitVec 64) : State :=
  let f (r : Req) : Req := { r with since := r.since + n, arr := r.arr + n }
  let s := s.modFab fun x =>
    { x.mapReqs f with
             resps := x.resps.map fun p => { p with req := f p.req, arr := p.arr + n }
             buckets := x.buckets.map fun b => (b.1, { b.2 with dt := b.2.dt + n }),
             budgets := x.budgets.map fun b => (b.1, { b.2 with dt := b.2.dt + n }),
             promoDt := x.promoDt.map fun p => (p.1, p.2 + n) }
  let opt (o : Option (BitVec 64)) : Option (BitVec 64) := o.map (· + n)
  let tile (x : Tile) : Tile := { x with arrayUse := x.arrayUse + n }
  let s := { s with tiles := s.tiles.map tile }
  let s := s.modSaf fun x => { x with depHb := x.depHb.map opt }
  let s := s.modPwr fun x => { x with mpKick := x.mpKick + n }
  let s := s.modTly fun x => { x with wakeLog := x.wakeLog.map fun (l : List (BitVec 64)) => l.map (· + n) }
  let s := s.modInt fun x =>
    { x with port := x.port.map fun p => { p with lastValid := p.lastValid + n, retryAt := opt p.retryAt }
             str := x.str.map fun p => { p with lastValid := p.lastValid + n, retryAt := opt p.retryAt } }
  s.modIfc fun x => { x with link := x.link.map fun l => { l with retryAt := opt l.retryAt } }

/-- A time-base step makes corrupt the samples being received and the pictures being decoded; one that is complete stays as it is
(R317). -/
def State.markStepped (s : State) : State :=
  s.modInt fun x => { x with str := x.str.map fun y => { y with
             sample := y.sample.map fun p => { p with stepped := p.stepped || p.complete.isNone }
             decoding := y.decoding.map fun u => { u with stepped := true } } }

/-- Every pending WAITT whose deadline has passed times out at its home. -/
def State.expireAll (s : State) : State :=
  ((List.range 5).filterMap (finOf 5)).foldl (fun s isl =>
    (s.expired isl).foldl (fun s x => (s.applyHome x.1 (s.marked x.2.1.src) fun t => t.leave x.2.1.tag).deliverWait x.2.1.src x.2.1.tag .timedOut) s) s

/-- A mode of TIME_SET. -/
def timeRow (q : Fin 16) (mode : Nat) (s : State) (body : CmdEntry → State → State) : Out :=
  .next (match s.cmdDue q 0x1A with
    | none => s
    | some e => if (e.p[0]).toNat ≠ mode then s else body e s)

/-- TIME_SET mode 0. -/
def execTimeSetStepDt (q : Fin 16) (s : State) : Out :=
  timeRow q 0 s fun e s =>
    if s.prog.state ≠ .none || (e.p[1]).toNat < s.dtN then s.finish q csIllegal 0 0
    else
      let s := (s.shiftTimers (e.p[1] - s.dt)).modTim fun t => { t with dt := e.p[1] }
      ((s.markStepped).expireAll).finish q csOk 0 0

/-- A step of TIM_PTP_OFFSET (R490, R491). -/
def State.stepOffset (s : State) (v : BitVec 64) : State :=
  (s.modTim fun t => { t with ptpOffset := v, steps := satInc t.steps }).markStepped

/-- TIME_SET mode 1. -/
def execTimeSetOffset (q : Fin 16) (s : State) : Out := timeRow q 1 s fun e s => (s.stepOffset (e.p[1])).finish q csOk 0 0

/-- TIME_SET mode 2. -/
def execTimeSetSource (q : Fin 16) (s : State) : Out :=
  timeRow q 2 s fun e s =>
    let v := (e.p[1]).toNat
    if 256 ≤ v || 2 < v % 4 || nbits v 2 2 ≠ 0 then s.finish q csIllegal 0 0
    else
      let s := s.modTim fun t => { t with src := BitVec.ofNat 2 v, locked := false, goodSec := 0 }
      (s.modIfc fun i => { i with gptpMask := BitVec.ofNat 4 (v / 16) }).finish q csOk 0 0

/-! ## FENCE (R225) -/

/-- What a FENCE waits for has ended. -/
def State.fenceClear (s : State) (q : Fin 16) (allq long : Bool) : Bool :=
  let me := (s.cmd.q[q]).order
  let cmds := !allq || ((List.range 16).filterMap (finOf 16)).all fun r =>
    r == q || (s.cmd.q[r]).cur.isNone || me < (s.cmd.q[r]).order
  let ops := !long || s.liveOps.all fun x => x.2.internal || me < x.2.order || (!allq && x.2.q != q)
  cmds && ops

def execFence (q : Fin 16) (s : State) : Out :=
  cmdRow q 0x1F s fun e s =>
    let p := (e.p[0]).toNat
    if 3 < p then s.finish q csIllegal 0 0
    else if s.fenceClear q (p.testBit 0) (p.testBit 1) then s.finish q csOk 0 0
    else s

/-! ## Time-base releases, deadlines, re-admission (R241 to R243) -/

/-- TIME_BASE_RELEASE: a TB = 1 task's RELEASE home is signalled at start DT + OFFSET + k PERIOD. -/
def execTimeBaseRelease (task : Nat) (s : State) : Out :=
  .next (match s.prog.img.tasks[task]? with
    | none => s
    | some t =>
      let k := tabGet 0 s.prog.nextK task
      if !s.progOn || !t.tb || s.prog.shed.contains task || s.dtN < s.prog.startDt.toNat + t.offset + k * t.period then s
      else (s.modProg fun p => { p with nextK := tabPut 0 p.nextK task (k + 1) }).sendSignal 0x104 t.release t.releaseN)

/-- The first deadline of a task that has come. -/
def State.dueDeadline (s : State) (task : Nat) : Option (Nat × BitVec 64) :=
  s.prog.deadlines.find? fun d => d.1 == task && decide (d.2.toNat ≤ s.dtN)

/-- DEADLINE_CHECK: a WAITT with T = 0 for 1 on the task's DONE home. -/
def execDeadlineCheck (task : Nat) (s : State) : Out :=
  .next (match s.prog.img.tasks[task]?, s.dueDeadline task with
    | some t, some d =>
      let s := s.modProg fun p => { p with deadlines := p.deadlines.erase d }
      match s.poll 0x105 t.done 1 with
      | (s, true) => s
      | (s, false) => (s.modProg fun p => { p with missCount := satInc p.missCount }).raise 0x40 0 t.part task
    | _, _ => s)

/-- READMISSION: the MP completes re-admission. -/
def execReadmission (s : State) : Out := .next (if s.prog.state = .readmitting && !s.pwr.mpAbsent then s.readmit else s)

end Sys2Proof.Machine
end

