-- ==== Sys2Proof/Machine/OpUndo.lean ====
section
/-! DEFINITION. What a long operation undoes when it is cancelled or fails (R231, R233). -/

namespace Sys2Proof.Machine

/-- The kind of a REPAIR (R473); 0 for another operation. -/
def LongOp.kind (o : LongOp) : Nat := if o.opcode = 0x15 then (o.p[0]).toNat % 256 else 0

/-- The MP, which carries out every kind but CHECKSCAN, is at work (R456). -/
def State.opServed (s : State) (o : LongOp) : Bool := o.opcode == 0x11 || !s.pwr.mpAbsent

/-- The channels of a RETRAIN, ascending. -/
def retrainChans (o : LongOp) : List (Fin 8) := chans8.filter fun c => (o.p[0]).getLsbD c.val

/-- What an operation undoes when it is cancelled or fails. -/
def State.opUndo (s : State) (k : Fin 64) (o : LongOp) : State :=
  match o.opcode.toNat with
  | 0x01 => s.undoLoad
  | 0x10 => (match s.snap with | some x => if x.slot = k then { s with snap := none } else s | none => s)
  | 0x11 =>
    (match finOf 4 (o.p[2]).toNat with
     | some u =>
       let mine (x : Option Scan) : Option Scan := x.filter fun y => y.kind != .host k
       (s.modCvu u fun c => { c with cur := mine c.cur, yielded := mine c.yielded }).cvuNext u
     | none => s)
  | 0x13 => (retrainChans o).foldl (fun s c => s.modCh c fun x => { x with retrainDue := false }) s
  | 0x14 => s.modWear fun w => { w with armed := w.armed.filter (fun a => a.2.2 ≠ some k),
                                         moving := w.moving.map fun m => if m.slot = some k then { m with slot := none } else m }
  | 0x15 =>
    (match o.kind with
     | 3 =>
       (match finOf 136 (o.p[1]).toNat with
        | some t => s.modWear fun w => { w with tile := vmod w.tile t fun x => { x with testing := false } }
        | none => s)
     | 4 | 0x10 => s.modDmc fun d => { d with replacing := false }
     | _ => s)
  | _ => s

/-- A fault ends an operation in any non-terminal state (R231). -/
def State.opFailed (s : State) (k : Fin 64) (o : LongOp) (st : BitVec 8) : State := (s.opUndo k o).endH k .failed st

end Sys2Proof.Machine
end

