-- ==== Sys2Proof/Machine/PowerOps.lean ====
section
/-! DEFINITION. Tiers, rails and clocks of the compute dies, the governor's trips, the monitors, thermal management and
cooling (R430 to R452, R495). -/

namespace Sys2Proof.Machine

def dies4 : List (Fin 4) := (List.range 4).filterMap (finOf 4)

def State.diePwr (s : State) (d : Fin 4) : DiePwr := s.pwr.die[d]

def State.modDie (s : State) (d : Fin 4) (f : DiePwr → DiePwr) : State := s.modPwr fun p => { p with die := vmod p.die d f }

/-! ## Voltages and frequencies (R431, R434, R435) -/

/-- The tier voltage of a die, mV. -/
def State.tierMv (s : State) (d : Fin 4) (t : Nat) : Nat :=
  (([720, 800, 900].getD t 900 : Int) + (s.fuse.avsOff[d]).toInt + ((s.diePwr d).aging.toNat : Int)).toNat

/-- Fmax of a die at a voltage, kHz: piecewise linear through the three trimmed tier voltages. -/
def State.fmaxKhz (s : State) (d : Fin 4) (mv : Nat) : Int :=
  let v (t : Nat) : Int := (s.tierMv d t : Int)
  let x : Int := (mv : Int)
  if v 2 ≤ x then 1800000
  else if v 1 ≤ x then 1500000 + 300000 * (x - v 1) / (v 2 - v 1)
  else 1200000 + 300000 * (x - v 0) / (v 1 - v 0)

/-- Tile clock of a tier, kHz (R439). -/
def tierKhz (t : Nat) : Nat := [1200000, 1500000, 1800000].getD t 1800000

/-! ## Lowering a tier (R436, R443) -/

/-- Microseconds for which a sustained tier must last to end a lockout (R442). -/
def lockoutFull : Nat := 2000000

def State.anyPeak (s : State) : Bool := s.pwr.die.toList.any fun x => x.tier == 2

/-- A die is ordered to a lower tier. A raise under way is abandoned: the target goes at once to what the frequency still
running requires. -/
def State.lowerTo (s : State) (d : Fin 4) (t : Nat) : State :=
  let x := s.diePwr d
  let go (target : Nat) (sw : Nat) : State :=
    s.modDie d fun x => { x with change := some (BitVec.ofNat 2 t, .lowering false), target := target, switched := sw }
  match x.change with
  | some (n, .raising _ _) => if 0 < x.switched then go (s.tierMv d n.toNat) 0 else go (s.tierMv d x.tier.toNat) 0
  | some (n, .lowering _) => if t < n.toNat then go x.target 0 else s
  | none => if t < x.tier.toNat then go x.target 0 else s

/-- The tier a die is at or on its way to. -/
def DiePwr.aim (x : DiePwr) : Nat :=
  match x.change with
  | some (n, .lowering _) => n.toNat
  | some (n, .raising _ _) => n.toNat
  | none => x.tier.toNat

/-- A die is above the sustained tier, or on its way there. -/
def DiePwr.high (x : DiePwr) : Bool := 0 < x.aim

/-- A trip lowers some dies, each to a tier; it is counted when it lowers one (R443). -/
def State.trip (s : State) (l : List (Fin 4 × Nat)) : State :=
  let l := l.filter fun x => x.2 < (s.diePwr x.1).aim
  if l.isEmpty then s
  else (l.foldl (fun s x => s.lowerTo x.1 x.2) s).modPwr fun p => { p with drops := satInc p.drops }

/-- Every die goes to the sustained tier. -/
def State.tripAll (s : State) : State := s.trip (dies4.map fun d => (d, 0))

/-- A die goes down one tier. -/
def State.tripOne (s : State) (d : Fin 4) : State := s.trip [(d, (s.diePwr d).aim - 1)]

/-- The dies on their way up to peak. -/
def State.climbing (s : State) : List (Fin 4) :=
  dies4.filter fun d => match (s.diePwr d).change with | some (n, .raising _ _) => n == 2 | _ => false

/-- The peak period and the lockout after the tiers have changed (R442): a lockout lets no die enter peak that is on its way there. -/
def State.peakCheck (s : State) (was : Bool) : State :=
  if was && !s.anyPeak then
    (s.modPwr fun p => { p with peakUs := 0, peakLock := true, lockoutUs := lockoutFull }).trip (s.climbing.map fun d => (d, 1))
  else if !was && s.anyPeak then s.modPwr fun p => { p with peakUs := 0 }
  else s

/-! ## PWR_TIER_REQ (R440) -/

/-- CSR offset of PWR_TIER_REQ. -/
def tierReqCsr : Nat := 0xD00008

/-- The highest tier of a die (R458, R481). -/
def State.maxTierOf (s : State) (d : Fin 4) : Nat := if s.pwr.coarse then 0 else min 2 (nbits s.pwr.maxtier.toNat (2 * d.val) 2)

/-- Hottest reading of a die. -/
def State.tempOf (s : State) (d : Fin 4) : Int := (vgetN s.pwr.therm d.val { step := 0, hot := 0, unit := 0xFF, temp := 0, readings := [] }).temp

/-- The inlet reading is valid and in range (R440, R451). -/
def State.coolOk (s : State) : Bool := !s.pwr.coolFault && 100 ≤ s.pwr.inlet.toInt && s.pwr.inlet.toInt ≤ 650

/-- Every condition of R440 on a raise holds. A change of the die that is still under way also stands against it. -/
def State.mayRaise (s : State) (d : Fin 4) : Bool :=
  let x := s.diePwr d
  let n := x.tier.toNat + 1
  s.dieOk d && x.change.isNone && n ≤ s.maxTierOf d && s.prog.budget == 180000 && !s.pwr.mpAbsent && 0 < s.pwr.creditUs &&
  (n != 2 || (!s.pwr.peakLock && 0 < x.allowUs && x.current.toNat < 85)) &&
  s.tempOf d + 5 ≤ (s.pwr.tj.toNat : Int) && s.coolOk

/-- UP = 1. -/
def raiseOp (s : State) (d : Fin 4) : State :=
  if s.mayRaise d then
    let n := (s.diePwr d).tier + 1
    s.modDie d fun x => { x with change := some (n, .raising false false), target := s.tierMv d n.toNat, switched := 0 }
  else s.modPwr fun p => { p with denied := satInc p.denied }

/-- UP = 0. -/
def lowerOp (s : State) (d : Fin 4) : State := s.lowerTo d ((s.diePwr d).aim - 1)

/-- A write of PWR_TIER_REQ by its only writer, the MP (R458). -/
def tierReq (src : Src) (s : State) (f : State → State) : Out :=
  .next (if src = 0x100 then f s else s.csrViolation src tierReqCsr)

/-- TJ_THROTTLE - 5 K, mK: the limit of the MP's forecast (R450). -/
def State.forecastLimit (s : State) : Int := (s.pwr.tj.toNat : Int) * 1000 - 5000

/-- TIER_RAISE: the MP requests a raise only if its forecast stays below the limit (R450). A store to the register by the MP's program
reaches the governor whatever the forecast says. -/
def execTierRaise (src : Src) (d : Fin 4) (s : State) : Out :=
  tierReq src s fun s => if s.pwr.forecastT[d] < s.forecastLimit then raiseOp s d else s

def execTierLower (src : Src) (d : Fin 4) (s : State) : Out := tierReq src s fun s => lowerOp s d

/-! ## The steps of a change (R432, R436, R446) -/

/-- RELOCK_DONE. -/
def execRelockDone (d : Fin 4) (s : State) : Out := whenAlive s fun s =>
  (s.modDie d fun x =>
    { x with change := match x.change with
        | some (n, .raising _ b) => some (n, .raising true b)
        | some (n, .lowering _) => some (n, .lowering true)
        | none => none })

/-- RAIL_SETTLED: the regulator reports the transition complete; settled when the measured voltage is within 10 mV. -/
def execRailSettled (d : Fin 4) (mv : Nat) (s : State) : Out := whenAlive s fun s =>
  (s.modDie d fun x =>
    let x := { x with volt := BitVec.ofNat 10 mv }
    if mv ≤ x.target + 10 && x.target ≤ mv + 10 then
      { x with fmax := false, change := match x.change with
          | some (n, .raising a _) => some (n, .raising a true)
          | c => c }
    else x)

/-- The tiles of a die may switch: relocked, and on a raise also settled. -/
def DiePwr.maySwitch (x : DiePwr) : Bool :=
  match x.change with
  | some (_, .raising a b) => a && b
  | some (_, .lowering a) => a
  | none => false

/-- TIER_SWITCH: the next eight tiles, at most eight in 100 ns; with the last, the die counts at its new tier, and a lowered
die's rail gets its new target. -/
def execTierSwitch (d : Fin 4) (s : State) : Out := whenAlive s fun s =>
  let x := s.diePwr d
  (if !x.maySwitch || (match x.switchDt with | some t => decide ((s.dt - t).toNat < 100) | none => false) then s
    else
      let n := min 34 (x.switched + 8)
      if n < 34 then s.modDie d fun x => { x with switched := n, switchDt := some s.dt }
      else
        match x.change with
        | none => s
        | some (t, _) =>
          (s.modDie d fun x => { x with tier := t, change := none, switched := 0, switchDt := some s.dt, target := s.tierMv d t.toNat }).peakCheck
            s.anyPeak)

/-! ## The governor's estimate (R439, R441 to R444) -/

/-- Ten microseconds at the present tiers: burst credit, peak period, lockout, peak allowances. -/
def State.account (s : State) : State :=
  let sust := s.pwr.die.toList.all fun x => x.tier == 0
  let peak := s.anyPeak
  s.modPwr fun p =>
    { p with
      creditUs := if !sust then p.creditUs - 10 else if p.powerMw ≤ 170000 then min 2000000 (p.creditUs + 2) else p.creditUs
      peakUs := if peak then p.peakUs + 10 else 0
      lockoutUs := if !p.peakLock then 0 else if sust then p.lockoutUs - 10 else lockoutFull
      die := Vector.ofFn fun (d : Fin 4) =>
        let x := p.die[d]
        if !s.dieOk d then x
        else if x.tier = 2 then { x with allowUs := x.allowUs - 10 }
        else if 1000000 ≤ x.accrueUs + 10 then { x with accrueUs := x.accrueUs + 10 - 1000000, allowUs := min 10000000 (x.allowUs + 1000) }
        else { x with accrueUs := x.accrueUs + 10 } }

/-- The highest tier in use. -/
def State.topTier (s : State) : Nat := (s.pwr.die.toList.map fun x => x.tier.toNat).foldl max 0

/-- Package power above the limit in force lowers every die at the highest tier in use. -/
def State.powerTrip (s : State) : State :=
  let t := s.topTier
  if t = 0 || s.pwr.powerMw ≤ (if t = 2 then 300000 else 250000) then s
  else s.trip ((dies4.filter fun d => (s.diePwr d).tier.toNat = t).map fun d => (d, t - 1))

/-- A die whose current is above 85 A at burst or peak goes down one tier. -/
def State.currentTrip (s : State) (d : Fin 4) : State :=
  let x := s.diePwr d
  if 85 < x.current.toNat && 0 < x.tier.toNat then s.trip [(d, x.tier.toNat - 1)] else s

/-- POWER_ESTIMATE. -/
def execPowerEstimate (pkgMw : Nat) (amps mv : Vector Nat 4) (s : State) : Out := whenAlive s fun s =>
  let l := (pkgMw :: s.pwr.samples).take 10
  let t : Nat := l.foldl (· + ·) 0
  let s := s.modPwr fun p =>
    { p with samples := l, powerMw := t / l.length,
             die := Vector.ofFn fun (d : Fin 4) => { p.die[d] with current := BitVec.ofNat 8 (min 255 amps[d]), volt := BitVec.ofNat 10 (min 1023 mv[d]) } }
  let s := (s.account).powerTrip
  (dies4.foldl State.currentTrip s)

/-- BURST_CREDIT_EXHAUSTED. -/
def execBurstCreditExhausted (s : State) : Out := whenAlive s fun s => (if s.pwr.creditUs = 0 then s.tripAll else s)

/-- PEAK_PERIOD_LIMIT. -/
def execPeakPeriodLimit (s : State) : Out :=
  .next (if 200000 ≤ s.pwr.peakUs then s.trip ((dies4.filter fun d => (s.diePwr d).tier = 2).map fun d => (d, 1)) else s)

/-- PEAK_LOCKOUT_END. -/
def execPeakLockoutEnd (s : State) : Out :=
  .next (if s.pwr.peakLock && s.pwr.lockoutUs = 0 then s.modPwr fun p => { p with peakLock := false } else s)

/-- PEAK_ALLOWANCE_EXHAUSTED. -/
def execPeakAllowanceExhausted (d : Fin 4) (s : State) : Out :=
  .next (if (s.diePwr d).allowUs = 0 && (s.diePwr d).tier = 2 then s.trip [(d, 1)] else s)

/-! ## Droop detectors (R437) -/

/-- The code of an island in INFO. -/
def islandCode : Island → Nat
  | .tile t => t.val
  | .dieFabric d => 0x100 + d.val
  | .hubFabric => 0x110
  | .mp => 0x111
  | .planner => 0x112
  | .fusion => 0x113
  | .intakeRx => 0x114
  | .intakeVideo => 0x115
  | .cvu u => 0x118 + u.val
  | .dram c => 0x120 + c.val

/-- The compute die of an island. -/
def islandDie : Island → Option (Fin 4)
  | .tile t => some (tileDie t)
  | .dieFabric d => some d
  | _ => none

/-- Whether a die's generators stretch cycles. -/
def State.syncDroop (s : State) : State :=
  s.modPwr fun p => { p with die := Vector.ofFn fun (d : Fin 4) => { p.die[d] with stretch := p.droop.any fun i => islandDie i == some d } }

/-- DROOP_DETECT: the generator stretches cycles. At burst or peak a core that would deliver fewer than 1,200 cycles in 1 µs
sends its die to the sustained tier; at the sustained tier a stretch is a supply fault. -/
def execDroopDetect (i : Island) (cycles : Nat) (s : State) : Out := whenAlive s fun s =>
  let s := (s.modPwr fun p => { p with droop := if p.droop.contains i then p.droop else p.droop ++ [i] }).syncDroop
  (match islandDie i with
    | some d =>
      let t := (s.diePwr d).tier.toNat
      if 0 < t then
        let s := s.modDie d fun x => { x with stretches := x.stretches + (tierKhz t / 1000 - cycles) }
        (match i with
         | .tile _ => if cycles < 1200 then s.trip [(d, 0)] else s
         | _ => s)
      else s.raise 0x31 0 0 (islandCode i)
    | none => s.raise 0x31 0 0 (islandCode i))

/-- DROOP_RECOVERY. -/
def execDroopRecovery (i : Island) (s : State) : Out := whenAlive s fun s =>
  (s.modPwr fun p => { p with droop := p.droop.filter (· ≠ i) }).syncDroop

/-! ## Clock and voltage monitors (R430, R433, R438) -/

/-- The settings of an island's generator, old and new, kHz. -/
def State.settings (s : State) : Island → Nat × Nat
  | .tile t =>
    let d := tileDie t
    let x := s.diePwr d
    let th := vgetN s.pwr.therm d.val { step := 0, hot := 0, unit := 0xFF, temp := 0, readings := [] }
    let f (n : Nat) : Nat := if th.unit.toNat = tileSlot t then tierKhz n * (16 - th.step.toNat) / 16 else tierKhz n
    (f x.tier.toNat, match x.change with | some (n, _) => f n.toNat | none => f x.tier.toNat)
  | .dieFabric _ | .hubFabric | .intakeRx | .cvu _ => (1200000, 1200000)
  | .mp | .planner | .fusion => (1000000, 1000000)
  | .intakeVideo => (800000, 800000)
  | .dram c => let f := binRate (s.dmc.ch[c]).bin * 125; (f, f)

/-- A window above the bound of R435. -/
def State.tooFast (s : State) (i : Island) (khz : Nat) : Bool :=
  let f := s.settings i
  let above := max f.1 f.2 * 1005 < khz * 1000
  match i with
  | .tile t =>
    let d := tileDie t
    let x := s.diePwr d
    let v := if x.volt = 0 then x.target else min x.volt.toNat x.target
    above || decide (s.fmaxKhz d v < (khz : Int))
  | _ => above

/-- CLOCK_MONITOR_WINDOW: two windows in a row above the bound, or below 0.45 of the setting, or no edge for 160 ns. -/
def execClockMonitorWindow (i : Island) (khz : Nat) (noEdge160 : Bool) (s : State) : Out := whenAlive s fun s =>
  let hi := s.tooFast i khz
  let lo := decide (khz * 100 < 45 * min (s.settings i).1 (s.settings i).2)
  let was (b : Bool) : Bool := s.pwr.badWindow.contains (i, b)
  let fault := noEdge160 || (hi && was true) || (lo && was false)
  let s := s.modPwr fun p =>
    let l := p.badWindow.filter fun x => x.1 ≠ i
    { p with badWindow := if hi then l ++ [(i, true)] else if lo then l ++ [(i, false)] else l }
  (if fault then s.raise 0x30 0 0 (islandCode i) else s)

/-- Nominal voltage of a fixed rail, mV (R430). -/
def railMv : Rail → Nat
  | .hub => 750 | .sa | .sb | .ao => 800 | .vddq => 1100 | .phy => 850 | .io18 => 1800 | .cd _ => 720

/-- The code of a rail in INFO. -/
def railCode : Rail → Nat
  | .cd d => 0x200 + d.val
  | .hub => 0x204 | .sa => 0x205 | .sb => 0x206 | .ao => 0x207 | .vddq => 0x208 | .phy => 0x209 | .io18 => 0x20A

/-- The targets that bound a compute rail's thresholds: during a transition the lower and the higher of the old and new. -/
def State.railTargets (s : State) (d : Fin 4) : Nat × Nat :=
  let x := s.diePwr d
  match x.change with
  | some _ => (min x.target (s.tierMv d x.tier.toNat), max x.target (s.tierMv d x.tier.toNat))
  | none => (x.target, x.target)

/-- A rail is outside its thresholds. -/
def State.railBad (s : State) (r : Rail) (mv : Nat) : Bool :=
  match r with
  | .cd d => let t := s.railTargets d; mv * 100 < 92 * t.1 || 108 * t.2 < mv * 100
  | r => mv * 100 < 95 * railMv r || 105 * railMv r < mv * 100

/-- A voltage event of a rail: entered, by the deputy itself for its own rail; a die's clocks fall to Fmax of the measured
voltage. -/
def State.voltEvent (s : State) (r : Rail) : State :=
  match r with
  | .cd d => (s.modDie d fun x => { x with fmax := true }).raise 0x31 0 0 (railCode r)
  | .sa => s.raiseDep 0 0x31 (railCode r)
  | .sb => s.raiseDep 1 0x31 (railCode r)
  | r => s.raise 0x31 0 0 (railCode r)

/-- VOLTAGE_MONITOR_FAULT: a rail has been outside its thresholds for 2 µs. -/
def execVoltageMonitorFault (r : Rail) (mv : Nat) (s : State) : Out := whenAlive s fun s =>
  (if !s.railBad r mv then s
    else
      let s := match r with | .cd d => s.modDie d fun x => { x with volt := BitVec.ofNat 10 (min 1023 mv) } | _ => s
      s.voltEvent r)

/-- AVSBUS_RETRY: a write that was not acknowledged is repeated; a second failure is a voltage event (R495). -/
def execAvsbusRetry (d : Fin 4) (ack : Bool) (s : State) : Out := whenAlive s fun s => (if ack then s else s.voltEvent (.cd d))

/-! ## Thermal management (R447 to R449) -/

/-- Readings of unit `u` (four dies of 64, then the hub's 32) in a sample of 288. -/
def readingsOf (l : List Int) (u : Nat) : List Int := (l.drop (64 * u)).take 64

/-- Index and value of the hottest of some readings, the lowest index of equals. -/
def hottest (l : List Int) : Nat × Int :=
  let m := l.foldl max (l.headD 0)
  ((l.findIdx? (· == m)).getD 0, m)

/-- The unit runs at the sustained tier; the hub has no other. -/
def State.sustained (s : State) (u : Nat) : Bool :=
  match finOf 4 u with | some d => (s.diePwr d).tier == 0 | none => true

/-- A reading at which 0x32 is entered (R449). -/
def State.overTemp (s : State) (u : Nat) (t : Int) : Bool := decide (125 ≤ t) || (s.sustained u && decide ((s.pwr.tj.toNat : Int) ≤ t))

/-- The sensors of one unit are sampled: 0x32 is entered when its hottest sensor has become too hot, with sensor and reading. -/
def sampleUnit (l : List Int) (s : State) (u : Fin 5) : State :=
  let r := readingsOf l u.val
  if r.isEmpty then s
  else
    let was := (s.pwr.therm[u]).tooHot
    let (i, t) := hottest r
    let s := s.modPwr fun p => { p with therm := vmod p.therm u fun x =>
      { x with readings := r, temp := t, hot := BitVec.ofNat 8 i, tooHot := s.overTemp u.val t } }
    if s.overTemp u.val t && !was then s.raise 0x32 0 0 ((64 * u.val + i) * 256 + (t % 256).toNat) else s

/-- THERMAL_SAMPLE. -/
def execThermalSample (readings : List Int) (s : State) : Out := whenAlive s fun s =>
  (((List.range 5).filterMap (finOf 5)).foldl (sampleUnit readings) s)

/-- The hottest reading among the sensors of one unit of a die or the hub. -/
def unitTemp (u : Nat) (l : List Int) (unit : BitVec 8) : Option Int :=
  (((List.range l.length).zip l).filter fun x => Config.sensorUnit u x.1 == unit).foldl
    (fun (m : Option Int) x => some (match m with | none => x.2 | some v => max v x.2)) none

/-- THROTTLE_STEP. -/
def execThrottleStep (u : Fin 5) (s : State) : Out := whenAlive s fun s =>
  let x := s.pwr.therm[u]
  let tj : Int := (s.pwr.tj.toNat : Int)
  (if x.readings.isEmpty then s
    else if tj ≤ x.temp then
      (match finOf 4 u.val with
       | some d => if 0 < (s.diePwr d).tier.toNat then s.trip [(d, (s.diePwr d).tier.toNat - 1)] else throttle s u x
       | none => throttle s u x)
    else
      match unitTemp u.val x.readings x.unit with
      | none => s
      | some t =>
        if 0 < x.step.toNat && t ≤ tj - 3 then
          s.modPwr fun p => { p with therm := vmod p.therm u fun x =>
            { x with step := x.step - 1, unit := if x.step = 1 then 0xFF else x.unit } }
        else s)
where
  /-- The hottest unit goes down a step; the throttle moves to it from another. -/
  throttle (s : State) (u : Fin 5) (x : Therm) : State :=
    let unit := Config.sensorUnit u.val x.hot.toNat
    s.modPwr fun p => { p with therm := vmod p.therm u fun x =>
      if x.unit = unit && 0 < x.step.toNat then { x with step := if x.step.toNat < 12 then x.step + 1 else x.step }
      else { x with unit := unit, step := 1 } }

/-! ## Cooling and THERMTRIP_N (R451, R452) -/

/-- COOLANT_READ: an inlet fault is entered when it begins, and every die goes to the sustained tier. -/
def execCoolantRead (r : NtcReading) (s : State) : Out := whenAlive s fun s =>
  let bad := match r with | .temp t => decide (650 < t) || decide (t < 100) | _ => true
  let was := s.pwr.coolFault
  let s := s.modPwr fun p => { p with coolFault := bad, inlet := match r with | .temp t => BitVec.ofInt 16 t | _ => p.inlet }
  (if bad && !was then (s.raise 0x32 0 0 s.pwr.inlet.toNat).tripAll else s)

/-- THERMTRIP: until PORST_N. -/
def execThermtrip (s : State) : Out := whenAlive s fun s =>
  (if s.pwr.thermtrip then s
    else
      let stop (x : Tile) : Tile := { x with clocked := false }
      ((({ s with tiles := s.tiles.map stop }).modPwr fun p => { p with thermtrip := true }).raise 0x33 0 0 0))

/-! ## POWER_BUDGET (R244, R445) -/

/-- The limit takes effect: the epoch increments (R241), and below 180,000 mW every die goes to the sustained tier, where R440 keeps it.
That the MP lowers a die that is above is DEDUCED (log 136). -/
def State.setBudget (s : State) (mw : Nat) : State :=
  let s := s.modProg fun p => { p with budget := BitVec.ofNat 32 mw, epoch := p.epoch + 1 }
  if mw < 180000 then dies4.foldl (fun s d => s.lowerTo d 0) s else s

def execPowerBudget (q : Fin 16) (s : State) : Out :=
  cmdRow q 0x1C s fun e s =>
    let mw := (e.p[0]).toNat
    if !inRange 60000 180000 mw then s.finish q csIllegal 0 0
    else if s.prog.state = .none || s.prog.state = .loading then (s.setBudget mw).finish q csOk 0 0
    else
      match plan s mw with
      | (shed, .error _) =>
        let left := s.allTasks.filter fun x => !shed.contains x.1
        s.finish q csDeadline 0 (sat32 (powerMargin s mw left).floor)
      | (shed, .ok b) =>
        let n := (shed.filter fun i => !s.prog.shed.contains i).length
        (((s.shedTasks shed).setBudget mw).recordPass b).finish q csOk (BitVec.ofNat 32 n) 0

end Sys2Proof.Machine
end

