-- ==== Sys2Proof/Machine/MpOps.lean ====
section
/-! DEFINITION. The MP's cyclic executive with its forecast (R450), its watchdog and its restart (R453 to R457). -/

namespace Sys2Proof.Machine

/-- The MP's firmware as it lies in boot flash (R496): its whole private SRAM. -/
def State.mpFirmware (s : State) : Mem := s.flash.filter fun c => c.1 < sramSize

/-- The MP restarts (R456): its pair and private SRAM are reset, and every die goes to the sustained tier. -/
def State.mpRestart (s : State) : State :=
  if s.mpGone then s
  else
    let s := (s.withdrawWait .mp).orphan .mp
    let s := { s with mp := Seq.reset .reset 0x100, mpSram := [], mpEcc := [], mpCache := [], mpDma := Vector.replicate 32 none }
    let s := s.modPwr fun p => { p with mpAbsent := true, restarts := satInc p.restarts }
    (s.modWear fun w => { w with mpRestarts := w.mpRestarts + 1 }).tripAll

/-- In LOADED and NONE a worn tile need not wait for a migration point: the MP arms its core as in a running program, and a
candidate that serves no core is retired at once (R462, R467). -/
def State.retireIdle (s : State) : State :=
  ((List.range 136).filterMap (finOf 136)).foldl (fun s t =>
    let w := s.wear.tile[t]
    if w.cand && (w.state = .spare || w.state = .untested) then s.parkTile t .retired else s) s

/-! ## The forecast (R450) -/

/-- The schedule releases a job of a task in the next `ns`: at start DT + OFFSET + k PERIOD. -/
def State.releasesIn (s : State) (t : Task) (ns : Nat) : Bool :=
  let b := s.prog.startDt.toNat + t.offset
  let next := if s.dtN ≤ b then b else b + (s.dtN - b + t.period - 1) / t.period * t.period
  next < s.dtN + ns

/-- The tasks of the running program with a job in the next 50 ms. -/
def State.forecastTasks (s : State) : List Task :=
  if s.progOn then
    (((List.range s.prog.img.tasks.length).zip s.prog.img.tasks).filter fun x => !s.prog.shed.contains x.1 && s.releasesIn x.2 50000000).map (·.2)
  else []

/-- ENERGY / PERIOD of some tasks, mW. -/
def forecastMw (l : List Task) : Nat := (1000000 * sumR (l.map powerRate)).floor.toNat

/-- A task runs on a core of a die. -/
def State.taskOn (s : State) (d : Fin 4) (t : Task) : Bool :=
  match (finOf 128 t.agent).bind s.tileOf with | some x => tileDie x == d | none => false

/-- The forecast junction temperature of a die, mK: the inlet, the forecast package power at 0.14 K/W, and the die's present margin
over the coolant. The package power includes the static power of R445, and the margin is the hottest reading less the inlet:
DEDUCED (log 125). -/
def State.forecastMk (s : State) (d : Fin 4) : Int :=
  let pkg := s.pbaseOf + forecastMw s.forecastTasks
  let inlet := s.pwr.inlet.toInt * 100
  inlet + ((pkg * 14 / 100 : Nat) : Int) + (s.tempOf d * 1000 - inlet)

/-- The MP forecasts the dies' power and temperatures, and requests a lowering of each die above the sustained tier whose forecast rises
above the limit. -/
def State.forecast (s : State) : State :=
  let ts := s.forecastTasks
  let s := s.modPwr fun p => { p with forecastMw := Vector.ofFn fun (d : Fin 4) => forecastMw (ts.filter (s.taskOn d)),
                                      forecastT := Vector.ofFn fun (d : Fin 4) => s.forecastMk d }
  (dies4.filter fun d => decide (s.forecastLimit < s.pwr.forecastT[d]) && (s.diePwr d).high).foldl lowerOp s

/-- MP_MAJOR_FRAME: the executive runs its functions, skips its deferrable one when less than 150 µs are left, and writes its
watchdog. `usedUs`: what the functions before it have used; `telemetry`: bytes of telemetry logged. -/
def execMpMajorFrame (usedUs telemetry : Nat) (s : State) : Out :=
  .next (if s.mpGone || s.mp.run = .faulted then s
    else
      let s := s.forecast
      let s := s.modPwr fun p =>
        { p with mpKick := s.dt,
                 skipped := if 1000 - usedUs < 150 then satInc p.skipped else p.skipped,
                 telemetry := if 1000 - usedUs < 150 then p.telemetry else p.telemetry + telemetry }
      ((s.armWorn).retireIdle).replaceWaits)

/-- MP_BUDGET_OVERRUN: a non-deferrable function, 1 to 4, is stopped at the end of its budget (R455). -/
def execMpBudgetOverrun (order : Fin 4) (s : State) : Out :=
  .next (if s.mpGone then s
    else (s.modPwr fun p => { p with overruns := satInc p.overruns }).raise 0x34 0x100 0 (order.val + 1))

/-- MP_WATCHDOG_EXPIRY: the watchdog has not been written for 2 ms; an MP that has faulted has entered its record already. -/
def execMpWatchdogExpiry (s : State) : Out :=
  .next (if s.mpGone then s
    else if s.mp.run = .faulted then s.mpRestart
    else if 2000000 ≤ (s.dt - s.pwr.mpKick).toNat then
      (s.raise 0x34 0x100 0 0).mpRestart
    else s)

/-- The MP's work on an operation is resolved (R457): a re-placement restarts under a new handle; a CHECKSCAN goes on, and its
final entry is posted now; every other ends FAILED. -/
def State.resolveOp (s : State) (x : Fin 64) : State :=
  match s.cmd.ops[x] with
  | none => s
  | some o =>
    if o.state.terminal then (if o.unposted then s.postFinal x else s)
    else if o.opcode = 0x11 then s
    else if o.internal then (s.opFailed x o csHwFault).startReplace
    else s.opFailed x o csHwFault

/-- MP_RESTART_DONE. -/
def execMpRestartDone (s : State) : Out :=
  .next (if !s.pwr.mpAbsent then s
    else
      let s := { s with mp := { Seq.reset .running 0x100 with bps := s.mp.bps, dbgHalt := s.mp.dbgHalt }, mpSram := s.mpFirmware }
      let s := s.modPwr fun p => { p with mpAbsent := false, mpKick := s.dt }
      let s := s.cmd.mpq.foldl (fun s q => s.finish q csHwFault 0 0) s
      let s := slots64.foldl State.resolveOp s
      let s := s.modWear fun w => { w with armed := [] }
      chans8.foldl State.windowBack s)

end Sys2Proof.Machine
end

