-- ==== Sys2Proof/Machine/IntakeChain.lean ====
section
/-! DEFINITION. The image chain of the intake (R318 to R322, R332 to R334) as functions on pictures and stream records. -/

namespace Sys2Proof.Machine

/-- The input type of the chain: 0 Bayer, 1 YUV422, 2 RGB888; decoded pictures are YUV. -/
def srType (r : Bytes) : Nat :=
  if srKind r = 2 then 1 else if u8 r 3 = 0x1E then 1 else if u8 r 3 = 0x24 then 2 else 0

/-- Components of a line of `w` pixels. -/
def lineLen (ty w : Nat) : Nat := match ty with | 0 => w | 1 => 2 * w | _ => 3 * w

/-! ## Parameters of a variant (R322, R332 to R334) -/

structure AugParam where
  flip : Bool
  dx : BitVec 8
  dy : BitVec 8
  scale : BitVec 16
  gain : BitVec 16
  bias : BitVec 16
deriving DecidableEq, Repr

/-- The identity parameters (R322). -/
def AugParam.identity : AugParam := { flip := false, dx := 0, dy := 0, scale := 1024, gain := 1024, bias := 0 }

/-- Four rounds of the seeded generator (R333). -/
def genRounds : Nat → BitVec 64 → BitVec 64 → BitVec 64
  | 0, a, b => a ^^^ b
  | n + 1, a, b =>
    let a := a + b
    let b := (b.rotateLeft 24) ^^^ a
    genRounds n (a.rotateLeft 40) b

def gen (seed index lane : BitVec 64) : BitVec 64 :=
  genRounds 4 (seed ^^^ 0x5D2C8F41A7E30B96 ^^^ lane) (index ^^^ 0xC4B17A053E9D62F8)

/-- q(u, n) of R334. -/
def drawQ (u n : Nat) : Nat := u * n / 65536

/-- The parameters of a variant under the generator. -/
def genParam (r : Bytes) (frameno v : Nat) : AugParam :=
  let seed := BitVec.ofNat 64 (u64 r 92)
  let i := BitVec.ofNat 64 (8 * frameno + v)
  let g0 := (gen seed i 0).toNat
  let g1 := (gen seed i 1).toNat
  let u (k : Nat) : Nat := if k < 4 then nbits g0 (16 * k) 16 else nbits g1 (16 * (k - 4)) 16
  let sym (m k : Nat) : Int := (drawQ (u k) (2 * m + 1) : Int) - (m : Int)
  { flip := u 0 < u16 r 102, dx := BitVec.ofInt 8 (sym (u8 r 100) 1), dy := BitVec.ofInt 8 (sym (u8 r 101) 2),
    scale := BitVec.ofNat 16 (u16 r 104 + drawQ (u 3) (u16 r 106 - u16 r 104 + 1)),
    gain := BitVec.ofNat 16 (u16 r 108 + drawQ (u 4) (u16 r 110 - u16 r 108 + 1)),
    bias := BitVec.ofInt 16 (sym (u16 r 112) 5) }

/-- A record's bytes 8 to 15, laid out as bytes 48 to 55 of a slot header (R328, R332); BIAS, at 56 of the header, is not among
them and stays 0. -/
def recParam (b : Bytes) : AugParam :=
  { flip := (u8 b 8).testBit 0, dx := BitVec.ofNat 8 (u8 b 9), dy := BitVec.ofNat 8 (u8 b 10),
    scale := BitVec.ofNat 16 (u16 b 12), gain := BitVec.ofNat 16 (u16 b 14), bias := 0 }

/-! ## Coordinates (R318) -/

/-- A quotient rounded to nearest, ties to even. -/
def roundDiv (a : Int) (b : Nat) : Int :=
  if b = 0 then Config.zeroScale a
  else
    let q := a / (b : Int)
    let r := (a % (b : Int)).toNat
    if 2 * r < b then q else if b < 2 * r then q + 1 else if q % 2 = 0 then q else q + 1

/-- A node of the grid, its index clamped to the edge: X or Y (`o` 0 or 4). -/
def gridNode (g : Bytes) (w h : Nat) (i j : Int) (o : Nat) : Int :=
  let cl (v : Int) (n : Nat) : Nat := (max 0 (min v ((n : Int) - 1))).toNat
  sgn 32 (u32 g (8 * (cl j h * w + cl i w) + o))

/-- Bilinear interpolation of the grid at (pu, pv), rounded. -/
def gridAt (g : Bytes) (w h : Nat) (pu pv : Int) (o : Nat) : Int :=
  let i := pu / 4096; let j := pv / 4096
  let fx := pu % 4096; let fy := pv % 4096
  let n := gridNode g w h
  roundDiv ((4096 - fy) * ((4096 - fx) * n i j o + fx * n (i + 1) j o) + fy * ((4096 - fx) * n i (j + 1) o + fx * n (i + 1) (j + 1) o))
    16777216

/-- Grid nodes of a record for an output size: per row, and rows. -/
def gridDims (ow oh : Nat) : Nat × Nat := ((ow + 15) / 16 + 1, (oh + 15) / 16 + 1)

/-- Input position, in 1/256 pixel, of output pixel (u, v). `grid` is empty when GRID is 0. -/
def inputAt (r grid : Bytes) (ow oh : Nat) (p : AugParam) (u v : Nat) : Int × Int :=
  let w : Int := (ow : Int); let h : Int := (oh : Int)
  let ua : Int := if p.flip then w - 1 - (u : Int) else (u : Int)
  let pu := roundDiv ((256 * ua + 128 - 128 * w) * 1024) p.scale.toNat + 128 * w - 128 + 256 * p.dx.toInt
  let pv := roundDiv ((256 * (v : Int) + 128 - 128 * h) * 1024) p.scale.toNat + 128 * h - 128 + 256 * p.dy.toInt
  if grid.isEmpty then
    (roundDiv (pu * (u16 r 24 : Int)) ow + 256 * (u16 r 20 : Int), roundDiv (pv * (u16 r 26 : Int)) oh + 256 * (u16 r 22 : Int))
  else
    let (gw, gh) := gridDims ow oh
    (gridAt grid gw gh pu pv 0, gridAt grid gw gh pu pv 4)

/-! ## Channel values (R319), in quarters -/

/-- Pixels of a picture: lines of components. -/
abbrev Pic := List (List Nat)

def compAt (pic : Pic) (y i : Nat) : Nat := (pic.getD y []).getD i 0

/-- The colour of a Bayer pixel under a phase: 0 red, 1 green, 2 blue. -/
def bayerColour (phase x y : Nat) : Nat :=
  let k := x % 2 + 2 * (y % 2)
  ([[0, 1, 1, 2], [1, 0, 2, 1], [1, 2, 0, 1], [2, 1, 1, 0]].getD phase []).getD k 1

/-- A demosaiced colour at a Bayer pixel: its own, or the mean of the nearest pixels of that colour. -/
def bayerAt (pic : Pic) (phase w h c x y : Nat) : Nat :=
  if bayerColour phase x y = c then 4 * compAt pic y x
  else
    let near : List (Int × Int) :=
      if bayerColour phase x y = 1 then
        (if bayerColour phase (x + 1) y = c then [(-1, 0), (1, 0)] else [(0, -1), (0, 1)])
      else if c = 1 then [(0, -1), (-1, 0), (1, 0), (0, 1)]
      else [(-1, -1), (1, -1), (-1, 1), (1, 1)]
    let vals := near.filterMap fun d =>
      let a := (x : Int) + d.1
      let b := (y : Int) + d.2
      if 0 ≤ a && a < (w : Int) && 0 ≤ b && b < (h : Int) then some (compAt pic b.toNat a.toNat) else none
    if vals.length = near.length then 4 * (vals.foldl (· + ·) 0) / near.length else Config.edgeMean vals

/-- Channel `j` of input pixel (x, y). -/
def chanAt (pic : Pic) (ty phase w h j x y : Nat) : Nat :=
  match ty with
  | 0 => bayerAt pic phase w h j x y
  | 1 =>
    let b := x / 2 * 4
    4 * compAt pic y (match j with | 0 => b + 1 + 2 * (x % 2) | 1 => b | _ => b + 2)
  | _ => 4 * compAt pic y (3 * x + j)

/-- Channel `j` at an input position, as FP32 (R319). -/
def sampleAt (pic : Pic) (ty phase w h j : Nat) (x y : Int) : Nat :=
  let cl (v : Int) (n : Nat) : Nat := (max 0 (min v ((n : Int) - 1))).toNat
  let fx := (x % 256).toNat; let fy := (y % 256).toNat
  let p (dx dy : Int) : Nat := chanAt pic ty phase w h j (cl (x / 256 + dx) w) (cl (y / 256 + dy) h)
  let t : Nat := (256 - fy) * ((256 - fx) * p 0 0 + fx * p 1 0) + fy * ((256 - fx) * p 0 1 + fx * p 1 1)
  (toFmt 10 0 true (.fin false t (-18))).1

/-! ## Output (R320, R321) -/

def fp32 (v : Nat) : FVal := fmtVal 10 v

/-- Output channel `i`: its code in the output format, from the channel samples. -/
def outChan (r : Bytes) (p : AugParam) (i : Nat) (ss : List Nat) : Nat :=
  let terms := ((List.range ss.length).zip ss).map fun x => ((fp32 (u32 r (32 + 12 * i + 4 * x.1))).mul (fp32 x.2)).1
  let sum := terms.foldl (fun a t => (a.add 0 t).1) (fp32 (u32 r (68 + 4 * i)))
  let v := ((FVal.fin false p.gain.toNat (-10)).mul ((fp32 (u32 r (80 + 4 * i))).mul sum).1).1
  let b : FVal := .fin (decide (p.bias.toInt < 0)) p.bias.toInt.natAbs (-10)
  (toFmt (srFmt r) 0 false (v.add 0 b).1).1

/-- The channels that a picture gives: one for a mono output, else three. -/
def srChans (r : Bytes) : List Nat := if srOutC r = 1 then [0] else [0, 1, 2]

/-- One output of the chain: the tensor bytes of a picture of `iw` by `ih` pixels at output size `ow` by `oh`. -/
def chainOut (r grid : Bytes) (p : AugParam) (pic : Pic) (iw ih ow oh : Nat) : Bytes :=
  let px (u v : Nat) : List Nat :=
    let (x, y) := inputAt r grid ow oh p u v
    (srChans r).map fun j => sampleAt pic (srType r) (u8 r 13 / 64) iw ih j x y
  (List.range (srOutC r)).flatMap fun i => (List.range oh).flatMap fun v => (List.range ow).flatMap fun u =>
    natLe (srElem r) (outChan r p i (px u v))

/-- Every line of a picture has the length its input type gives it, and there are `ih` of them (R329). -/
def picOk (r : Bytes) (pic : Pic) : Bool :=
  pic.length == srInH r && pic.all fun l => l.length == lineLen (srType r) (srInW r)

/-- A canary's picture, 256 by 16, from its bytes: a byte a component, two for RAW10 and RAW12 (R335). -/
def canaryPic (r : Bytes) (b : Bytes) : Pic :=
  let n := lineLen (srType r) 256
  let k := if u8 r 3 = 0x2B || u8 r 3 = 0x2C then 2 else 1
  (List.range 16).map fun y => (List.range n).map fun i => leAt b (k * (n * y + i)) k

/-- Bytes of a canary's picture. -/
def canaryBytes (r : Bytes) : Nat := 16 * lineLen (srType r) 256 * (if u8 r 3 = 0x2B || u8 r 3 = 0x2C then 2 else 1)

end Sys2Proof.Machine
end

