-- ==== Sys2Proof/Machine/Intake.lean ====
section
/-! DEFINITION. The sensor intake (R309 to R317, R322 to R339): ports and streams, frame-sets, slots and their headers,
corrupt and missing input, canaries. -/

namespace Sys2Proof.Machine

/-! ## Tables -/

def State.pre (s : State) : Bytes := s.prog.img.pre
def State.portR (s : State) (p : Nat) : Bytes := recAt s.pre 16 16 p
def State.ringR (s : State) (r : Nat) : Bytes := recAt s.pre 144 32 r
/-- COLLECT of a group, ns. -/
def State.collectNs (s : State) (g : Nat) : Nat := 1000 * u32 (recAt s.pre 80 8 g) 0

/-- The intake works: an image with its table is loaded and its clocks run (R452). -/
def State.intakeOn (s : State) : Bool := s.hasIntake && !s.pwr.thermtrip

/-- Bytes that an engine reads for its own use; where the read fails they are open values. -/
def engBytes (s : State) (src : Src) (a n : Nat) : State × Bytes :=
  match engRead s src a n with
  | (s, .ok b) => (s, b)
  | (s, .error _) => (s.useFree n, (List.range n).map fun i => Config.freeByte (s.free + i))

/-! ## Slots (R324, R325) -/

/-- MSI-X vector raised (R485); the function has 64. -/
def State.raiseMsix (s : State) (v : Nat) : State := if v < 64 then s.modCmd fun c => { c with msix := BitVec.ofNat 8 v :: c.msix } else s

/-- A variant takes the next slot of its ring, or is dropped. -/
def State.takeSlot (s : State) (n : Fin 56) (v frameno : Nat) (p : AugParam) : State :=
  let r := s.strR n.val
  match finOf 8 (srRing r) with
  | none => s
  | some k =>
    let g := s.ringR k.val
    let src := strSrc n
    let before := (s.tally (u16 g 2)).count.toNat
    match s.poll src (u16 g 2) 1 with
    | (s, false) =>
      let s := (s.modInt fun i => { i with ring := vmod i.ring k fun x => { x with overrun := satInc x.overrun } }).raise 0x60 src (s.partOf src) n.val
      s.modStr n fun x => { x with dropped := satInc x.dropped }
    | (s, true) =>
      let y := s.int.str[n]
      let slot := (s.int.ring[k]).next.toNat
      let take : SlotTake :=
        { variant := v, slot := slot, session := y.session, dropped := y.dropped, frameno := BitVec.ofNat 64 frameno, flip := p.flip,
          dx := p.dx, dy := p.dy, scale := p.scale, gain := p.gain, bias := p.bias, paramMiss := false, ready := none, capture := 0,
          complete := 0, srcframe := 0 }
      let s := s.modInt fun i => { i with ring := vmod i.ring k fun x => { x with next := BitVec.ofNat 6 ((slot + 1) % u8 g 0) } }
      let s := s.modStr n fun x => { x with dropped := 0, takes := x.takes ++ [take] }
      if u8 g 1 ≤ before && before < u8 g 1 + 1 then
        let s := s.modInt fun i => { i with ring := vmod i.ring k fun x => { x with alarms := satInc x.alarms } }
        (s.sendSignal src (u16 g 4) 1).raiseMsix (u8 g 6)
      else s

/-- The parameters a variant has when its slot is taken: identity, or the generator's. -/
def takeParam (r : Bytes) (v frameno : Nat) : AugParam :=
  if v ≠ 0 && srAug r = 2 then genParam r frameno v else AugParam.identity

/-- Every variant of a stream takes a slot. -/
def State.takeAll (s : State) (n : Fin 56) (frameno : Nat) : State :=
  let r := s.strR n.val
  (List.range (srVariants r)).foldl (fun s v => s.takeSlot n v frameno (takeParam r v frameno)) s

/-- The address of a slot's data (R324). -/
def State.slotAddr (s : State) (n : Fin 56) (slot : Nat) : Nat :=
  let g := s.ringR (srRing (s.strR n.val))
  hubBase + u32 g 12 + slot * u32 g 8

/-! ## How a take ends (R328 to R331) -/

def State.modTake (s : State) (n : Fin 56) (i : Nat) (f : SlotTake → SlotTake) : State :=
  s.modStr n fun x => { x with takes := x.takes.modify i f }

/-- A slot is written ABSENT: its bytes are undefined. `fb`: the sample's capture DT was an arrival stamp (R315). -/
def State.absentTake (s : State) (n : Fin 56) (i : Nat) (fb : Bool) : State :=
  match (s.int.str[n]).takes[i]? with
  | none => s
  | some t =>
    let len := u32 (s.ringR (srRing (s.strR n.val))) 8
    let d := (List.range len).map fun j => Config.freeByte (s.free + j)
    let s := (s.useFree len).engPut (strSrc n) (s.slotAddr n t.slot) d
    let s := s.modTake n i fun t => { t with ready := some (false, true, fb), capture := 0, complete := 0, srcframe := 0 }
    s.modStr n fun x => { x with absent := satInc x.absent }

/-- A slot is written as a SUBSTITUTE, with the stamps of the output it holds, or ABSENT without a last good output. -/
def State.substTake (s : State) (n : Fin 56) (i : Nat) (fb : Bool) : State :=
  match (s.int.str[n]).takes[i]? with
  | none => s
  | some t =>
    match (s.int.str[n]).good.find? fun g => g.variant == t.variant with
    | none => s.absentTake n i fb
    | some g =>
      let (s, b) := engBytes s (strSrc n) (s.goodAddr n t.variant) (srOutBytes (s.strR n.val))
      let s := s.engPut (strSrc n) (s.slotAddr n t.slot) b
      let s := s.modTake n i fun t =>
        { t with ready := some (true, false, g.tsFallback), capture := g.capture, complete := g.complete, srcframe := g.srcframe }
      s.modStr n fun x => { x with subst := satInc x.subst }

/-- A slot receives a good output. -/
def State.goodTake (s : State) (n : Fin 56) (i : Nat) (out : Bytes) (x : Sample) (done : BitVec 64) : State :=
  match (s.int.str[n]).takes[i]? with
  | none => s
  | some t =>
    (s.engPut (strSrc n) (s.slotAddr n t.slot) out).modTake n i fun t =>
      { t with ready := some (false, false, x.tsFallback), capture := x.capture, complete := done, srcframe := x.frameno }

/-- A good output becomes the last good one of its variant (R330). -/
def State.keepGood (s : State) (n : Fin 56) (v : Nat) (out : Bytes) (x : Sample) (done : BitVec 64) : State :=
  let g : LastGood := { variant := v, capture := x.capture, complete := done, srcframe := x.frameno, tsFallback := x.tsFallback }
  (s.engPut (strSrc n) (s.goodAddr n v) out).modStr n fun y => { y with good := y.good.filter (fun h => h.variant != v) ++ [g] }

/-- The takes of a stream that are not yet written, by position. -/
def State.openTakes (s : State) (n : Fin 56) : List Nat :=
  (List.range (s.int.str[n]).takes.length).filter fun i => match (s.int.str[n]).takes[i]? with | some t => t.ready.isNone | none => false

/-- Every variant not yet signalled is written ABSENT (R337). -/
def State.absentAll (s : State) (n : Fin 56) : State :=
  let ls := (List.range (s.int.str[n]).takes.length).filter fun i =>
    match (s.int.str[n]).takes[i]? with | some t => (match t.ready with | some (_, a, _) => !a | none => true) | none => false
  let fb := match (s.int.str[n]).sample with | some x => x.tsFallback | none => false
  (ls.foldl (fun s i => s.absentTake n i fb) s).modStr n fun x => { x with sample := none }

/-! ## Samples (R316, R317, R329) -/

/-- The sample is stale (R316). A capture DT may lie after the completion (R315). -/
def stale (r : Bytes) (capture done : BitVec 64) : Bool :=
  u16 r 8 == 0 || decide (u16 r 8 * 100000 < done.toNat - capture.toNat)

/-- The sample is corrupt (R329). -/
def Sample.bad (x : Sample) (r : Bytes) : Bool :=
  x.corrupt || x.stepped || (srKind r != 3 && !picOk r x.lines)

/-- The grid of a stream for an output size; empty for GRID = 0. -/
def State.gridOf (s : State) (n : Fin 56) (ow oh : Nat) : State × Bytes :=
  let r := s.strR n.val
  if u32 r 28 = 0 then (s, []) else engBytes s (strSrc n) (hubBase + u32 r 28) (8 * (gridDims ow oh).1 * (gridDims ow oh).2)

/-- The parameters that a take holds. -/
def SlotTake.param (t : SlotTake) : AugParam := { flip := t.flip, dx := t.dx, dy := t.dy, scale := t.scale, gain := t.gain, bias := t.bias }

/-- The output of a variant of a sample. -/
def State.outputOf (s : State) (n : Fin 56) (x : Sample) (p : AugParam) : State × Bytes :=
  let r := s.strR n.val
  if srKind r = 3 then
    (s, x.pkts.flatMap fun b => (b ++ List.replicate (u16 r 26) 0).take (u16 r 26))
  else
    let (s, g) := s.gridOf n (srOutW r) (srOutH r)
    (s, chainOut r g p x.lines (srInW r) (srInH r) (srOutW r) (srOutH r))

/-- The parameters of a variant that has no slot: those it would have had. -/
def State.paramOf (s : State) (n : Fin 56) (v : Nat) (x : Sample) : State × AugParam :=
  let r := s.strR n.val
  if v ≠ 0 && srAug r = 1 then
    let ix := 8 * x.frameno.toNat + v
    let (s, b) := engBytes s 0x110 (hubBase + u32 r 116 + 16 * (ix % u16 r 114)) 16
    (s, if u64 b 0 = ix % 2 ^ 64 then recParam b else AugParam.identity)
  else (s, takeParam r v x.frameno.toNat)

/-- A variant of a good sample: its output goes to its slot, if it has one, and to the last-good buffer. -/
def State.goodVariant (n : Fin 56) (x : Sample) (done : BitVec 64) (s : State) (v : Nat) : State :=
  match (s.openTakes n).find? fun i => ((s.int.str[n]).takes[i]?.map (·.variant)) == some v with
  | some i =>
    (match (s.int.str[n]).takes[i]? with
     | some t => let (s, out) := s.outputOf n x t.param; (s.goodTake n i out x done).keepGood n v out x done
     | none => s)
  | none =>
    let (s, p) := s.paramOf n v x
    let (s, out) := s.outputOf n x p
    s.keepGood n v out x done

/-- Every variant of a good sample. -/
def State.goodAll (s : State) (n : Fin 56) (x : Sample) (done : BitVec 64) : State :=
  (List.range (srVariants (s.strR n.val))).foldl (State.goodVariant n x done) s

/-- A port and its streams, or an Ethernet stream, take a state (R337). -/
def State.portState (s : State) (p : PortId) (st : StrState) : State :=
  match p with
  | .csi p =>
    s.modInt fun i =>
      { i with port := vmod i.port p fun x => { x with state := st }
               str := Vector.ofFn fun (n : Fin 56) =>
                 if n.val / 4 = p.val && srKind (s.strR n.val) ≠ 0 then { i.str[n] with state := st } else i.str[n] }
  | .eth n => s.modStr ⟨48 + n.val, by omega⟩ fun x => { x with state := st }

/-- The port whose states a stream follows; none for a decode stream. -/
def portOf (n : Fin 56) : Option PortId :=
  if n.val < 16 then (finOf 4 (n.val / 4)).map .csi else if 48 ≤ n.val then (finOf 8 (n.val - 48)).map .eth else none

def State.setRetry (s : State) (p : PortId) (t : Option (BitVec 64)) : State :=
  match p with
  | .csi p => s.modInt fun i => { i with port := vmod i.port p fun x => { x with retryAt := t } }
  | .eth n => s.modStr ⟨48 + n.val, by omega⟩ fun x => { x with retryAt := t }

/-- The first complete sample that is not corrupt returns its port to ACTIVE (R337). -/
def State.resynced (s : State) (n : Fin 56) : State :=
  match portOf n with
  | some p => if (s.int.str[n]).state = .resync then (s.portState p .active).setRetry p none else s
  | none => s

/-- The open slots of a stream end as SUBSTITUTE, or ABSENT (R329). -/
def State.corruptEnd (s : State) (n : Fin 56) (x : Sample) : State :=
  let s := s.modStr n fun y => { y with corrupt := satInc y.corrupt }
  (s.openTakes n).foldl (fun s i => s.substTake n i x.tsFallback) s

/-- A complete sample is judged and written (R316, R329 to R331), and counted towards the next canary (R335). In Mode P the
pre-processing chain takes it up in its partition's slots. -/
def State.finishSample (s : State) (n : Fin 56) (x : Sample) (done : BitVec 64) : State :=
  let r := s.strR n.val
  let bad := x.bad r
  let s := s.modStr n fun y =>
    { y with sample := none, sinceCanary := if srCanInt r = 0 || srKind r = 3 then 0 else y.sinceCanary + 1 }
  let s := if bad then s else s.resynced n
  if !x.stepped && stale r x.capture done then
    let s := s.modStr n fun y => { y with stale := satInc y.stale, corrupt := if bad then satInc y.corrupt else y.corrupt }
    (s.openTakes n).foldl (fun s i => s.absentTake n i x.tsFallback) s
  else if bad then s.corruptEnd n x
  else s.goodAll n x done

/-! ## Frame-sets (R323) -/

/-- The members of a group. -/
def State.membersOf (s : State) (g : Fin 8) : List (Fin 56) :=
  streams56.filter fun n => srKind (s.strR n.val) ≠ 0 && srGroup (s.strR n.val) = g.val

/-- A frame-set closes: members without a sample receive ABSENT slots. -/
def State.closeSet (s : State) (g : Fin 8) : State :=
  let x := s.int.grp[g]
  let f := x.nextF.toNat
  let s := s.modInt fun i => { i with grp := vmod i.grp g fun y => { y with closeAt := none, joined := [], nextF := y.nextF + 1 } }
  ((s.membersOf g).filter fun n => !x.joined.contains n).foldl (fun s n =>
    let k := (s.int.str[n]).takes.length
    let s := s.takeAll n f
    ((s.openTakes n).filter (k ≤ ·)).foldl (fun s i => s.absentTake n i false) s) s

/-- The frame-set of a group closes if its time has come. -/
def State.closeDue (s : State) (g : Fin 8) : State :=
  match (s.int.grp[g]).closeAt with
  | some t => if t.toNat ≤ s.dtN then s.closeSet g else s
  | none => s

/-- FRAMESET_CLOSE. -/
def execFramesetClose (g : Fin 8) (s : State) : Out := .next (if s.intakeOn then s.closeDue g else s)

/-- A sample of a stream starts: it opens or joins its group's frame-set and takes its slots; a second one in a window
contributes to none. -/
def State.startSample (s : State) (n : Fin 56) (capture : BitVec 64) (fallback : Bool) : State :=
  match finOf 8 (srGroup (s.strR n.val)) with
  | none => s
  | some g =>
    let s := s.closeDue g
    let x := s.int.grp[g]
    let emit := !x.joined.contains n
    let s := s.modInt fun i => { i with grp := vmod i.grp g fun y =>
      { y with closeAt := some (y.closeAt.getD (s.dt + BitVec.ofNat 64 (s.collectNs g.val))), joined := if emit then y.joined ++ [n] else y.joined } }
    let smp : Sample :=
      { frameno := x.nextF, capture := capture, complete := none, tsFallback := fallback, corrupt := false, stepped := false, emit := emit,
        lines := [], pkts := [] }
    let s := s.modStr n fun y => { y with sample := some smp }
    if emit then s.takeAll n x.nextF.toNat else s

def State.modSample (s : State) (n : Fin 56) (f : Sample → Sample) : State := s.modStr n fun y => { y with sample := y.sample.map f }

/-- A sample that is still there when the next one starts: it is complete, or, with no frame-end, it never was: then it is corrupt,
and no completed one (R316, R329, R335). -/
def State.flushSample (s : State) (n : Fin 56) : State :=
  match (s.int.str[n]).sample with
  | none => s
  | some x =>
    match x.complete with
    | some t => s.finishSample n x t
    | none => (s.modStr n fun y => { y with sample := none }).corruptEnd n x

/-- SAMPLE_COMPLETE: in Mode P, in the slots of the partition (R271). -/
def execSampleComplete (n : Fin 56) (s : State) : Out :=
  .next (match (s.int.str[n]).sample with
    | some x => (match x.complete with | some t => if s.intakeOn && s.inShare 0 (s.partOf (strSrc n)) then s.finishSample n x t else s | none => s)
    | none => s)

/-! ## Host parameters (R332) -/

/-- The record of a take is read when its first input line enters the chain. -/
def State.readParam (s : State) (n : Fin 56) (i : Nat) : State :=
  let r := s.strR n.val
  match (s.int.str[n]).takes[i]? with
  | none => s
  | some t =>
    if t.variant = 0 then s
    else
      let ix := 8 * t.frameno.toNat + t.variant
      let (s, b) := engBytes s 0x110 (hubBase + u32 r 116 + 16 * (ix % u16 r 114)) 16
      if u64 b 0 = ix % 2 ^ 64 then
        let p := recParam b
        s.modTake n i fun t => { t with flip := p.flip, dx := p.dx, dy := p.dy, scale := p.scale, gain := p.gain, bias := p.bias }
      else (s.modTake n i fun t => { t with paramMiss := true }).modStr n fun x => { x with pmiss := satInc x.pmiss }

def State.readParams (s : State) (n : Fin 56) : State :=
  if srAug (s.strR n.val) = 1 then (s.openTakes n).foldl (fun s i => s.readParam n i) s else s

/-! ## SLOT_READY (R327, R328) -/

/-- The 64 bytes of a slot header. -/
def headerBytes (n : Fin 56) (t : SlotTake) (sub absent fb : Bool) (dt : BitVec 64) : Bytes :=
  natLe 2 n.val ++ natLe 1 t.variant ++ natLe 1 (b2n sub + 2 * b2n absent + 4 * b2n t.paramMiss + 8 * b2n fb) ++
  natLe 2 t.session.toNat ++ natLe 2 t.dropped.toNat ++ natLe 8 t.frameno.toNat ++ natLe 8 t.capture.toNat ++ natLe 8 t.complete.toNat ++
  natLe 8 dt.toNat ++ natLe 8 t.srcframe.toNat ++ natLe 1 (b2n t.flip) ++ natLe 1 t.dx.toNat ++ natLe 1 t.dy.toNat ++ [0] ++
  natLe 2 t.scale.toNat ++ natLe 2 t.gain.toNat ++ natLe 2 t.bias.toNat ++ List.replicate 6 0

/-- The open slots of a stream that a STOP has put out of service end ABSENT (R327; DEDUCED, log 120). -/
def State.endStopped (s : State) (n : Fin 56) : State :=
  if (s.int.str[n]).state = .off then (s.openTakes n).foldl (fun s i => s.absentTake n i false) s else s

/-- SLOT_READY: the header of the oldest written take of a variant is written, and READY signalled. -/
def execSlotReady (n : Fin 56) (v : Fin 8) (s : State) : Out :=
  .next (if !s.intakeOn then s
    else
      let s := s.endStopped n
      match (s.int.str[n]).takes.find? fun t => t.variant == v.val with
      | none => s
      | some t =>
        match t.ready with
        | none => s
        | some (sub, absent, fb) =>
          let r := s.strR n.val
          let src := strSrc n
          let s := s.engPut src (hubBase + u32 (s.ringR (srRing r)) 16 + 64 * t.slot) (headerBytes n t sub absent fb s.dt)
          (s.modStr n fun x => { x with takes := x.takes.erase t }).sendSignal src (srReady r) 1)

/-! ## CSI-2 (R310, R314, R337) -/

/-- A valid packet after a loss starts a new session (R337). -/
def State.portValid (s : State) (p : PortId) (st : StrState) (mine : List (Fin 56)) (retryMs : Nat) : State :=
  if st = .lost || st = .down then
    let s := mine.foldl (fun s n => (s.clearGood n).modStr n fun x => { x with session := x.session + 1, sample := none }) s
    (s.portState p .resync).setRetry p (some (s.dt + BitVec.ofNat 64 (1000000 * retryMs)))
  else s

/-- Streams in service of a CSI-2 port. -/
def State.csiStreams (s : State) (p : Fin 4) : List (Fin 56) :=
  streams56.filter fun n => n.val / 4 = p.val && n.val < 16 && srKind (s.strR n.val) ≠ 0

/-- A frame-start packet of a stream. -/
def State.frameStart (s : State) (n : Fin 56) (fixedLat : Nat) : State :=
  (s.flushSample n).startSample n (s.dt - BitVec.ofNat 64 fixedLat) false

/-- A line of a stream; one that meets a full buffer truncates its frame (R313), which is corrupt (R329). -/
def State.frameLine (s : State) (n : Fin 56) (px : List Nat) (crcOk full : Bool) : State :=
  match (s.int.str[n]).sample with
  | none => s
  | some x =>
    if x.complete.isSome then s
    else if full then s.modSample n fun x => { x with corrupt := true }
    else
      let s := if x.lines.isEmpty then s.readParams n else s
      s.modSample n fun x => { x with lines := x.lines ++ [px], corrupt := x.corrupt || !crcOk }

/-- CSI2_PACKET. A header whose error cannot be corrected spoils the frames that the port is receiving. -/
def execCsi2Packet (port : Fin 4) (pkt : CsiPacket) (s : State) : Out :=
  let mine := s.csiStreams port
  .next (if !s.intakeOn || (s.int.port[port]).state = .off then s
    else if pkt.ecc = .bad then mine.foldl (fun s n => s.modSample n fun x => { x with corrupt := x.corrupt || x.complete.isNone }) s
    else
      let st := (s.int.port[port]).state
      let s := s.modInt fun i => { i with port := vmod i.port port fun x => { x with lastValid := s.dt } }
      let s := s.portValid (.csi port) st mine (u16 (s.portR port.val) 12)
      let vc := mine.filter fun n => u8 (s.strR n.val) 2 = pkt.vc.val
      match pkt.body with
      | .frameStart => vc.foldl (fun s n => s.frameStart n (u32 (s.portR port.val) 4)) s
      | .frameEnd => vc.foldl (fun s n => s.modSample n fun x => { x with complete := x.complete.or (some s.dt) }) s
      | .line px ok full => (vc.filter fun n => u8 (s.strR n.val) 3 = pkt.dt.toNat).foldl (fun s n => s.frameLine n px ok full) s)

/-! ## Video decode (R311) -/

/-- BSBASE: bits [37:6] of a device-physical address. -/
def bsBase (r : Bytes) : Nat := 64 * u32 r 132

/-- BITSTREAM_DESCRIPTOR: the decoder acquires the next access unit and reads it. -/
def execBitstreamDescriptor (n : Fin 56) (s : State) : Out :=
  let r := s.strR n.val
  .next (if !s.intakeOn || srKind r ≠ 2 || (s.int.str[n]).state ≠ .active then s
    else
      match s.poll 0x111 (u16 r 136) 1 with
      | (s, false) => s
      | (s, true) =>
        let (s, b) := engBytes s 0x111 (bsBase r + 16 * (s.int.str[n]).bsNext) 16
        let (s, d) := engRead s 0x111 (bsBase r + u32 b 8) (u32 b 12)
        let u : DecUnit := { capture := BitVec.ofNat 64 (u64 b 0), stepped := false, readable := d.toOption.isSome }
        s.modStr n fun x => { x with bsNext := (x.bsNext + 1) % u16 r 138, decoding := x.decoding ++ [u] })

/-- DECODE_DONE: the next picture in output order enters the chain complete, with the capture DT of the access unit that coded it
(R311, R317). -/
def execDecodeDone (n : Fin 56) (pic : Picture) (s : State) : Out :=
  .next (match (s.int.str[n]).decoding[pic.unit]? with
    | none => s
    | some u =>
      if !s.intakeOn || (s.int.str[n]).state ≠ .active then s
      else
        let s := (s.flushSample n).modStr n fun x => { x with decoding := x.decoding.eraseIdx pic.unit }
        let s := (s.startSample n u.capture false).readParams n
        s.modSample n fun x =>
          { x with lines := pic.lines, corrupt := !pic.ok || !u.readable, stepped := x.stepped || u.stepped, complete := some s.dt })

/-! ## Ethernet (R312, R315, R486) -/

/-- Big-endian number. -/
def beNat (l : Bytes) : Nat := l.foldl (fun a b => 256 * a + b.toNat) 0

/-- The capture DT of a sample and whether the arrival stamp stands in for its timestamp. -/
def State.ethCapture (s : State) (r payload : Bytes) : BitVec 64 × Bool :=
  let o := u16 r 22
  if o = 0xFFFF || payload.length < o + 10 then (s.dt, true)
  else
    let t := BitVec.ofNat 64 (beNat (sub payload o 6) * 1000000000 + beNat (sub payload (o + 6) 4)) - s.tim.ptpOffset
    if t.toNat + 1000000000 < s.dtN || s.dtN + 1000000 < t.toNat then (s.dt, true) else (t, false)

/-- A datagram of a stream in service; one with a bad checksum is no valid packet, and brings a lost stream nothing (R337). -/
def State.datagram (s : State) (n : Fin 56) (f : EthFrame) : State :=
  let r := s.strR n.val
  let st := (s.int.str[n]).state
  if !f.checksumOk && (st == .lost || st == .down) then s
  else
  let s := if !f.checksumOk then s
    else (s.modStr n fun x => { x with lastValid := s.dt }) |> fun s =>
      match portOf n with | some p => s.portValid p st [n] (u16 s.pre 8) | none => s
  let s := match (s.int.str[n]).sample with | some x => if x.complete.isSome then s.flushSample n else s | none => s
  let s := if (s.int.str[n]).sample.isSome then s
    else let (c, fb) := s.ethCapture r f.payload; s.startSample n c fb
  s.modSample n fun x =>
    let pk := x.pkts ++ [f.payload.take (u16 r 26)]
    { x with pkts := pk, corrupt := x.corrupt || !f.checksumOk || decide (u16 r 26 < f.payload.length),
             complete := if u16 r 24 ≤ pk.length then some s.dt else none }

/-- ETH_FRAME_RX: to an intake stream or to gPTP; every other frame is discarded and counted. -/
def execEthFrameRx (port : Fin 4) (f : EthFrame) (s : State) : Out :=
  .next (if f.gptp then s
    else
      let dest := streams56.find? fun n => 48 ≤ n.val && srKind (s.strR n.val) = 3 && srPort (s.strR n.val) = port.val &&
        u16 (s.strR n.val) 20 = f.dstPort && (s.int.str[n]).state ≠ .off
      match dest with
      | some n => if s.intakeOn && f.udp then s.datagram n f else drop s
      | none => drop s)
where
  drop (s : State) : State := s.modIfc fun i => { i with ethDrop := vmod i.ethDrop port satInc }

/-! ## Loss and return (R337) -/

/-- State, DT of the last valid packet, retry timer, loss time (ns) and retry time (ns) of a port or Ethernet stream. -/
def State.portInfo (s : State) : PortId → StrState × BitVec 64 × Option (BitVec 64) × Nat × Nat
  | .csi p =>
    let x := s.int.port[p]
    let r := s.portR p.val
    (x.state, x.lastValid, x.retryAt, 1000 * u32 r 8, 1000000 * u16 r 12)
  | .eth n =>
    let x := s.int.str[48 + n.val]
    (x.state, x.lastValid, x.retryAt, 1000 * u32 s.pre 4, 1000000 * u16 s.pre 8)

/-- The streams that follow a port. -/
def State.followers (s : State) : PortId → List (Fin 56)
  | .csi p => s.csiStreams p
  | .eth n => [⟨48 + n.val, by omega⟩]

/-- PORT_LOSS_TIMEOUT. -/
def execPortLossTimeout (p : PortId) (s : State) : Out :=
  let (st, last, _, loss, retry) := s.portInfo p
  .next (if !s.intakeOn || !(st = .active || st = .resync) || (s.dt - last).toNat < loss then s
    else
      let s := (s.followers p).foldl State.absentAll s
      (s.portState p .lost).setRetry p (some (s.dt + BitVec.ofNat 64 retry)))

/-- PORT_RETRY_TIMEOUT: DOWN, entered in the aggregated error state. -/
def execPortRetryTimeout (p : PortId) (s : State) : Out :=
  let (st, _, at_, _, _) := s.portInfo p
  .next (match at_ with
    | none => s
    | some t =>
      if !s.intakeOn || !(st = .lost || st = .resync) || s.dtN < t.toNat then s
      else
        let src : Src := match p with | .csi _ => 0x112 | .eth _ => 0x113
        let s := (s.followers p).foldl State.absentAll s
        ((s.portState p .down).setRetry p none).raise 0x60 src (s.partOf src) (match p with | .csi p => p.val | .eth n => 48 + n.val))

/-! ## Canaries (R335) -/

/-- CANARY: the canary frame goes through the stream's chain; a unit that is free checks it at once. -/
def execCanary (n : Fin 56) (s : State) : Out :=
  let r := s.strR n.val
  .next (if !s.intakeOn || !(srKind r = 1 || srKind r = 2) || srCanInt r = 0 || (s.int.str[n]).sinceCanary < srCanInt r then s
    else
      let (s, b) := engBytes s 0x110 (hubBase + u32 r 124) (canaryBytes r)
      let (s, g) := s.gridOf n 256 16
      let out := chainOut r g AugParam.identity (canaryPic r b) 256 16 256 16
      let s := s.engPut 0x110 (hubBase + u32 r 124 + 65536) out
      let s := s.modStr n fun x => { x with sinceCanary := x.sinceCanary - srCanInt r }
      let u : Fin 4 := Fin.ofNat 4 (u8 r 13 / 16)
      if (s.cvu[u]).cur.isNone then s.scanFinish u (canaryScan s.pre n) .clean .clean
      else s.modCvu u fun c => { c with canaries := c.canaries ++ [n] })

end Sys2Proof.Machine
end

