-- ==== Sys2Proof/Machine/Trig.lean ====
section
/-! DEFINITION. Binary32 and binary64 arithmetic of the fusion and planner engines (R340 to R374), with correctly rounded
sine, cosine and arctangent. -/

namespace Sys2Proof.Machine

/-! ## Rounded operations: `d` binary64, `f` binary32 -/

def dAdd (a b : Nat) : Nat := (ieeeAdd 16 a b).1
def dSub (a b : Nat) : Nat := (ieeeSub 16 a b).1
def dMul (a b : Nat) : Nat := (ieeeMul 16 a b).1
def dDiv (a b : Nat) : Nat := (ieeeDiv 16 a b).1
def dNeg (a : Nat) : Nat := (toFmt 16 0 true (fmtVal 16 a).neg).1
def dAbs (a : Nat) : Nat := a % 2 ^ 63
def dSqrt (a : Nat) : Nat := (sqrtFmt 16 0 (fmtVal 16 a)).1
def dLt (a b : Nat) : Bool := (fmtVal 16 a).lt (fmtVal 16 b)
def dLe (a b : Nat) : Bool := (fmtVal 16 a).le (fmtVal 16 b)
def fAdd (a b : Nat) : Nat := (ieeeAdd 10 a b).1
def fSub (a b : Nat) : Nat := (ieeeSub 10 a b).1
def fMul (a b : Nat) : Nat := (ieeeMul 10 a b).1
def fDiv (a b : Nat) : Nat := (ieeeDiv 10 a b).1
def fNeg (a : Nat) : Nat := (toFmt 10 0 true (fmtVal 10 a).neg).1
def fLt (a b : Nat) : Bool := (fmtVal 10 a).lt (fmtVal 10 b)
def fLe (a b : Nat) : Bool := (fmtVal 10 a).le (fmtVal 10 b)
/-- Binary32 to binary64, exact, and back, rounded. -/
def toD (a : Nat) : Nat := ieeeConv 10 16 a
def toF (a : Nat) : Nat := ieeeConv 16 10 a
/-- An integer, and a quotient of integers, rounded once. -/
def dInt (i : Int) : Nat := (toFmt 16 0 true (intVal i)).1
def dQuot (i : Int) (n : Nat) : Nat := (divFmt 16 0 true (intVal i) (intVal n)).1
def fQuot (i : Int) (n : Nat) : Nat := (divFmt 10 0 true (intVal i) (intVal n)).1
/-- 2π, rounded once to a format. -/
def twoPi (f : Nat) : Nat := (roundMag f 0 true false (2 * fxPi.toNat) (-fxP) true).1

/-- `n / 2^k` rounded to the nearest integer, ties to even. -/
def roundShift (neg : Bool) (m : Nat) (e : Int) : Int :=
  let n := (roundAt 0 neg m e false 0).1
  if neg then -(n : Int) else n

/-- A binary64 value rounded to the nearest integer, ties to even. A NaN or an infinity has no integer: an open value. -/
def dRound (a : Nat) : Int :=
  match fmtVal 16 a with
  | .fin s m e => roundShift s m e
  | _ => sgn 64 (Config.undecidedRounding 9 0 a).toNat

/-- A value rounded to the nearest integer, at most `cap`: an infinity above 0 gives `cap`. -/
def dRoundTo (cap : Int) (a : Nat) : Int := match fmtVal 16 a with | .inf false => cap | _ => min cap (dRound a)

/-- The floor of `a * 2^k`; an infinity lies beyond every cell, a NaN has an open value. `f` is the format. -/
def floorOf (f a : Nat) (k : Int) : Int :=
  match fmtVal f a with
  | .fin s m e => floorScaled s m e k
  | .inf s => if s then -(2 ^ 2000) else 2 ^ 2000
  | _ => sgn 64 (Config.undecidedRounding 10 f a).toNat

/-! ## Sine and cosine -/

/-- The terms of arctan(1/k) with 1,400 fractional bits, from the power `pw` on. -/
def atanInv (k : Nat) : Nat → Bool → Nat → Nat → Int
  | 0, _, _, _ => 0
  | f + 1, neg, n, pw => (if neg then -((pw / n : Nat) : Int) else ((pw / n : Nat) : Int)) + atanInv k f (!neg) (n + 2) (pw / (k * k))

/-- π with 1,400 fractional bits: 16 arctan(1/5) - 4 arctan(1/239). -/
def bigPi : Int := 16 * atanInv 5 310 false 1 (2 ^ 1400 / 5) - 4 * atanInv 239 100 false 1 (2 ^ 1400 / 239)

/-- An angle in fixed point, less the whole turns of one that is not small. -/
def fxAngleOf (neg : Bool) (m : Nat) (e : Int) : Int :=
  if (Nat.log2 m : Int) + e < 4 then floorScaled neg m e fxP
  else floorScaled neg m e 1400 % (2 * bigPi) / (2 : Int) ^ (1400 - fxP)

/-- Terms `(-1)^i t^(k+2i) / (k+2i)!`, the first being `term`. -/
def trigAux (t2 : Nat) : Nat → Bool → Nat → Nat → Int
  | 0, _, _, _ => 0
  | n + 1, neg, k, term =>
    (if neg then -(term : Int) else term) + trigAux t2 n (!neg) (k + 2) (term * t2 / fxOne / ((k + 1) * (k + 2)))

def fxSin (r : Nat) : Int := trigAux (r * r / fxOne) 60 false 1 r
def fxCos (r : Nat) : Int := trigAux (r * r / fxOne) 60 false 0 fxOne

/-- Sine and cosine of a fixed-point angle. -/
def fxSinCos (x : Int) : Int × Int :=
  let q := (2 * x + fxPi / 2).fdiv fxPi
  let r := x - q * fxPi / 2
  let sr : Int := if r < 0 then -fxSin r.natAbs else fxSin r.natAbs
  let cr := fxCos r.natAbs
  match (q % 4).toNat with
  | 0 => (sr, cr)
  | 1 => (cr, -sr)
  | 2 => (-sr, -cr)
  | _ => (-cr, sr)

/-- A fixed-point enclosure of a nonzero value, rounded. -/
def roundFx (fn f x0 : Nat) (v : Int) : Nat :=
  (decideRound fn f 0 x0 (roundEnc f 0 true (decide (v < 0)) (v.natAbs - fxSlack) (v.natAbs + fxSlack) (-fxP))).1

/-- sin x, correctly rounded. -/
def sinOf (f x : Nat) : Nat :=
  match fmtVal f x with
  | .fin s m e =>
    if m = 0 || (Nat.log2 m : Int) + e < -30 then x
    else roundFx 5 f x (fxSinCos (fxAngleOf s m e)).1
  | _ => fmtNan f

/-- cos x, correctly rounded. -/
def cosOf (f x : Nat) : Nat :=
  match fmtVal f x with
  | .fin s m e =>
    if m = 0 || (Nat.log2 m : Int) + e < -30 then (roundMag f 0 true false 1 0 false).1
    else roundFx 6 f x (fxSinCos (fxAngleOf s m e)).2
  | _ => fmtNan f

def dSin (x : Nat) : Nat := sinOf 16 x
def dCos (x : Nat) : Nat := cosOf 16 x

/-! ## Arctangent of a quotient, binary64 -/

/-- tan of half the angle whose tangent is `t`. -/
def fxHalf (t : Nat) : Nat := t * fxOne / (fxOne + isqrt (fxOne * fxOne + t * t))

/-- arctan of a fixed-point number of at most 1. -/
def fxAtan (t : Nat) : Int := 8 * fxAtanSmall (fxHalf (fxHalf (fxHalf t)))

/-- The angle of the point with magnitudes `x` and `y`, in the first quadrant. -/
def fxAngle (ym : Nat) (ye : Int) (xm : Nat) (xe : Int) : Int :=
  let q := min ye xe
  let y := ym * 2 ^ (ye - q).toNat
  let x := xm * 2 ^ (xe - q).toNat
  if y ≤ x then fxAtan (y * fxOne / x) else fxPi / 2 - fxAtan (x * fxOne / y)

/-- A magnitude of k/4 π, rounded, with a sign. -/
def quarterPi (k : Nat) (neg : Bool) : Nat :=
  if k = 0 then fmtSign 16 neg else (roundMag 16 0 true neg ((k : Int) * fxPi).toNat (-fxP - 2) true).1

/-- atan2(y, x), correctly rounded, with the special cases of IEEE 754. -/
def dAtan2 (y x : Nat) : Nat :=
  match fmtVal 16 y, fmtVal 16 x with
  | .nan, _ => fmtNan 16
  | _, .nan => fmtNan 16
  | .inf s, .inf t => quarterPi (if t then 3 else 1) s
  | .inf s, _ => quarterPi 2 s
  | .fin s _ _, .inf t => quarterPi (if t then 4 else 0) s
  | .fin s ym ye, .fin t xm xe =>
    if ym = 0 then quarterPi (if t then 4 else 0) s
    else if xm = 0 then quarterPi 2 s
    else
      let far := (Nat.log2 xm : Int) + xe - ((Nat.log2 ym : Int) + ye)
      if 100 < far && !t then
        let (q, g, st) := divMag ym ye xm xe
        (roundMag 16 0 true s q g st).1
      else
        let a := fxAngle ym ye xm xe
        let v := if t then fxPi - a else a
        (decideRound 7 16 0 (y * 2 ^ 64 + x) (roundEnc 16 0 true s (v.natAbs - fxSlack) (v.natAbs + fxSlack) (-fxP))).1

/-- An angle as a heading in units of 1/n turn: n × a / 2π in binary64, rounded to the nearest integer, modulo n. -/
def headingOf (n a : Nat) : Nat := (dRound (dDiv (dMul (dInt n) a) (twoPi 16)) % (n : Int)).toNat

end Sys2Proof.Machine
end

