-- ==== Sys2Proof/Machine/Fusion.lean ====
section
/-! DEFINITION. The fusion engine (R340 to R366): ego-motion, inputs, alignment, tracks, grids, assured class, output. -/

namespace Sys2Proof.Machine

/-! ## The fusion table (R364) -/

def State.fusT (s : State) : Bytes := s.prog.img.fus
def State.fusR (s : State) (i : Nat) : Bytes := fusInRec s.fusT i

/-- The fusion engine works: the program runs, has a fusion table, and the hub's clocks run (R452). -/
def State.fusionOn (s : State) : Bool := s.hasFusion && s.progOn && !s.pwr.thermtrip

/-! ## Ego-motion (R344 to R347) -/

/-- A wheel frame and an IMU sample have both come within EGO_TIMEOUT (R347). -/
def State.egoNow (s : State) : Bool :=
  let ns := 1000000 * u16 s.fusT 22
  let within (t : BitVec 64) : Bool := decide ((s.dt - t).toNat ≤ ns)
  (match s.fus.wheel with | (t, _) :: _ => within t | [] => false) && (match s.fus.imuDt with | some t => within t | none => false)

def State.noteEgo (s : State) : State := s.modFus fun f => { f with egoValid := s.egoNow }

/-- The speed of a wheel frame: WSCALE times the sum of the four speeds over 4, rounded once. -/
def wheelSpeed (fus : Bytes) (d : Bytes) : Nat :=
  let sum := ((List.range 4).map fun i => u16 d (u8 fus (28 + i))).foldl (· + ·) 0
  (ieeeRound 16 ((fmtVal 10 (u32 fus 32)).mul (.fin false sum (-2)))).1

/-- WHEEL_FRAME. -/
def execWheelFrame (c : Fin 4) (f : CanFrame) (s : State) : Out :=
  let t := s.fusT
  let fits := (List.range 4).all fun i => u8 t (28 + i) + 2 ≤ f.data.length
  .next (if !s.fusionOn || c.val ≠ u8 t 20 || !(s.ifc.can[c]).enabled || f.id ≠ u32 t 24 || f.ext ≠ (u8 t 21).testBit 0 || !fits then s
    else
      (s.modFus fun x => { x with wheel := (s.dt, BitVec.ofNat 64 (wheelSpeed t f.data)) :: x.wheel }).noteEgo)

/-- A yaw-rate sample: GSCALE g - GBIAS, exact, rounded once. -/
def yawRate (fus : Bytes) (g : Int) : Nat :=
  let p := (fmtVal 10 (u32 fus 44)).mul (intVal g)
  let r := p.1.sub 0 (fmtVal 10 (u32 fus 48))
  (ieeeRound 16 (r.1, p.2 || r.2)).1

/-- The signed value at IMU_GZ_OFF of a read; an open value where it lies past the bytes read. -/
def gyroOf (fus b : Bytes) (free : Nat) : Int :=
  let o := u8 fus 40
  let d := sub b o 2
  if d.length < 2 then sgn 16 (Config.freeWord free).toNat
  else sgn 16 (leNat (if (u8 fus 41).testBit 0 then d.reverse else d))

/-- IMU_READ: chip select rises. -/
def execImuRead (bytes : List Byte) (s : State) : Out :=
  let t := s.fusT
  let period := 1000 * u16 t 36
  .next (if !s.fusionOn || bytes.length ≠ u8 t 39 || s.dtN < s.fus.imuNext.toNat || period = 0 then s
    else
      let y := BitVec.ofNat 64 (yawRate t (gyroOf t bytes s.free))
      let k := (s.dtN - s.fus.imuNext.toNat) / period + 1
      ((s.useFree 1).modFus fun x =>
        { x with yaw := x.yaw ++ [(s.dt, y)], imuDt := some s.dt, imuNext := x.imuNext + BitVec.ofNat 64 (k * period) }).noteEgo)

/-- EGO_TIMEOUT: EGO_VALID falls whether or not the program still runs (R347). -/
def execEgoTimeout (s : State) : Out := .next (if s.fus.egoValid && !s.egoNow && !s.pwr.thermtrip then s.modFus fun f => { f with egoValid := false } else s)

/-- The pose and motion at the start: the origin at rest. -/
def EgoEntry.origin : EgoEntry := { t := 0, x := 0, y := 0, psi := 0, v := 0, om := 0 }

/-- One step of R345 of a given length in seconds (binary64). -/
def egoAdvance (e : EgoEntry) (v om len : Nat) : Nat × Nat × Nat :=
  let psi := e.psi.toNat
  let mid := dAdd psi (dMul om (dDiv len (dInt 2)))
  let d := dMul v len
  (dAdd e.x.toNat (dMul d (dCos mid)), dAdd e.y.toNat (dMul d (dSin mid)), dAdd psi (dMul om len))

/-- The mean of the samples, in the order of their completion. -/
def dMean (l : List Nat) : Nat := dDiv (l.foldl dAdd 0) (dInt l.length)

/-- EGO_STEP. -/
def execEgoStep (s : State) : Out :=
  let f := s.fus
  let tk := f.egoNext
  .next (if !s.fusionOn || s.dtN < tk.toNat then s
    else
      let last := f.hist.headD EgoEntry.origin
      let seen := f.wheel.filter fun w => w.1.toNat < tk.toNat
      let v := match seen with | w :: _ => w.2.toNat | [] => 0
      let ys := (f.yaw.filter fun y => y.1.toNat ≤ tk.toNat).map (·.2.toNat)
      let om := if ys.isEmpty then last.om.toNat else dMean ys
      let (x, y, psi) := egoAdvance last v om (dQuot 1 2000)
      let w (n : Nat) : BitVec 64 := BitVec.ofNat 64 n
      let e : EgoEntry := { t := tk, x := w x, y := w y, psi := w psi, v := w v, om := w om }
      s.modFus fun f =>
        { f with egoNext := tk + 500000, hist := (e :: f.hist).take 2048,
                 wheel := (f.wheel.filter fun w => tk.toNat ≤ w.1.toNat) ++ seen.take 1,
                 yaw := f.yaw.filter fun y => tk.toNat < y.1.toNat })

/-- A pose: X, Y, ψ in binary64. -/
structure Pose where
  x : Nat
  y : Nat
  psi : Nat
deriving DecidableEq, Repr

def EgoEntry.pose (e : EgoEntry) : Pose := { x := e.x.toNat, y := e.y.toNat, psi := e.psi.toNat }

/-- The pose between two entries of the history, newest first (R346). -/
def poseIn (t : Nat) : EgoEntry → List EgoEntry → Pose
  | e, [] => e.pose
  | e, p :: ps =>
    if p.t.toNat ≤ t then
      let w := dDiv (dInt (t - p.t.toNat)) (dInt (e.t.toNat - p.t.toNat))
      let mix (a b : BitVec 64) : Nat := dAdd a.toNat (dMul w (dSub b.toNat a.toNat))
      { x := mix p.x e.x, y := mix p.y e.y, psi := mix p.psi e.psi }
    else poseIn t p ps

/-- The pose at a DT (R346). -/
def FusSt.poseAt (f : FusSt) (t : Nat) : Pose :=
  match f.hist with
  | [] => EgoEntry.origin.pose
  | e :: es =>
    if e.t.toNat ≤ t then
      let (x, y, psi) := egoAdvance e e.v.toNat e.om.toNat (dQuot (t - e.t.toNat) 1000000000)
      { x := x, y := y, psi := psi }
    else poseIn t e es

/-! ## Alignment (R349) -/

/-- The rotation and displacement from one pose's frame to another's: cos dψ, sin dψ, dψ, dx, dy. -/
structure Frame2 where
  c : Nat
  n : Nat
  psi : Nat
  dx : Nat
  dy : Nat
deriving DecidableEq, Repr

/-- Step 4 of R349, from the frame of `a` to that of `o`. -/
def frameTo (a o : Pose) : Frame2 :=
  let psi := dSub a.psi o.psi
  let co := dCos o.psi
  let so := dSin o.psi
  let ex := dSub a.x o.x
  let ey := dSub a.y o.y
  { c := dCos psi, n := dSin psi, psi := psi, dx := dAdd (dMul co ex) (dMul so ey), dy := dAdd (dMul (dNeg so) ex) (dMul co ey) }

/-- A binary64 position in the new frame. -/
def Frame2.map (f : Frame2) (p0 p1 : Nat) : Nat × Nat :=
  (dAdd (dSub (dMul f.c p0) (dMul f.n p1)) f.dx, dAdd (dAdd (dMul f.n p0) (dMul f.c p1)) f.dy)

/-- The inverse: the position in the old frame. -/
def Frame2.unmap (f : Frame2) (x y : Nat) : Nat × Nat :=
  let a := dSub x f.dx
  let b := dSub y f.dy
  (dAdd (dMul f.c a) (dMul f.n b), dAdd (dMul (dNeg f.n) a) (dMul f.c b))

/-- A binary32 position in the new frame, rounded once to binary32. -/
def Frame2.mapF (f : Frame2) (p0 p1 : Nat) : Nat × Nat := let (x, y) := f.map (toD p0) (toD p1); (toF x, toF y)

/-- A velocity turned by the angle of the frames. -/
def Frame2.turn (f : Frame2) (v0 v1 : Nat) : Nat × Nat :=
  let a := toD v0
  let b := toD v1
  (toF (dSub (dMul f.c a) (dMul f.n b)), toF (dAdd (dMul f.n a) (dMul f.c b)))

/-- Row `r` of a transform applied to a position (step 3). -/
def rowOf (m : List Nat) (r : Nat) (q0 q1 q2 : Nat) : Nat :=
  let e (i : Nat) : Nat := (m[4 * r + i]?).getD 0
  fAdd (fAdd (fAdd (fMul (e 0) q0) (fMul (e 1) q1)) (fMul (e 2) q2)) (e 3)

/-- A position in vehicle axes at its capture. -/
def toVehicle (m : List Nat) (q0 q1 q2 : Nat) : Nat × Nat × Nat := (rowOf m 0 q0 q1 q2, rowOf m 1 q0 q1 q2, rowOf m 2 q0 q1 q2)

/-- Seconds between two DTs. -/
def secondsF (a b : Nat) : Nat := fQuot ((a : Int) - b) 1000000000

/-! ## Inputs (R341 to R343) -/

/-- What one input brings to a cycle: kind, contribution, transform and intrinsics, capture DT and content. -/
structure FusVal where
  i : Nat
  kind : Nat
  l : Int
  m : List Nat
  k : List Nat
  zmin : Nat
  zmax : Nat
  cap : Nat
  hdr : Bytes
  data : Bytes
deriving DecidableEq, Repr

/-- Homes and buffers of an input: NBUF, READY, FREE, header and content addresses of buffer `b`, BUFBYTES. -/
structure FusRing where
  nbuf : Nat
  ready : Nat
  free : Nat
  hdr : Nat → Nat
  data : Nat → Nat
  bytes : Nat

def State.fusRing (s : State) (i : Nat) : FusRing :=
  let r := s.fusR i
  if u8 r 0 = 2 then
    let st := s.strR (u8 r 6)
    let g := s.ringR (srRing st)
    { nbuf := u8 g 0, ready := u16 st 120, free := u16 g 2, hdr := fun b => hubBase + u32 g 16 + 64 * b,
      data := fun b => hubBase + u32 g 12 + u32 g 8 * b, bytes := u32 g 8 }
  else
    let n := u32 r 12
    { nbuf := u8 r 1, ready := u16 r 2, free := u16 r 4, hdr := fun b => hubBase + u32 r 8 + (64 + n) * b,
      data := fun b => hubBase + u32 r 8 + (64 + n) * b + 64, bytes := n }

/-- ABSENT, SUBSTITUTE and CAPTURE_DT of a header, by the kind of its input. -/
def hdrAbsent (kind : Nat) (h : Bytes) : Bool := if kind = 2 then (u8 h 3).testBit 1 else (u8 h 10).testBit 0
def hdrSubst (kind : Nat) (h : Bytes) : Bool := if kind = 2 then (u8 h 3).testBit 0 else (u8 h 10).testBit 1
def hdrCapture (kind : Nat) (h : Bytes) : Nat := if kind = 2 then u64 h 16 else u64 h 0

/-- Polls granted one after another, at most `k` of them; their number. -/
def State.drainPolls (src : Src) (home : Nat) : Nat → State → State × Nat
  | 0, s => (s, 0)
  | k + 1, s =>
    match s.poll src home 1 with
    | (s, false) => (s, 0)
    | (s, true) => let (s, n) := State.drainPolls src home k s; (s, n + 1)

/-- The newest of the granted buffers, in ring order, whose ABSENT flag is 0, with its header. -/
def newestOf (kind : Nat) (hdr : Nat → Nat) : List Nat → State → Option (Nat × Bytes) → State × Option (Nat × Bytes)
  | [], s, r => (s, r)
  | b :: bs, s, r =>
    let (s, h) := engBytes s 0x120 (hdr b) 64
    newestOf kind hdr bs s (if hdrAbsent kind h then r else some (b, h))

def State.modIn (s : State) (i : Nat) (f : FusIn → FusIn) : State := s.modFus fun x => { x with inp := vmodN x.inp i f }

/-- One input is drained (R342); whether it adopted a buffer that is not a substitute. -/
def State.drainInput (s : State) (i : Nat) : State :=
  let r := s.fusR i
  let kind := u8 r 0
  if kind = 0 then s
  else
    let g := s.fusRing i
    let x := vgetN s.fus.inp i { next := 0, held := none, fresh := false, missed := 0, incon := 0, streak := Vector.replicate 16 0, age := 0 }
    let (s, n) := State.drainPolls 0x120 g.ready g.nbuf s
    let bufs := (List.range n).map fun j => if g.nbuf = 0 then 0 else (x.next + j) % g.nbuf
    let (s, pick) := newestOf kind g.hdr bufs s none
    let hold := hubBase + u32 r 16
    let s :=
      match pick with
      | none => s.modIn i fun x => { x with fresh := false }
      | some (b, h) =>
        let (s, d) := engBytes s 0x120 (g.data b) g.bytes
        let s := s.engPut 0x120 hold (h ++ d)
        s.modIn i fun x => { x with held := some (BitVec.ofNat 64 (hdrCapture kind h)), fresh := !hdrSubst kind h }
    let s := bufs.foldl (fun s _ => s.sendSignal 0x120 g.free 1) s
    s.modIn i fun x =>
      { x with next := if g.nbuf = 0 then 0 else (x.next + n) % g.nbuf, missed := if x.fresh then 0 else satInc x.missed }

/-- The held value of an input. -/
def State.fusVal (s : State) (i : Nat) : State × Option FusVal :=
  let r := s.fusR i
  match (vgetN (s.fus.inp.map (·.held)) i none) with
  | none => (s, none)
  | some cap =>
    if u8 r 0 = 0 then (s, none)
    else
      let n := (s.fusRing i).bytes
      let (s, b) := engBytes s 0x120 (hubBase + u32 r 16) (64 + n)
      let words (l : List (Nat × List (BitVec 32))) (c : Nat) : List Nat :=
        match l.find? fun e => e.1 == i with
        | some e => e.2.map (·.toNat)
        | none => (List.range c).map fun j => (Config.freeWord (s.free + j)).toNat % 2 ^ 32
      (s.useFree 16, some { i := i, kind := u8 r 0, l := sgn 8 (u8 r 24), m := words s.fus.calT 16, k := words s.fus.calK 4, zmin := u32 r 28,
                            zmax := u32 r 32, cap := cap.toNat, hdr := sub b 0 64, data := b.drop 64 })

/-- The held values of all inputs, ascending. -/
def State.fusVals (s : State) : State × List FusVal :=
  (List.range 32).foldl (fun (a : State × List FusVal) i =>
    match a.1.fusVal i with
    | (s, some v) => (s, a.2 ++ [v])
    | (s, none) => (s, a.2)) (s, [])

/-! ## Objects and points -/

/-- An object mapped to the output frame. -/
structure Obj where
  x : Nat
  y : Nat
  vx : Nat
  vy : Nat
  heading : Nat
  length : Nat
  width : Nat
  exist : Nat
  cls : Nat
deriving DecidableEq, Repr

/-- An object record mapped by R349. -/
def mapObject (v : FusVal) (fr : Frame2) (delta : Nat) (o : Bytes) : Obj :=
  let p (i : Nat) : Nat := u32 o (4 * i)
  let k (i : Nat) : Nat := (v.k[i]?).getD 0
  let vx := u32 o 12
  let vy := u32 o 16
  let q : Nat × Nat × Nat :=
    if (u8 o 28).testBit 0 then (fDiv (fMul (fSub (p 0) (k 2)) (p 2)) (k 0), fDiv (fMul (fSub (p 1) (k 3)) (p 2)) (k 1), p 2)
    else (p 0, p 1, p 2)
  let (x, y, _) := toVehicle v.m (fAdd q.1 (fMul vx delta)) (fAdd q.2.1 (fMul vy delta)) (fAdd q.2.2 0)
  let (x, y) := fr.mapF x y
  let e (i : Nat) : Nat := (v.m[i]?).getD 0
  let (wx, wy) := fr.turn (fAdd (fMul (e 0) vx) (fMul (e 1) vy)) (fAdd (fMul (e 4) vx) (fMul (e 5) vy))
  let a := dAdd (dAtan2 (toD (e 4)) (toD (e 0))) fr.psi
  let h := dAdd (dInt (u16 o 20)) (dDiv (dMul (dInt 65536) a) (twoPi 16))
  { x := x, y := y, vx := wx, vy := wy, heading := (dRound h % 65536).toNat, length := u16 o 22, width := u16 o 24, exist := u8 o 26,
    cls := u8 o 27 }

/-- The mapped objects of a value; none for other kinds. -/
def FusSt.objects (f : FusSt) (tout : Nat) (v : FusVal) : List Obj :=
  if v.kind ≠ 1 then []
  else
    let fr := frameTo (f.poseAt v.cap) (f.poseAt tout)
    let n := min (min (u16 v.hdr 8) 1024) (v.data.length / 32)
    (recs v.data 0 32 n).map (mapObject v fr (secondsF tout v.cap))

/-- The cell of a binary32 position (R350). -/
def cellOf (f x y : Nat) : Option (Nat × Nat) :=
  let i := floorOf f x 2 + 128
  let j := floorOf f y 2 + 128
  if 0 ≤ i && i < 256 && 0 ≤ j && j < 256 then some (i.toNat, j.toNat) else none

/-- A cell of a raster, by its byte (R350). -/
def cellIx (i j : Nat) : Nat := 256 * j + i

/-- The cells with a point at a height between ZMIN and ZMAX. -/
def FusSt.pointCells (f : FusSt) (tout : Nat) (v : FusVal) : List Nat :=
  (recs v.data 0 16 (v.data.length / 16)).filterMap fun p =>
    if leNat p = 0 then none
    else
      let (x, y, z) := toVehicle v.m (u32 p 0) (u32 p 4) (u32 p 8)
      let fr := frameTo (f.poseAt (v.cap + 1000 * leAt p 12 3)) (f.poseAt tout)
      let (x, y) := fr.mapF x y
      if fLe v.zmin z && fLe z v.zmax then (cellOf 10 x y).map fun c => cellIx c.1 c.2 else none

/-! ## The grid (R350 to R353) -/

/-- Coordinate of the centre of cell `i`: (2 i - 255) / 8 m. -/
def centre (f i : Nat) : Nat := if f = 16 then dQuot (2 * i - 255) 8 else fQuot (2 * i - 255) 8

/-- The contribution of a points or evidence input to a cell (R351). -/
def FusSt.contribution (f : FusSt) (tout : Nat) (v : FusVal) : Nat → Nat → Int :=
  if v.kind = 3 then
    let fr := frameTo (f.poseAt v.cap) (f.poseAt tout)
    fun i j =>
      let (x, y) := fr.unmap (centre 16 i) (centre 16 j)
      match cellOf 16 x y with
      | some (a, b) => sgn 8 (u8 v.data (cellIx a b))
      | none => 0
  else if v.kind = 2 then
    let cells := f.pointCells tout v
    fun i j => if cells.contains (cellIx i j) then v.l else 0
  else fun _ _ => 0

def clamp127 (v : Int) : Int := max (-127) (min 127 v)

/-- A track or object as the footprint test of R353 sees it. -/
structure Foot where
  x : Nat
  y : Nat
  vx : Nat
  vy : Nat
  c : Nat
  n : Nat
  hl : Nat
  hw : Nat
deriving DecidableEq, Repr

/-- The quantities of R353 that do not depend on the cell, with sine and cosine of the heading in binary32. -/
def footOf (x y vx vy heading length width : Nat) : Foot :=
  let h := fDiv (fMul (twoPi 10) (fQuot heading 1)) (fQuot 65536 1)
  { x := x, y := y, vx := vx, vy := vy, c := cosOf 10 h, n := sinOf 10 h, hl := fDiv (fQuot length 1) (fQuot 200 1),
    hw := fDiv (fQuot width 1) (fQuot 200 1) }

def fAbs (a : Nat) : Nat := a % 2 ^ 31

/-- The footprint covers a cell at slice `k` (R353). -/
def Foot.covers (t : Foot) (k i j : Nat) : Bool :=
  let q := fQuot k 4
  let a := fSub (centre 10 i) (fAdd t.x (fMul t.vx q))
  let b := fSub (centre 10 j) (fAdd t.y (fMul t.vy q))
  fLe (fAbs (fAdd (fMul a t.c) (fMul b t.n))) t.hl && fLe (fAbs (fSub (fMul b t.c) (fMul a t.n))) t.hw

def Obj.foot (o : Obj) : Foot := footOf o.x o.y o.vx o.vy o.heading o.length o.width
def Track.foot (t : Track) : Foot := footOf t.x.toNat t.y.toNat t.vx.toNat t.vy.toNat t.heading.toNat t.length.toNat t.width.toNat

/-! ## Tracks (R352) -/

/-- The tracks and the numbers that a cycle changes with them. -/
structure TrackSt where
  tracks : List (Nat × Track)
  nextId : BitVec 32
  discard : BitVec 16
deriving DecidableEq, Repr

/-- A track at the start of a cycle. -/
def Track.predict (fr : Frame2) (delta : Nat) (t : Track) : Track :=
  let (x, y) := fr.mapF (fAdd t.x.toNat (fMul t.vx.toNat delta)) (fAdd t.y.toNat (fMul t.vy.toNat delta))
  { t with x := BitVec.ofNat 32 x, y := BitVec.ofNat 32 y, age := t.age + 1, sensors := 0 }

def sqDist (x y : Nat) (t : Track) : Nat :=
  let dx := fSub t.x.toNat x
  let dy := fSub t.y.toNat y
  fAdd (fMul dx dx) (fMul dy dy)

/-- The nearest track that has not been updated in this cycle, within GATE; the lowest slot on a tie. -/
def nearest (gate x y : Nat) (ts : List (Nat × Track)) : Option Nat :=
  (ts.foldl (fun (b : Option (Nat × Nat)) e =>
    let d := sqDist x y e.2
    if e.2.sensors.toNat != 0 || !fLe d (fMul gate gate) then b
    else match b with | none => some (e.1, d) | some (_, d0) => if fLt d d0 then some (e.1, d) else b) none).map (·.1)

/-- An object updates a track. -/
def Track.update (fus : Bytes) (i : Nat) (o : Obj) (t : Track) : Track :=
  let mix (g : Nat) (a : BitVec 32) (m : Nat) : BitVec 32 := BitVec.ofNat 32 (fAdd a.toNat (fMul g (fSub m a.toNat)))
  let al := u32 fus 56
  let be := u32 fus 60
  let e := t.exist.toNat
  { t with x := mix al t.x o.x, y := mix al t.y o.y, vx := mix be t.vx o.vx, vy := mix be t.vy o.vy,
           heading := BitVec.ofNat 16 o.heading, length := BitVec.ofNat 16 o.length, width := BitVec.ofNat 16 o.width,
           cls := BitVec.ofNat 8 o.cls, exist := BitVec.ofNat 8 (e + (255 - e) * u8 fus 64 / 256), age := 0,
           sensors := t.sensors ||| (1 : BitVec 32) <<< i }

def Obj.track (i : Nat) (o : Obj) (id : BitVec 32) : Track :=
  { id := id, x := BitVec.ofNat 32 o.x, y := BitVec.ofNat 32 o.y, vx := BitVec.ofNat 32 o.vx, vy := BitVec.ofNat 32 o.vy,
    heading := BitVec.ofNat 16 o.heading, length := BitVec.ofNat 16 o.length, width := BitVec.ofNat 16 o.width,
    exist := BitVec.ofNat 8 o.exist, cls := BitVec.ofNat 8 o.cls, sensors := (1 : BitVec 32) <<< i, age := 0 }

/-- The next track ID; 0 is skipped. -/
def idAfter (d : BitVec 32) : BitVec 32 := if d = 0xFFFFFFFF then 1 else d + 1

/-- Inserts a track at the lowest empty slot, from slot `k` on. -/
def insertTrack (t : Track) : Nat → List (Nat × Track) → List (Nat × Track)
  | k, [] => [(k, t)]
  | k, (a, b) :: l => if k < a then (k, t) :: (a, b) :: l else (a, b) :: insertTrack t (a + 1) l

/-- One object meets the tracks. -/
def TrackSt.object (fus : Bytes) (i : Nat) (s : TrackSt) (o : Obj) : TrackSt :=
  match nearest (u32 fus 52) o.x o.y s.tracks with
  | some k => { s with tracks := s.tracks.map fun e => if e.1 = k then (e.1, e.2.update fus i o) else e }
  | none =>
    if s.tracks.length < 2048 then { s with tracks := insertTrack (o.track i s.nextId) 0 s.tracks, nextId := idAfter s.nextId }
    else { s with discard := satInc s.discard }

/-- The end of a cycle for the tracks that nothing has updated. -/
def fadeTracks (fus : Bytes) (ts : List (Nat × Track)) : List (Nat × Track) :=
  ts.filterMap fun e =>
    if e.2.sensors ≠ 0 then some e
    else
      let x := e.2.exist.toNat * u8 fus 65 / 256
      if x = 0 || u8 fus 66 ≤ e.2.age.toNat then none else some (e.1, { e.2 with exist := BitVec.ofNat 8 x })

/-- The tracks after a cycle. -/
def FusSt.trackCycle (f : FusSt) (fus : Bytes) (tout : Nat) (objs : List (Nat × List Obj)) : TrackSt :=
  let fr := frameTo (f.poseAt f.tprev.toNat) (f.poseAt tout)
  let delta := secondsF tout f.tprev.toNat
  let st : TrackSt := { tracks := f.tracks.map fun e => (e.1, e.2.predict fr delta), nextId := f.nextTrack, discard := f.discard }
  let st := objs.foldl (fun st io => io.2.foldl (TrackSt.object fus io.1) st) st
  { st with tracks := fadeTracks fus st.tracks }

/-- The 64 bytes of a track record (R353). -/
def Track.bytes (t : Track) : Bytes :=
  natLe 4 t.id.toNat ++ natLe 4 t.x.toNat ++ natLe 4 t.y.toNat ++ natLe 4 t.vx.toNat ++ natLe 4 t.vy.toNat ++ natLe 2 t.heading.toNat ++
  natLe 2 t.length.toNat ++ natLe 2 t.width.toNat ++ [t.exist, t.cls] ++ natLe 4 t.sensors.toNat ++ natLe 4 t.age.toNat ++
  List.replicate 28 0

/-- The 2,048 track records. -/
def trackBytes (ts : List (Nat × Track)) : Bytes :=
  (List.range 2048).flatMap fun k =>
    match ts.find? fun e => e.1 == k with
    | some e => e.2.bytes
    | none => List.replicate 64 0

/-! ## The assured class (R358 to R363) -/

/-- The quarter of a quadrant, with `x` and `y` positive and odd: 0 below 22.5 degrees up to 3. -/
def quarterOf (x y : Int) : Nat :=
  if y < x then (if (x + y) * (x + y) < 2 * x * x then 0 else 1)
  else if (y - x) * (y - x) < 2 * x * x then 2 else 3

/-- The sector of a cell (R358). -/
def sectorOf (i j : Nat) : Nat :=
  let x : Int := 2 * i - 255
  let y : Int := 2 * j - 255
  if 0 < x && 0 < y then quarterOf x y
  else if x < 0 && 0 < y then 4 + quarterOf y (-x)
  else if x < 0 then 8 + quarterOf (-x) (-y)
  else 12 + quarterOf (-y) x

/-- Rounds n/d to the nearest integer, ties to even. -/
def nearestEven (n : Int) (d : Nat) : Int :=
  let q := n.fdiv d
  let r := n - q * d
  if 2 * r < d then q else if (d : Int) < 2 * r then q + 1 else if q % 2 = 0 then q else q + 1

/-- The raster of an input for the comparison of R360. -/
def FusSt.rasterOf (f : FusSt) (tout : Nat) (v : FusVal) : Nat → Nat → Int :=
  if v.kind = 1 then
    let os := (f.objects tout v).map fun o => (o.foot, nearestEven (v.l * o.exist) 255)
    fun i j =>
      let hit := os.filter fun o => o.1.covers 0 i j
      match hit with
      | [] => 0
      | o :: os => os.foldl (fun m x => max m x.2) o.2
  else f.contribution tout v

/-- Every cell. -/
def cells : List (Nat × Nat) := (List.range 256).flatMap fun j => (List.range 256).map fun i => (i, j)

/-- The residual of an input in a sector (R360). -/
def residual (fus : Bytes) (own : Nat → Nat → Int) (others : List (Nat → Nat → Int)) (sector : Nat) : Nat :=
  let dec : Int := u8 fus 67
  let pairs := (cells.filter fun c => sectorOf c.1 c.2 == sector).filterMap fun c =>
    let a := own c.1 c.2
    let o := clamp127 ((others.map fun g => g c.1 c.2).foldl (· + ·) 0)
    if dec ≤ a.natAbs && dec ≤ o.natAbs then some (decide (a < 0) != decide (o < 0)) else none
  let n := pairs.length
  if n < u16 fus 42 then 0 else min 255 (256 * (pairs.filter id).length / n)

/-- An input is lost (R359). -/
def FusIn.lost (x : FusIn) (r : Bytes) : Bool := decide (u8 r 7 ≤ x.missed.toNat)

/-- One sector of an input after its residual. -/
def FusIn.judge (fus : Bytes) (x : FusIn) (sector res : Nat) : FusIn :=
  if u8 fus 68 < res then
    let n := vgetN x.streak sector 0 + 1
    { x with streak := vmodN x.streak sector fun _ => n,
             incon := if u8 fus 69 ≤ n then x.incon ||| (1 : BitVec 16) <<< sector else x.incon }
  else { x with streak := vmodN x.streak sector fun _ => 0, incon := x.incon &&& ~~~((1 : BitVec 16) <<< sector) }

/-- The computed level of a sector (R361). -/
def State.levelOf (s : State) (sector : Nat) : Nat :=
  let cov := (List.range 32).filter fun i => u8 (s.fusR i) 0 != 0 && (u16 (s.fusR i) 20).testBit sector
  let bad := cov.filter fun i =>
    match finOf 32 i with
    | some n => (s.fus.inp[n]).lost (s.fusR i) || (s.fus.inp[n]).incon.getLsbD sector
    | none => false
  if 2 ≤ bad.length || (1 ≤ bad.length && bad.length = cov.length) then 2 else bad.length

/-- The applied level of a sector and its recovery counter after a cycle (R361). -/
def applyLevel (recov : Nat) (applied comp : Nat) (r : Nat × BitVec 2) : Nat × (Nat × BitVec 2) :=
  if applied ≤ comp then (comp, (0, 0))
  else
    let hi := max r.2.toNat comp
    if recov ≤ r.1 + 1 then (hi, (0, 0)) else (applied, (r.1 + 1, BitVec.ofNat 2 hi))

/-- Every sector's level (R361), and A3 (R362). -/
def State.assure (s : State) : State :=
  let recov := u8 s.fusT 70
  let s := (List.range 16).foldl (fun s k =>
    match finOf 16 k with
    | none => s
    | some n =>
      let (l, r) := applyLevel recov (s.fus.levels[n]).toNat (s.levelOf k) s.fus.recover[n]
      s.modFus fun f => { f with levels := f.levels.set n (BitVec.ofNat 2 l), recover := f.recover.set n r }) s
  let a2 := (s.fus.levels.toList.filter (· == 2)).length
  if !s.fus.egoValid || !s.fus.calValid || u8 s.fusT 71 ≤ a2 then
    let s := s.modFus fun f => { f with a3Recover := 0 }
    if s.fus.a3 then s else (s.modFus fun f => { f with a3 := true }).raise 0x61 0x120 (s.partOf 0x120) 0
  else if s.fus.a3 then
    if recov ≤ s.fus.a3Recover + 1 then s.modFus fun f => { f with a3 := false, a3Recover := 0 }
    else s.modFus fun f => { f with a3Recover := f.a3Recover + 1 }
  else s

/-- The inputs are compared with each other (R360). -/
def State.compareInputs (s : State) (tout : Nat) (vals : List FusVal) : State :=
  let live := vals.filter fun v => match finOf 32 v.i with | some n => !(s.fus.inp[n]).lost (s.fusR v.i) | none => false
  let rast := live.map fun v => (v.i, s.fus.rasterOf tout v)
  (List.range 32).foldl (fun s i =>
    match rast.find? fun r => r.1 == i with
    | none => s.modIn i fun x => { x with streak := Vector.replicate 16 0 }
    | some r =>
      let others := (rast.filter fun q => q.1 != i).map (·.2)
      let t := s.fusT
      ((List.range 16).filter fun k => (u16 (s.fusR i) 20).testBit k).foldl (fun s k =>
        s.modIn i fun x => x.judge t k (residual t r.2 others k)) s) s

/-! ## Output (R353 to R356, R363) -/

/-- The comfort value of a cell. -/
def comfortCell (fus : Bytes) (contrib : List (Nat → Nat → Int)) (feet : List (Foot × Nat)) (k i j : Nat) : Nat :=
  let l := clamp127 ((contrib.map fun g => g i j).foldl (· + ·) 0)
  (feet.filter fun t => t.1.covers k i j).foldl (fun m t => max m t.2) (u8 fus (128 + (l + 128).toNat))

/-- The assured value of a cell with a comfort value (R363). -/
def assuredCell (fus : Bytes) (a3 : Bool) (level : Nat) (i j c : Nat) : Nat :=
  if a3 || level = 2 then 255
  else if level = 1 then
    let x : Int := 2 * i - 255
    let y : Int := 2 * j - 255
    let r : Int := 2 * u8 fus 73
    if r * r < x * x + y * y then 255 else max c (u8 fus 72)
  else c

/-- A grid of 16 slices in the order of its bytes. -/
def gridBytes (v : Nat → Nat → Nat → Nat) : Bytes :=
  (List.range 16).flatMap fun k => cells.map fun c => BitVec.ofNat 8 (v k c.1 c.2)

/-- LEVELS: two bits per sector. -/
def FusSt.levelWord (f : FusSt) : Nat := (List.range 16).foldl (fun (a : Nat) k => a + (vgetN f.levels k 0).toNat * 4 ^ k) 0

/-- The output header. -/
def State.outHeader (s : State) (tout : Nat) (late : Bool) : Bytes :=
  let f := s.fus
  let e := f.hist.headD EgoEntry.origin
  natLe 8 tout ++ natLe 8 f.cycle.toNat ++ natLe 1 (b2n f.a3 + 2 * b2n f.egoValid + 4 * b2n f.calValid + 8 * b2n late) ++ [0] ++
  natLe 2 f.tracks.length ++ natLe 4 f.levelWord ++ natLe 4 (toF e.v.toNat) ++ natLe 4 (toF e.om.toNat) ++ List.replicate 32 0

/-- Writes the output and signals it (R354). -/
def State.fusOutput (s : State) (tout : Nat) (vals : List FusVal) : State :=
  let t := s.fusT
  let f := s.fus
  let base := hubBase + u32 t 4 + (f.cycle.toNat % u8 t 2) * 0x240000
  let contrib := (vals.filter fun v => v.kind != 1).map fun v => f.contribution tout v
  let feet := f.tracks.map fun e => (e.2.foot, e.2.exist.toNat)
  let comfort := comfortCell t contrib feet
  let s := s.engPut 0x120 (base + 0x1000) (trackBytes f.tracks)
  let s := s.engPut 0x120 (base + 0x40000) (gridBytes comfort)
  let s :=
    if (u8 t 3).testBit 0 then
      s.engPut 0x120 (base + 0x140000) (gridBytes fun k i j =>
        assuredCell t f.a3 (vgetN f.levels (sectorOf i j) 0).toNat i j (comfort k i j))
    else s
  let late := decide (tout < s.dtN)
  let s := s.engPut 0x120 base (s.outHeader tout late)
  let s := if late then (s.modFus fun f => { f with late := satInc f.late }).raise 0x61 0x120 (s.partOf 0x120) 0 else s
  ((List.range 4).map fun i => u16 t (8 + 2 * i)).foldl (fun s h => if h = 0xFFFF then s else s.sendSignal 0x120 h 1) s

/-- Age of a capture at a DT, in microseconds, saturated. -/
def ageUs (now cap : Nat) : BitVec 32 := BitVec.ofNat 32 (min ((now - cap) / 1000) 0xFFFFFFFF)

/-- The cycle whose release is granted, and the wait for the next (R354). -/
def State.fusionCycle (s : State) (start : BitVec 64) : State :=
  let tout := start.toNat + 1000 * u32 s.fusT 16
  let s := (List.range 32).foldl State.drainInput s
  let (s, vals) := s.fusVals
  let s := s.noteEgo
  let s := if s.fus.cycle = 0 then s.modFus fun f => { f with tprev := BitVec.ofNat 64 tout } else s
  let ts := s.fus.trackCycle s.fusT tout ((vals.filter fun v => v.kind == 1).map fun v => (v.i, s.fus.objects tout v))
  let s := s.modFus fun f => { f with tracks := ts.tracks, nextTrack := ts.nextId, discard := ts.discard }
  let s := (s.compareInputs tout vals).assure
  let s := s.fusOutput tout vals
  (s.modFus fun f =>
    { f with startDt := none, task := f.task + 1, cycle := f.cycle + 1, tprev := BitVec.ofNat 64 tout,
             inp := f.inp.map fun x => { x with age := match x.held with | some c => ageUs tout c.toNat | none => 0xFFFFFFFF } }).fusWait

/-- FUSION_CYCLE: in Mode P, only in the slots of its task's partition (R271). -/
def execFusionCycle (s : State) : Out :=
  .next (match s.fus.startDt with
    | some t => if s.fusionOn && s.inShare 1 (s.partOf 0x120) then s.fusionCycle t else s
    | none => s)

end Sys2Proof.Machine
end

