-- ==== Sys2Proof/Machine/Planner.lean ====
section
/-! DEFINITION. The planner engine (R367 to R389): inputs of a cycle, distance field, refuge, queries and the lattice search. -/

namespace Sys2Proof.Machine

/-! ## The planner table (R387) -/

def State.plnT (s : State) : Bytes := s.prog.img.pln

/-- The planner works: the program runs, has a planner table, and the hub's clocks run (R452). -/
def State.plannerOn (s : State) : Bool := s.hasPlanner && s.progOn && !s.pwr.thermtrip

/-- The top of the repeat loop of R386: a release applied since tp ends the cycle, and the planner waits for its next one. -/
def State.plnTop (s : State) : State :=
  if s.pln.relSince && s.pln.running && s.pln.granted.isNone && s.pln.query.isNone then
    (s.modPln fun p => { p with task := p.task + 1, relSince := false }).plnWait
  else s

/-! ## Distance field and checks (R371 to R373) -/

/-- The field value of a cell (R371). -/
def dtv (grid : Bytes) (occ k i j : Nat) : Nat :=
  let sl := sub grid (65536 * k) 65536
  let d (c : Nat × Nat) : Nat := let x := ((c.1 : Int) - i).natAbs; let y := ((c.2 : Int) - j).natAbs; x * x + y * y
  let near := (cells.filter fun c => occ ≤ u8 sl (cellIx c.1 c.2)).foldl (fun (m : Option Nat) c =>
    match m with | none => some (d c) | some v => some (min v (d c))) none
  match near with
  | none => 0xFFFF
  | some n => min 0xFFFF (isqrt (256 * n))

/-- The threshold of a disc (R372). -/
def discThreshold (pln : Bytes) (d : Nat) : Nat := (16 * (u8 pln (40 + d) + u16 pln 36) + 24) / 25 + 23

/-- What one disc meets: free, in collision, or outside the grid. -/
inductive DiscHit where
  | free | hit | off
deriving DecidableEq, Repr

/-- One disc of the footprint at a pose, in 1/64 m (R372). -/
def checkDisc (pln : Bytes) (grid : Option Bytes) (k : Nat) (x64 y64 : Int) (head d : Nat) : DiscHit :=
  let o := plnFootOff pln + 32 * head + 4 * d
  let i := (x64 + sgn 16 (u16 pln o)).fdiv 16 + 128
  let j := (y64 + sgn 16 (u16 pln (o + 2))).fdiv 16 + 128
  if 0 ≤ i && i < 256 && 0 ≤ j && j < 256 then
    match grid with
    | none => .hit
    | some g => if discThreshold pln d ≤ dtv g (u8 pln 7) k i.toNat j.toNat then .free else .hit
  else .off

def checkPose (pln : Bytes) (grid : Option Bytes) (k : Nat) (x64 y64 : Int) (head : Nat) : List DiscHit :=
  (List.range (u8 pln 38)).map (checkDisc pln grid k x64 y64 head)

/-- The slice that a DT is checked against (R373). -/
def sliceOf (t gridDt : Nat) : Nat := (min 15 (max 0 (((t : Int) - gridDt).fdiv 250000000))).toNat

/-! ## The refuge (R374) -/

/-- A segment of the path: its start, unit direction, arc position, length and heading; the ray of NOLANE has no length. -/
structure Segment where
  x : Nat
  y : Nat
  ux : Nat
  uy : Nat
  at_ : Nat
  len : Nat
  heading : Nat
deriving DecidableEq, Repr

/-- The segments of a polyline, from arc position `s` on. -/
def segmentsOf : Nat → List (Nat × Nat) → List Segment
  | s, (x, y) :: (x', y') :: ps =>
    let dx := dSub x' x
    let dy := dSub y' y
    let len := dSqrt (dAdd (dMul dx dx) (dMul dy dy))
    { x := x, y := y, ux := dDiv dx len, uy := dDiv dy len, at_ := s, len := len, heading := dAtan2 dy dx } ::
      segmentsOf (dAdd s len) ((x', y') :: ps)
  | _, _ => []

def dMax (a b : Nat) : Nat := if dLt a b then b else a
def dMin (a b : Nat) : Nat := if dLt b a then b else a

/-- Position along a segment of the foot from a point, limited to the segment, its squared distance, and the left offset. -/
def Segment.foot (g : Segment) (first last : Bool) (px py : Nat) : Nat × Nat × Nat :=
  let dx := dSub px g.x
  let dy := dSub py g.y
  let w := dAdd (dMul dx g.ux) (dMul dy g.uy)
  let w := if first then w else dMax 0 w
  let w := if last then w else dMin w g.len
  let ex := dSub px (dAdd g.x (dMul w g.ux))
  let ey := dSub py (dAdd g.y (dMul w g.uy))
  (w, dAdd (dMul ex ex) (dMul ey ey), dSub (dMul g.ux dy) (dMul g.uy dx))

/-- Arc position and left offset of the foot on the nearest segment, the lowest index on a tie. -/
def footOn (segs : List Segment) (px py : Nat) : Nat × Nat :=
  let n := segs.length
  let best := (segs.zip (List.range n)).foldl (fun (b : Option (Nat × Nat × Nat)) gi =>
    let (w, d, e) := gi.1.foot (gi.2 == 0) (gi.2 + 1 == n) px py
    match b with
    | none => some (d, dAdd gi.1.at_ w, e)
    | some (d0, _, _) => if dLt d d0 then some (d, dAdd gi.1.at_ w, e) else b) none
  match best with
  | some (_, s, e) => (s, e)
  | none => (0, 0)

/-- The segment that holds an arc position. -/
def segAt : List Segment → Nat → Option Segment
  | [], _ => none
  | [g], _ => some g
  | g :: h :: gs, s => if dLt s h.at_ then some g else segAt (h :: gs) s

/-- A refuge or path point: position (binary64), heading (binary64 angle), speed (binary64 m/s). -/
structure RPoint where
  x : Nat
  y : Nat
  heading : Nat
  v : Nat
deriving DecidableEq, Repr

/-- Point `n` of the candidate with deceleration `a`. -/
def refugePoint (segs : List Segment) (s0 e v0 a n : Nat) : RPoint :=
  let da := dInt a
  let t := dMul (dQuot 1 16) (dInt n)
  let tm := dMin t (dDiv v0 da)
  let s := dAdd s0 (dSub (dMul v0 tm) (dDiv (dMul (dMul da tm) tm) (dInt 2)))
  let v := dMax 0 (dSub v0 (dMul da t))
  match segAt segs s with
  | some g =>
    let w := dSub s g.at_
    { x := dSub (dAdd g.x (dMul g.ux w)) (dMul g.uy e), y := dAdd (dAdd g.y (dMul g.uy w)) (dMul g.ux e), heading := g.heading, v := v }
  | none => { x := 0, y := 0, heading := 0, v := v }

def refugePoints (segs : List Segment) (s0 e v0 a : Nat) : List RPoint := (List.range 64).map fun i => refugePoint segs s0 e v0 a (i + 1)

/-- What the discs of point `n` (from 1) meet at its DT. -/
def refugeCheck (pln : Bytes) (grid : Option Bytes) (tp gridDt n : Nat) (p : RPoint) : List DiscHit :=
  checkPose pln grid (sliceOf (tp + 62500000 * n) gridDt) (floorOf 16 p.x 6) (floorOf 16 p.y 6) (headingOf 64 p.heading)

/-- The hits of a candidate, point by point. -/
def candidateHits (pln : Bytes) (grid : Option Bytes) (tp gridDt : Nat) (ps : List RPoint) : List (List DiscHit) :=
  (ps.zip (List.range 64)).map fun pn => refugeCheck pln grid tp gridDt (pn.2 + 1) pn.1

/-- A refuge: deceleration, NOFREE, UNCHECKED and points. -/
structure Refuge where
  a : Nat
  nofree : Bool
  unchecked : Nat
  pts : List RPoint

/-- A candidate is free at every point: a grid is held, and no disc collides. -/
def allFree (grid : Option Bytes) (h : List (List DiscHit)) : Bool := grid.isSome && h.all fun l => !l.contains .hit

/-- The first free candidate of 3, 6 and 9 m/s², else the last one. -/
def selectRefuge (pln : Bytes) (grid : Option Bytes) (tp gridDt : Nat) (segs : List Segment) (s0 e v0 : Nat) : Refuge :=
  let cand (a : Nat) : List RPoint × List (List DiscHit) := let ps := refugePoints segs s0 e v0 a; (ps, candidateHits pln grid tp gridDt ps)
  let off (h : List (List DiscHit)) : Nat := (h.filter fun l => l.contains .off).length
  let c3 := cand 3
  let c6 := cand 6
  let c9 := cand 9
  if allFree grid c3.2 then { a := 3, nofree := false, unchecked := off c3.2, pts := c3.1 }
  else if allFree grid c6.2 then { a := 6, nofree := false, unchecked := off c6.2, pts := c6.1 }
  else { a := 9, nofree := !allFree grid c9.2, unchecked := off c9.2, pts := c9.1 }

/-! ## Trajectory records (R378) -/

/-- The 16 bytes of a trajectory point: X and Y as binary32, heading in 2^-16 turn, speed in cm/s. -/
def pointBytes (x y heading speed : Nat) : Bytes := natLe 4 x ++ natLe 4 y ++ natLe 2 heading ++ natLe 2 (min speed 0xFFFF) ++ natLe 4 0

def RPoint.bytes (p : RPoint) : Bytes :=
  pointBytes (toF p.x) (toF p.y) (headingOf 65536 p.heading) (dRoundTo 65535 (dMul (dInt 100) p.v)).toNat

/-- A trajectory header without its CRC. -/
structure TrajHdr where
  qid : Nat
  status : Nat
  flags : Nat
  npts : Nat
  decel : Nat
  base : Nat
  gridDt : Nat
  cost : Nat
  expanded : Nat
  seq : Nat
  unchecked : Nat
deriving DecidableEq, Repr

def TrajHdr.bytes (h : TrajHdr) : Bytes :=
  natLe 4 h.qid ++ natLe 1 h.status ++ natLe 1 h.flags ++ natLe 1 h.npts ++ natLe 1 h.decel ++ natLe 8 h.base ++ natLe 8 h.gridDt ++
  natLe 4 h.cost ++ natLe 4 h.expanded ++ natLe 8 h.seq ++ natLe 1 h.unchecked ++ List.replicate 19 0

/-- A trajectory record: header, CRC and points. -/
def trajRecord (hdr pts : Bytes) : Bytes := hdr ++ natLe 4 (crc32c (hdr ++ pts)) ++ pts

/-- NOFREE, NOGRID, NOLANE and A3 of the cycle. -/
def PlnSt.flags (p : PlnSt) : Nat := b2n p.nofree + 2 * b2n p.grid.isNone + 4 * b2n p.nolane + 8 * b2n p.a3

def PlnSt.gridStamp (p : PlnSt) : Nat := if p.grid.isNone then 0 else p.gridDt.toNat

/-! ## The inputs of a cycle (R367 to R370) -/

/-- The newest fusion output is adopted (R368). -/
def State.adoptGrid (s : State) : State :=
  let t := s.plnT
  let (s, n) := State.drainPolls 0x121 (u16 t 8) 65536 s
  let s := s.modPln fun p => { p with grants := p.grants + BitVec.ofNat 64 n }
  if n = 0 || s.pln.mismatch then s
  else
    let c := s.pln.grants.toNat - 1
    let base := hubBase + u32 s.fusT 4 + (c % u8 s.fusT 2) * 0x240000
    let (s, h) := engBytes s 0x121 base 64
    if u64 h 8 ≠ c then (s.modPln fun p => { p with mismatch := true, grid := none }).raise 0x62 0x121 (s.partOf 0x121) 0
    else
      let (s, g) := engBytes s 0x121 (base + if (u8 t 6).testBit 0 then 0x140000 else 0x40000) 0x100000
      s.modPln fun p => { p with grid := some g, gridDt := BitVec.ofNat 64 (u64 h 0), a3 := (u8 h 16).testBit 0 }

/-- The newest lane buffer whose ABSENT bit is 0, among the granted ones. -/
def newestLane (base : Nat) : List Nat → State → Option Bytes → State × Option Bytes
  | [], s, r => (s, r)
  | b :: bs, s, r =>
    let (s, h) := engBytes s 0x121 (base + 576 * b) 576
    newestLane base bs s (if (u8 h 10).testBit 0 then r else some h)

/-- The lane ring is drained (R369). -/
def State.adoptLane (s : State) : State :=
  let t := s.plnT
  if u16 t 10 = 0xFFFF then s
  else
    let nb := u8 t 14
    let first := s.pln.laneNext
    let (s, n) := State.drainPolls 0x121 (u16 t 10) nb s
    let bufs := (List.range n).map fun j => (first + j) % nb
    let (s, pick) := newestLane (hubBase + u32 t 16) bufs s none
    let s := s.modPln fun p => { p with laneNext := (first + n) % nb, lane := match pick with | some b => some b | none => p.lane }
    if u16 t 12 = 0xFFFF then s else bufs.foldl (fun s _ => s.sendSignal 0x121 (u16 t 12) 1) s

/-- The lane polyline in the grid frame, its points rounded to FP32 by step 4 of R349; empty where there is none. -/
def State.lanePoints (s : State) : List (Nat × Nat) :=
  match s.pln.lane with
  | none => []
  | some b =>
    let n := u16 b 8
    if n < 2 then []
    else
      let fr := frameTo (s.fus.poseAt (u64 b 0)) (s.fus.poseAt s.pln.gridStamp)
      (recs b 64 8 (min n 64)).map fun p => let (x, y) := fr.mapF (u32 p 0) (u32 p 4); (toD x, toD y)

/-- The start state (R370). -/
def State.startState (s : State) : State :=
  let tp := s.pln.tp.toNat
  let a := s.fus.poseAt tp
  let o := s.fus.poseAt s.pln.gridStamp
  let fr := frameTo a o
  let (x, y) := fr.map 0 0
  let v := match s.fus.hist.find? fun e => e.t.toNat ≤ tp with | some e => e.v | none => 0
  s.modPln fun p => { p with start := (BitVec.ofNat 64 x, BitVec.ofNat 64 y, BitVec.ofNat 64 fr.psi, v) }

/-- The refuge is computed, written and committed (R374 to R376). -/
def State.commitRefuge (s : State) : State :=
  let t := s.plnT
  let px := s.pln.start.1.toNat
  let py := s.pln.start.2.1.toNat
  let psi := s.pln.start.2.2.1.toNat
  let v0 := s.pln.start.2.2.2.toNat
  let lane := s.lanePoints
  let nolane := lane.isEmpty
  let segs : List Segment :=
    if nolane then [{ x := px, y := py, ux := dCos psi, uy := dSin psi, at_ := 0, len := 0, heading := psi }] else segmentsOf 0 lane
  let (s0, e) := if nolane then (0, 0) else footOn segs px py
  let r := selectRefuge t s.pln.grid s.pln.tp.toNat s.pln.gridStamp segs s0 e v0
  let s := s.modPln fun p =>
    { p with nolane := nolane, nofree := r.nofree, unchecked := BitVec.ofNat 7 r.unchecked, decel := BitVec.ofNat 2 (r.a / 3) }
  let p := s.pln
  let h : TrajHdr :=
    { qid := 0xFFFFFFFF, status := 5, flags := p.flags, npts := 64, decel := r.a, base := p.tp.toNat, gridDt := p.gridStamp, cost := 0,
      expanded := 0, seq := p.seq.toNat, unchecked := r.unchecked }
  let s := s.engPut 0x121 (hubBase + u32 t 20 + 1088 * (p.seq.toNat % 2)) (trajRecord h.bytes (r.pts.flatMap RPoint.bytes))
  (s.sendSignal 0x121 (u16 t 24) 1).modPln fun p => { p with seq := p.seq + 1 }

/-- PLANNER_CYCLE: in Mode P, only in the slots of its task's partition (R271). -/
def execPlannerCycle (s : State) : Out :=
  .next (if !s.plannerOn || !s.inShare 2 (s.partOf 0x121) then s
    else
      match s.pln.granted with
      | none => s
      | some tp =>
        let s := s.modPln fun p => { p with granted := none, tp := tp }
        let s := (s.adoptGrid).adoptLane
        let s := s.modPln fun p => { p with age := if p.grid.isNone then 0xFFFFFFFF else ageUs tp.toNat p.gridDt.toNat }
        ((s.startState).commitRefuge).plnTop)

/-! ## Queries (R381 to R385) -/

def queryOk (b : Bytes) : Bool :=
  u8 b 10 ≤ 31 && u8 b 11 ≤ 31 && inRange 1000 1000000 (u32 b 12) && inRange 1 64 (u8 b 16) && zeros b 17 1 && homeOk (u16 b 20) &&
  zeros b 22 2 && u32 b 24 % 64 == 0 && u32 b 24 + 1088 ≤ 0x2000000 && zeros b 28 36

/-- The result is written, and DONEQ signalled (R385); the planner goes on at the top of its loop. -/
def State.answer (s : State) (rec : Bytes) (out : Bytes) : State :=
  let s := s.engPut 0x121 (hubBase + u32 rec 24) out
  let s := if homeOk (u16 rec 20) then s.sendSignal 0x121 (u16 rec 20) 1 else s
  (s.modPln fun p => { p with query := none }).plnTop

/-- A query is answered with the committed refuge (R384). -/
def State.answerRefuge (s : State) (rec : Bytes) (status expanded : Nat) : State :=
  let (s, b) := engBytes s 0x121 (hubBase + u32 s.plnT 20 + 1088 * ((s.pln.seq.toNat - 1) % 2)) 1088
  let hdr := natLe 4 (u32 rec 0) ++ natLe 1 status ++ sub b 5 23 ++ natLe 4 expanded ++ sub b 32 28
  (s.modPln fun p => { p with refuge := satInc p.refuge }).answer rec (trajRecord hdr (b.drop 64))

/-- A node of the search. `from_` is its parent and the primitive that led from it. -/
structure Node where
  i : Int
  j : Int
  h : Int
  s : Int
  step : Nat
  g : Nat
  from_ : Option (Nat × Nat)
deriving DecidableEq, Repr

/-- The search: node store, newest first; queue entries (key, insertion number, node), in no order; visited table by index;
insertions so far; pops; counted discards. -/
structure Search where
  nodes : List Node
  queue : List (Nat × Nat × Nat)
  seen : List (Nat × (Nat × Nat))
  count : Nat
  pops : Nat
  dropQ : Nat
  dropN : Nat
deriving DecidableEq, Repr

/-- State key of R383. -/
def Node.key (n : Node) : Nat := ((n.i + 256 * n.j + 65536 * n.h + 2 ^ 20 * n.s + 2 ^ 25 * n.step) % 2 ^ 32).toNat

def Node.index (n : Node) : Nat := n.key * 0x9E3779B1 % 2 ^ 32 / 2 ^ 14

def Search.node (s : Search) (k : Nat) : Option Node := s.nodes[s.nodes.length - 1 - k]?

/-- The first of two queue entries in the order of pops. -/
def entryLt (a b : Nat × Nat × Nat) : Bool := a.1 < b.1 || (a.1 == b.1 && a.2.1 < b.2.1)

def popMin (q : List (Nat × Nat × Nat)) : Option (Nat × Nat × Nat) :=
  q.foldl (fun b e => match b with | none => some e | some m => if entryLt e m then some e else b) none

/-- The entry that a full queue discards: the highest key, the last inserted among equals. -/
def popMax (q : List (Nat × Nat × Nat)) : Option (Nat × Nat × Nat) :=
  q.foldl (fun b e => match b with | none => some e | some m => if entryLt m e then some e else b) none

/-- An insert (R382). -/
def Search.insert (s : Search) (key node : Nat) : Search :=
  let e := (key, s.count, node)
  let s := { s with count := s.count + 1 }
  if s.queue.length < 65536 then { s with queue := e :: s.queue }
  else
    match popMax (e :: s.queue) with
    | some m => { s with queue := (e :: s.queue).filter (· ≠ m), dropQ := s.dropQ + 1 }
    | none => s

/-- A sample of a primitive: DX, DY, HEAD and SPEED (R380). -/
def sampleOf (pln p : Bytes) (m : Nat) : Int × Int × Nat × Nat :=
  let r := recAt pln (plnSampleOff pln) 8 (u16 p 10 + m)
  (sgn 16 (u16 r 0), sgn 16 (u16 r 2), u8 r 4 % 64, u16 r 6)

/-- The pose of a sample applied at a node, in 1/64 m. -/
def samplePose (n : Node) (d : Int × Int × Nat × Nat) : Int × Int := (16 * (n.i - 128) + 8 + d.1, 16 * (n.j - 128) + 8 + d.2.1)

/-- Every sample of a primitive is free at a node (R372, R373). -/
def primFree (pln : Bytes) (grid : Option Bytes) (tp gridDt : Nat) (n : Node) (p : Bytes) : Bool :=
  (List.range (u8 p 6)).all fun m =>
    let d := sampleOf pln p m
    let (x, y) := samplePose n d
    (checkPose pln grid (sliceOf (tp + 62500000 * (n.step + m + 1)) gridDt) x y d.2.2.1).all (· == .free)

/-- Distance to the goal box, in cells. -/
def boxDist (rec : Bytes) (n : Node) : Nat :=
  (max 0 (max (max ((u8 rec 4 : Int) - n.i) (n.i - u8 rec 5)) (max ((u8 rec 6 : Int) - n.j) (n.j - u8 rec 7)))).toNat

def queueKey (rec : Bytes) (n : Node) : Nat := min (n.g + u16 rec 18 * boxDist rec n) 0xFFFFFFFF

/-- One successor of a node (R384). -/
def Search.expand (pln rec : Bytes) (grid : Option Bytes) (tp gridDt : Nat) (k : Nat) (n : Node) (s : Search) (pi : Nat) : Search :=
  let p := plnPrim pln pi
  if (u8 p 0 : Int) ≠ n.h || (u8 p 1 : Int) ≠ n.s then s
  else
    let c : Node :=
      { i := n.i + sgn 8 (u8 p 4), j := n.j + sgn 8 (u8 p 5), h := u8 p 2, s := u8 p 3, step := n.step + u8 p 6,
        g := n.g + u16 p 8, from_ := some (k, pi) }
    if u8 rec 16 < c.step || c.i < 0 || 255 < c.i || c.j < 0 || 255 < c.j || !primFree pln grid tp gridDt n p then s
    else
      let hit := match s.seen.find? fun e => e.1 == c.index with | some e => e.2.1 == c.key && e.2.2 ≤ c.g | none => false
      if hit then s
      else
        let s := { s with seen := (c.index, (c.key, c.g)) :: s.seen.filter fun e => e.1 != c.index }
        if 131072 ≤ s.nodes.length then { s with dropN := s.dropN + 1 }
        else ({ s with nodes := c :: s.nodes }).insert (queueKey rec c) s.nodes.length

/-- The node is a goal. -/
def isGoal (rec : Bytes) (n : Node) : Bool :=
  (u8 rec 10 : Int) ≤ n.s && n.s ≤ u8 rec 11 && (0 ≤ n.h && (u16 rec 8).testBit n.h.toNat) && (u8 rec 4 : Int) ≤ n.i && n.i ≤ u8 rec 5 &&
  (u8 rec 6 : Int) ≤ n.j && n.j ≤ u8 rec 7

/-- How a search ends within its pops: a goal node, an empty queue, or the budget used up. -/
inductive SearchEnd where
  | goal (node : Nat)
  | empty
  | budget
deriving DecidableEq, Repr

/-- The search, with at most `k` further pops (R384). -/
def Search.run (pln rec : Bytes) (grid : Option Bytes) (tp gridDt : Nat) : Nat → Search → Search × SearchEnd
  | 0, s => (s, .budget)
  | k + 1, s =>
    match popMin s.queue with
    | none => (s, .empty)
    | some e =>
      let s := { s with queue := s.queue.filter (· ≠ e), pops := s.pops + 1 }
      match s.node e.2.2 with
      | none => (s, .empty)
      | some n =>
        if isGoal rec n then (s, .goal e.2.2)
        else Search.run pln rec grid tp gridDt k ((List.range (plnNprim pln)).foldl (Search.expand pln rec grid tp gridDt e.2.2 n) s)

/-- The start node (R384). -/
def startNode (p : PlnSt) : Node :=
  { i := floorOf 16 p.start.1.toNat 2 + 128, j := floorOf 16 p.start.2.1.toNat 2 + 128, h := headingOf 16 p.start.2.2.1.toNat,
    s := dRoundTo 31 (dDiv p.start.2.2.2.toNat (dQuot 1 2)), step := 0, g := 0, from_ := none }

/-- The points of a path up to a node, oldest first: a fuel bounds the chain of parents. -/
def pathPoints (pln : Bytes) (s : Search) : Nat → Nat → List Bytes → List Bytes
  | 0, _, acc => acc
  | f + 1, k, acc =>
    match s.node k with
    | none => acc
    | some n =>
      match n.from_ with
      | none => acc
      | some (par, pi) =>
        match s.node par with
        | none => acc
        | some m =>
          let p := plnPrim pln pi
          let pts := (List.range (u8 p 6)).map fun q =>
            let d := sampleOf pln p q
            let (x, y) := samplePose m d
            pointBytes (fQuot x 64) (fQuot y 64) (1024 * d.2.2.1) d.2.2.2
          pathPoints pln s f par (pts ++ acc)

/-- A path is the answer, STATUS 0. A path of no step has no point to repeat: its points are open values. -/
def State.answerPath (s : State) (rec : Bytes) (sr : Search) (k : Nat) : State :=
  let pts := pathPoints s.plnT sr 65 k []
  let n := match sr.node k with | some n => n | none => startNode s.pln
  let body : Bytes :=
    match pts.getLast? with
    | some l => ((pts ++ List.replicate 64 l).take 64).flatten
    | none => (List.range 1024).map fun i => Config.freeByte (s.free + i)
  let p := s.pln
  let h : TrajHdr :=
    { qid := u32 rec 0, status := 0, flags := p.flags, npts := n.step, decel := 0, base := p.tp.toNat, gridDt := p.gridStamp, cost := n.g,
      expanded := sr.pops, seq := p.seq.toNat - 1, unchecked := 0 }
  ((s.useFree 1024).modPln fun p => { p with paths := satInc p.paths }).answer rec (trajRecord h.bytes body)

/-- The query in hand is served with the pops that begin within its budget (R384). -/
def State.serveQuery (s : State) (rec : Bytes) (pops : Nat) : State :=
  let st := if s.pln.released then 4 else 3
  if !queryOk rec then (s.answerRefuge rec st 0).raise 0x62 0x121 (s.partOf 0x121) 0
  else if s.pln.released then s.answerRefuge rec 4 0
  else if s.pln.a3 || s.pln.grid.isNone then s.answerRefuge rec 3 0
  else
    let p := s.pln
    let st := startNode p
    let init : Search := { nodes := [st], queue := [(queueKey rec st, 0, 0)], seen := [], count := 1, pops := 0, dropQ := 0, dropN := 0 }
    let (sr, e) := Search.run s.plnT rec p.grid p.tp.toNat p.gridStamp (min pops (u32 rec 12)) init
    let s := s.modPln fun p => { p with dropQ := satAdd p.dropQ sr.dropQ, dropN := satAdd p.dropN sr.dropN }
    match e with
    | .goal k => s.answerPath rec sr k
    | .empty => s.answerRefuge rec 2 sr.pops
    | .budget => s.modPln fun p => { p with query := p.query.map fun q => { q with searched := true, popped := sr.pops } }

/-- The planner takes the next query of the ring (R381). -/
def State.takeQuery (s : State) : State :=
  let t := s.plnT
  let slot := s.pln.qNext
  let (s, rec) := engBytes s 0x121 (hubBase + u32 t 32 + 64 * slot) 64
  let s := s.sendSignal 0x121 (u16 t 28) 1
  s.modPln fun p =>
    { p with qNext := (slot + 1) % u16 t 30, idle := none, query := some { record := rec, tq := s.dt, searched := false, popped := 0, released := false } }

/-- A poll of QREADY: a query is taken, or DONE is signalled once and the planner idles (R386). -/
def State.pollQuery (s : State) : State :=
  match s.poll 0x121 (u16 s.plnT 26) 1 with
  | (s, true) => s.takeQuery
  | (s, false) =>
    let s :=
      if s.pln.doneSent then s
      else
        match s.plnTask with
        | some t => (s.sendSignal 0x121 t.done 1).modPln fun p => { p with doneSent := true }
        | none => s
    s.modPln fun p => { p with idle := some s.dt }

/-- The planner is in the repeat loop of R386: a cycle has committed its refuge. -/
def State.inLoop (s : State) : Bool := s.plannerOn && s.pln.running && s.pln.granted.isNone

/-- QUERY_SERVE. `pops` is the number of pops that begin before the budget ends. -/
def execQueryServe (pops : Nat) (s : State) : Out :=
  .next (match s.pln.query with
    | some q => if s.plannerOn && !q.searched then s.serveQuery q.record pops else s
    | none =>
      if !s.inLoop || s.pln.idle.isSome then s
      else if s.pln.relSince then s.plnTop
      else
        let s := s.pollQuery
        match s.pln.query with
        | some q => s.serveQuery q.record pops
        | none => s)

/-- QUERY_BUDGET_EXPIRY: STATUS 1 once the budget is over, STATUS 4 from the moment the refuge was released (R377). -/
def execQueryBudgetExpiry (s : State) : Out :=
  .next (match s.pln.query with
    | some q =>
      if !s.plannerOn || !q.searched then s
      else if q.released then s.answerRefuge q.record 4 q.popped
      else if (s.dt - q.tq).toNat < u32 q.record 12 then s
      else s.answerRefuge q.record 1 q.popped
    | none => s)

/-- PLANNER_IDLE_POLL. -/
def execPlannerIdlePoll (s : State) : Out :=
  .next (match s.pln.idle with
    | some t => if s.inLoop && 250 ≤ (s.dt - t).toNat then (if s.pln.relSince then s.plnTop else s.pollQuery) else s
    | none => s)

end Sys2Proof.Machine
end

