-- ==== Sys2Proof/Machine/TensorOps.lean ====
section
/-! DEFINITION. Tensor descriptors, the addresses and values of their elements (R142 to R149), the operand checks (R155), and
accumulator entries (R52 to R65). -/

namespace Sys2Proof.Machine

/-- Four coordinates. -/
abbrev Idx := Int × Int × Int × Int

/-- The indices a coordinate register holds (R142). -/
def coords (v : BitVec 64) : Idx :=
  let f (k : Nat) : Int := (bits v k 16 : BitVec 16).toInt
  (f 0, f 16, f 32, f 48)

/-- Local-store address of a descriptor's shape record. -/
def descShape (w : BitVec 64) : Nat := (bits w 32 15 : BitVec 15).toNat * 32

/-- A descriptor register with the 32 bytes of its shape record. -/
def mkDesc (w : BitVec 64) (r : List Byte) : Desc where
  base := (bits w 0 20 : BitVec 20).toNat
  fmt := (bits w 20 4 : BitVec 4).toNat
  bs := w.getLsbD 24
  kv := w.getLsbD 25
  shape := descShape w
  ext := (leAt r 0 2, leAt r 2 2, leAt r 4 2, leAt r 6 2)
  str := (sgn 32 (leAt r 8 4), sgn 32 (leAt r 12 4), sgn 32 (leAt r 16 4))
  sbase := leAt r 20 4
  sstr := (sgn 32 (leAt r 24 4), sgn 32 (leAt r 28 4))

def inExt (d : Desc) (i : Idx) : Bool :=
  0 ≤ i.1 && i.1 < d.ext.1 && 0 ≤ i.2.1 && i.2.1 < d.ext.2.1 && 0 ≤ i.2.2.1 && i.2.2.1 < d.ext.2.2.1 && 0 ≤ i.2.2.2 && i.2.2.2 < d.ext.2.2.2

/-- Byte offset of index i0 in a packed row (R39, R146). -/
def packOff (fmt i0 : Nat) : Nat :=
  if fmtBits fmt = 4 then i0 / 2 else if fmtBits fmt = 6 then 3 * (i0 / 4) else i0 * (fmtBits fmt / 8)

/-- Bytes of the unit that holds element i0: a byte, a 3-byte group, or the element. -/
def packBytes (fmt : Nat) : Nat := if fmtBits fmt = 4 then 1 else if fmtBits fmt = 6 then 3 else fmtBits fmt / 8

/-- Bit position of element i0 in that unit. -/
def packBit (fmt i0 : Nat) : Nat := if fmtBits fmt = 4 then 4 * (i0 % 2) else if fmtBits fmt = 6 then 6 * (i0 % 4) else 0

/-- Address of the row of an element (R146). -/
def rowAddr (d : Desc) (i : Idx) : Int := d.base + i.2.1 * d.str.1 + i.2.2.1 * d.str.2.1 + i.2.2.2 * d.str.2.2

/-- Local-store address of the unit that holds an element. -/
def elemAddr (d : Desc) (i : Idx) : Nat := (rowAddr d i + packOff d.fmt i.1.toNat).toNat

/-- The code of an element; 0 outside the extents (R149). -/
def elemCode (m : Mem) (t : Fin 136) (d : Desc) (i : Idx) : Nat :=
  if inExt d i then
    leNat (memGetN m (localBase t + elemAddr d i) (packBytes d.fmt)) / 2 ^ packBit d.fmt i.1.toNat % 2 ^ fmtBits d.fmt
  else 0

def elemVal (m : Mem) (t : Fin 136) (d : Desc) (i : Idx) : FVal :=
  if inExt d i then fmtVal d.fmt (elemCode m t d i) else .fin false 0 0

/-- Address of the scale byte of the block that holds an element, for reduction along dimension 2 or 0 (R148). -/
def scaleAddr (d : Desc) (red0 : Bool) (i : Idx) : Int :=
  if red0 then d.sbase + i.1.fdiv 32 + i.2.1 * d.sstr.1 + i.2.2.1 * d.sstr.2
  else d.sbase + i.1 + i.2.1 * d.sstr.1 + (i.2.2.1).fdiv 32 * d.sstr.2

/-- The elements of the block that holds an element. -/
def blockElems (red0 : Bool) (i : Idx) : List Idx :=
  (List.range 32).map fun (k : Nat) =>
    if red0 then ((i.1.fdiv 32) * 32 + k, i.2) else (i.1, i.2.1, ((i.2.2.1).fdiv 32) * 32 + k, i.2.2.2)

/-- The scale byte of the block (R149): 0x7F for an operand without scaling or a block wholly outside the extents. -/
def scaleByte (m : Mem) (t : Fin 136) (d : Desc) (red0 : Bool) (i : Idx) : Nat :=
  if d.bs && (blockElems red0 i).any (inExt d) then (memGet m (localBase t + (scaleAddr d red0 i).toNat)).toNat else 0x7F

/-! ## Boxes and the words they touch -/

/-- An addressed box: its lowest and highest index in each dimension. -/
abbrev Box := Idx × Idx

/-- The in-extent part of a range. -/
def clampRange (lo hi : Int) (ext : Nat) : List Int :=
  let a := max lo 0
  let b := min hi ((ext : Int) - 1)
  if b < a then [] else (List.range (b - a + 1).toNat).map fun (k : Nat) => a + (k : Int)

/-- Byte spans (first, last) of the rows of the in-extent part of a box. -/
def boxSpans (d : Desc) (b : Box) : List (Int × Int) :=
  match clampRange b.1.1 b.2.1 d.ext.1 with
  | [] => []
  | x0 :: xs =>
    let x1 := (x0 :: xs).getLastD x0
    (clampRange b.1.2.2.2 b.2.2.2.2 d.ext.2.2.2).flatMap fun i3 =>
    (clampRange b.1.2.2.1 b.2.2.2.1 d.ext.2.2.1).flatMap fun i2 =>
    (clampRange b.1.2.1 b.2.2.1 d.ext.2.1).map fun i1 =>
      let r := rowAddr d (0, i1, i2, i3)
      (r + packOff d.fmt x0.toNat, r + packOff d.fmt x1.toNat + packBytes d.fmt - 1)

/-- Scale bytes of the in-extent part of a box, for its reduction dimension. -/
def boxScales (d : Desc) (red0 : Bool) (b : Box) : List (Int × Int) :=
  if !d.bs then []
  else
    let l0 := clampRange b.1.1 b.2.1 d.ext.1
    let l2 := clampRange b.1.2.2.1 b.2.2.2.1 d.ext.2.2.1
    let l0 := if red0 then l0.filter fun x => x % 32 = 0 || l0.head? == some x else l0
    let l2 := if red0 then l2 else l2.filter fun x => x % 32 = 0 || l2.head? == some x
    l2.flatMap fun i2 => (clampRange b.1.2.1 b.2.2.1 d.ext.2.1).flatMap fun i1 => l0.map fun i0 =>
      let a := scaleAddr d red0 (i0, i1, i2, 0)
      (a, a)

/-- The address that a box reaching outside the local store reports (R155): its lowest one when it lies below 0, else the
first beyond the end. -/
def spansBad (l : List (Int × Int)) : Option Int :=
  let lo := l.foldl (fun m x => min m x.1) 0
  if lo < 0 then some lo
  else
    (l.filter fun x => (localSize : Int) ≤ x.2).foldl (fun m x =>
      let a := max x.1 (localSize : Int)
      match m with | none => some a | some b => some (min a b)) none

/-- The words that spans touch and that hold an error are met one by one (R81). -/
def checkSpans (s : State) (t : Fin 136) (l : List (Int × Int)) : State × Option Nat :=
  let ws := (s.ecc.map (·.1)).filter fun w =>
    l.any fun x => (localBase t : Int) + x.1 < (w + 8 : Nat) && (w : Int) ≤ localBase t + x.2
  lsCheck s t (s.srcOf (.core t)) ws

/-! ## Operand checks (R155) -/

/-- What an instruction uses a descriptor for: its register number, the formats allowed, whether the KV layout is, the unit
that addresses must be multiples of (0: the element size), whether block scaling is allowed, and the index at which a
reduction span begins. -/
structure Use where
  reg : Nat
  fmts : List Nat
  kvOk : Bool
  align : Nat
  bsOk : Bool
deriving DecidableEq, Repr

def tensorFmts : List Nat := [0, 1, 2, 4, 5, 6, 7, 8, 9]
def imgFmts : List Nat := [1, 2, 6, 7, 8, 9, 10]
def anyFmts : List Nat := [0, 1, 2, 3, 4, 5, 6, 7, 8, 9, 10]
def vectorFmts : List Nat := [1, 2, 3, 6, 7, 8, 9, 10]

/-- The descriptor register, at issue (R145), and the word of its shape record that has an uncorrectable error, if one has.
With the record beyond the local store the extents count as 0; with an unreadable one they count as 1, so that the checks
that need no record can be made before the data error is raised (R125). -/
def readDesc (s : State) (t : Fin 136) (k : Nat) : State × Desc × Option Nat :=
  let w := vgetN (s.tiles[t]).td k 0
  if localSize < descShape w + 32 then (s, { mkDesc w [] with ext := (0, 0, 0, 0) }, none)
  else
    match readLocal s t (descShape w) 32 (s.srcOf (.core t)) with
    | (s, .ok r) => (s, mkDesc w r, none)
    | (s, .error a) => (s, { mkDesc w [] with ext := (1, 1, 1, 1) }, some (a - localBase t))

/-- The code of a format that R38 reserves. -/
def fmtReserved (f : Nat) : Bool := 0xB ≤ f

/-- The checks of R155 on descriptors alone, row by row in table order (a reserved format code never comes here). Where two operands fail one row, the first of td, ta
and tb, in the order of `l`, gives EADDR: the spec does not say which. DESIGN CHOICE (log 107). -/
def descChecks (l : List (Use × Desc)) : Option Int :=
  let row (bad : Use → Desc → Bool) (at_ : Desc → Int) : Option Int := (l.find? fun x => bad x.1 x.2).map fun x => at_ x.2
  let base (d : Desc) : Int := d.base
  (row (fun _ d => d.ext.1 = 0 || d.ext.2.1 = 0 || d.ext.2.2.1 = 0 || d.ext.2.2.2 = 0 || 2 ^ 20 ≤ d.sbase) fun d => d.shape).or <|
  (row (fun u d => !u.fmts.contains d.fmt) base).or <|
  (row (fun _ d => d.bs && ([0, 2, 3, 8, 9, 10].contains d.fmt || d.ext.2.2.2 ≠ 1)) base).or <|
  (row (fun u d => d.bs && !u.bsOk) base).or <|
  (row (fun u d => d.kv && !u.kvOk) base).or <|
  (row (fun u d =>
    let g := if u.align = 0 then packBytes d.fmt else u.align
    d.base % g ≠ 0 || d.str.1 % g ≠ 0 || d.str.2.1 % g ≠ 0 || d.str.2.2 % g ≠ 0) base)

/-! ## Accumulator entries -/

def accKey (bank row col : Nat) : Nat := 8192 * bank + 64 * row + col
def rowKey (bank row : Nat) : Nat := 128 * bank + row

def accGet (x : Tile) (bank row col : Nat) : AccEntry := tabGet AccEntry.cleared x.acc (accKey bank row col)
def accPut (x : Tile) (bank row col : Nat) (e : AccEntry) : Tile := { x with acc := tabPut AccEntry.cleared x.acc (accKey bank row col) e }

/-- TCLR of rows (R52, R153). -/
def accClear (x : Tile) (bank row n : Nat) : Tile :=
  { x with acc := tabErase x.acc (accKey bank row 0) (64 * n), rowCount := tabErase x.rowCount (rowKey bank row) n }

/-- A row's product count grows modulo 2^30; past 2^28 RANGE is set (R57). -/
def addCount (x : Tile) (bank row k : Nat) : Tile :=
  let c := tabGet 0 x.rowCount (rowKey bank row)
  let c' : BitVec 30 := c + BitVec.ofNat 30 k
  let x := { x with rowCount := tabPut 0 x.rowCount (rowKey bank row) c' }
  if 2 ^ 28 < c.toNat + k then x.setFlags flRange else x

/-- SPECIAL under a new special (R56). -/
def joinSpecial (a b : Special) : Special :=
  match a, b with
  | .none, x => x
  | x, .none => x
  | .pinf, .pinf => .pinf
  | .ninf, .ninf => .ninf
  | _, _ => .nan

/-- The SPECIAL that a product brings. -/
def specialOf : FVal → Special
  | .nan => .nan
  | .inf false => .pinf
  | .inf true => .ninf
  | .fin _ _ _ => .none

/-- A product is added to an F0 entry (R53, R56); the flag tells an invalid operation. -/
def addF0 (e : AccEntry) (p : FVal) : AccEntry :=
  match p with
  | .fin s m x =>
    let v : Int := floorScaled s m x 64
    { e with frame := .f0, a := e.a + BitVec.ofInt 128 v }
  | p => { e with frame := .f0, special := joinSpecial e.special (specialOf p) }

/-- Steps 1 and 2 of R54: the anchor is set or raised to `c`. The flag tells that a nonzero bit was discarded. -/
def anchorTo (e : AccEntry) (c : Int) : AccEntry × Bool :=
  let e := { e with frame := Frame.fs }
  if !e.anchored then ({ e with anchored := true, x := BitVec.ofInt 9 c }, false)
  else if e.x.toInt < c then
    let k := (c - e.x.toInt).toNat
    ({ e with a := e.a.sshiftRight k, x := BitVec.ofInt 9 c }, e.a.toNat % 2 ^ (min k 128) ≠ 0 || (128 ≤ k && e.a.msb))
  else (e, false)

/-- Step 3 of R54: one product of the block, truncated toward minus infinity. -/
def addFS (c : Int) (r : AccEntry × Bool) (p : FVal) : AccEntry × Bool :=
  let (e, ix) := r
  match p with
  | .fin s m x =>
    let k := c - e.x.toInt + 56
    let v := floorScaled s m x k
    let q := x + k
    let lost := q < 0 && m % 2 ^ (-q).toNat ≠ 0
    ({ e with a := e.a + BitVec.ofInt 128 v }, ix || lost)
  | p => ({ e with special := joinSpecial e.special (specialOf p) }, ix)

/-- A block pair of an FS reduction (R54, R56): scale bytes and products. -/
def blockFS (e : AccEntry) (ea eb : Nat) (ps : List FVal) : AccEntry × Bool :=
  if ea = 255 || eb = 255 then ({ e with frame := .fs, special := .nan }, false)
  else
    let c : Int := (ea : Int) + eb - 254
    ps.foldl (addFS c) (anchorTo e c)

/-- A pairwise tree over a list (R63, R164): neighbours are combined level by level. `n` levels. -/
def treeFold {α : Type} (f : α → α → α) : Nat → List α → List α
  | 0, l => l
  | n + 1, l => treeFold f n (pairUp l)
where
  pairUp : List α → List α
    | a :: b :: r => f a b :: pairUp r
    | l => l

/-- An FP32 sum with flags, RNE (R63 to R65). -/
def addFl (f : Nat) (a b : Nat × BitVec 7) : Nat × BitVec 7 :=
  let (c, fl) := ieeeAdd f a.1 b.1
  (c, a.2 ||| b.2 ||| fl)

/-- The FP32 value of an FB entry; an EMPTY one holds +0. -/
def fbVal (e : AccEntry) : Nat := e.a.toNat % 2 ^ 32

/-- A slice of BF16 products enters an FB entry (R63, R64). -/
def sliceFB (e : AccEntry) (ps : List (FVal × Bool)) : AccEntry × BitVec 7 :=
  let leaves := ps.map fun p => ieeeRound 10 p
  let tree := (treeFold (addFl 10) 4 leaves).headD (0, 0)
  let r := addFl 10 (fbVal e, 0) tree
  ({ e with frame := .fb, a := BitVec.ofNat 128 r.1 }, r.2)

/-- The exact value of an entry (R53, R54, R59); an exact zero counts as +0. -/
def accVal (e : AccEntry) : FVal :=
  match e.special with
  | .nan => .nan
  | .pinf => .inf false
  | .ninf => .inf true
  | .none =>
    let sc (k : Int) : FVal := let v := e.a.toInt; .fin (decide (v < 0)) v.natAbs k
    match e.frame with
    | .empty => .fin false 0 0
    | .f0 => sc (-64)
    | .fs => sc (e.x.toInt - 56)
    | .fb =>
      match fmtVal 10 (fbVal e) with
      | .fin _ 0 _ => .fin false 0 0
      | v => v

/-! ## The record of an entry (R62, R557) -/

def frameCode : Frame → Nat | .empty => 0 | .f0 => 1 | .fs => 2 | .fb => 3
def specialCode : Special → Nat | .none => 0 | .pinf => 1 | .ninf => 2 | .nan => 3

def accRecord (e : AccEntry) (count : BitVec 30) : List Byte :=
  let x := if e.frame = .fs && e.anchored then e.x.toNat else 0
  natLe 16 e.a.toNat ++ natLe 2 (frameCode e.frame + 4 * specialCode e.special + 16 * x) ++ [0, 0] ++
  natLe 4 count.toNat ++ natLe 8 0

/-- What a record holds, if R557 accepts it but for the equality of the row's counts. -/
def accParse (r : List Byte) : Option (AccEntry × BitVec 30) :=
  let a := leAt r 0 16
  let w := leAt r 16 2
  let fr : Frame := match w % 4 with | 0 => .empty | 1 => .f0 | 2 => .fs | _ => .fb
  let sp : Special := match w / 4 % 4 with | 0 => .none | 1 => .pinf | 2 => .ninf | _ => .nan
  let x := nbits w 4 9
  let c := leAt r 20 4
  let bad : Bool :=
    match fr with
    | .empty => x != 0 || a != 0 || sp != .none
    | .f0 => x != 0
    | .fs => false
    | .fb => x != 0 || 2 ^ 32 ≤ a || sp != .none
  if bad || nbits w 13 3 != 0 || leAt r 18 2 != 0 || 2 ^ 30 ≤ c || leAt r 24 8 != 0 then none
  else some ({ a := BitVec.ofNat 128 a, frame := fr, special := sp, x := BitVec.ofNat 9 x, anchored := fr == .fs }, BitVec.ofNat 30 c)

/-- A partial entry is added into a target by the target's frame (R61). -/
def accMerge (e p : AccEntry) : AccEntry × BitVec 7 :=
  match p.frame with
  | .empty => (e, 0)
  | .f0 => ({ e with frame := .f0, a := e.a + p.a, special := joinSpecial e.special p.special }, 0)
  | .fs =>
    let c := p.x.toInt
    let (e, ix) := anchorTo e c
    let k := (e.x.toInt - c).toNat
    let lost := p.a.toNat % 2 ^ (min k 128) ≠ 0 || (128 ≤ k && p.a.msb)
    ({ e with a := e.a + p.a.sshiftRight k, special := joinSpecial e.special p.special }, if ix || lost then flInexact else 0)
  | .fb =>
    let r := addFl 10 (fbVal e, 0) (fbVal p, 0)
    ({ e with frame := .fb, a := BitVec.ofNat 128 r.1 }, r.2)

end Sys2Proof.Machine
end

