-- ==== Sys2Proof/Machine/SnapOps.lean ====
section
/-! DEFINITION. The output of a SNAPSHOT (R245 to R249, R365, R388). -/

namespace Sys2Proof.Config

open Sys2Proof.Machine

/-- The payload of a snapshot's header record, whose layout the spec does not give, by the request DT and the region table
(R249, R292). -/
opaque snapHeader : BitVec 64 → List Region → List Byte

/-- The payload of a core record, by the core's recorded registers. -/
opaque snapCore : Tile → List Byte

/-- The payload of a tally record, by the tally's fields (R197). -/
opaque snapTally : Tally → List Byte

end Sys2Proof.Config

namespace Sys2Proof.Machine

/-- A record (R249). -/
def snapRecord (typ key : Nat) (payload : Bytes) : Bytes := natLe 2 typ ++ [0, 0] ++ natLe 4 payload.length ++ natLe 8 key ++ payload

/-- The entries of an accumulator bank as R62 records. -/
def bankBytes (x : Tile) (b : Nat) : Bytes :=
  (List.range 128).flatMap fun row =>
    (List.range 64).flatMap fun col =>
      accRecord (tabGet AccEntry.cleared x.acc (8192 * b + 64 * row + col)) (tabGet 0 x.rowCount (128 * b + row))

/-- What a snapshot records of a core at its cut point. -/
def Snap.tileOf (k : Snap) (lc : Fin 128) : Option Tile := (k.tiles.find? fun x => x.1 == lc).map (·.2)
def Snap.storeOf (k : Snap) (lc : Fin 128) : Mem := match k.stores.find? fun x => x.1 == lc with | some x => x.2 | none => []

/-- The state of a tally that a snapshot records (R247). -/
def State.snapTallyOf (s : State) (k : Snap) (home : Nat) : Tally := match k.shadowOf home with | some t => t | none => s.tally home

/-- One record of a snapshot's output (R249): the header; a core's registers, one of its accumulator banks, or 4 KB of its local store in
the logical window; a tally; a line of memory; an engine's state. -/
inductive SnapItem where
  | header
  | core (lc : Fin 128)
  | bank (lc : Fin 128) (b : Nat)
  | store (lc : Fin 128) (page : Nat)
  | tally (home : Nat)
  | line (a : Nat)
  | fusion
  | planner
deriving DecidableEq, Repr

/-- The lines of memory that a snapshot records: the image's regions, if they are asked for, the die stores in service and the hub
store. -/
def State.snapLines (s : State) (k : Snap) : List Nat :=
  let lines (base n g : Nat) : List Nat := (List.range (n / g)).map fun i => base + g * i
  (if k.dram then s.prog.img.regions.flatMap fun r => lines r.base r.size 4096 else []) ++
  (([0, 1, 2, 3] : List (Fin 4)).filter s.dieOk).flatMap (fun d => lines (dieBase d) 0x1000000 64) ++ lines hubBase 0x2000000 64

/-- The records of a snapshot, in the order of its output. -/
def State.snapItems (s : State) (k : Snap) : List SnapItem :=
  [.header] ++
  s.progCores.flatMap (fun lc => if (k.tileOf lc).isSome then [.core lc, .bank lc 0, .bank lc 1] ++ (List.range 192).map (.store lc) else []) ++
  s.prog.img.tallies.map (fun t => .tally t.home) ++ (s.snapLines k).map .line ++
  (if k.eng && s.hasFusion then [.fusion] else []) ++ (if k.eng && s.hasPlanner then [.planner] else [])

/-- The value of a line: that of the log, else what memory holds, read by the copier. -/
def State.snapLine (s : State) (k : Snap) (a : Nat) : State × Except AccessErr Bytes :=
  match k.log.find? fun e => e.1 == a with
  | some e => (s, .ok e.2)
  | none => engRead s 0x106 a (logLine a)

/-- DT [64 bits] as FP64, rounded to nearest even (R365). -/
def dtFp64 (t : BitVec 64) : BitVec 64 := BitVec.ofNat 64 (dInt t.toNat)

def EgoEntry.bytes (e : EgoEntry) : Bytes :=
  natLe 8 (dtFp64 e.t).toNat ++ natLe 8 e.x.toNat ++ natLe 8 e.y.toNat ++ natLe 8 e.psi.toNat ++ natLe 8 e.v.toNat ++ natLe 8 e.om.toNat

/-- FUS_IN_STATUS of an input (R366). -/
def FusIn.status (x : FusIn) (r : Bytes) : Nat :=
  2 ^ 31 * b2n x.fresh + 2 ^ 30 * b2n (u8 r 0 != 0 && x.lost r) + 2 ^ 16 * x.missed.toNat + x.incon.toNat

/-- The engine state of the fusion engine (R365). -/
def State.fusRecord (s : State) (f : FusSt) : Bytes :=
  let h := f.hist.reverse.flatMap EgoEntry.bytes
  h ++ List.replicate (2048 * 48 - h.length) (0 : Byte) ++ trackBytes f.tracks ++ natLe 4 f.nextTrack.toNat ++
  ((List.range 32).flatMap (fun i => match finOf 32 i with | some n => natLe 4 ((f.inp[n]).status (s.fusR i)) | none => []) : Bytes) ++
  f.levels.toList.map (fun (l : BitVec 2) => (l.setWidth 8 : Byte)) ++ natLe 1 (b2n f.a3) ++
  f.recover.toList.map (fun (r : Nat × BitVec 2) => (BitVec.ofNat 8 r.1 : Byte)) ++ natLe 1 f.a3Recover

/-- PLN_STATUS, PLN_QUERIES and PLN_DISCARD (R389). -/
def PlnSt.status (p : PlnSt) : Nat :=
  2 ^ 31 * b2n p.running + 2 ^ 30 * b2n p.released + 2 ^ 29 * b2n p.grid.isNone + 2 ^ 28 * b2n p.a3 + 2 ^ 24 * p.decel.toNat +
  2 ^ 23 * b2n p.nofree + 2 ^ 16 * p.unchecked.toNat + (p.seq.toNat - 1) % 2 ^ 16

def PlnSt.queries (p : PlnSt) : Nat := 2 ^ 16 * p.refuge.toNat + p.paths.toNat
def PlnSt.discards (p : PlnSt) : Nat := 2 ^ 16 * p.dropQ.toNat + p.dropN.toNat

/-- The engine state of the planner (R388). -/
def PlnSt.record (p : PlnSt) : Bytes :=
  let lane := (p.lane.getD []) ++ List.replicate 576 0
  natLe 8 p.seq.toNat ++ natLe 8 p.grants.toNat ++ natLe 8 p.tp.toNat ++ natLe 8 p.gridStamp ++ lane.take 576 ++ natLe 4 p.status ++
  natLe 4 p.queries ++ natLe 4 p.discards

/-- Type, key and payload of a record of the snapshot (R249). -/
def State.snapPayload (s : State) (k : Snap) : SnapItem → State × Except AccessErr (Nat × Nat × Bytes)
  | .header => (s, .ok (1, k.dt.toNat, Config.snapHeader k.dt s.prog.img.regions))
  | .core lc => (s, .ok (2, lc.val, match k.tileOf lc with | some x => Config.snapCore x | none => []))
  | .bank lc b => (s, .ok (3, 2 * lc.val + b, match k.tileOf lc with | some x => bankBytes x b | none => []))
  | .store lc i => (s, .ok (5, 0x1400000000 + lc.val * 0x1000000 + 4096 * i, memGetN (k.storeOf lc) (4096 * i) 4096))
  | .tally h => (s, .ok (4, h, Config.snapTally (s.snapTallyOf k h)))
  | .line a =>
    match s.snapLine k a with
    | (s, .ok b) => (s, .ok (5, a, b))
    | (s, .error e) => (s, .error e)
  | .fusion => (s, .ok (6, 0x102, s.fusRecord (k.fus.getD s.fus)))
  | .planner => (s, .ok (6, 0x103, (k.pln.getD s.pln).record))

/-- The engines of the program: the sources of the agents that its tasks name (R236), one of each. -/
def State.progEngines (s : State) : List Src :=
  ([0x110, 0x111, 0x120, 0x121, 0x124, 0x125, 0x126, 0x127] : List Src).filter fun x =>
    match agentOf x with | some a => !(s.tasksOf a).isEmpty | none => false

/-- Every agent of the program has passed its cut point, and every unmarked operation has been applied (R248); the partner's
operations stay unmarked for good (R246). -/
def State.snapReady (s : State) (k : Snap) : Bool :=
  let tally := s.tly.queue.toList.all fun q => q.all fun
    | .sig _ src _ _ m _ => m || isPartnerSrc src
    | .wait _ src _ _ _ _ _ m => m || isPartnerSrc src
    | .withdraw _ _ _ => true
  let reqs := (s.fab.ports ++ s.outstanding).all fun r => r.marked || !isPartAgent r.src
  let dma := s.progTiles.all fun t => (s.tiles[t]).dma.toList.all fun d => match d with | some d => d.marked | none => true
  s.progCores.all (k.cut.contains ·) && s.progEngines.all (k.cutEng.contains ·) && tally && reqs && dma

/-- The next record of a snapshot is written (R233, R248): the answer is none where it goes on, else the status with which it fails. -/
def State.snapWrite (s : State) (k : Snap) (item : SnapItem) : State × Option (BitVec 8) :=
  match s.snapPayload k item with
  | (s, .error .dataLost) => (s, some csDataLost)
  | (s, .error _) => (s, some csHwFault)
  | (s, .ok r) =>
    let out := snapRecord r.1 r.2.1 r.2.2
    if k.outLen < k.bytes + out.length then (s, some csResource)
    else
      match bufWrite s 0x106 k.hostmem (k.out + k.bytes) out with
      | (s, some _) => (s, some csHwFault)
      | (s, none) => ({ s with snap := s.snap.map fun k => { k with pos := k.pos + 1, bytes := k.bytes + out.length } }, none)

/-- A snapshot ends. -/
def State.snapEnd (s : State) (slot : Fin 64) (t : OpState) (st : BitVec 8) : State := ({ s with snap := none }).endH slot t st

/-- The unit of work of a snapshot: its next record, once it is ready (R233). -/
def State.snapUnit (s : State) (slot : Fin 64) : State :=
  match s.snap with
  | none => s
  | some k =>
    if k.slot ≠ slot || !s.snapReady k then s
    else
      let items := s.snapItems k
      match items[k.pos]? with
      | none => s
      | some item =>
        match s.snapWrite k item with
        | (s, some st) => s.snapEnd slot .failed st
        | (s, none) => s.modOp slot fun o => { o with progress := k.pos + 1, permille := 1000 * (k.pos + 1) / items.length }

/-- The records that are left, in order. -/
def snapAll (slot : Fin 64) : List SnapItem → State → State
  | [], s => s.snapEnd slot .done csOk
  | item :: items, s =>
    match s.snap with
    | none => s
    | some k =>
      match s.snapWrite k item with
      | (s, some st) => s.snapEnd slot .failed st
      | (s, none) => snapAll slot items s

/-- SNAPSHOT_DONE: the records that are left are written, and the operation ends. -/
def execSnapshotDone (s : State) : Out :=
  .next (match s.snap with
    | none => s
    | some k =>
      match s.cmd.ops[k.slot] with
      | none => s
      | some o =>
        if o.state ≠ .running || s.pwr.mpAbsent || !s.snapReady k then s
        else snapAll k.slot ((s.snapItems k).drop k.pos) s)

end Sys2Proof.Machine
end

