-- ==== Sys2Proof/Machine/Deputy.lean ====
section
/-! DEFINITION. The deputies, the aggregated error state, heartbeats, release and latent-fault tests (R390 to R415). -/

namespace Sys2Proof.Machine

/-- The deputy's ROM has made it operational, and it has not faulted. -/
def Deputy.alive (x : Deputy) : Bool := x.operational && !(x.state == .faulted) && !(x.state == .reset)

/-- The deputy's program runs: its system registers can be written. -/
def Deputy.runs (x : Deputy) : Bool := x.alive && x.loaded

/-! ## Start (R396) -/

/-- The image of a deputy in boot flash. -/
def depImageBase (d : Fin 2) : Nat := 0x200000 + d.val * 0x200000

/-- The header, the CRCs and the ranges of a deputy image (R396). -/
def depImageOk (h : Bytes) (body : Bytes) : Bool :=
  let len := u32 h 4
  u32 h 0 == 0x59545044 && inRange 128 1048576 len && len % 8 == 0 && u32 h 12 % 8 == 0 && 128 ≤ u32 h 12 && u32 h 12 < len &&
  inRange 100 100000 (u32 h 16) && nbits (u32 h 20) 29 2 == 0 && u8 h 24 ≤ 1 && u8 h 25 ≤ 2 && inRange 10 1000 (u16 h 26) &&
  zeros h 28 32 && u32 h 60 == crc32c (sub h 0 60 ++ sub h 64 64) && u32 h 8 == crc32c body

/-- The ROM reads the image, checks it, loads it and starts its program; an invalid or unreachable one is entered as 0x07. -/
def State.depLoad (s : State) (d : Fin 2) : State :=
  let base := depImageBase d
  let h := memGetN s.flash base 128
  let len := min (u32 h 4) 1048576
  let body := memGetN s.flash (base + 128) (len - 128)
  if s.hubAlive && depImageOk h body then
    s.modDep d fun x =>
      { x with sram := memPutN x.sram 0 (h ++ body), ecc := clearEcc x.ecc 8 0 len, loaded := true, imgBad := false, imgLen := len,
               react := BitVec.ofNat 512 (leAt h 64 64), wdt := BitVec.ofNat 32 (u32 h 16), canId := BitVec.ofNat 32 (u32 h 20),
               rates := BitVec.ofNat 16 (u16 h 24), rpt := BitVec.ofNat 16 (u16 h 26), wdtTimeout := BitVec.ofNat 17 (u32 h 16),
               wdtKey := 0x5A, wdtSince := x.ownDt, wdtRun := true,
               seq := { Seq.reset .running (BitVec.ofNat 64 (u32 h 12)) with bps := x.seq.bps, dbgHalt := x.seq.dbgHalt } }
  else (s.modDep d fun x => { x with imgBad := true, imgTry := x.ownDt }).raiseDep d 0x07 0

/-- DEPUTY_START: the ROM's tests, its operational state, and the load of the image. A failed test is that of the lamp check. -/
def execDeputyStart (d : Fin 2) (testsOk : Bool) (s : State) : Out :=
  let x := s.deps[d]
  .next (if x.state ≠ .starting || x.operational || !x.railOk || x.rstLow then s
    else
      let s := s.modDep d fun x =>
        { x with operational := true, safeLow := false, pinHigh := false, hbAt := x.ownDt, sram := tabErase x.sram 0x1FF800 0x800, logNext := 0 }
      if testsOk then s.depLoad d else s.depFault d 0x03)

/-- DEPUTY_IMAGE_RETRY. -/
def execDeputyImageRetry (d : Fin 2) (s : State) : Out :=
  let x := s.deps[d]
  .next (if x.alive && !x.loaded && x.imgBad && 100000000 ≤ (x.ownDt - x.imgTry).toNat then s.depLoad d else s)

/-- The category of a deputy fault (R402). -/
def depFaultCat : DepFault → BitVec 8
  | .lockstep => 0x02 | .doubleFault => 0x05 | .watchdog => 0x04 | .sram => 0x06 | .lampCheck => 0x03

/-- DEPUTY_FAULTED. -/
def execDeputyFaulted (d : Fin 2) (cause : DepFault) (s : State) : Out := .next (if (s.deps[d]).alive then s.depFault d (depFaultCat cause) else s)

/-- DEPUTY_WATCHDOG_EXPIRY (R398). -/
def execDeputyWatchdogExpiry (d : Fin 2) (s : State) : Out :=
  let x := s.deps[d]
  .next (if x.alive && x.wdtRun && 1000 * x.wdtTimeout.toNat ≤ (x.ownDt - x.wdtSince).toNat then s.depFault d 0x04 else s)

/-! ## Writes of the deputy system registers by the deputy's program (R394, R565) -/

def execDwdt (d : Fin 2) (v : BitVec 64) (s : State) : Out := .next (if (s.deps[d]).runs then dwdtWrite s d v else s)
def execDreport (d : Fin 2) (v : BitVec 64) (s : State) : Out := .next (if (s.deps[d]).runs then dreportWrite s d v else s)
def execDfcmd (d : Fin 2) (v : BitVec 64) (s : State) : Out := .next (if (s.deps[d]).runs then dfcmdWrite s d v else s)
def execDctrlRel (d : Fin 2) (set : Bool) (s : State) : Out := .next (if (s.deps[d]).runs then s.setRel d set else s)
def execDctrlReady (d : Fin 2) (s : State) : Out := .next (if (s.deps[d]).runs then dctrlReadyOp s d else s)
def execDctrlDbgEn (d : Fin 2) (s : State) : Out := .next (if (s.deps[d]).runs then dctrlDbgEnOp s d else s)
def execDctrlErrclr (d : Fin 2) (s : State) : Out := .next (if (s.deps[d]).runs then dctrlErrclrOp s d else s)
def execDctrlPintest (d : Fin 2) (s : State) : Out := .next (if (s.deps[d]).runs then dctrlPintestOp s d else s)

/-- PINTEST_END: the pulse of 20 µs ± 2 µs ends, and the readback is judged (R404). -/
def execPintestEnd (d : Fin 2) (readbackOk : Bool) (s : State) : Out :=
  let x := s.deps[d]
  .next (match x.pinTest with
    | none => s
    | some t =>
      if !x.alive || x.ownDt.toNat + 2000 < t.toNat then s
      else
        let s := s.modDep d fun x => { x with pinTest := none }
        let s := if x.hubLost then s else s.syncSaf d
        if readbackOk then s else s.raiseDep d 0x0B 0)

/-! ## Observer fetches (R393, R395) -/

/-- The transactions of a fetch, up to the first that fails: the bytes copied and the code of the failure. -/
def depFetch (d : Fin 2) : List (Nat × Nat) → State → State × Bytes × BitVec 8
  | [], s => (s, [], 0)
  | (a, n) :: l, s =>
    let src : Src := BitVec.ofNat 12 (0x102 + d.val)
    match portCheck s a n with
    | .error e => ((if e = .link then s.raise 0x53 src 0 a else s.raiseDecode src 0 a), [], e.code)
    | .ok t =>
      if !depMayRead t then (s.raiseViolation src 0 a false, [], 0x02)
      else
        match accRead s src t n with
        | (s, .error e) => (s, [], e.code)
        | (s, .ok b) => let (s, r, c) := depFetch d l s; (s, b ++ r, c)

/-- OBSERVER_FETCH_DONE. -/
def execObserverFetchDone (d : Fin 2) (s : State) : Out :=
  let x := s.deps[d]
  .next (match x.fetch with
    | none => s
    | some (src, len, dst) =>
      if !x.alive then s
      else
        let (s, b, c) := if s.hubAlive then depFetch d (pieces (len / 256 + 2) src len) s else (s, [], (0x04 : BitVec 8))
        let s := (writeSpace s (.dep d) dst b).1
        s.modDep d fun x => { x with fetch := none, dfBusy := false, dfCode := c, dfCrc := BitVec.ofNat 32 (crc32c b) })

/-! ## The aggregator (R399) -/

/-- The order in which records of one aggregator cycle are entered. -/
def recBefore (a b : ErrRec) : Bool := a.cat.toNat < b.cat.toNat || (a.cat == b.cat && a.src.toNat < b.src.toNat)

/-- The record to enter next: among those detected when the oldest was, the first in that order; and its position. -/
def nextRaised (l : List ErrRec) : Option (Nat × ErrRec) :=
  match l with
  | [] => none
  | r :: _ =>
    ((List.range l.length).zip l).foldl (fun (b : Option (Nat × ErrRec)) x =>
      if x.2.dt ≠ r.dt then b
      else match b with | none => some x | some y => if recBefore x.2 y.2 then some x else b) none

/-- ERROR_RECORD: one record enters the log, is counted, and goes to the deputies other than the one that raised it. -/
def execErrorRecord (s : State) : Out :=
  .next (match nextRaised s.saf.raised with
    | none => s
    | some (i, r) =>
      if !s.hubAlive then s
      else
        let s := s.modSaf fun f =>
          { f with raised := f.raised.eraseIdx i, log := f.log.set f.next.toFin r, next := f.next + 1, entered := f.entered + 1,
                   cats := if f.cats.any fun c => c.1 == r.cat then f.cats.map fun c => if c.1 = r.cat then (c.1, satInc c.2) else c
                           else f.cats ++ [(r.cat, 1)] }
        let f (s : State) (d : Fin 2) : State :=
          if r.origin.toNat = d.val + 1 then s else s.modDep d fun x => { x with inbox := x.inbox ++ [r] }
        f (f s 0) 1)

/-- DEPUTY_ERROR_REACTION: the oldest record that has reached a deputy enters its copy and takes its reaction (R399, R400). -/
def execDeputyErrorReaction (d : Fin 2) (s : State) : Out :=
  let x := s.deps[d]
  .next (match x.inbox with
    | [] => s
    | r :: rs =>
      let s := s.modDep d fun x => { x with inbox := rs }
      if !x.operational || x.state = .reset then s
      else
        let s := (s.depEnter d r).depReact d r
        if (s.deps[d]).hubLost then s else s.syncSaf d)

/-! ## Heartbeats (R403) -/

/-- A deputy takes a heartbeat: its device time follows DT, and what it measures goes on. -/
def Deputy.heartbeat (x : Deputy) (dt : BitVec 64) (sq : BitVec 32) : Deputy :=
  let n := dt - x.ownDt
  let opt (o : Option (BitVec 64)) : Option (BitVec 64) := o.map (· + n)
  { x with ownDt := dt, hbAt := dt, hbSeq := sq, wdtSince := x.wdtSince + n, imgTry := x.imgTry + n, pinTest := opt x.pinTest,
           nextTx := opt x.nextTx }

/-- HUB_HEARTBEAT: `reachA`, `reachB` say whether the heartbeat reaches SD-A and SD-B. -/
def execHubHeartbeat (reachA reachB : Bool) (s : State) : Out :=
  .next (if !s.hubAlive then s
    else
      let sq := s.saf.hbSeq + 1
      let s := s.modSaf fun f => { f with hbSeq := sq }
      let f (s : State) (d : Fin 2) (r : Bool) : State :=
        let x := s.deps[d]
        if r && !x.hubLost && !(x.state == .reset) && x.hbSeq ≠ sq then s.modDep d fun x => x.heartbeat s.dt sq else s
      f (f s 0 reachA) 1 reachB)

/-- DEPUTY_HEARTBEAT: it carries the deputy's state, pin and release. -/
def execDeputyHeartbeat (d : Fin 2) (s : State) : Out :=
  let x := s.deps[d]
  .next (if s.hubAlive && x.alive && !x.hubLost then
      (s.modSaf fun f => { f with depHb := f.depHb.set d (some s.dt) }).syncSaf d
    else s)

/-- HUB_LOST: 100 µs without a heartbeat with a new sequence number; the deputy releases. -/
def execHubLost (d : Fin 2) (s : State) : Out :=
  let x := s.deps[d]
  .next (if x.alive && !x.hubLost && 100000 ≤ (x.ownDt - x.hbAt).toNat then
      (s.modDep d fun x => { x with hubLost := true }).raiseDep d 0x09 0
    else s)

/-- DEPUTY_LOST: a deputy that has been heard is silent for 100 µs. -/
def execDeputyLost (d : Fin 2) (s : State) : Out :=
  .next (match s.saf.depHb[d] with
    | none => s
    | some t =>
      if !s.hubAlive || (s.dt - t).toNat < 100000 then s
      else
        let s := s.modSaf fun f =>
          let f := { f with depHb := f.depHb.set d none, degraded := true }
          if d = 0 then { f with daState := 0, erra := true, rela := false } else { f with dbState := 0, errb := true, relb := false }
        s.raise 0x08 (BitVec.ofNat 12 (0x102 + d.val)) 0 d.val)

/-! ## Refuge transmission (R407) -/

/-- The frames of one transmission. -/
def refugeFrames (x : Deputy) (d : Fin 2) (free : Nat) : List CanFrame :=
  let rec_ := memGetN x.sram 0x1FF000 1088
  let ok := u32 rec_ 60 == crc32c (sub rec_ 0 60 ++ rec_.drop 64)
  let ext := x.canId.getLsbD 31
  let id (k : Nat) : Nat := (x.canId.toNat % 2 ^ 29 + k) % 2 ^ (if ext then 29 else 11)
  let sq := if ok then u32 rec_ 32 else (Config.freeWord free).toNat % 2 ^ 32
  let last : CanFrame :=
    { id := id 17, ext := ext,
      data := natLe 8 x.ownDt.toNat ++ natLe 4 sq ++ natLe 1 (b2n (!ok) + 2 * b2n x.hubLost + 4 * d.val) ++ [0, 0, 0] }
  (if ok then (List.range 17).map fun k => ({ id := id k, ext := ext, data := sub rec_ (64 * k) 64 } : CanFrame) else []) ++ [last]

/-- REFUGE_TRANSMISSION. -/
def execRefugeTransmission (d : Fin 2) (s : State) : Out :=
  let x := s.deps[d]
  .next (match x.nextTx with
    | none => s
    | some t =>
      if !x.runs || !x.rel || x.ownDt.toNat < t.toNat then s
      else
        (s.useFree 1).modDep d fun x =>
          { x with canTx := (refugeFrames x d s.free).reverse ++ x.canTx, nextTx := some (x.ownDt + BitVec.ofNat 64 (1000000 * x.rpt.toNat)) })

/-! ## Lockstep, latent-fault tests, debug actions (R408 to R412) -/

/-- LOCKSTEP_MISMATCH: the output is not performed; the MP restarts (R456), a deputy faults (R397). -/
def execLockstepMismatch (w : Pair) (s : State) : Out :=
  .next (match w with
    | .mp => if s.mpGone then s else (s.raise 0x01 0x100 0 0).mpRestart
    | .dep d => if (s.deps[d]).alive then s.depFault d 0x02 else s)

/-- LATENT_FAULT_TEST: what a test changes. A test that passes changes nothing, but for the aggregator's record; a failure is
entered where the spec gives it a category. -/
def execLatentFaultTest (t : LatentTest) (passed : Bool) (s : State) : Out :=
  .next (match t with
    | .lampMp => if passed || s.mpGone then s else (s.raise 0x03 0x100 0 0).modSaf fun f => { f with mpUnprot := true }
    | .lampDep d => if passed || !(s.deps[d]).alive then s else s.depFault d 0x03
    | .aggregator => if s.mpGone then s else s.raise 0xFE 0x100 0 0
    | .pinReadback d => if passed || !(s.deps[d]).alive then s else s.raiseDep d 0x0B 0
    | .depEcc _ => s
    | .monitors => s
    | .tempSensors => s
    | .firewalls => s
    | .thermtrip => s
    | .depWatchdog _ => s)

/-- DEBUG_ACTION_REPLAY: the oldest action of the replay buffer is applied to the checker core, which then is in the state of
the main core. -/
def execDebugActionReplay (w : Pair) (s : State) : Out :=
  .next (match w with
    | .mp => s.modDbg fun b => { b with replay := b.replay.drop 1 }
    | .dep d => s.modDep d fun x => { x with replay := x.replay.drop 1 })

end Sys2Proof.Machine
end

