-- ==== Sys2Proof/Machine/Ifc.lean ====
section
/-! DEFINITION. The external interfaces: host requests (R484, R521), gPTP, the servo and PPS (R487 to R490), CAN FD (R493), GPIO
(R483), the calendar (R505 to R509), and debug (R511 to R513). -/

namespace Sys2Proof.Config

open Sys2Proof

/-- An acceptance filter of a CAN FD controller lets a frame through: the form of a filter is that of the board description
(R493). The filter and the frame's identifier and format. -/
opaque canAccepts : Nat × Bool → Nat → Bool → Bool

/-- A ring entry for a received frame; the layout of CAN ring entries is not given (R493). -/
opaque canEntry : CanFrame → List Byte

/-- Bytes of an entry of a CAN ring. -/
opaque canEntryLen : Nat

/-- The frame that an entry of a transmit ring holds; none where no frame has been written. -/
opaque canFrameOf : List Byte → Option CanFrame

/-- What the board description of boot flash gives a CAN FD controller (R493, R496): its filters, the hub-store offset, entries
and tally of its receive ring, and the hub-store offset and entries of its transmit ring. -/
opaque boardCan : Mem → Nat → List (Nat × Bool) × (Nat × Nat × Nat) × (Nat × Nat)

end Sys2Proof.Config

namespace Sys2Proof.Machine

/-! ## The host (R484) -/

/-- The device-physical address of a host access; none where the window maps nothing. -/
def hostAddr (s : State) (bar : Bar) (off : Nat) : Option Nat :=
  match bar with
  | .bar0 => if off < 0x3000000 then some (csrBase + off) else none
  | .bar2 => some (s.ifc.bar2.toNat % 512 * 2 ^ 32 + off)

/-- HOST_REQUEST: a request of source 0x130 reaches the hub's port; past CSR space BAR0 reads 0 and ignores writes. Its class and
deadline are open values. -/
def execHostRequest (bar : Bar) (off len : Nat) (write : Bool) (data : List Byte) (s : State) : Out :=
  let n := if write then data.length else len
  let size := match bar with | .bar0 => 0x4000000 | .bar2 => 0x100000000
  .next (if !s.hubAlive || n = 0 || size < off + n then s
    else
      match hostAddr s bar off with
      | none => s.modIfc fun i => { i with hostResp := some (if write then [] else List.replicate n (0 : Byte), 0) }
      | some a =>
        let c : BitVec 3 := bits (Config.freeWord s.free) 0 3
        let dl : BitVec 24 := bits (Config.freeWord s.free) 8 24
        let (s, _) := (s.useFree 1).submit 0x130 a n write (if write then data else []) c dl .host
        s.modIfc fun i => { i with hostOut := i.hostOut + 1 })

/-- PCIE_RESET: every queue pair is disabled, and what the host was waiting for is lost with the link (R521). -/
def execPcieReset (s : State) : Out :=
  let s := s.modCmd fun c => { c with q := c.q.map fun x => { x with enable := false } }
  .next (s.modIfc fun i => { i with hostOut := 0, hostResp := none })

/-! ## PTP time (R487 to R490) -/

def billion : Int := 1000000000

/-- PTP time (R489). -/
def State.ptp (s : State) : Int := (s.dt + s.tim.ptpOffset).toInt

/-- GPTP_EVENT_MESSAGE: the port stamps it; a port with peer delay measures its phase. -/
def execGptpEventMessage (port : Fin 4) (phaseNs : Int) (s : State) : Out :=
  .next (if !s.hubAlive then s
    else s.modIfc fun i =>
      { i with gptpStamp := i.gptpStamp.set port s.dt,
               gptpPhase := if i.gptpMask.getLsbD port.val then i.gptpPhase.set port (some phaseNs) else i.gptpPhase })

/-- SERVO_ADJUST: once per second with a source selected. RATE takes a value within its range that the spec does not fix; a gPTP
phase error above 1 ms steps the offset to the measured phase; LOCKED after ten good seconds. -/
def execServoAdjust (phaseNs : Int) (s : State) : Out :=
  .next (if !s.hubAlive || s.tim.src = 0 then s
    else
      let rate : BitVec 16 := BitVec.ofInt 16 ((Config.freeWord s.free).toNat % 20001 - 10000)
      let good := if phaseNs.natAbs < 1000 then s.tim.goodSec + 1 else 0
      let s := (s.useFree 1).modTim fun t => { t with rate := rate, goodSec := min good 10, locked := decide (10 ≤ good) }
      if s.tim.src = 1 && 1000000 < phaseNs.natAbs then s.stepOffset (s.tim.ptpOffset + BitVec.ofInt 64 phaseNs) else s)

/-- PPS_IN: with the PPS source, an edge more than 1 ms from a whole second of PTP time steps the offset to that second; the count
of seconds stays. -/
def execPpsIn (s : State) : Out :=
  .next (if !s.hubAlive || s.tim.src ≠ 2 then s
    else
      let r := s.ptp.emod billion
      if 1000000 < min r (billion - r) then s.stepOffset (s.tim.ptpOffset - BitVec.ofInt 64 r) else s)

/-- PPS_OUT: high for the first 100 ms of every second of PTP time. -/
def execPpsOut (s : State) : Out :=
  .next (if !s.hubAlive then s else s.modIfc fun i => { i with ppsOut := decide (s.ptp.emod billion < 100000000) })

/-! ## CAN FD (R493) -/

/-- The frame is one that fusion consumes (R344). -/
def State.fusionTakes (s : State) (c : Fin 4) (f : CanFrame) : Bool :=
  s.fusionOn && c.val == u8 s.fusT 20 && f.id == u32 s.fusT 24 && f.ext == (u8 s.fusT 21).testBit 0

/-- Device-physical address of an entry of a CAN ring in hub store. -/
def canSlot (base k : Nat) : Nat := hubBase + base + Config.canEntryLen * k

/-- CAN_FRAME_RX: an accepted frame that fusion does not consume goes to the receive ring, whose tally is signalled; whether the
ring is full, which its reader decides, is an open value. -/
def execCanFrameRx (c : Fin 4) (f : CanFrame) (s : State) : Out :=
  let x := s.ifc.can[c]
  .next (if !s.hubAlive || !x.enabled || s.fusionTakes c f || !(x.filters.any fun k => Config.canAccepts k f.id f.ext) then s
    else
      let full := Config.freeBool s.free
      let s := s.useFree 1
      let set (g : Can → Can) (s : State) : State := s.modIfc fun i => { i with can := vmod i.can c g }
      if full || x.rxSize = 0 then set (fun k => { k with drop := satInc k.drop }) s
      else
        let s := s.engPut 0x100 (canSlot x.rxBase x.rxHead) (Config.canEntry f)
        (set (fun k => { k with rxHead := (k.rxHead + 1) % k.rxSize }) s).sendSignal 0x100 x.rxTally 1)

/-- CAN_FRAME_TX: the next frame of the transmit ring, in the order written. -/
def execCanFrameTx (c : Fin 4) (s : State) : Out :=
  let x := s.ifc.can[c]
  .next (if !s.hubAlive || !x.enabled || x.txSize = 0 then s
    else
      match engRead s 0x100 (canSlot x.txBase x.txHead) Config.canEntryLen with
      | (s, .ok b) =>
        (match Config.canFrameOf b with
         | some f => s.modIfc fun i => { i with can := vmod i.can c fun k => { k with sent := f :: k.sent, txHead := (k.txHead + 1) % k.txSize } }
         | none => s)
      | (s, .error _) => s)

/-! ## GPIO (R483) -/

/-- GPIO_EDGE. -/
def execGpioEdge (pin : Fin 16) (level : Bool) (s : State) : Out :=
  .next (if !s.hubAlive || s.ifc.gpio.getLsbD pin.val = level then s
    else s.modIfc fun i => { i with gpio := i.gpio ^^^ (1#16 <<< pin.val), gpioDt := i.gpioDt.set pin s.dt })

/-! ## The calendar (R505 to R510) -/

/-- Gregorian leap year, by the offset from 2000. -/
def leapYear (y : Nat) : Bool := let n := 2000 + y; n % 4 = 0 && (n % 100 ≠ 0 || n % 400 = 0)

def monthDays (y m : Nat) : Nat :=
  if m = 2 then (if leapYear y then 29 else 28) else if m = 4 || m = 6 || m = 9 || m = 11 then 30 else 31

/-- The date and time are possible (R507). -/
def CalTime.possible (c : CalTime) : Bool :=
  let m := c.month.toNat
  1 ≤ m && m ≤ 12 && 1 ≤ c.day.toNat && c.day.toNat ≤ monthDays c.year.toNat m && c.hour.toNat ≤ 23 && c.minute.toNat ≤ 59 &&
  c.second.toNat ≤ 59 && c.year.toNat ≤ 199

/-- One second later, and whether the calendar has rolled over (R505, R509). -/
def CalTime.next (c : CalTime) : CalTime × Bool :=
  let c := { c with sub := 0 }
  if c.second.toNat < 59 then ({ c with second := c.second + 1 }, false)
  else
    let c := { c with second := 0 }
    if c.minute.toNat < 59 then ({ c with minute := c.minute + 1 }, false)
    else
      let c := { c with minute := 0 }
      if c.hour.toNat < 23 then ({ c with hour := c.hour + 1 }, false)
      else
        let c := { c with hour := 0 }
        if c.day.toNat < monthDays c.year.toNat c.month.toNat then ({ c with day := c.day + 1 }, false)
        else
          let c := { c with day := 1 }
          if c.month.toNat < 12 then ({ c with month := c.month + 1 }, false)
          else
            let c := { c with month := 1 }
            if c.year.toNat < 199 then ({ c with year := c.year + 1 }, false) else (CalTime.epoch, true)

def CalTime.sameDay (a b : CalTime) : Bool := a.year == b.year && a.month == b.month && a.day == b.day

/-- The live calendar takes a value; on a new date the wear ledger opens a new daily total (R477). -/
def State.setCalendar (s : State) (c : CalTime) : State :=
  let old := s.tim.live
  let s := s.modTim fun t => { t with live := c }
  if old.sameDay c then s else s.modWear fun w => { w with die := w.die.map fun x => { x with days := ((0, 0) :: x.days).take 181 } }

/-- CALENDAR_SECOND. -/
def execCalendarSecond (s : State) : Out :=
  .next (if !s.boot.valid.contains .ao then s
    else
      let (c, wrap) := s.tim.live.next
      (s.setCalendar c).modTim fun t => { t with calWrap := t.calWrap || wrap })

/-- The snapshot: every live field at once; the sub-second divider is an open value. -/
def State.calSnapOp (s : State) : State :=
  (s.useFree 1).modTim fun t => { t with snap := { t.live with sub := bits (Config.freeWord s.free) 0 15 } }

/-- The commit of the staged date and time (R507). -/
def State.calCommitOp (s : State) : State :=
  if s.tim.stage.possible then
    (s.setCalendar { s.tim.stage with sub := 0 }).modTim fun t => { t with calErr := false, calValid := true }
  else s.modTim fun t => { t with calErr := true }

/-- Who may write TIM_CAL_CTRL and the staging registers (R510). -/
def calRight (src : Src) : Bool := src == 0x130 || src == 0x100

def calCtrlOff : Nat := 0x1100020

/-- CAL_SNAP. -/
def execCalSnap (src : Src) (s : State) : Out := .next (if calRight src then s.calSnapOp else s.csrViolation src calCtrlOff)

/-- CAL_COMMIT. -/
def execCalCommit (src : Src) (s : State) : Out := .next (if calRight src then s.calCommitOp else s.csrViolation src calCtrlOff)

/-! ## Debug (R511 to R513, R410) -/

/-- JTAG_INSTRUCTION. -/
def execJtagInstruction (i : JtagInstr) (s : State) : Out :=
  let no := i == .extest && (s.deps[(0 : Fin 2)].state == .ready || s.deps[(1 : Fin 2)].state == .ready)
  .next (s.modDbg fun d => if no then { d with probe := true, refused := true } else { d with probe := true, refused := false, tap := i })

/-- Run control of a sequencer. A register is written while the processor is held. -/
def Seq.runControl (q : Seq) (a : RunAction) : Seq :=
  match a with
  | .halt => { q with dbgHalt := true }
  | .step => if q.dbgHalt then { q with dbgStep := true, bpArmed := false, run := if q.run = .halted then .running else q.run } else q
  | .resume => { q with dbgHalt := false, dbgStep := false, bpArmed := false, run := if q.run = .halted then .running else q.run }
  | .breakpoint k addr => { q with bps := q.bps.set k addr }
  | .writeReg n v => if q.dbgHalt then writeReg q n false v else q

/-- A compute core: halting and resuming act on HALT_REQ too. -/
def Tile.runControl (x : Tile) (a : RunAction) : Tile :=
  let x := match a with | .halt => { x with haltReq := true } | .step => { x with haltReq := false } | .resume => { x with haltReq := false } | _ => x
  { x with seq := x.seq.runControl a }

/-- The action is one that the MP or a deputy knows. -/
def pairAction : RunAction → Bool
  | .breakpoint _ _ => false
  | _ => true

/-- RUN_CONTROL. On the MP and on a deputy the action also enters the replay buffer of its checker, and waits while that is full. -/
def execRunControl (p : Proc) (a : RunAction) (s : State) : Out :=
  .next (match p with
    | .core t => s.modTile t fun x => x.runControl a
    | .mp =>
      if !pairAction a || 64 ≤ s.dbg.replay.length then s
      else (s.modSeq .mp fun q => q.runControl a).modDbg fun d => { d with replay := d.replay ++ [a] }
    | .dep d =>
      if !pairAction a || !(s.deps[d]).dbgEn || 64 ≤ (s.deps[d]).replay.length then s
      else (s.modSeq (.dep d) fun q => q.runControl a).modDep d fun x => { x with replay := x.replay ++ [a] })

/-- TRACE_SYNC: the port, which a debug tool has enabled, emits a DT packet; with the trace buffer full, which is an open value,
the packet is dropped and counted. -/
def execTraceSync (s : State) : Out :=
  let full := Config.freeBool s.free
  .next ((s.useFree 1).modDbg fun d =>
    if full then { d with trace := true, tdrop := satInc d.tdrop } else { d with trace := true, packets := s.dt :: d.packets })

end Sys2Proof.Machine
end

