-- ==== Sys2Proof/Machine/Gallery.lean ====
section
/-! DEFINITION. The gallery links: frames (R497, R499, R500), messages (R498, R504) and link states (R501 to R503). -/

namespace Sys2Proof.Machine

/-! ## Frames -/

def galMarker : List Byte := [0xE4, 0xD7, 0x1B, 0x28]

/-- The header check of a frame: CRC-16 (R497). -/
def hcrcParam : CrcParam := { width := 16, poly := 0x1021, init := 0xFFFF, refin := false, refout := false, xorout := 0 }

/-- The eight bytes are MARKER, SEQ and a correct HCRC. -/
def galHit (b : List Byte) : Bool := b.take 4 == galMarker && b.length == 8 && leAt b 6 2 == crcValue hcrcParam (b.take 6)

/-- One bit through the self-synchronising descrambler, polynomial x^58 + x^39 + 1: the register holds the received bits, the
newest in bit 0. -/
def descrBit (r : BitVec 58) (bit : Bool) : BitVec 58 × Bool :=
  (r <<< 1 ||| (if bit then 1#58 else 0#58), bit != (r.getLsbD 38 != r.getLsbD 57))

/-- A byte, least significant bit first. -/
def descrByte (r : BitVec 58) (b : Byte) : BitVec 58 × Byte :=
  (List.range 8).foldl (fun (x : BitVec 58 × Byte) i =>
    let y := descrBit x.1 (b.getLsbD i)
    (y.1, if y.2 then x.2 ||| (1#8 <<< i) else x.2)) (r, 0)

def descrBytes : BitVec 58 → List Byte → BitVec 58 × List Byte
  | r, [] => (r, [])
  | r, b :: bs =>
    let x := descrByte r b
    let y := descrBytes x.1 bs
    (y.1, x.2 :: y.2)

/-- Frames received ahead of their turn are delivered as far as they follow on: at most `n` of them. -/
def Link.drainEarly : Nat → Link → Link
  | 0, k => k
  | n + 1, k =>
    match k.early.find? fun x => x.1 == k.rxSeq with
    | none => k
    | some x => Link.drainEarly n { k with stream := k.stream ++ x.2, rxSeq := k.rxSeq + 1, early := k.early.filter fun y => y.1 ≠ x.1 }

/-- A good frame: delivered in the order of SEQ and once; a gap is asked for again (R500). -/
def Link.takeFrame (k : Link) (sq : BitVec 16) (payload : List Byte) : Link :=
  let k := { k with asked := k.asked.filter (· ≠ sq) }
  let ahead := (sq - k.rxSeq).toNat
  if ahead = 0 then Link.drainEarly k.early.length { k with stream := k.stream ++ payload, rxSeq := k.rxSeq + 1 }
  else if 32768 ≤ ahead || k.early.any (fun x => x.1 == sq) then k
  else
    let gap := ((List.range ahead).map fun i => k.rxSeq + BitVec.ofNat 16 i).filter fun q =>
      !k.asked.contains q && !(k.early.any fun x => x.1 == q)
    { k with early := k.early ++ [(sq, payload)], asked := k.asked ++ gap }

/-! ## Loss of a link (R500 to R502) -/

/-- Every outstanding operation of a link's epoch is settled and entered. -/
def State.settleLink (s : State) (l : Fin 2) : State :=
  let s := (s.ifc.link[l]).out.foldl (fun s x => (s.raise 0x53 x.2.src x.2.part x.2.addr).sendResp x.2 (.partner 0) (.error .link)) s
  let procs : List Proc := .mp :: ((List.range 136).filterMap (finOf 136)).map Proc.core
  let s := procs.foldl (fun s p =>
    let mine (x : SigrSlot) : Bool := x.link == l && x.result.isNone
    let l' := (s.seq p).sigrs.filter mine
    if l'.isEmpty then s
    else
      let s := l'.foldl (fun s x => s.raise 0x53 (s.srcOf p) (s.partOf (s.srcOf p)) x.home) s
      s.modSeq p fun q => { q with sigrs := q.sigrs.map fun x => if mine x then { x with result := some false } else x }) s
  let unask (r : Req) : Req := match r.org with | .partner k _ => if k = l then { r with org := .debug } else r | _ => r
  let s := s.modFab (·.mapReqs unask)
  let noAck (o : TallyOp) : TallyOp := match o with
    | .sig home src part n m (some (k, tag)) => .sig home src part n m (if k = l then none else some (k, tag))
    | o => o
  s.modTly fun y => { y with queue := y.queue.map fun (q : List TallyOp) => q.map noAck }

/-- A link in service enters LOST. -/
def State.loseLink (s : State) (l : Fin 2) : State :=
  if (s.ifc.link[l]).state = .up then
    (s.settleLink l).modLink l fun k =>
      { k with state := .lost, out := [], stream := [], early := [], asked := [], retryAt := some (s.dt + 10000000) }
  else s

/-- GALLERY_FRAME_RX: a frame at the boundary of a receiver in LOCKED. -/
def execGalleryFrameRx (l : Fin 2) (raw : List Byte) (s : State) : Out :=
  let k := s.ifc.link[l]
  .next (if !s.hubAlive || !k.locked || raw.length ≠ 256 then s
    else
      let (r, d) := descrBytes k.descr (raw.drop 8)
      let hdr := galHit (raw.take 8)
      let pay := leAt d 244 4 == crc32c (d.take 244)
      let bh := if hdr then 0 else k.badHdr + 1
      let bp := if pay then 0 else k.badPay + 1
      let s := s.modLink l fun k =>
        let k := { k with descr := r, badHdr := bh, badPay := bp }
        if k.state ≠ .up then k
        else if hdr && pay then k.takeFrame (BitVec.ofNat 16 (leAt raw 4 2)) (d.take 244)
        else if k.asked.contains k.rxSeq then k else { k with asked := k.asked ++ [k.rxSeq] }
      if 4 ≤ bh || 4 ≤ bp then
        (s.modLink l fun k => { k with locked := false, badHdr := 0, badPay := 0 }).loseLink l
      else s)

/-- GALLERY_HUNT: the first position with four hits, 256 bytes apart. -/
def execGalleryHunt (l : Fin 2) (stream : List Byte) (s : State) : Out :=
  let hit (p : Nat) : Bool := galHit ((stream.drop p).take 8)
  .next (if !s.hubAlive || (s.ifc.link[l]).locked then s
    else if (List.range stream.length).any fun p => hit p && hit (p + 256) && hit (p + 512) && hit (p + 768) then
      s.modLink l fun k => { k with locked := true, badHdr := 0, badPay := 0 }
    else s)

/-! ## Messages -/

/-- Data bytes behind a head. -/
def galDataLen (typ len : Nat) : Nat := if typ = 2 || typ = 3 then 8 * (len + 1) else 0

/-- The oldest message of a link, once all of it has arrived, and the bytes behind it. -/
def Link.message (k : Link) : Option (GalMsg × List Byte) :=
  let b := k.stream
  if b.length < 16 then none
  else
    let typ := u8 b 0
    let n := galDataLen typ (u8 b 15)
    if b.length < 16 + n then none
    else some ({ typ := BitVec.ofNat 8 typ, epoch := BitVec.ofNat 8 (u8 b 1), tag := BitVec.ofNat 16 (u16 b 2),
                 label := BitVec.ofNat 48 (leAt b 4 6), addr := BitVec.ofNat 40 (leAt b 10 5), len := BitVec.ofNat 8 (u8 b 15),
                 data := sub b 16 n }, b.drop (16 + n))

def galSrc (l : Fin 2) : Src := BitVec.ofNat 12 (0x138 + l.val)

/-- A row that takes the oldest message of a link, if it is of the row's types; a message of another epoch is discarded, counted
and entered (R502). -/
def galRow (l : Fin 2) (mine : Nat → Bool) (s : State) (body : GalMsg → State → State) : Out :=
  let k := s.ifc.link[l]
  .next (if !s.hubAlive || k.state ≠ .up then s
    else
      match k.message with
      | none => s
      | some (m, rest) =>
        if !mine m.typ.toNat then s
        else
          let s := s.modLink l fun k => { k with stream := rest }
          if m.epoch = k.epoch then body m s
          else (s.modLink l fun k => { k with stale := satInc k.stale }).raise 0x53 (galSrc l) 0 l.val)

/-- A request from the partner enters the fabric with the PART, CLASS and DL of its LABEL (R254, R504). -/
def State.partnerRequest (s : State) (l : Fin 2) (m : GalMsg) (write : Bool) : State :=
  let v := m.label.toNat
  let n := 8 * (m.len.toNat + 1)
  let (s, id) := s.submit (galSrc l) m.addr.toNat n write m.data (BitVec.ofNat 3 (nbits v 24 3)) (BitVec.ofNat 24 v) (.partner l m.tag)
  s.modFab fun f => { f with ports := f.ports.map fun x => if x.id = id then { x with part := BitVec.ofNat 4 (nbits v 27 4) } else x }

/-- GALLERY_READ_REQUEST: LEN gives the bytes asked for. -/
def execGalleryReadRequest (l : Fin 2) (s : State) : Out := galRow l (· == 1) s fun m s => s.partnerRequest l m false

/-- GALLERY_WRITE_REQUEST. -/
def execGalleryWriteRequest (l : Fin 2) (s : State) : Out := galRow l (· == 2) s fun m s => s.partnerRequest l m true

/-- An answer settles the outstanding request with its tag; with none it has no effect. -/
def State.partnerAnswer (s : State) (l : Fin 2) (m : GalMsg) (fits : Req → Bool) (res : Req → Except AccessErr (List Byte)) : State :=
  match (s.ifc.link[l]).out.find? fun x => x.1 == m.tag && fits x.2 with
  | none => s
  | some x => (s.modLink l fun k => { k with out := k.out.filter fun y => y.1 ≠ m.tag }).sendResp x.2 (.partner 0) (res x.2)

/-- GALLERY_READ_RESPONSE. -/
def execGalleryReadResponse (l : Fin 2) (s : State) : Out :=
  galRow l (· == 3) s fun m s => s.partnerAnswer l m (fun r => !r.write) fun r => .ok (m.data.take r.len)

/-- GALLERY_WRITE_ACK. -/
def execGalleryWriteAck (l : Fin 2) (s : State) : Out :=
  galRow l (· == 4) s fun m s => s.partnerAnswer l m (fun r => r.write) fun _ => .ok []

/-- GALLERY_SIGNAL: the signal goes to its home, which acknowledges it once applied or refused. -/
def execGallerySignal (l : Fin 2) (s : State) : Out :=
  galRow l (· == 5) s fun m s =>
    let home := m.addr.toNat % 2 ^ 14
    s.sendTally home (.sig home (galSrc l) (BitVec.ofNat 4 (nbits m.label.toNat 27 4)) (BitVec.ofNat 8 (nbits m.addr.toNat 14 8)) false
      (some (l, m.tag)))

/-- GALLERY_SIGNAL_ACK: the SIGR of that link, epoch and tag has its result. -/
def execGallerySignalAck (l : Fin 2) (s : State) : Out :=
  galRow l (· == 6) s fun m s =>
    let mine (x : SigrSlot) : Bool := x.link == l && x.tag == m.tag && x.epoch == m.epoch && x.result.isNone
    let f (q : Seq) : Seq := { q with sigrs := q.sigrs.map fun x => if mine x then { x with result := some true } else x }
    let tile (x : Tile) : Tile := { x with seq := f x.seq }
    { s with tiles := s.tiles.map tile, mp := f s.mp }

/-- GALLERY_ERROR_RESPONSE: the message does not say which error the partner met; that is an open value. -/
def execGalleryErrorResponse (l : Fin 2) (s : State) : Out :=
  galRow l (· == 7) s fun m s =>
    let e : AccessErr := match (Config.freeWord s.free).toNat % 3 with | 0 => .decode | 1 => .firewall | _ => .data
    (s.useFree 1).partnerAnswer l m (fun _ => true) fun _ => .error e

/-- GALLERY_IDLE, and a message of a TYPE that R498 does not list: no effect. -/
def execGalleryIdle (l : Fin 2) (s : State) : Out := galRow l (fun t => t == 0 || 8 ≤ t) s fun _ s => s

/-! ## Link states (R501, R502) -/

/-- The MP stage has been reached, from which the links train (R527). -/
def State.galleryOn (s : State) : Bool := s.hubAlive && !(s.boot.stage == .hub || s.boot.stage == .crosscuts || s.boot.stage == .failed)

def otherLink (l : Fin 2) : Fin 2 := if l = 0 then 1 else 0

/-- LINK_TRAINING_DONE: UP with a new epoch, unless the partner is not the other link's. -/
def execLinkTrainingDone (l : Fin 2) (serial : BitVec 64) (half : Bool) (s : State) : Out :=
  let k := s.ifc.link[l]
  let o := s.ifc.link[otherLink l]
  let late := match k.retryAt with | some t => k.state == .lost && decide (t.toNat ≤ s.dtN) | none => false
  .next (if !s.galleryOn || k.state = .up || late then s
    else if o.state ≠ .down && o.partner ≠ some serial then
      (s.modLink l fun k => { k with state := .down, partner := none, retryAt := some (s.dt + 100000000) }).raise 0x53 0 0 l.val
    else
      s.modLink l fun k =>
        { k with state := .up, epoch := k.epoch + 1, half := half, partner := some serial, locked := true, badHdr := 0, badPay := 0,
                 retryAt := none, rxSeq := 0, early := [], asked := [], stream := [] })

/-- LINK_LOST: HUNT in either direction, or a lane fails. -/
def execLinkLost (l : Fin 2) (s : State) : Out := .next (s.loseLink l)

/-- LINK_RETRY_TIMEOUT. -/
def execLinkRetryTimeout (l : Fin 2) (s : State) : Out :=
  let k := s.ifc.link[l]
  .next (match k.retryAt with
    | some t =>
      if k.state = .lost && t.toNat ≤ s.dtN then
        (s.modLink l fun k => { k with state := .down, partner := none, retryAt := some (s.dt + 100000000) }).raise 0x53 0 0 l.val
      else s
    | none => s)

/-- LINK_TRAINING_RETRY: a DOWN link trains again every 100 ms. -/
def execLinkTrainingRetry (l : Fin 2) (s : State) : Out :=
  let k := s.ifc.link[l]
  let due := match k.retryAt with | some t => decide (t.toNat ≤ s.dtN) | none => true
  .next (if s.galleryOn && k.state = .down && due then s.modLink l fun k => { k with retryAt := some (s.dt + 100000000) } else s)

end Sys2Proof.Machine
end

