-- ==== Sys2Proof/Machine/CsrRead.lean ====
section
/-! DEFINITION. What the registers of CSR space read (R529 to R539, and the register tables of each chapter). -/

namespace Sys2Proof.Machine

/-- A register from its fields: lowest bit and value of each. -/
def pack (l : List (Nat × Nat)) : BitVec 32 := BitVec.ofNat 32 (l.foldl (fun (a : Nat) x => a + x.2 * 2 ^ x.1) 0)

/-- Low and high half of a 64-bit register. -/
def loHalf (v : Nat) : BitVec 32 := BitVec.ofNat 32 v
def hiHalf (v : Nat) : BitVec 32 := BitVec.ofNat 32 (v / 2 ^ 32)

/-- The index of a register of an array: `n` of them from offset `o`, `step` bytes apart. -/
def arrIdx (o step n off : Nat) : Option (Fin n) := if o ≤ off && (off - o) % step = 0 then finOf n ((off - o) / step) else none

/-! ## DEV (R30, R31, R528, R536, R537) -/

def Stage.code : Stage → Nat
  | .hub => 0 | .crosscuts => 1 | .mp => 2 | .map => 3 | .dram => 4 | .ready => 5 | .failed => 15

def TileState.code : TileState → Nat
  | .untested => 0 | .active => 1 | .spare => 2 | .retired => 3 | .migrating => 4

def devRead (s : State) (o : Nat) : Option (BitVec 32) :=
  match o with
  | 0x000 => some 0x4D524128
  | 0x004 => some (pack [(24, 0xB0), (16, 0x02), (8, s.boot.fwMaj.toNat), (0, s.boot.fwMin.toNat)])
  | 0x008 => some 0x1412874F
  | 0x00C => some (loHalf s.fuse.serial.toNat)
  | 0x010 => some (hiHalf s.fuse.serial.toNat)
  | 0x100 => some (pack [(28, s.boot.stage.code), (27, b2n s.boot.fullTrain), (26, b2n s.boot.dinit), (16, s.boot.chfail.toNat), (0, s.boot.readyMs.toNat)])
  | 0x104 => some (pack [(3, b2n s.boot.cSupply), (2, b2n s.boot.cWarm), (1, b2n s.boot.cPin), (0, b2n s.boot.cPower)])
  | _ =>
    match arrIdx 0x1000 4 128 o with
    | some n =>
      let m := s.wear.map[n]
      some (pack [(31, b2n m.mapped), (16, m.epoch.toNat), (6, (tileDie m.tile).val), (0, tileSlot m.tile)])
    | none =>
      (arrIdx 0x1400 4 136 o).map fun k =>
        let t := s.wear.tile[k]
        pack [(8, t.lc.toNat), (4, b2n t.suspect), (0, t.state.code)]

/-! ## CMD (R217) -/

def cmdRead (s : State) (o : Nat) : Option (BitVec 32) :=
  if 0x1000 ≤ o then
    match finOf 16 ((o - 0x1000) / 0x40) with
    | none => none
    | some n =>
      let x := s.cmd.q[n]
      match (o - 0x1000) % 0x40 with
      | 0x00 => some (loHalf x.sqBase.toNat)
      | 0x04 => some (hiHalf x.sqBase.toNat)
      | 0x08 => some (loHalf x.cqBase.toNat)
      | 0x0C => some (hiHalf x.cqBase.toNat)
      | 0x10 => some (pack [(31, b2n x.enable), (30, b2n x.sqLoc), (29, b2n x.cqLoc), (16, x.vector.toNat), (4, x.cqSize.toNat), (0, x.sqSize.toNat)])
      | 0x14 => some x.sqTail
      | 0x18 => some x.sqHead
      | 0x1C => some x.cqHead
      | 0x20 => some x.cqTail
      | _ => none
  else none

/-! ## ADM, FAB (R238 ff., R267 ff.) -/

def PState.code : PState → Nat
  | .none => 0 | .loading => 1 | .loaded => 2 | .running => 3 | .readmitting => 4 | .faulted => 5

def admRead (s : State) (o : Nat) : Option (BitVec 32) :=
  let p := s.prog
  match o with
  | 0x00 => some (pack [(28, p.state.code), (16, p.reason.toNat), (0, p.task.toNat)])
  | 0x04 => some p.margin
  | 0x08 => some p.pbase
  | 0x0C => some p.budget
  | 0x10 => some p.shedCount
  | 0x14 => some p.missCount
  | 0x18 => some p.epoch
  | _ => none

def fabRead (s : State) (o : Nat) : Option (BitVec 32) :=
  let f := s.fab
  match o with
  | 0x00 => some (pack [(31, b2n f.loaded), (8, b2n f.modeP), (0, f.hostPart.toNat)])
  | 0x04 => some (pack [(0, b2n f.lock)])
  | 0x20 => some (pack [(16, f.promoDepth.toNat), (0, f.promoPeriod.toNat)])
  | 0x24 => some (pack [(16, f.statPromoted.toNat), (0, f.statLabelFix.toNat)])
  | 0x30 => some (pack [(31, b2n f.violValid), (30, b2n f.violWrite), (20, f.violCount.toNat), (16, f.violPart.toNat), (0, f.violSrc.toNat)])
  | 0x34 => some (loHalf f.violAddr.toNat)
  | 0x38 => some (hiHalf f.violAddr.toNat)
  | _ => (arrIdx 0x10 4 4 o).map fun c => pack [(0, (f.age[c]).toNat)]

/-! ## DMC -/

def ChState.code : ChState → Nat
  | .untrained => 0 | .training => 1 | .active => 2 | .maint => 3 | .error => 4 | .retired => 5

def dmcRead (s : State) (o : Nat) : Option (BitVec 32) :=
  if o < 0x80000 then
    match finOf 8 (o / 0x10000) with
    | none => none
    | some n =>
      let c := s.dmc.ch[n]
      match o % 0x10000 with
      | 0x00 => some (pack [(28, c.state.code), (25, c.bin.toNat), (24, b2n c.set), (21, c.maxbin.toNat), (19, c.refrate.toNat), (8, c.sppr.toNat), (0, c.stepdown.toNat)])
      | 0x04 => some (pack [(16, c.ce.toNat), (8, c.ue.toNat), (0, c.replays.toNat)])
      | 0x08 => some (loHalf (64 * c.errAddr.toNat))
      | 0x0C => some (pack [(31, b2n c.errValid), (30, b2n c.errUe), (29, b2n c.errSub), (0, 64 * c.errAddr.toNat / 2 ^ 32)])
      | 0x10 => some (pack [(24, c.mRd.toNat), (16, c.mWr.toNat), (8, c.mCa.toNat)])
      | _ => none
  else
    let d := s.dmc
    match o - 0x80000 with
    | 0x0 => some (pack [(16, d.minMargin.toNat), (8, d.scrubHours.toNat), (1, b2n d.refmode), (0, b2n d.page)])
    | 0x4 => some (pack [(16, (inservList d.inserv).length), (0, d.inserv.toNat)])
    | 0x8 => some d.restripe
    | 0xC => some (pack [(16, d.rowCeLimit.toNat), (0, d.repairRate.toNat)])
    | _ => none

/-! ## TLY (R212 to R214) -/

def TallyMode.code : TallyMode → Nat
  | .disabled => 0 | .counting => 1 | .event => 2

/-- A waiter pair of the captured tally. -/
def widWord (t : Tally) (k : Nat) : BitVec 32 :=
  let id (i : Nat) : Nat := match t.waiters[i]? with | some w => w.src.toNat | none => 0
  pack [(31, b2n (2 * k + 1 < t.waiters.length)), (16, id (2 * k + 1)), (15, b2n (2 * k < t.waiters.length)), (0, id (2 * k))]

def tlyRead (s : State) (o : Nat) : Option (BitVec 32) :=
  let t := s.tly.dbgCap.getD Tally.off
  let last := t.last.getD (0, 0)
  match o with
  | 0x00 => some (pack [(0, s.tly.dbgSel.toNat)])
  | 0x04 => some (pack [(30, t.mode.code), (29, b2n t.ovf), (28, b2n t.barrier.isSome), (24, t.part.toNat), (0, t.count.toNat)])
  | 0x08 => some (pack [(16, t.lost.toNat), (0, t.waiters.length)])
  | 0x0C => some (widWord t 0)
  | 0x10 => some (widWord t 1)
  | 0x14 => some (widWord t 2)
  | 0x18 => some (widWord t 3)
  | 0x1C => some (pack [(31, b2n t.last.isSome), (0, last.1.toNat)])
  | 0x20 => some (loHalf last.2.toNat)
  | 0x24 => some (hiHalf last.2.toNat)
  | 0x28 => some (match t.barrier with
      | some b => pack [(24, b.arrived.toNat), (16, b.lastLc.toNat), (0, b.lag.toNat)]
      | none => pack [(16, 0xFF)])
  | _ =>
    (arrIdx 0x1000 4 128 o).map fun n =>
      let h := s.tly.late[n]
      pack [(16, h.length), (0, (h.filter id).length)]

/-! ## INT, FUS, PLN, CHK (R339, R366, R389, R429) -/

def StrState.code : StrState → Nat
  | .off => 0 | .active => 1 | .lost => 2 | .resync => 3 | .down => 4

def intRead (s : State) (o : Nat) : Option (BitVec 32) :=
  match arrIdx 0x1000 0x10 56 (o / 16 * 16) with
  | some n =>
    let x := s.int.str[n]
    (match o % 16 with
     | 0x0 => some (pack [(28, x.state.code), (0, x.session.toNat)])
     | 0x4 => some (pack [(16, x.stale.toNat), (0, x.corrupt.toNat)])
     | 0x8 => some (pack [(16, x.subst.toNat), (0, x.absent.toNat)])
     | 0xC => some (pack [(16, x.pmiss.toNat), (0, x.canaries.toNat)])
     | _ => none)
  | none =>
    (arrIdx 0x2000 0x10 8 o).map fun r =>
      let x := s.int.ring[r]
      pack [(16, x.overrun.toNat), (8, x.alarms.toNat), (0, x.next.toNat)]

def fusRead (s : State) (o : Nat) : Option (BitVec 32) :=
  let f := s.fus
  match o with
  | 0x0 => some (pack [(31, b2n f.startDt.isSome), (30, b2n f.egoValid), (29, b2n f.calValid), (28, b2n f.a3), (0, f.late.toNat)])
  | 0x4 => some (BitVec.ofNat 32 f.levelWord)
  | 0x8 => some (pack [(16, f.discard.toNat), (0, f.tracks.length)])
  | 0xC => some f.calWcount
  | _ =>
    match arrIdx 0x100 8 32 o with
    | some n => some (BitVec.ofNat 32 ((f.inp[n]).status (s.fusR n.val)))
    | none => (arrIdx 0x104 8 32 o).map fun n => (f.inp[n]).age

def plnRead (s : State) (o : Nat) : Option (BitVec 32) :=
  match o with
  | 0x0 => some (BitVec.ofNat 32 s.pln.status)
  | 0x4 => some (BitVec.ofNat 32 s.pln.queries)
  | 0x8 => some (BitVec.ofNat 32 s.pln.discards)
  | 0xC => some s.pln.age
  | _ => none

def scanKindCode : Option Scan → Nat
  | none => 0
  | some x => match x.kind with | .canary _ => 1 | .job _ => 2 | .host _ => 3

def chkRead (s : State) (o : Nat) : Option (BitVec 32) :=
  match finOf 4 (o / 0x100) with
  | none => none
  | some u =>
    let c := s.cvu[u]
    match o % 0x100 with
    | 0x0 => some (pack [(30, scanKindCode c.cur), (16, c.lastst.toNat), (0, c.job.toNat)])
    | 0x4 => some (pack [(16, c.mism.toNat), (0, c.susp.toNat)])
    | 0x8 => some (loHalf c.value.toNat)
    | 0xC => some (hiHalf c.value.toNat)
    | _ => none

/-! ## PWR, WEA, SAF (R458, R482, R415) -/

def pwrRead (s : State) (o : Nat) : Option (BitVec 32) :=
  let p := s.pwr
  match o with
  | 0x00 =>
    some (pack [(24, p.drops.toNat), (16, p.denied.toNat), (10, b2n (s.prog.budget.toNat < 180000)), (9, b2n p.mpAbsent), (8, b2n p.peakLock),
                (0, (p.die[0]).tier.toNat), (2, (p.die[1]).tier.toNat), (4, (p.die[2]).tier.toNat), (6, (p.die[3]).tier.toNat)])
  | 0x04 => some (pack [(8, b2n p.lock), (0, p.maxtier.toNat)])
  | 0x08 => some 0
  | 0x0C => some (pack [(16, (p.lockoutUs + 999) / 1000), (0, p.creditUs / 1000)])
  | 0x10 => some (pack [(16, p.peakUs / 1000), (0, p.powerMw / 10)])
  | 0x40 => some (pack [(0, p.tj.toNat)])
  | 0x60 => some (pack [(31, b2n p.coolFault), (0, p.inlet.toNat)])
  | 0x70 => some (pack [(24, p.restarts.toNat), (16, p.overruns.toNat), (0, p.skipped.toNat)])
  | 0x74 => some (pack [(16, p.busy.toNat), (0, s.cmd.mpq.length)])
  | _ =>
    match arrIdx 0x20 8 4 o with
    | some d => some (pack [(24, (p.die[d]).allowUs / 100000), (16, (p.die[d]).current.toNat), (0, (p.die[d]).volt.toNat)])
    | none =>
      match arrIdx 0x24 8 4 o with
      | some d => some (pack [(16, (p.die[d]).aging.toNat), (8, (s.fuse.avsOff[d]).toNat), (0, (p.die[d]).slew.toNat)])
      | none =>
        (arrIdx 0x44 4 5 o).map fun u =>
          let x := p.therm[u]
          pack [(28, x.step.toNat), (16, x.hot.toNat), (8, x.unit.toNat), (0, min 255 x.temp.toNat)]

/-- Saturated to 32 bits. -/
def satWord (v : Nat) : BitVec 32 := BitVec.ofNat 32 (min v (2 ^ 32 - 1))

/-- Tiles of a die in a state. -/
def State.tilesIn (s : State) (d : Fin 4) (st : TileState) : Nat :=
  (((List.range 136).filterMap (finOf 136)).filter fun t => tileDie t == d && (s.wear.tile[t]).state == st).length

def weaRead (s : State) (o : Nat) : Option (BitVec 32) :=
  match o with
  | 0x100 => some (pack [(31, b2n s.wear.lock), (0, s.wear.ceLimit.toNat)])
  | 0x110 => some (pack [(31, b2n s.wear.calValid), (0, s.wear.calWcount.toNat % 2 ^ 31)])
  | _ =>
    match finOf 4 (o / 0x10) with
    | none => none
    | some d =>
      let x := s.wear.die[d]
      match o % 0x10 with
      | 0x0 => some (pack [(16, x.life.toNat), (14, x.limit.toNat), (11, b2n x.lost), (10, b2n x.perm), (8, s.tilesIn d .spare), (0, s.tilesIn d .retired)])
      | 0x4 => some (satWord (x.s / 2 ^ 36))
      | 0x8 => some (satWord (x.c / 51200))
      | 0xC => some (satWord (x.peakMs / 1000))
      | _ => none

def safRead (s : State) (o : Nat) : Option (BitVec 32) :=
  let f := s.saf
  match o with
  | 0x0 =>
    some (pack [(30, f.daState.toNat), (28, f.dbState.toNat), (27, b2n f.erra), (26, b2n f.errb), (25, b2n f.safereq), (24, b2n f.rela),
                (23, b2n f.relb), (22, b2n f.degraded), (21, b2n f.mpUnprot)])
  | 0x4 => some (pack [(16, f.entered.toNat), (0, f.next.toNat)])
  | _ =>
    match arrIdx 0x400 4 256 o with
    | some c => some (match f.cats.find? fun x => x.1.toNat == c.val with | some x => x.2 | none => 0)
    | none => (arrIdx 0x1000 4 1024 o).map fun i => BitVec.ofNat 32 (leAt (vgetN f.log (i.val / 4) ErrRec.zero).bytes (4 * (i.val % 4)) 4)

/-! ## IFC, TIM, DBG (R485 to R510, R538, R539) -/

def LinkState.code : LinkState → Nat
  | .down => 0 | .up => 1 | .lost => 2

def ifcRead (s : State) (o : Nat) : Option (BitVec 32) :=
  let i := s.ifc
  if o = 0 then some (pack [(0, i.bar2.toNat)])
  else
    match arrIdx 0x100 4 4 o with
    | some p => some i.ethDrop[p]
    | none =>
      match arrIdx 0x200 4 4 o with
      | some c => some (i.can[c]).drop
      | none =>
        (arrIdx 0x2000 0x100 2 o).map fun l =>
          let k := i.link[l]
          pack [(29, k.state.code), (28, b2n k.half), (16, k.epoch.toNat), (0, k.stale.toNat)]

def CalTime.date (c : CalTime) : BitVec 32 := pack [(16, c.year.toNat), (8, c.month.toNat), (0, c.day.toNat)]
def CalTime.time (c : CalTime) : BitVec 32 := pack [(27, c.hour.toNat), (21, c.minute.toNat), (15, c.second.toNat), (0, c.sub.toNat)]

def timRead (s : State) (o : Nat) : Option (BitVec 32) :=
  let t := s.tim
  match o with
  | 0x00 => some (loHalf t.dt.toNat)
  | 0x04 => some (hiHalf t.dt.toNat)
  | 0x08 => some (loHalf t.ptpOffset.toNat)
  | 0x0C => some (hiHalf t.ptpOffset.toNat)
  | 0x10 => some (pack [(30, t.src.toNat), (29, b2n t.locked), (16, t.steps.toNat), (0, t.rate.toNat)])
  | 0x20 => some (pack [(4, b2n t.calValid), (3, b2n t.calWrap), (2, b2n t.calErr)])
  | 0x24 => some t.snap.date
  | 0x28 => some t.snap.time
  | 0x2C => some t.stage.date
  | 0x30 => some t.stage.time
  | _ => none

/-- A core is halted by run control, or the MP is. -/
def State.debugHalted (s : State) : Bool := (s.mp.dbgHalt && !s.mp.dbgStep) || s.tiles.toList.any fun x => x.seq.run == .halted && x.seq.dbgHalt

def dbgRead (s : State) (o : Nat) : Option (BitVec 32) :=
  if o = 0 then some (pack [(31, b2n s.dbg.probe), (30, b2n s.dbg.trace), (29, b2n s.debugHalted), (0, s.dbg.tdrop.toNat)]) else none

/-! ## Core tiles (R98 to R104) -/

def RunState.code : RunState → Nat
  | .off => 0 | .reset => 1 | .running => 2 | .waiting => 3 | .halted => 4 | .faulted => 5

/-- A register of a tile; `free` stands for CD_CORE_PC while the spec calls it not valid. -/
def coreRead (s : State) (t : Fin 136) (o free : Nat) : Option (BitVec 32) :=
  let x := s.tiles[t]
  let q := x.seq
  match o with
  | 0x00 => some (pack [(7, b2n x.arrayHold), (2, b2n x.haltReq), (1, b2n (q.run != .off && q.run != .reset))])
  | 0x04 =>
    some (pack [(28, q.run.code), (27, b2n q.inTrap), (24, q.depth.toNat % 8), (20, (q.depth - q.floor + 1).toNat % 8), (19, b2n (x.array == .on)),
                (14, min 31 (x.dma.toList.filter (·.isSome)).length),
                (0, if q.run = .waiting then (match q.wait with | some w => w.home | none => 0) else 0)])
  | 0x08 =>
    let pc := match q.run with
      | .halted | .faulted => q.pc.toNat
      | .reset | .off => 0
      | _ => free
    some (pack [(3, nbits pc 3 17)])
  | 0x0C => some (pack [(0, x.aflags.toNat)])
  | 0x10 => some (pack [(16, x.ceCount.toNat), (8, x.ueCount.toNat)])
  | 0x14 => some (pack [(31, b2n x.eccValid), (30, b2n x.eccUe), (3, x.eccAddr.toNat)])
  | 0x18 => some (pack [(0, x.fault.toNat)])
  | _ => none

/-- Tile and offset of a register in a compute die's block. -/
def tileReg (off : Nat) : Option (Fin 136 × Nat) :=
  let d := (off - 0x2000000) / 0x400000
  let r := (off - 0x2000000) % 0x400000
  if r < 0x100000 then none
  else
    let sl := (r - 0x100000) / 0x10000
    if 34 ≤ sl then none else (finOf 136 (34 * d + sl)).map fun t => (t, (r - 0x100000) % 0x10000)

/-! ## The whole space -/

/-- The live value of the register at an offset; none where no register is. -/
def csrLive (s : State) (off : Nat) : Option (BitVec 32) :=
  let free := (Config.freeWord s.free).toNat
  if off < 0x100000 then devRead s off
  else if off < 0x200000 then cmdRead s (off - 0x100000)
  else if off < 0x300000 then admRead s (off - 0x200000)
  else if off < 0x400000 then fabRead s (off - 0x300000)
  else if off < 0x600000 then dmcRead s (off - 0x400000)
  else if off < 0x800000 then tlyRead s (off - 0x600000)
  else if off < 0xA00000 then intRead s (off - 0x800000)
  else if off < 0xB00000 then fusRead s (off - 0xA00000)
  else if off < 0xC00000 then plnRead s (off - 0xB00000)
  else if off < 0xD00000 then chkRead s (off - 0xC00000)
  else if off < 0xE00000 then pwrRead s (off - 0xD00000)
  else if off < 0xF00000 then weaRead s (off - 0xE00000)
  else if off < 0x1000000 then safRead s (off - 0xF00000)
  else if off < 0x1100000 then ifcRead s (off - 0x1000000)
  else if off < 0x1200000 then timRead s (off - 0x1100000)
  else if off < 0x1300000 then dbgRead s (off - 0x1200000)
  else if off < 0x2000000 then none
  else match tileReg off with | some (t, o) => coreRead s t o free | none => none

/-- The offset of the _HI register whose _LO register is at an offset (R534). -/
def hiOf (off : Nat) : Option Nat :=
  let at4 : Option Nat := some (off + 4)
  if off = 0x00C then at4
  else if 0x101000 ≤ off && off < 0x101400 && (off % 0x40 = 0 || off % 0x40 = 8) then at4
  else if off = 0x300034 then at4
  else if 0x400000 ≤ off && off < 0x480000 && off % 0x10000 = 8 then at4
  else if 0xC00000 ≤ off && off < 0xC00400 && off % 0x100 = 8 then at4
  else if off = 0x1100000 || off = 0x1100008 then at4
  else none

/-- A read of a register by a source: a _LO register captures its _HI register for the source, whose next read of that returns the
captured value (R492, R534). -/
def csrRead (s : State) (src : Src) (off : Nat) : State × BitVec 32 :=
  let live := (csrLive s off).getD 0
  match hiOf off with
  | some h =>
    let v := (csrLive s h).getD 0
    (s.modFab fun f => { f with hiCap := (f.hiCap.filter fun x => x.1 ≠ (src, h)) ++ [((src, h), v)] }, live)
  | none =>
    match s.fab.hiCap.find? fun x => x.1 == (src, off) with
    | some x => (s.modFab fun f => { f with hiCap := f.hiCap.filter fun y => y.1 ≠ x.1 }, x.2)
    | none =>
      match if 0x2000000 ≤ off then tileReg off else none with
      | some (_, 8) => (s.useFree 1, live)
      | _ => (s, live)

end Sys2Proof.Machine
end

