-- ==== Sys2Proof/Machine/Csr.lean ====
section
/-! DEFINITION. Writes of CSR space (R532, R533), and requests performed at their targets (R267, R272, R503). -/

namespace Sys2Proof.Machine

/-! ## Who may write (R532) -/

/-- Offsets of the registers of a queue pair that are RW. -/
def cmdRw (o : Nat) : Bool := o == 0 || o == 4 || o == 8 || o == 0xC || o == 0x10 || o == 0x14 || o == 0x1C

/-- The host may write the register now. -/
def hostMayWrite (s : State) (off : Nat) : Bool :=
  (0x101000 ≤ off && off < 0x101400 && cmdRw (off % 0x40)) ||
  off == 0x1000000 || off == calCtrlOff || off == 0x110002C || off == 0x1100030 ||
  off == 0x300024 || off == 0x300030 || off == 0x300004 ||
  (!s.fab.lock && ((0x300010 ≤ off && off ≤ 0x300020))) ||
  (!s.pwr.lock && (off == 0xD00004 || off == 0xD00040)) || (!s.wear.lock && off == 0xE00100)

/-- The MP may write the register: those that a chapter lets it write, its RO fields ignoring the write. -/
def mpMayWrite (off : Nat) : Bool :=
  off < 0x100000 || (0x200000 ≤ off && off < 0x600000) || off == 0x600000 || (0x800000 ≤ off && off < 0xD00000) ||
  off == 0xD00004 || off == 0xD00008 || off == 0xD00040 || (0xD00024 ≤ off && off < 0xD00040 && off % 8 = 4) ||
  (0xE00000 ≤ off && off < 0xF00000) || off == 0x1000000 || off == calCtrlOff || off == 0x110002C || off == 0x1100030 || 0x2000000 ≤ off

/-- A register that the debug subsystem writes: CD_CORE_CTRL under run control, and TLY_DBG_SEL. -/
def debugMayWrite (off : Nat) : Bool :=
  off == 0x600000 || (0x2000000 ≤ off && (match tileReg off with | some (_, 0) => true | _ => false))

/-- A write of the offset by the source is permitted; where no register is, system sources and the host write nothing (R531). -/
def mayWriteCsr (s : State) (src : Src) (off : Nat) : Bool :=
  if (csrLive s off).isNone then isSystem src || src == 0x130
  else if src == 0x130 then hostMayWrite s off
  else if src == 0x100 then mpMayWrite off
  else if src == 0x108 then debugMayWrite off
  else false

/-! ## The effect of a permitted write -/

def setLo (x : BitVec 64) (v : BitVec 32) : BitVec 64 := (bits x 32 32 : BitVec 32) ++ v
def setHi (x : BitVec 64) (v : BitVec 32) : BitVec 64 := v ++ (bits x 0 32 : BitVec 32)

def cmdStore (s : State) (n : Fin 16) (o : Nat) (v : BitVec 32) : State :=
  let base (f : QPair → QPair) : State := if (s.cmd.q[n]).enable then s else s.modQ n f
  match o with
  | 0x00 => base fun x => { x with sqBase := setLo x.sqBase v }
  | 0x04 => base fun x => { x with sqBase := setHi x.sqBase v }
  | 0x08 => base fun x => { x with cqBase := setLo x.cqBase v }
  | 0x0C => base fun x => { x with cqBase := setHi x.cqBase v }
  | 0x10 => qCfgWrite s n v
  | 0x14 => sqTailWrite s n v
  | 0x1C => cqHeadWrite s n v
  | _ => s

def fabStore (s : State) (o : Nat) (v : BitVec 32) : State :=
  match o with
  | 0x04 => if v.getLsbD 0 then s.modFab fun f => { f with lock := true } else s
  | 0x20 =>
    if s.fab.lock then s
    else
      let d : BitVec 4 := bits v 16 4
      let p : BitVec 16 := bits v 0 16
      s.modFab fun f => { f with promoDepth := if d = 0 then f.promoDepth else d, promoPeriod := if p = 0 then f.promoPeriod else p }
  | 0x24 => s.modFab fun f => { f with statPromoted := f.statPromoted &&& ~~~(bits v 16 16), statLabelFix := f.statLabelFix &&& ~~~(bits v 0 16) }
  | 0x30 => if v.getLsbD 31 then s.modFab fun f => { f with violValid := false, violCount := 0 } else s
  | _ =>
    match arrIdx 0x10 4 4 o with
    | some c => if s.fab.lock || (bits v 0 16 : BitVec 16) = 0 then s else s.modFab fun f => { f with age := f.age.set c (bits v 0 16) }
    | none => s

def dmcStore (s : State) (o : Nat) (v : BitVec 32) : State :=
  if o < 0x80000 then
    match finOf 8 (o / 0x10000) with
    | none => s
    | some c =>
      match o % 0x10000 with
      | 0x00 =>
        if s.fab.lock then s
        else s.modCh c fun x => { x with maxbin := bits v 21 3, bin := if (bits v 21 3 : BitVec 3).toNat < x.bin.toNat then bits v 21 3 else x.bin }
      | 0x04 => s.modCh c fun x => { x with ce := bits v 16 16, ue := bits v 8 8, replays := bits v 0 8 }
      | 0x0C => if v.getLsbD 31 then s.modCh c fun x => { x with errValid := false } else s
      | _ => s
  else
    match o - 0x80000 with
    | 0x0 =>
      if s.fab.lock then s
      else
        let h : BitVec 8 := bits v 8 8
        s.modDmc fun d => { d with minMargin := bits v 16 8, scrubHours := if inRange 1 168 h.toNat then h else d.scrubHours,
                                   refmode := v.getLsbD 1, page := v.getLsbD 0 }
    | 0xC => s.modDmc fun d => { d with rowCeLimit := if s.fab.lock then d.rowCeLimit else bits v 16 8, repairRate := bits v 0 16 }
    | _ => s

/-- AGING and SLEW of a die. The aging increment changes only at the sustained tier and by at most 5 mV (R431); the rail's target
follows it. -/
def dieCfgWrite (s : State) (d : Fin 4) (v : BitVec 32) : State :=
  let a : BitVec 8 := bits v 16 8
  let w : BitVec 8 := bits v 0 8
  let x := s.diePwr d
  let ok := a.toNat ≤ 25 && x.tier == 0 && x.change.isNone && a.toNat ≤ x.aging.toNat + 5 && x.aging.toNat ≤ a.toNat + 5
  let s := s.modDie d fun x => { x with aging := if ok then a else x.aging, slew := if inRange 5 50 w.toNat then w else x.slew }
  if ok && a ≠ x.aging then s.modDie d fun x => { x with target := s.tierMv d 0 } else s

def pwrStore (s : State) (o : Nat) (v : BitVec 32) : State :=
  match o with
  | 0x04 => s.modPwr fun p => { p with maxtier := if p.lock then p.maxtier else bits v 0 8, lock := p.lock || v.getLsbD 8 }
  | 0x08 => let d : Fin 4 := (bits v 0 2 : BitVec 2).toFin; if v.getLsbD 2 then raiseOp s d else lowerOp s d
  | 0x40 =>
    let t : BitVec 8 := bits v 0 8
    if s.pwr.lock || !inRange 90 120 t.toNat then s else s.modPwr fun p => { p with tj := t }
  | _ => match arrIdx 0x24 8 4 o with | some d => dieCfgWrite s d v | none => s

def weaStore (s : State) (o : Nat) (v : BitVec 32) : State :=
  if o = 0x100 then
    let l : BitVec 8 := bits v 0 8
    s.modWear fun w => { w with ceLimit := if w.lock || l = 0 then w.ceLimit else l, lock := w.lock || v.getLsbD 31 }
  else s

def timStore (s : State) (o : Nat) (v : BitVec 32) : State :=
  match o with
  | 0x20 =>
    let s := if v.getLsbD 3 then s.modTim fun t => { t with calWrap := false } else s
    let s := if v.getLsbD 1 then s.calCommitOp else s
    if v.getLsbD 0 then s.calSnapOp else s
  | 0x2C => s.modTim fun t => { t with stage := { t.stage with year := bits v 16 8, month := bits v 8 8, day := bits v 0 8 } }
  | 0x30 => s.modTim fun t => { t with stage := { t.stage with hour := bits v 27 5, minute := bits v 21 6, second := bits v 15 6 } }
  | _ => s

/-- A write of CD_CORE_CTRL: reset, ARRAY_HOLD, HALT_REQ, then RUN (R98). -/
def coreCtlWrite (s : State) (t : Fin 136) (v : BitVec 32) : State :=
  let s := if v.getLsbD 0 then coreRstOp s t else s
  let s := s.modTile t fun x => { x with arrayHold := v.getLsbD 7 }
  let s := if v.getLsbD 2 then haltOp s t else resumeOp s t
  if v.getLsbD 1 then runOp s t else s

def coreStore (s : State) (t : Fin 136) (o : Nat) (v : BitVec 32) : State :=
  match o with
  | 0x00 => coreCtlWrite s t v
  | 0x10 => s.modTile t fun x => { x with ceCount := bits v 16 16, ueCount := bits v 8 8 }
  | 0x14 => if v.getLsbD 31 then s.modTile t fun x => { x with eccValid := false } else s
  | _ => s

/-- DEV_RESET_CAUSE is W1C. -/
def devStore (s : State) (o : Nat) (v : BitVec 32) : State :=
  if o = 0x104 then
    s.modBoot fun b => { b with cSupply := b.cSupply && !v.getLsbD 3, cWarm := b.cWarm && !v.getLsbD 2, cPin := b.cPin && !v.getLsbD 1,
                                cPower := b.cPower && !v.getLsbD 0 }
  else s

/-- A permitted write changes the fields that their access types let it change; every other register is RO. -/
def csrStore (s : State) (off : Nat) (v : BitVec 32) : State :=
  if off < 0x100000 then devStore s off v
  else if 0x101000 ≤ off && off < 0x101400 then
    (match finOf 16 ((off - 0x101000) / 0x40) with | some n => cmdStore s n (off % 0x40) v | none => s)
  else if 0x300000 ≤ off && off < 0x400000 then fabStore s (off - 0x300000) v
  else if 0x400000 ≤ off && off < 0x600000 then dmcStore s (off - 0x400000) v
  else if off = 0x600000 then tlyDbgSelWrite s v
  else if 0xD00000 ≤ off && off < 0xE00000 then pwrStore s (off - 0xD00000) v
  else if 0xE00000 ≤ off && off < 0xF00000 then weaStore s (off - 0xE00000) v
  else if off = 0x1000000 then s.modIfc fun i => { i with bar2 := v.setWidth 16 &&& 0x1FF }
  else if 0x1100000 ≤ off && off < 0x1200000 then timStore s (off - 0x1100000) v
  else if 0x2000000 ≤ off then
    (match tileReg off with | some (t, o) => coreStore s t o v | none => s)
  else s

/-- A write of a CSR by a source: refused as a firewall violation without the right, else performed. The answer says which. -/
def csrWrite (s : State) (src : Src) (part : BitVec 4) (off : Nat) (v : BitVec 32) : State × Bool :=
  if mayWriteCsr s src off then (csrStore s off v, true) else (s.raiseViolation src part (csrBase + off) true, false)

/-! ## The rows of CSR space -/

/-- An access of CSR space that is not one aligned word, or lies outside it, is a decode error (R530). -/
def csrAccess (s : State) (src : Src) (off : Nat) (f : State → State) : Out :=
  .next (if off % 4 ≠ 0 || 0x3000000 ≤ off then s.raiseDecode src (s.partOf src) (csrBase + off) else f s)

/-- REGISTER_WRITE. -/
def execRegisterWrite (src : Src) (off : Nat) (v : BitVec 32) (s : State) : Out :=
  csrAccess s src off fun s => (csrWrite s src (s.partOf src) off v).1

/-- LO_READ_CAPTURE: a read of a _LO register; a source without the right to read it is refused. -/
def execLoReadCapture (src : Src) (off : Nat) (s : State) : Out :=
  csrAccess s src off fun s =>
    if s.allowed src (s.partOf src) (.csr off) 4 false then (csrRead s src off).1
    else s.raiseViolation src (s.partOf src) (csrBase + off) false

/-- TLY_DBG_SEL. -/
def execTlyDbgSel (src : Src) (v : BitVec 32) (s : State) : Out :=
  csrAccess s src 0x600000 fun s => (csrWrite s src (s.partOf src) 0x600000 v).1

/-! ## Requests at their targets -/

/-- A request to the partner goes out over the source's link and waits for its answer (R498, R503). -/
def State.toPartner (s : State) (r : Req) (a : Nat) : State :=
  match s.linkFor r.src with
  | none => (s.raise 0x53 r.src r.part r.addr).respond r (.error .link)
  | some l =>
    let k := s.ifc.link[l]
    let n := (r.len + 7) / 8 - 1
    let m : GalMsg := { typ := if r.write then 2 else 1, epoch := k.epoch, tag := k.nextTag, label := labelOf r, addr := BitVec.ofNat 40 a,
                        len := BitVec.ofNat 8 n, data := if r.write then r.data else [] }
    (s.sendMsg l m).modLink l fun k => { k with out := k.out ++ [(k.nextTag, r)], nextTag := k.nextTag + 1 }

/-- A request that its target lets through is performed: at the tile that its logical window led to when it was issued
(R28). -/
def State.perform (s : State) (r : Req) (t : Target) (ups : List Upset) : State :=
  match t with
  | .dram a => s.modFab fun f => { f with dramQ := f.dramQ ++ [{ r with addr := a, arr := s.dt }] }
  | .csr off =>
    if r.write then
      match csrWrite s r.src r.part off (BitVec.ofNat 32 (leNat r.data)) with
      | (s, true) => s.sendResp r t (.ok [])
      | (s, false) => s.sendResp r t (.error .firewall)
    else
      let (s, v) := csrRead s r.src off
      s.sendResp r t (.ok (natLe 4 v.toNat))
  | .partner a => s.toPartner r a
  | t =>
    let m := match t, r.tile with | .localLog _ off, some x => Target.localPhys x off | _, _ => t
    let s := match storeAddr s m with | some a => s.strike a r.len 8 ups | none => s
    if r.write then
      match accWrite s r.src m r.data r.marked with
      | (s, none) => s.sendResp r t (.ok [])
      | (s, some e) => s.sendResp r t (.error e)
    else
      match accRead s r.src m r.len with
      | (s, .ok d) => s.sendResp r t (.ok d)
      | (s, .error e) => s.sendResp r t (.error e)

/-- No request of the source that was issued earlier waits at the same target (R129, R257). -/
def State.firstAtTarget (s : State) (r : Req) : Bool :=
  s.fab.arrived.all fun x => !sameQueue s r x || r.iss ≤ x.iss

/-- The drift port of a tile that is the target of a migration stop holds the requests to it (R465). -/
def State.portHolds (s : State) (r : Req) : Bool :=
  match r.tile with
  | some t => s.wear.moving.any fun m => m.dst == t
  | none => false

/-- FABRIC_REQUEST: a request that has reached its target. `ups`: the storage errors its read meets. -/
def execFabricRequest (id : Nat) (ups : List Upset) (s : State) : Out :=
  .next (match s.fab.arrived.find? fun r => r.id == id with
    | none => s
    | some r =>
      if !s.firstAtTarget r || s.portHolds r then s
      else
        let s := s.modFab fun f => { f with arrived := f.arrived.filter fun x => x.id ≠ id }
        match s.reqTarget r with
        | .error .link => (s.raise 0x53 r.src r.part r.addr).respond r (.error .link)
        | .error e => (s.raiseDecode r.src r.part r.addr).respond r (.error e)
        | .ok t =>
          if s.allowed r.src r.part t r.len r.write then s.perform r t ups
          else (s.raiseViolation r.src r.part r.addr r.write).sendResp r t (.error .firewall))

end Sys2Proof.Machine
end

