-- ==== Sys2Proof/Machine/Startup.lean ====
section
/-! DEFINITION. Start-up and reset (R514 to R528, R566): rails, reset pins, the stages of start-up, the core map. -/

namespace Sys2Proof.Machine

/-! ## What a reset of the hub leaves (R522, R566) -/

/-- A DRAM channel from its reset on: hard repairs and what boot flash holds of its training stay; RWL fields and counts since cold
reset stay through a warm reset. -/
def Channel.afterReset (cold : Bool) (c : Channel) : Channel :=
  { Channel.reset with
    hard := c.hard, stored := c.stored, lastBin := c.lastBin
    maxbin := if cold then 4 else c.maxbin
    stepdown := if cold then 0 else c.stepdown
    noBin := if cold then 0 else c.noBin }

def DmcSt.afterReset (cold : Bool) (d : DmcSt) : DmcSt :=
  let z := DmcSt.reset
  let ch := d.ch.map fun c => c.afterReset cold
  if cold then { z with ch := ch }
  else { z with ch := ch, minMargin := d.minMargin, scrubHours := d.scrubHours, refmode := d.refmode, page := d.page, restripe := d.restripe,
                rowCeLimit := d.rowCeLimit }

/-- The failed lanes of a crosscut direction stay excluded (R471). -/
def XDir.afterReset (d : XDir) : XDir := { badLanes := d.badLanes, half := decide (4 < d.badLanes.length) }

def FabSt.afterReset (cold : Bool) (f : FabSt) : FabSt :=
  let x := f.xcuts.map fun (c : Crosscut) => ({ failed := false, toHigh := c.toHigh.afterReset, toLow := c.toLow.afterReset } : Crosscut)
  let z := { FabSt.reset with xcuts := x }
  if cold then z else { z with lock := f.lock, age := f.age, promoDepth := f.promoDepth, promoPeriod := f.promoPeriod }

/-- Regulators hold their last target (R527). -/
def DiePwr.afterReset (cold : Bool) (z x : DiePwr) : DiePwr :=
  let z := { z with target := x.target, volt := x.volt }
  if cold then z else { z with allowUs := x.allowUs, accrueUs := x.accrueUs }

def PwrSt.afterReset (cold : Bool) (p : PwrSt) : PwrSt :=
  let z := PwrSt.reset
  let die := Vector.ofFn fun (d : Fin 4) => DiePwr.afterReset cold z.die[d] p.die[d]
  if cold then { z with die := die }
  else { z with die := die, drops := p.drops, maxtier := p.maxtier, lock := p.lock, tj := p.tj, creditUs := p.creditUs, lockoutUs := p.lockoutUs,
                peakLock := p.peakLock, restarts := p.restarts, thermtrip := p.thermtrip, coarse := p.coarse }

/-- The ledger's copies stay. -/
def WearSt.afterReset (cold : Bool) (w : WearSt) : WearSt :=
  let z := { WearSt.reset with ao := w.ao, flash := w.flash }
  if cold then z else { z with ceLimit := w.ceLimit, lock := w.lock, hour := w.hour }

def IfcSt.afterReset (cold : Bool) (i : IfcSt) : IfcSt :=
  let z := IfcSt.reset
  if cold then z
  else { z with ethDrop := i.ethDrop, can := Vector.ofFn fun (c : Fin 4) => { z.can[c] with drop := (i.can[c]).drop } }

/-- DT and PTP time go on through a warm reset; the calendar through both. -/
def TimSt.afterReset (cold : Bool) (t : TimSt) : TimSt :=
  if cold then
    { TimSt.reset with live := t.live, snap := t.snap, stage := t.stage, calValid := t.calValid, calWrap := t.calWrap, calErr := t.calErr }
  else t

def DbgSt.afterReset (cold : Bool) (d : DbgSt) : DbgSt := if cold then DbgSt.reset else { d with replay := [] }

/-- The hub and the compute dies are reset. The deputies, the boot flash and the host's memory keep what they hold; every store of
the device, and DRAM, reads zero when it is next served (R518, R566). -/
def State.hubReset (s : State) (cold : Bool) : State :=
  { State.reset with
    deps := s.deps
    flash := s.flash
    hostMem := s.hostMem
    fab := s.fab.afterReset cold
    cmd := { CmdSt.reset with nextSeq := if cold then 1 else s.cmd.nextSeq }
    dmc := s.dmc.afterReset cold
    pwr := s.pwr.afterReset cold
    wear := s.wear.afterReset cold
    ifc := s.ifc.afterReset cold
    tim := s.tim.afterReset cold
    dbg := s.dbg.afterReset cold
    boot := { s.boot with stage := .hub, fullTrain := false, dinit := false, chfail := 0, readyMs := 0, fwMaj := 0, fwMin := 0, cold := cold }
    fuse := s.fuse
    free := s.free
    pending := s.pending }

/-! ## t0 (R515, R516) -/

/-- The rails that t0 waits for. -/
def hubRails : List Rail := [.hub, .ao, .phy, .vddq, .io18, .cd 0, .cd 1, .cd 2, .cd 3]

/-- The device starts once every rail is valid and no reset is asserted: DT starts at 0 after a cold reset. -/
def State.tryStart (s : State) : State :=
  if s.boot.started || s.boot.porstLow || s.boot.wrstLow || !(hubRails.all s.boot.valid.contains) then s
  else s.modBoot fun b => { b with started := true, held := false, t0 := s.dt }

/-- The hub enters cold reset. -/
def State.coldReset (s : State) : State :=
  (s.hubReset true).modBoot fun b => { b with started := false, cWarm := false, cPin := false, cSupply := false, cPower := false }

/-! ## Deputies (R516, R522, R524, R526) -/

/-- A deputy is reset: its release ends with it. It starts at once where its rail is valid and its pin high. -/
def State.depReset (s : State) (d : Fin 2) (railOk rstLow : Bool) : State :=
  let s := s.setRel d false
  s.modDep d fun x => { Deputy.reset railOk rstLow with ownDt := x.ownDt }

/-- A deputy's reset pin. -/
def rstPin (d : Fin 2) (low : Bool) (s : State) : Out :=
  .next (if (s.deps[d]).rstLow = low then s else s.depReset d (s.deps[d]).railOk low)

/-- SA_RST_N. -/
def execSaRstN (low : Bool) (s : State) : Out := rstPin 0 low s

/-- SB_RST_N. -/
def execSbRstN (low : Bool) (s : State) : Out := rstPin 1 low s

def depRail (d : Fin 2) : Rail := if d = 0 then .sa else .sb

/-- DEPUTY_RAIL_DROPOUT. -/
def execDeputyRailDropout (d : Fin 2) (s : State) : Out :=
  .next (if !(s.deps[d]).railOk then s
    else (s.depReset d false (s.deps[d]).rstLow).modBoot fun b => { b with valid := b.valid.filter (· ≠ depRail d) })

/-! ## Rails -/

/-- VDD_AO rises: the calendar starts at its epoch, and the AO SRAM holds nothing (R509, R474). -/
def State.aoRise (s : State) : State :=
  let s := s.modTim fun t =>
    { t with live := CalTime.epoch, snap := CalTime.epoch, stage := CalTime.epoch, calValid := false, calWrap := false, calErr := false }
  (s.modWear fun w => { w with ao := none }).modBoot fun b => { b with cPower := true }

/-- RAIL_VALID: 100 µs inside the thresholds. -/
def execRailValid (r : Rail) (s : State) : Out :=
  .next (if s.boot.valid.contains r then s
    else
      let s := s.modBoot fun b => { b with valid := b.valid ++ [r] }
      match r with
      | .sa => if (s.deps[(0 : Fin 2)]).railOk then s else s.depReset 0 true (s.deps[(0 : Fin 2)]).rstLow
      | .sb => if (s.deps[(1 : Fin 2)]).railOk then s else s.depReset 1 true (s.deps[(1 : Fin 2)]).rstLow
      | .ao => s.aoRise.tryStart
      | _ => s.tryStart)

/-- SUPPLY_DROPOUT: a hub rail or VDD_AO has been out of its window for 10 µs. The residual half cycles of a power-off enter the
ledger's AO copy (R476). -/
def execSupplyDropout (r : Rail) (s : State) : Out :=
  .next (if !s.boot.valid.contains r then s
    else
      match r with
      | .cd _ => s.modBoot fun b => { b with valid := b.valid.filter (· ≠ r) }
      | .sa => s
      | .sb => s
      | _ =>
        let off (l : Ledger) : Ledger := { l with dies := l.dies.map fun x => x.powerOff }
        let s := s.modWear fun w => { w with ao := w.ao.map off }
        (s.coldReset).modBoot fun b => { b with valid := b.valid.filter (· ≠ r), held := true, cSupply := true })

/-! ## Reset pins -/

/-- PORST_N. -/
def execPorstN (low : Bool) (s : State) : Out :=
  .next (if s.boot.porstLow = low then s
    else if low then (s.coldReset).modBoot fun b => { b with porstLow := true, cPin := true, cSupply := b.held }
    else (s.modBoot fun b => { b with porstLow := false }).tryStart)

/-- WRST_N: it adds nothing to a cold reset that holds already. The stages start again at its release. -/
def execWrstN (low : Bool) (s : State) : Out :=
  .next (if s.boot.wrstLow = low then s
    else if low then
      let s := if s.boot.started then s.hubReset false else s
      s.modBoot fun b => { b with wrstLow := true, cWarm := true }
    else
      let s := s.modBoot fun b => { b with wrstLow := false }
      if s.boot.started then s.modBoot fun b => { b with t0 := s.dt } else s.tryStart)

/-! ## The stages (R517 to R519) -/

/-- The first `n` lanes of a direction that are still in use. -/
def goodLanes (d : XDir) (n : Nat) : List (Fin 68) := (((List.range 68).filterMap (finOf 68)).filter fun l => !d.badLanes.contains l).take n

/-- Lanes that fail training are replaced, or the direction runs at half width; no epoch changes. -/
def State.trainLanes (s : State) (x : Fin 12) (toHigh : Bool) (n : Nat) : State :=
  let f (d : XDir) : XDir := let l := d.badLanes ++ goodLanes d n; { badLanes := l, half := decide (4 < l.length) }
  let s := s.modFab fun y => { y with xcuts := vmod y.xcuts x fun c => if toHigh then { c with toHigh := f c.toHigh } else { c with toLow := f c.toLow } }
  if n = 0 then s else s.raise 0x52 0 0 0

/-- The MP's frame starts (R110, R517, R536). -/
def State.mpStart (s : State) (maj min : BitVec 8) : State :=
  let s := { s with mp := { Seq.reset .running 0x100 with bps := s.mp.bps, dbgHalt := s.mp.dbgHalt }, mpSram := s.mpFirmware }
  let s := s.modPwr fun p => { p with mpKick := s.dt }
  let s := dies4.foldl (fun s d => s.modDie d fun x => { x with target := s.tierMv d 0 }) s
  s.modBoot fun b => { b with stage := .mp, fwMaj := maj, fwMin := min }

/-- The MP stage: the lamp check, and the firmware. -/
def State.mpStage (s : State) (o : StageObs) : State :=
  let s := if o.lampOk then s else (s.raise 0x03 0x100 0 0).modSaf fun f => { f with mpUnprot := true }
  if o.fwOk then s.mpStart o.fwMaj o.fwMin else (s.modBoot fun b => { b with stage := .failed }).raise 0x34 0x100 0 0

/-- The ledger in force at start (R474): the AO copy if it is valid and no older than the newest valid flash record. -/
def WearSt.ledger (w : WearSt) : Option Ledger :=
  let f := w.flash.find? (·.valid)
  match w.ao with
  | some a => if a.valid && (match f with | some x => decide (x.seq ≤ a.seq) | none => true) then some a else f
  | none => f

def Ledger.tile (l : Ledger) (t : Fin 136) : WearTile := match l.tiles.find? fun x => x.1 == t.val with | some x => x.2 | none => WearTile.reset

def State.ledgerTile (s : State) (t : Fin 136) : WearTile := match s.wear.ledger with | some l => l.tile t | none => WearTile.reset

/-- The tile is one of the two of its die that the factory fused as SPARE. -/
def State.fusedSpare (s : State) (t : Fin 136) : Bool :=
  let p := s.fuse.spare[tileDie t]
  p.1.val == tileSlot t || p.2.val == tileSlot t

/-- A tile after the self-test of start-up (R27, R461): retired tiles stay retired, a failed one becomes RETIRED; a tile of no
recorded role takes that of its fuse, or is a spare where the die's active tiles are recorded. -/
def State.startTile (s : State) (bad : List (Fin 136)) (t : Fin 136) : WearTile :=
  let w := { s.ledgerTile t with lc := 0xFF, testing := false, kept := none }
  let dieKnown := (slotsOf (tileDie t)).any fun u => (s.ledgerTile u).state == .active
  if !s.dieOk (tileDie t) then { w with state := .untested, kept := some w.state }
  else if w.state = .retired then w
  else if bad.contains t then { w with state := .retired, cause := 0x07, suspect := false, selfTests := w.selfTests + 1 }
  else
    let role : TileState := match w.state with
      | .active => .active
      | .migrating => .active
      | .spare => .spare
      | _ => if dieKnown || s.fusedSpare t then .spare else .active
    { w with state := role, suspect := false, selfTests := w.selfTests + 1 }

/-- The dies after their self-test (R470, R519): a die lost three times stays out; one that fails is lost. -/
def startDie (bad : Bool) (x : WearDie) : WearDie :=
  if x.perm then { x with lost := true }
  else if bad then { x with lost := true, losses := x.losses + 1, perm := decide (3 ≤ x.losses + 1) }
  else { x with lost := false }

/-- The CAN FD controllers take their filters and rings from the board description (R493, R496). -/
def State.boardCans (s : State) : State :=
  let board := s.flash.filter fun c => 0x710000 ≤ c.1 && c.1 < 0x800000
  s.modIfc fun i => { i with can := Vector.ofFn fun (c : Fin 4) =>
    let (fs, rx, tx) := Config.boardCan board c.val
    { i.can[c] with enabled := true, filters := fs.take 32, rxBase := rx.1, rxSize := rx.2.1, rxTally := rx.2.2 % 16384, txBase := tx.1, txSize := tx.2 } }

/-- The Map stage. -/
def State.mapStage (s : State) (o : StageObs) : State :=
  let led := s.wear.ledger
  let s := s.boardCans
  let s := s.modWear fun w =>
    { w with die := Vector.ofFn fun (d : Fin 4) => startDie (o.diesBad.contains d) (match led with | some l => l.dies[d] | none => WearDie.reset),
             drives := (match led with | some l => l.drives | none => 0) + b2n s.boot.cold
             mpRestarts := match led with | some l => l.mpRestarts | none => 0
             sramCand := match led with | some l => l.sramSoft ++ l.sramCand | none => []
             sramUnrep := match led with | some l => l.sramUnrep | none => [] }
  let s := s.modDmc fun d => { d with ch := Vector.ofFn fun (c : Fin 8) =>
    match led with
    | some l => { d.ch[c] with soft := l.chans[c].soft, hard := l.chans[c].hard.foldl addCand d.ch[c].hard, unrep := l.chans[c].unrep,
                               errors := l.chans[c].errors }
    | none => d.ch[c] }
  let s := s.modWear fun w => { w with tile := Vector.ofFn fun (t : Fin 136) => s.startTile o.tilesBad t }
  let tile (t : Fin 136) (x : Tile) : Tile :=
    let w := s.wear.tile[t]
    { x with fault := if w.state = .retired && o.tilesBad.contains t then 0x07 else x.fault,
             clocked := s.dieOk (tileDie t) && !s.pwr.thermtrip,
             seq := Seq.reset (if w.state = .active then .reset else .off) 0x100 }
  let s := { s with tiles := Vector.ofFn fun (t : Fin 136) => tile t s.tiles[t] }
  let s := (s.rebuildMap.noteCal).sramRepairs
  let s := if s.boot.cold then s.modPwr fun p => { p with coarse := !s.wear.calValid } else s
  let s := s.modProg fun p => { p with pbase := BitVec.ofNat 32 s.pbaseOf }
  s.modBoot fun b => { b with stage := .map }

/-- A channel at the DRAM stage (R300, R305, R519). With the stored result of the last bin in service, its CRC and its pattern read
good, it loads that result; else it receives full training, at the highest bin at which that finds a setting. The answer says
whether it did. -/
def State.trainChannel (s : State) (o : StageObs) (c : Fin 8) : State × Bool :=
  let x := s.dmc.ch[c]
  if o.chBad.contains c then (s.modCh c fun x => { x with state := .retired, noBin := 0x1F }, false)
  else
    let lim := min x.maxbin.toNat s.fuse.maxbin.toNat
    let go (s : State) (b : BitVec 3) : State :=
      s.modCh c fun x => { x with state := .active, bin := b, lastBin := some b, sppr := satAdd (0 : BitVec 8) x.soft.length }
    match x.lastBin.filter fun b => b.toNat ≤ lim && (x.storedAt b).isSome && !o.patBad.contains c with
    | some b => (go (s.loadSet c x.set b) b, false)
    | none =>
      let b : BitVec 3 := BitVec.ofNat 3 (min lim (match o.bins.find? fun y => y.1 == c with | some y => y.2.val | none => 4))
      let v := Config.freeWord s.free
      (go ((s.useFree 1).modCh c fun x => { x with shadow := vmodN x.shadow (b2n x.set) fun _ => { bin := b, train := v } }) b, true)

/-- The DRAM stage: channels train, soft repairs are in force again, and refresh and patrol run. The MP takes MAXBIN from the
components' rating (R274). -/
def State.dramStage (s : State) (o : StageObs) : State :=
  let s := if s.boot.cold then s.modDmc fun d => { d with ch := d.ch.map fun x => { x with maxbin := s.fuse.maxbin } } else s
  let (s, full) := chans8.foldl (fun (x : State × Bool) c => let (s, f) := x.1.trainChannel o c; (s, x.2 || f)) (s, false)
  let ok := chans8.filter fun c => !o.chBad.contains c
  let s := s.modDmc fun d => { d with inserv := ok.foldl (fun (m : BitVec 16) c => m ||| ((3 : BitVec 16) <<< (2 * c.val))) 0 }
  s.modBoot fun b => { b with stage := .dram, fullTrain := full,
                              chfail := o.chBad.foldl (fun (m : BitVec 8) c => m ||| ((1 : BitVec 8) <<< c.val)) 0 }

/-- The training result of the set in use is in boot flash (R300). -/
def Channel.keepTraining (x : Channel) : Channel :=
  let v := (vgetN x.shadow (b2n x.set) { bin := 0, train := 0 }).train
  if x.state = .active && x.storedAt x.bin ≠ some v then x.store x.bin v else x

/-- The results of full training are written to boot flash after READY (R517). -/
def State.storeTraining (s : State) : State := s.modDmc fun d => { d with ch := d.ch.map Channel.keepTraining }

/-- STARTUP_STAGE: the next stage is reached. -/
def execStartupStage (o : StageObs) (s : State) : Out :=
  whenAlive s fun s =>
    match s.boot.stage with
    | .hub => (o.lanes.foldl (fun s x => s.trainLanes x.1 x.2.1 x.2.2) s).modBoot fun b => { b with stage := .crosscuts }
    | .crosscuts => s.mpStage o
    | .mp => s.mapStage o
    | .map => s.dramStage o
    | .dram =>
      s.storeTraining.modBoot fun b => { b with stage := .ready, readyMs := BitVec.ofNat 16 (min 0xFFFF ((s.dt - b.t0).toNat / 1000000)) }
    | .ready => s
    | .failed => s

/-- MP_FIRMWARE_RETRY: the ROM tries the firmware again; the version it then reads is an open value. -/
def execMpFirmwareRetry (fwOk : Bool) (s : State) : Out :=
  whenAlive s fun s =>
    if s.boot.stage ≠ .failed then s
    else if fwOk then (s.useFree 1).mpStart (bits (Config.freeWord s.free) 0 8) (bits (Config.freeWord s.free) 8 8)
    else s.raise 0x34 0x100 0 0

end Sys2Proof.Machine
end

