-- ==== Sys2Proof/Machine/Clock.lean ====
section
/-! DEFINITION. A nanosecond of device time: what the block does when no command waits. -/

namespace Sys2Proof.Machine

/-- DT counts: after t0, and through a warm reset (R488, R516). -/
def State.dtRuns (s : State) : Bool := s.boot.started && !s.boot.porstLow && !s.boot.held

/-- The start DT of a START has come: its cores and engines start (R222). -/
def State.startDue (s : State) : State :=
  if (s.prog.state = .running || s.prog.state = .readmitting) && s.prog.startDt = s.dt then s.startNow else s

/-- A nanosecond passes: DT and each deputy's own time count on, and a program whose start DT
comes starts. -/
def tick (s : State) : State :=
  let s := { s with deps := s.deps.map fun (x : Deputy) => { x with ownDt := x.ownDt + 1 } }
  if s.dtRuns then
    let s := s.modTim fun t => { t with dt := t.dt + 1 }
    s.startDue
  else s

end Sys2Proof.Machine
end

