-- ==== Sys2Proof/Machine/Tensor.lean ====
section
/-! DEFINITION. The tensor-array instructions (R150 to R154), descriptor moves, and the array's power (R70). -/

namespace Sys2Proof.Machine

/-! ## Fields of the T format (R109, R141) -/

def tTd (e : Enc) : Nat := (bits e.ops 44 4 : BitVec 4).toNat
def tTa (e : Enc) : Nat := (bits e.ops 40 4 : BitVec 4).toNat
def tTb (e : Enc) : Nat := (bits e.ops 36 4 : BitVec 4).toNat
def tReg (e : Enc) (lo : Nat) : BitVec 5 := bits e.ops lo 5
def tFld (e : Enc) (lo k : Nat) : Nat := nbits e.ops.toNat lo k

/-- The bits of a mask are 0 and the processor is a core. -/
def tOk (p : Proc) (mask : BitVec 48) (e : Enc) : Bool := isCore p && zeroBits e mask

def rmOk (rm : Nat) : Bool := rm ≤ 4

/-- An instruction of a core, with its tile. -/
def onCore (p : Proc) (s : State) (body : Fin 136 → State → State) : State :=
  match p with
  | .core t => body t s
  | _ => s

/-! ## TDSET, TDGET (R143) -/

/-- The bits of a descriptor register that are not reserved. -/
def tdMask : BitVec 64 := 0x00007FFF03FFFFFF

/-- TDSET (R143): reserved bits are written as 0. -/
def execTdset (p : Proc) (e : Enc) (s : State) : Out :=
  .next (issue p e (tOk p 0x0FF07FFFFFFF#48 e) [] [.regParity] s fun s => onCore p s fun t s =>
    let v := readReg (s.seq p) (tReg e 31) false
    (s.modTile t fun x => { x with td := vmodN x.td (tTd e) fun _ => v &&& tdMask }).advance p)

/-- TDGET (R143). -/
def execTdget (p : Proc) (e : Enc) (s : State) : Out :=
  .next (issue p e (tOk p 0xF0F07FFFFFFF#48 e) [] [.regParity] s fun s => onCore p s fun t s =>
    let v := vgetN (s.tiles[t]).td (tTa e) 0
    (s.modSeq p fun q => writeReg q (tReg e 31) false v).advance p)

/-! ## Descriptors at issue -/

/-- Reads descriptor registers and makes the checks of R155: those on the descriptors alone for the uses that they determine, then,
in table order, `pre`, `box` and `post`, of which only `box` needs the shape records. A reserved format code is an illegal
instruction (R38, R123), and comes first (R125); a shape record with an uncorrectable error raises a data-error trap, after the
checks that do not depend on it (R125). -/
def withDescsOf (p : Proc) (t : Fin 136) (regs : List Nat) (mk : List Desc → List Use) (pre box post : List Desc → List (Option Int))
    (s : State) (body : List Desc → State → State) : State :=
  if regs.any fun k => fmtReserved (mkDesc (vgetN (s.tiles[t]).td k 0) []).fmt then s.trap p 0x01 0
  else go regs [] none s
where
  go : List Nat → List Desc → Option Nat → State → State
    | [], acc, bad, s =>
      let ds := acc.reverse
      match (descChecks ((mk ds).zip ds) :: (pre ds ++ (if bad.isSome then [] else box ds) ++ post ds)).findSome? id, bad with
      | some a, _ => s.trap p 0x0B (BitVec.ofInt 64 a)
      | none, some a => s.trap p 0x0A (BitVec.ofNat 64 a)
      | none, none => body ds s
    | k :: ks, acc, bad, s =>
      match readDesc s t k with
      | (s, d, b) => go ks (d :: acc) (bad.or b) s

/-- The same for one operand whose use is fixed. -/
def withDesc (p : Proc) (t : Fin 136) (u : Use) (pre box post : Desc → List (Option Int)) (s : State) (body : Desc → State → State) : State :=
  let one (ds : List Desc) : Desc := ds.headD (mkDesc 0 [])
  withDescsOf p t [u.reg] (fun _ => [u]) (fun ds => pre (one ds)) (fun ds => box (one ds)) (fun ds => post (one ds)) s fun ds s => body (one ds) s

/-- A check of R155: an address where the condition fails. -/
def failAt (bad : Bool) (a : Int) : Option Int := if bad then some a else none

/-- A tensor-operand trap at issue when one of the checks, in order, gives an address. -/
def withChecks (p : Proc) (l : List (Option Int)) (s : State) (body : State → State) : State :=
  match l.findSome? id with
  | some a => s.trap p 0x0B (BitVec.ofInt 64 a)
  | none => body s

/-- The operand reads of a queued instruction: an uncorrectable word is a deferred data error (R81, R124). -/
def withReads (p : Proc) (t : Fin 136) (l : List (Int × Int)) (s : State) (body : State → State) : State :=
  match checkSpans s t l with
  | (s, none) => body s
  | (s, some w) => s.deferTrap p 0x0A (BitVec.ofNat 64 (w - localBase t))

/-- A queued instruction's writes to the local store: (address, bytes). -/
def writeAll (p : Proc) (t : Fin 136) : List (Nat × List Byte) → State → State
  | [], s => s.advance p
  | (a, bs) :: r, s =>
    match writeLocal s t a bs (s.srcOf p) with
    | (s, none) => writeAll p t r s
    | (s, some w) => s.deferTrap p 0x0A (BitVec.ofNat 64 (w - localBase t))

/-- The write of an element, with the unit it shares with its neighbours (R39). -/
def elemWrite (m : Mem) (t : Fin 136) (d : Desc) (i : Idx) (code : Nat) : Mem :=
  if inExt d i then
    let a := localBase t + elemAddr d i
    let n := packBytes d.fmt
    let b := packBit d.fmt i.1.toNat
    let w := fmtBits d.fmt
    let old := leNat (memGetN m a n)
    memPutN m a (natLe n (old - nbits old b w * 2 ^ b + code % 2 ^ w * 2 ^ b))
  else m

/-- The writes that turn the tile's present memory into `m` over spans, as one list of bytes per span. -/
def spanWrites (m : Mem) (t : Fin 136) (l : List (Int × Int)) : List (Nat × List Byte) :=
  l.map fun x => (x.1.toNat, memGetN m (localBase t + x.1.toNat) (x.2 - x.1 + 1).toNat)

/-! ## TLDW (R67, R150) -/

def rowsOf : Nat → Nat
  | 0 => 128 | 1 => 64 | _ => 16

/-- The byte spans of a TLDW's tile of weights and of its scale bytes. -/
def tldwSpans (d : Desc) (i : Idx) (rows : Nat) : List (Int × Int) :=
  let box : Box := (i, (i.1 + rows - 1, i.2.1 + 63, i.2.2.1, i.2.2.2))
  boxSpans d box ++ boxScales d true box

/-- The plane that a TLDW loads: 64 columns of `rows` element codes, and a scale byte for each 32 of them (R67, R150). -/
def tldwPlane (m : Mem) (t : Fin 136) (d : Desc) (i : Idx) (rows : Nat) : Plane :=
  let at_ (j k : Nat) : Idx := (i.1 + k, i.2.1 + j, i.2.2.1, i.2.2.2)
  { loaded := true, fmt := BitVec.ofNat 4 d.fmt, bs := d.bs, rows := rows,
    w := (List.range 64).map fun j => (List.range rows).map fun k => elemCode m t d (at_ j k)
    sc := (List.range 64).map fun j => (List.range ((rows + 31) / 32)).map fun b => scaleByte m t d true (at_ j (32 * b)) }

/-- TLDW loads a plane with a tile of weights and their scale bytes; the array powers up if it is off (R70). -/
def execTldw (p : Proc) (e : Enc) (s : State) : Out :=
  .next (issue p e (tOk p 0xF0F00FFFFFFF#48 e && tFld e 28 2 ≠ 3) [] [.regParity] s fun s => onCore p s fun t s =>
    let i := coords (readReg (s.seq p) (tReg e 31) false)
    let rows := rowsOf (tFld e 28 2)
    let wp := tFld e 30 1
    let sp (d : Desc) : List (Int × Int) := tldwSpans d i rows
    withDesc p t { reg := tTa e, fmts := tensorFmts, kvOk := false, align := 32, bsOk := true }
      (fun d => [failAt (d.bs && i.1 % 32 ≠ 0) d.base]) (fun d => [spansBad (sp d)]) (fun _ => []) s fun d s =>
        withReads p t (sp d) s fun s =>
          (s.modTile t fun x =>
            { x with planes := vmodN x.planes wp fun _ => tldwPlane s.mem t d i rows, arrayUse := s.dt,
                     array := if x.array = .off then .rising else x.array }).advance p)

/-! ## TMUL (R66, R68, R151) -/

/-- The reduction rows that a pair of formats needs (R66); none pairs BF16 with another format. -/
def pairRows (a w : Nat) : Option Nat :=
  if a = 9 || w = 9 then (if a = 9 && w = 9 then some 16 else none)
  else if a = 2 || a = 8 || w = 2 || w = 8 then some 16
  else if (a = 0 || a = 4) && (w = 0 || w = 4) then some 128
  else some 64

/-- Element of vector `i`, reduction index `k` (R147, R151). -/
def actIdx (d : Desc) (c : Idx) (sx i k : Nat) : Idx :=
  if d.kv then (c.1 + k, c.2.1 + i * sx, c.2.2) else (c.1 + i * sx, c.2.1, c.2.2.1 + k, c.2.2.2)

/-- The box of a TMUL's activations. -/
def actBox (d : Desc) (c : Idx) (sx n r : Nat) : Box := (c, actIdx d c sx (n - 1) (r - 1))

/-- One entry takes the products of one vector and one column (R53 to R56, R63, R64). -/
def tmulEntry (frame : Frame) (e : AccEntry) (av : List FVal) (wv : List FVal) (asc wsc : List Nat) : AccEntry × BitVec 7 :=
  let prods := (av.zip wv).map fun x => x.1.mul x.2
  let inv : BitVec 7 := if prods.any (·.2) then flInvalid else 0
  match frame with
  | .fb => sliceFB e prods
  | .fs =>
    let blocks := (List.range asc.length).map fun b => (asc.getD b 0x7F, wsc.getD b 0x7F, ((prods.drop (32 * b)).take 32))
    let r := blocks.foldl (fun (r : AccEntry × BitVec 7) b =>
      let bad := b.1 = 255 || b.2.1 = 255
      let (e', ix) := blockFS r.1 b.1 b.2.1 (b.2.2.map (·.1))
      (e', r.2 ||| (if ix then flInexact else 0) ||| (if !bad && b.2.2.any (·.2) then flInvalid else 0))) (e, 0)
    r
  | _ => (prods.foldl (fun e p => addF0 e p.1) { e with frame := .f0 }, inv)

/-- The values of a plane's column. -/
def planeCol (pl : Plane) (j : Nat) : List FVal := (pl.w.getD j []).map fun k => fmtVal pl.fmt.toNat k

/-- Activation vector `i` of a TMUL, and the scale bytes of its blocks. -/
def actVec (m : Mem) (t : Fin 136) (d : Desc) (c : Idx) (sx i r : Nat) : List FVal :=
  (List.range r).map fun k => elemVal m t d (actIdx d c sx i k)
def actScales (m : Mem) (t : Fin 136) (d : Desc) (c : Idx) (sx i r : Nat) : List Nat :=
  (List.range ((r + 31) / 32)).map fun b => scaleByte m t d d.kv (actIdx d c sx i (32 * b))

/-- The frame of a TMUL's entries (R52). -/
def tmulFrame (d : Desc) (pl : Plane) : Frame := if d.fmt = 9 then .fb else if d.bs || pl.bs then .fs else .f0

/-- The index along which a descriptor's reduction runs begins at this coordinate (R147). -/
def redOf (d : Desc) (c : Idx) : Int := if d.kv then c.1 else c.2.2.1

/-- The byte spans of a TMUL's activations and of their scale bytes. -/
def tmulSpans (d : Desc) (c : Idx) (sx n r : Nat) : List (Int × Int) :=
  boxSpans d (actBox d c sx n r) ++ boxScales d d.kv (actBox d c sx n r)

/-- The rows of a TMUL whose checks have passed (R52, R58, R68). -/
def tmulRun (p : Proc) (t : Fin 136) (e : Enc) (d : Desc) (c : Idx) (s : State) : State :=
  let n := tFld e 24 7 + 1
  let row := tFld e 17 7
  let bank := tFld e 16 1
  let sx := tFld e 13 2 + 1
  let pl := vgetN (s.tiles[t]).planes (tFld e 15 1) Plane.cleared
  let r := pl.rows
  let frame := tmulFrame d pl
  withReads p t (tmulSpans d c sx n r) s fun s =>
    let x := s.tiles[t]
    let clash := (List.range n).any fun i => (List.range 64).any fun j =>
      let f := (accGet x bank (row + i) j).frame
      f ≠ .empty && f ≠ frame
    if clash then s.deferTrap p 0x0B 0
    else
      let cols := (List.range 64).map fun j => (j, planeCol pl j, pl.sc.getD j [])
      let x := (List.range n).foldl (fun x i =>
        let x := cols.foldl (fun x w =>
          let (e', fl) := tmulEntry frame (accGet x bank (row + i) w.1) (actVec s.mem t d c sx i r) w.2.1 (actScales s.mem t d c sx i r) w.2.2
          (accPut x bank (row + i) w.1 e').setFlags fl) x
        addCount x bank (row + i) r) x
      (s.modTile t fun _ => { x with arrayUse := s.dt }).advance p

/-- The checks of a TMUL at issue (R155): the plane's first, since the box of its activations depends on its row count. -/
def withTmul (p : Proc) (t : Fin 136) (e : Enc) (pl : Plane) (n : Nat) (c : Idx) (s : State) (body : Desc → State → State) : State :=
  let d0 := mkDesc (vgetN (s.tiles[t]).td (tTa e) 0) []
  if !fmtReserved d0.fmt && (!pl.loaded || pairRows d0.fmt pl.fmt.toNat ≠ some pl.rows) then s.trap p 0x0B (BitVec.ofNat 64 d0.base)
  else
    withDesc p t { reg := tTa e, fmts := tensorFmts, kvOk := true, align := 32, bsOk := true }
      (fun d => [failAt (d.bs && redOf d c % 32 ≠ 0) d.base]) (fun d => [spansBad (tmulSpans d c (tFld e 13 2 + 1) n pl.rows)])
      (fun _ => [failAt (128 < tFld e 17 7 + n) 0]) s body

/-- TMUL (R151): with the array down it starts power-up and waits until all 64 columns are up (R70). -/
def execTmul (p : Proc) (e : Enc) (core : CoreUpset) (s : State) : Out :=
  .next (issue p (encMeeting e core) (tOk p 0xF0F000001FFF#48 e) [] [.regParity, .accUncorrectable, .planeParity] s fun s => onCore p s fun t s =>
    let c := coords (readReg (s.seq p) (tReg e 31) false)
    let n := tFld e 24 7 + 1
    let pl := vgetN (s.tiles[t]).planes (tFld e 15 1) Plane.cleared
    withTmul p t e pl n c s fun d s =>
      if (s.tiles[t]).array = .on then tmulRun p t e d c s
      else s.modTile t fun x => { x with array := .rising, tmulWait := some { enc := e, desc := d, at_ := c } })

/-! ## TOUT (R59, R60, R152) -/

/-- ⌊log2 of a magnitude⌋. -/
def log2Val (m : Nat) (e : Int) : Int := (Nat.log2 m : Int) + e

/-- emax of a block-scaled output format (R60). -/
def blockEmax : Nat → Int
  | 4 => 2 | 5 => 4 | 6 => 8 | 7 => 15 | _ => 6

/-- A value times 2^k. -/
def scaleVal (v : FVal) (k : Int) : FVal :=
  match v with
  | .fin s m e => .fin s m (e + k)
  | v => v

/-- E of a block (R60): `none` when the block holds a NaN. -/
def blockExp (fmt : Nat) (vs : List FVal) : Option Int :=
  if vs.any FVal.isNan then none
  else
    let m := vs.foldl (fun (a : Option Int) v =>
      match v with
      | .fin _ m e => if m = 0 then a else (match a with | none => some (log2Val m e) | some b => some (max b (log2Val m e)))
      | _ => a) none
    match m with
    | none => some 0
    | some l => some (max (-127) (min 127 (l - blockEmax fmt)))

/-- Output element of row `i`, column `j` (R152). -/
def outIdx (d : Desc) (c : Idx) (i j : Nat) : Idx :=
  if d.kv then (c.1 + j, c.2.1 + i, c.2.2) else (c.1 + i, c.2.1, c.2.2.1 + j, c.2.2.2)

/-- The new memory, and the flags, of the outputs of one block-scaled row half. A block that holds a NaN delivers its scale byte 0xFF
and elements of code 0, and sets no flag: R60 gives it no flag, and neither the INVALID of R49 nor ROUNDED is stated of it. DESIGN
CHOICE (log 113). -/
def toutBlock (t : Fin 136) (d : Desc) (c : Idx) (rm : Nat) (ovf : Bool) (i j0 : Nat) (vals : List FVal) (r : Mem × BitVec 7) : Mem × BitVec 7 :=
  let ins := (List.range 32).filter fun k => inExt d (outIdx d c i (j0 + k))
  if ins.isEmpty then r
  else
    let ev := blockExp d.fmt (ins.map fun k => vals.getD k (.fin false 0 0))
    let m := memPut r.1 (localBase t + (scaleAddr d d.kv (outIdx d c i j0)).toNat)
      (match ev with | none => 0xFF | some x => BitVec.ofInt 8 (x + 127))
    ins.foldl (fun (r : Mem × BitVec 7) k =>
      match ev with
      | none => (elemWrite r.1 t d (outIdx d c i (j0 + k)) 0, r.2)
      | some x =>
        let (code, fl) := toFmt d.fmt rm ovf (scaleVal (vals.getD k (.fin false 0 0)) (-x))
        (elemWrite r.1 t d (outIdx d c i (j0 + k)) code, r.2 ||| fl)) (m, r.2)

/-- The memory, and the flags, after `n` rows of entries from `row` on, scaled by 2^-shift, have been converted to their output
elements (R59, R152). -/
def toutMem (t : Fin 136) (d : Desc) (c : Idx) (rm : Nat) (ovf : Bool) (shift : Int) (n : Nat) (entry : Nat → Nat → AccEntry) (row : Nat)
    (m : Mem) : Mem × BitVec 7 :=
  let vals (i : Nat) : List FVal := (List.range 64).map fun j => scaleVal (accVal (entry (row + i) j)) (-shift)
  (List.range n).foldl (fun (r : Mem × BitVec 7) i =>
    let vs := vals i
    if d.bs then toutBlock t d c rm ovf i 32 (vs.drop 32) (toutBlock t d c rm ovf i 0 (vs.take 32) r)
    else
      (List.range 64).foldl (fun (r : Mem × BitVec 7) j =>
        if inExt d (outIdx d c i j) then
          let (code, f) := toFmt d.fmt rm ovf (vs.getD j (.fin false 0 0))
          (elemWrite r.1 t d (outIdx d c i j) code, r.2 ||| f)
        else r) r) (m, (0 : BitVec 7))

/-- The byte spans of a TOUT's output elements and of their scale bytes. -/
def toutSpans (d : Desc) (c : Idx) (n : Nat) : List (Int × Int) :=
  boxSpans d (c, outIdx d c (n - 1) 63) ++ boxScales d d.kv (c, outIdx d c (n - 1) 63)

/-- TOUT (R152). -/
def execTout (p : Proc) (e : Enc) (s : State) : Out :=
  .next (issue p e (tOk p 0x0FF00000001F#48 e && rmOk (tFld e 12 3)) [] [.regParity, .accUncorrectable] s fun s => onCore p s fun t s =>
    let c := coords (readReg (s.seq p) (tReg e 31) false)
    let n := tFld e 24 7 + 1
    let row := tFld e 17 7
    let bank := tFld e 16 1
    let rm := tFld e 12 3
    let ovf := tFld e 11 1 = 1
    let shift : Int := sgn 6 (tFld e 5 6)
    withDesc p t { reg := tTd e, fmts := anyFmts, kvOk := true, align := 32, bsOk := true }
      (fun d => [failAt (d.bs && redOf d c % 32 ≠ 0) d.base]) (fun d => [spansBad (toutSpans d c n)])
      (fun _ => [failAt (128 < row + n) 0]) s fun d s =>
        let (m, fl) := toutMem t d c rm ovf shift n (accGet s.tiles[t] bank) row s.mem
        let s := s.modTile t fun x =>
          let x := x.setFlags fl
          if tFld e 15 1 = 1 then accClear x bank row n else x
        writeAll p t (spanWrites m t (toutSpans d c n)) s)

/-! ## TCLR and ACCX (R153, R154) -/

/-- TCLR (R153). -/
def execTclr (p : Proc) (e : Enc) (s : State) : Out :=
  .next (issue p e (tOk p 0xFFFF8000FFFF#48 e) [] [] s fun s => onCore p s fun t s =>
    let n := tFld e 24 7 + 1
    withChecks p [if 128 < tFld e 17 7 + n then some 0 else none] s fun s =>
      (s.modTile t fun x => accClear x (tFld e 16 1) (tFld e 17 7) n).advance p)

/-- The checks that ACCX.A and ACCX.E share (R155), in table order. -/
def accxChecks (e : Enc) (rs : BitVec 64) : List (Option Int) :=
  let n := tFld e 24 7 + 1
  [if 128 < tFld e 17 7 + n then some 0 else none,
   if rs.toNat % 32 ≠ 0 then some rs.toInt else none,
   if localSize < rs.toNat + 2048 * n then some ((max rs.toNat localSize : Nat) : Int) else none]

/-- The records of ACCX.A are checked one by one in row and column order (R557): the address of the first that fails. -/
def accxScan (x : Tile) (m : Mem) (base bank row n : Nat) : Option Nat :=
  ((List.range n).flatMap fun i => (List.range 64).map fun j => (i, j)).findSome? fun ij =>
    let a := (64 * ij.1 + ij.2) * 32
    let first := accParse (memGetN m (base + 64 * ij.1 * 32) 32)
    match accParse (memGetN m (base + a) 32) with
    | none => some a
    | some (r, c) =>
      let tgt := (accGet x bank (row + ij.1) ij.2).frame
      if (match first with | some (_, c0) => c != c0 | none => false) then some a
      else if r.frame ≠ .empty && tgt ≠ .empty && tgt ≠ r.frame then some a
      else none

/-- ACCX.A (R61, R154). -/
def execAccxA (p : Proc) (e : Enc) (s : State) : Out :=
  .next (issue p e (tOk p 0xFFF00000FFFF#48 e) [] [.regParity, .accUncorrectable] s fun s => onCore p s fun t s =>
    let rs := readReg (s.seq p) (tReg e 31) false
    let n := tFld e 24 7 + 1
    let row := tFld e 17 7
    let bank := tFld e 16 1
    withChecks p (accxChecks e rs) s fun s =>
      withReads p t [(rs.toNat, rs.toNat + 2048 * n - 1)] s fun s =>
        let x := s.tiles[t]
        let base := localBase t + rs.toNat
        match accxScan x s.mem base bank row n with
        | some a => s.deferTrap p 0x0B (BitVec.ofNat 64 (rs.toNat + a))
        | none =>
          let x := (List.range n).foldl (fun x i =>
            let x := (List.range 64).foldl (fun x j =>
              match accParse (memGetN s.mem (base + (64 * i + j) * 32) 32) with
              | some (r, _) => let (e', fl) := accMerge (accGet x bank (row + i) j) r; (accPut x bank (row + i) j e').setFlags fl
              | none => x) x
            match accParse (memGetN s.mem (base + 64 * i * 32) 32) with
            | some (_, c) => addCount x bank (row + i) c.toNat
            | none => x) x
          (s.modTile t fun _ => { x with arrayUse := s.dt }).advance p)

/-- ACCX.E (R154, R557). -/
def execAccxE (p : Proc) (e : Enc) (s : State) : Out :=
  .next (issue p e (tOk p 0xFFF000007FFF#48 e) [] [.regParity, .accUncorrectable] s fun s => onCore p s fun t s =>
    let rs := readReg (s.seq p) (tReg e 31) false
    let n := tFld e 24 7 + 1
    let row := tFld e 17 7
    let bank := tFld e 16 1
    withChecks p (accxChecks e rs) s fun s =>
      let x := s.tiles[t]
      let ws := (List.range n).map fun i =>
        (rs.toNat + 2048 * i, (List.range 64).flatMap fun j =>
          accRecord (accGet x bank (row + i) j) (tabGet 0 x.rowCount (rowKey bank (row + i))))
      let s := s.modTile t fun x =>
        { (if tFld e 15 1 = 1 then accClear x bank row n else x) with arrayUse := s.dt }
      writeAll p t ws s)

/-! ## The array's power (R70) -/

/-- Core clock of a die's tier in tenths of a GHz. -/
def tierFreq (tier : BitVec 2) : Nat := match tier.toNat with | 0 => 12 | 1 => 15 | _ => 18

/-- After 256 core cycles without tensor-array work, and unless ARRAY_HOLD is 1, the array is powered down (R70). -/
def execArrayPowerDown (t : Fin 136) (s : State) : Out :=
  let x := s.tiles[t]
  .next (if x.array = .on && !x.arrayHold && 2560 ≤ (s.dt - x.arrayUse).toNat * tierFreq (s.pwr.die[tileDie t]).tier then
      s.modTile t fun x => { x with array := .off }
    else s)

/-- All 64 columns are up (R70): a TMUL that waits starts, with what it read at issue (R145). -/
def execArrayPowerUpDone (t : Fin 136) (s : State) : Out :=
  .next (if (s.tiles[t]).array = .rising then
      match (s.tiles[t]).tmulWait with
      | none => s.modTile t fun x => { x with array := .on }
      | some h =>
        tmulRun (.core t) t h.enc h.desc h.at_ (s.modTile t fun x => { x with array := .on, tmulWait := none })
    else s)

end Sys2Proof.Machine
end

