-- ==== Sys2Proof/Machine/Vector.lean ====
section
/-! DEFINITION. The vector instructions (R156 to R165). -/

namespace Sys2Proof.Machine

/-! ## Fields and lanes -/

def vVd (e : Enc) : Nat := tFld e 43 5
def vVa (e : Enc) : Nat := tFld e 38 5
def vVb (e : Enc) : Nat := tFld e 33 5
def vVc (e : Enc) : Nat := tFld e 28 5
def vFmt (e : Enc) : Nat := tFld e 24 4
def vRm (e : Enc) : Nat := tFld e 21 3
def vOvf (e : Enc) : Bool := tFld e 20 1 = 1

/-- The processor is a core, FMT and RM are allowed and the reserved bits are 0 (R47, R107, R156). -/
def vOk (p : Proc) (mask : BitVec 48) (e : Enc) : Bool := tOk p mask e && vectorFmts.contains (vFmt e) && rmOk (vRm e)

/-- Lanes of a format (R73). -/
def laneCount (f : Nat) : Nat := 2048 / fmtBits f

/-- The lanes of a vector register. -/
def lanes (f : Nat) (v : BitVec 2048) : List Nat :=
  let w := fmtBits f
  (List.range (laneCount f)).map fun i => nbits v.toNat (w * i) w

/-- A vector register from its lanes. -/
def packLanes (w : Nat) : List Nat → Nat
  | [] => 0
  | x :: xs => x % 2 ^ w + 2 ^ w * packLanes w xs

def ofLanes (f : Nat) (l : List Nat) : BitVec 2048 := BitVec.ofNat 2048 (packLanes (fmtBits f) l)

def vreg (s : State) (t : Fin 136) (k : Nat) : BitVec 2048 := vgetN (s.tiles[t]).vr k 0

/-- A vector-queue instruction other than VDW takes effect: the next VDW keeps no window row (R167). -/
def State.noWindow (s : State) (t : Fin 136) : State := s.modTile t fun x => { x with window := none }

/-- The instruction writes a vector register and flags, and ends. -/
def State.setV (s : State) (p : Proc) (t : Fin 136) (k : Nat) (v : BitVec 2048) (fl : BitVec 7) : State :=
  (s.modTile t fun x => { x with vr := vmodN x.vr k fun _ => v, aflags := x.aflags ||| fl, window := none }).advance p

/-- Lane results with flags as a register. -/
def joinFlags (l : List (Nat × BitVec 7)) : BitVec 7 := l.foldl (fun a x => a ||| x.2) 0

/-! ## Lane arithmetic (R157, R158, R160) -/

/-- An exact integer as a lane: wrapped when OVF = 1, else saturated, with OVERFLOW and ROUNDED (R50, R157). -/
def satLane (f : Nat) (ovf : Bool) (v : Int) : Nat × BitVec 7 :=
  let w := fmtBits f
  let lo : Int := -(2 ^ (w - 1) : Nat)
  let hi : Int := (2 ^ (w - 1) : Nat) - 1
  let code (v : Int) : Nat := (v % (2 ^ w : Nat)).toNat
  if ovf || (lo ≤ v && v ≤ hi) then (code v, 0) else (code (if v < lo then lo else hi), flOverflow ||| flRounded)

/-- An exact floating-point result as a lane; an exact infinity stays one (R48, R158). -/
def fpLane (f rm : Nat) (ovf : Bool) (r : FVal × Bool) : Nat × BitVec 7 :=
  let fl : BitVec 7 := if r.2 then flInvalid else 0
  match r.1 with
  | .inf s => if fmtHasInf f then (fmtSign f s + fmtInfCode f, fl) else let (c, g) := toFmt f rm ovf (.inf s); (c, fl ||| g)
  | v => let (c, g) := toFmt f rm ovf v; (c, fl ||| g)

/-- A minimum or maximum (R44, R160). -/
def minMaxLane (f : Nat) (isMax : Bool) (a b : Nat) : Nat × BitVec 7 :=
  if fmtIsInt f then
    let x := sgn (fmtBits f) a; let y := sgn (fmtBits f) b
    ((if (if isMax then x < y else y < x) then b else a), 0)
  else
    match fmtVal f a, fmtVal f b with
    | .nan, _ => (fmtNan f, flInvalid)
    | _, .nan => (fmtNan f, flInvalid)
    | x, y =>
      if x.isZero && y.isZero then (fmtSign f (if isMax then x.isNeg && y.isNeg else x.isNeg || y.isNeg), 0)
      else ((if (if isMax then x.lt y else y.lt x) then b else a), 0)

/-- One lane of VADD to VSRA. A floating-point VFMA of 0 × ∞ with a NaN addend sets INVALID: R44 says both that a NaN operand sets no
flag and that an invalid operation sets INVALID (log 116, DESIGN CHOICE). VSHL drops the bits shifted out, without a flag,
whatever OVF says: R157 calls no shift arithmetic that saturates (log 117, DESIGN CHOICE). -/
def laneOp (op : LaneOp) (f rm : Nat) (ovf : Bool) (a b c : Nat) : Nat × BitVec 7 :=
  let w := fmtBits f
  let int := fmtIsInt f
  let ia := sgn w a; let ib := sgn w b; let ic := sgn w c
  let fa := fmtVal f a; let fb := fmtVal f b; let fc := fmtVal f c
  let sh := b % w
  match op with
  | .add => if int then satLane f ovf (ia + ib) else fpLane f rm ovf (fa.add rm fb)
  | .sub => if int then satLane f ovf (ia - ib) else fpLane f rm ovf (fa.sub rm fb)
  | .mul => if int then satLane f ovf (ia * ib) else fpLane f rm ovf (fa.mul fb)
  | .fma =>
    if int then satLane f ovf (ia * ib + ic)
    else
      let p := fa.mul fb
      let r := p.1.add rm fc
      fpLane f rm ovf (r.1, p.2 || r.2)
  | .min => minMaxLane f false a b
  | .max => minMaxLane f true a b
  | .abs => if int then satLane f ovf (ia.natAbs : Nat) else (a % 2 ^ (w - 1), 0)
  | .neg => if int then satLane f ovf (-ia) else ((a + 2 ^ (w - 1)) % 2 ^ w, 0)
  | .and => (a &&& b, 0)
  | .or => (a ||| b, 0)
  | .xor => (a ^^^ b, 0)
  | .shl => (a * 2 ^ sh % 2 ^ w, 0)
  | .shr => (a / 2 ^ sh, 0)
  | .sra => ((ia.fdiv (2 ^ sh : Nat) % (2 ^ w : Nat)).toNat, 0)

/-- The reserved bits of a lane operation: vc, or vb and vc, where it does not use them, and [19:0]. -/
def laneMask : LaneOp → BitVec 48
  | .fma => 0xFFFFF#48
  | .abs | .neg => 0x3FF00FFFFF#48
  | _ => 0x1F00FFFFF#48

/-- VSHL, VSHR and VSRA are integer only (R157). -/
def laneFmtOk (op : LaneOp) (f : Nat) : Bool :=
  match op with
  | .shl | .shr | .sra => fmtIsInt f
  | _ => true

/-- VADD to VSRA (R157, R158). -/
def execVectorLaneOp (p : Proc) (op : LaneOp) (e : Enc) (s : State) : Out :=
  .next (issue p e (vOk p (laneMask op) e && laneFmtOk op (vFmt e)) [] [.vectorParity] s fun s => onCore p s fun t s =>
    let f := vFmt e
    let la := lanes f (vreg s t (vVa e)); let lb := lanes f (vreg s t (vVb e)); let lc := lanes f (vreg s t (vVc e))
    let r := (la.zip (lb.zip lc)).map fun x => laneOp op f (vRm e) (vOvf e) x.1 x.2.1 x.2.2
    s.setV p t (vVd e) (ofLanes f (r.map (·.1))) (joinFlags r))

/-! ## Compare, select, convert (R159, R163) -/

/-- A condition of VCMP on two lanes, with its flag. -/
def condLane (f cond a b : Nat) : Bool × BitVec 7 :=
  match (if fmtIsInt f then some (compare (sgn (fmtBits f) a) (sgn (fmtBits f) b)) else (fmtVal f a).cmp (fmtVal f b)) with
  | none =>
    match cond with
    | 0 => (false, 0)
    | 1 => (true, 0)
    | 6 => (true, 0)
    | _ => (false, flInvalid)
  | some o =>
    (match cond with
     | 0 => o == .eq
     | 1 => o != .eq
     | 2 => o == .lt
     | 3 => o != .gt
     | 4 => o == .gt
     | 5 => o != .lt
     | _ => false, 0)

/-- VCMP (R159). -/
def execVcmp (p : Proc) (e : Enc) (s : State) : Out :=
  .next (issue p e (vOk p 0x1F001FFFF#48 e && tFld e 17 3 ≠ 7) [] [.vectorParity] s fun s => onCore p s fun t s =>
    let f := vFmt e
    let r := ((lanes f (vreg s t (vVa e))).zip (lanes f (vreg s t (vVb e)))).map fun x => condLane f (tFld e 17 3) x.1 x.2
    s.setV p t (vVd e) (ofLanes f (r.map fun x => if x.1 then 2 ^ fmtBits f - 1 else 0)) (r.foldl (fun a x => a ||| x.2) 0))

/-- VSEL (R159). -/
def execVsel (p : Proc) (e : Enc) (s : State) : Out :=
  .next (issue p e (vOk p 0xFFFFF#48 e) [] [.vectorParity] s fun s => onCore p s fun t s =>
    let f := vFmt e
    let la := lanes f (vreg s t (vVa e)); let lb := lanes f (vreg s t (vVb e)); let lc := lanes f (vreg s t (vVc e))
    let r := (la.zip (lb.zip lc)).map fun x => if x.2.2 / 2 ^ (fmtBits f - 1) = 1 then x.1 else x.2.1
    s.setV p t (vVd e) (ofLanes f r) 0)

/-- PART is below the ratio of the two lane counts (R163). -/
def partOk (f g part : Nat) : Bool :=
  part < max (laneCount f) (laneCount g) / min (laneCount f) (laneCount g)

/-- VCVT (R163). -/
def execVcvt (p : Proc) (e : Enc) (s : State) : Out :=
  let f := vFmt e
  let g := tFld e 16 4
  let part := tFld e 14 2
  .next (issue p e (vOk p 0x3FF0003FFF#48 e && vectorFmts.contains g && partOk f g part) [] [.vectorParity] s fun s => onCore p s fun t s =>
    let src := lanes f (vreg s t (vVa e))
    let old := lanes g (vreg s t (vVd e))
    let conv (l : List Nat) : List (Nat × BitVec 7) := l.map fun c => toFmt g (vRm e) (vOvf e) (fmtVal f c)
    let ls := laneCount f; let ld := laneCount g
    if ld ≤ ls then
      let r := conv ((src.drop (part * ld)).take ld)
      s.setV p t (vVd e) (ofLanes g (r.map (·.1))) (joinFlags r)
    else
      let r := conv src
      s.setV p t (vVd e) (ofLanes g (old.take (part * ls) ++ r.map (·.1) ++ old.drop (part * ls + ls))) (joinFlags r))

/-! ## Functions and reductions (R161 to R164) -/

/-- VEXP2, VLOG2, VRCP, VRSQRT, VTANH (R161). -/
def execVectorTableFunction (p : Proc) (op : FuncOp) (e : Enc) (s : State) : Out :=
  let f := vFmt e
  .next (issue p e (vOk p 0x3FF00FFFFF#48 e && [8, 9, 10].contains f) [] [.vectorParity] s fun s => onCore p s fun t s =>
    let r := (lanes f (vreg s t (vVa e))).map fun c => funcVal op f (vRm e) (vOvf e) c
    s.setV p t (vVd e) (ofLanes f (r.map (·.1))) (joinFlags r))

/-- One node of a reduction tree (R164). -/
def redNode (op : RedOp) (f rm : Nat) (ovf : Bool) (a b : Nat × BitVec 7) : Nat × BitVec 7 :=
  let r := match op with
    | .sum => fpLane f rm ovf ((fmtVal f a.1).add rm (fmtVal f b.1))
    | .max => minMaxLane f true a.1 b.1
    | .min => minMaxLane f false a.1 b.1
  (r.1, a.2 ||| b.2 ||| r.2)

/-- VREDSUM, VREDMAX, VREDMIN (R164): an integer sum is exact and writes an INT32 lane. -/
def execVectorReduction (p : Proc) (op : RedOp) (e : Enc) (s : State) : Out :=
  let f := vFmt e
  .next (issue p e (vOk p 0x3FF00FFFFF#48 e) [] [.vectorParity] s fun s => onCore p s fun t s =>
    let l := lanes f (vreg s t (vVa e))
    let r := if fmtIsInt f && op == .sum then
        satLane 3 (vOvf e) (l.foldl (fun a c => a + sgn (fmtBits f) c) 0)
      else (treeFold (redNode op f (vRm e) (vOvf e)) 8 (l.map fun c => (c, (0 : BitVec 7)))).headD (0, 0)
    s.setV p t (vVd e) (BitVec.ofNat 2048 r.1) r.2)

/-! ## Loads and stores (R165) -/

/-- rs + sext(off15) × 32. -/
def vAddr (q : Seq) (e : Enc) : BitVec 64 := readReg q (tReg e 15) false + BitVec.ofInt 64 (32 * sgn 15 (tFld e 0 15))

/-- The checks of VLD and VST: alignment, then the range. -/
def vAccess (p : Proc) (e : Enc) (s : State) (body : Nat → State → State) : State :=
  let a := vAddr (s.seq p) e
  if a.toNat % 32 ≠ 0 then s.trap p 0x05 a
  else if localSize < a.toNat + 256 then (s.localDecode p a).trap p 0x07 a
  else body a.toNat s

/-- VLD (R165). -/
def execVld (p : Proc) (e : Enc) (ups : List Upset) (core : CoreUpset) (s : State) : Out :=
  .next (issue p (encMeeting e core) (vOk p 0x7FFF0000000#48 e) [] [.regParity] s fun s => onCore p s fun t s =>
    vAccess p e s fun a s =>
      withReads p t [(a, a + 255)] (strikeSpace s p ups) fun s =>
        s.setV p t (vVd e) (BitVec.ofNat 2048 (leNat (memGetN s.mem (localBase t + a) 256))) 0)

/-- VST (R165). -/
def execVst (p : Proc) (e : Enc) (s : State) : Out :=
  .next (issue p e (vOk p 0x7FFF0000000#48 e) [] [.regParity, .vectorParity] s fun s => onCore p s fun t s =>
    vAccess p e s fun a s => writeAll p t [(a, natLe 256 (vreg s t (vVd e)).toNat)] (s.noWindow t))

/-- VBCAST (R165). -/
def execVbcast (p : Proc) (e : Enc) (s : State) : Out :=
  .next (issue p e (vOk p 0x7FFF0007FFF#48 e) [] [.regParity] s fun s => onCore p s fun t s =>
    let f := vFmt e
    let v := (readReg (s.seq p) (tReg e 15) false).toNat % 2 ^ fmtBits f
    s.setV p t (vVd e) (ofLanes f (List.replicate (laneCount f) v)) 0)

end Sys2Proof.Machine
end

