-- ==== Sys2Proof/Machine/Image.lean ====
section
/-! DEFINITION. The image operators VDW, VPOOL and ARGMAXC (R75 to R78, R166 to R169). -/

namespace Sys2Proof.Machine

/-! ## Operands -/

/-- An image operand: planar, not block-scaled, aligned to its element (R155). -/
def imgUse (fmts : List Nat) : Use := { reg := 0, fmts := fmts, kvOk := false, align := 0, bsOk := false }

/-- Outputs of a segment: min(lanes, EXT0 of td - x). -/
def segLen (inFmt : Nat) (td : Desc) (x : Int) : Nat := min (laneCount inFmt) ((td.ext.1 : Int) - x).toNat

/-- The box of an output segment. -/
def segBox (o : Idx) (n : Nat) : Box := (o, (o.1 + n - 1, o.2))

/-- Element k of an output segment. -/
def segIdx (o : Idx) (k : Nat) : Idx := (o.1 + k, o.2)

/-- The memory after codes have been written to the elements of a segment, with their flags. -/
def segWrite (t : Fin 136) (d : Desc) (o : Idx) (m : Mem) (codes : List (Nat × BitVec 7)) : Mem × BitVec 7 :=
  ((List.range codes.length).zip codes).foldl (fun r x =>
    if inExt d (segIdx o x.1) then (elemWrite r.1 t d (segIdx o x.1) x.2.1, r.2 ||| x.2.2) else r) (m, 0)

/-! ## VDW (R75, R76, R166, R167) -/

/-- Elements of a window row of the depthwise path (R75). -/
def windowRow (f : Nat) : Nat := 2560 / fmtBits f

/-- A floating-point product is added to an FP32 sum, rounded to nearest even (R76). -/
def fmaFP32 (acc : Nat × BitVec 7) (a b : FVal) : Nat × BitVec 7 :=
  let pr := a.mul b
  let r := pr.1.add 0 (fmtVal 10 acc.1)
  let (c, fl) := ieeeRound 10 (r.1, pr.2 || r.2)
  (c, acc.2 ||| fl)

/-- One output of VDW from its products in order: integers exactly, floating point in FP32 (R76), then one conversion
(R166). An exact sum of 8-bit or 16-bit products that INT32 does not hold has no stated value: `none`. -/
def vdwOut (f g rm : Nat) (ovf : Bool) (ab : List (Nat × Nat)) : Option (Nat × BitVec 7) :=
  if fmtIsInt f then
    let v := ab.foldl (fun a x => a + sgn (fmtBits f) x.1 * sgn (fmtBits f) x.2) (0 : Int)
    if f ≠ 3 && (v < -(2 ^ 31) || 2 ^ 31 ≤ v) then none else some (toFmt g rm ovf (intVal v))
  else
    let r := ab.foldl (fun a x => fmaFP32 a (fmtVal f x.1) (fmtVal f x.2)) (0, 0)
    let (c, fl) := toFmt g rm ovf (fmtVal 10 r.1)
    some (c, fl ||| r.2)

/-- The rows that the window keeps from the VDW before (R167): those it holds, when that VDW was the last vector-queue instruction,
both have one group channel and name the same ta, i0, i2 and i3, and the new i1 is the old one plus SY. Which rows of a dilated
kernel are kept, the spec does not say: each row of the image that the window holds. DEDUCED (log 114). -/
def keptRows (w : Option DwWin) (ta : Nat) (c : Idx) (g sy : Nat) : List (Int × List Byte) :=
  match w with
  | some w =>
    if g = 1 && w.g = 1 && w.ta = ta && w.at_.1 = c.1 && w.at_.2.2 = c.2.2 && c.2.1 = w.at_.2.1 + sy then w.rows else []
  | none => []

/-- Bytes of an element of the depthwise path. -/
def elemBytes (f : Nat) : Nat := fmtBits f / 8

/-- The code of an input element of a VDW: from a window row that is kept, if it holds the element, else from the local store. -/
def vdwElem (m : Mem) (t : Fin 136) (ta : Desc) (c : Idx) (kept : List (Int × List Byte)) (x y q : Int) : Nat :=
  let n := elemBytes ta.fmt
  let k := (x - c.1).toNat * n
  match kept.find? fun r => r.1 == y && k + n ≤ r.2.length with
  | some r => leAt r.2 k n
  | none => elemCode m t ta (x, y, q, c.2.2.2)

/-- The input rows of a VDW that its window keeps for the next one, and those it has to load (R167), of `span` elements each. -/
def windowRows (m : Mem) (t : Fin 136) (ta : Desc) (c : Idx) (kept : List (Int × List Byte)) (kh dy span : Nat) : List (Int × List Byte) :=
  (List.range kh).map fun (ky : Nat) =>
    let y := c.2.1 + ky * dy
    (y, (List.range span).flatMap fun (x : Nat) => natLe (elemBytes ta.fmt) (vdwElem m t ta c kept (c.1 + x) y c.2.2.1))

/-- The spans of the input rows that are not kept whole. -/
def loadSpans (ta : Desc) (c : Idx) (kept : List (Int × List Byte)) (kh dy g span : Nat) : List (Int × Int) :=
  (List.range kh).flatMap fun (ky : Nat) =>
    let y := c.2.1 + ky * dy
    if kept.any fun r => r.1 == y && span * elemBytes ta.fmt ≤ r.2.length then []
    else boxSpans ta ((c.1, y, c.2.2.1, c.2.2.2), (c.1 + span - 1, y, c.2.2.1 + g - 1, c.2.2.2))

/-- The kernel register's bytes: the taps of the output channel. -/
def kernelBytes (m : Mem) (t : Fin 136) (tb : Desc) (o : Idx) (kh kw g : Nat) : List Byte :=
  (List.range g).flatMap fun (q : Nat) => (List.range kh).flatMap fun (ky : Nat) => (List.range kw).flatMap fun (kx : Nat) =>
    natLe (elemBytes tb.fmt) (elemCode m t tb (kx, ky, q, o.2.2.1))

/-- The pairs of input and kernel codes of output `k` of a segment, in the order of R166: input channel, kernel row, kernel column. -/
def vdwTaps (m : Mem) (t : Fin 136) (ta tb : Desc) (c o : Idx) (kept : List (Int × List Byte)) (kh kw g sx dy dx k : Nat) : List (Nat × Nat) :=
  let taps := (List.range g).flatMap fun q => (List.range kh).flatMap fun ky => (List.range kw).map fun kx => (q, ky, kx)
  taps.map fun x =>
    (vdwElem m t ta c kept (c.1 + k * sx + x.2.2 * dx) (c.2.1 + x.2.1 * dy) (c.2.2.1 + x.1),
     elemCode m t tb (x.2.2, x.2.1, x.1, o.2.2.1))

/-- Codes with a free value in place of each that the spec does not state. -/
def fillFree (s : State) (w : Nat) (l : List (Option (Nat × BitVec 7))) : State × List (Nat × BitVec 7) :=
  (s.useFree l.length,
   ((List.range l.length).zip l).map fun x =>
     match x.2 with | some r => r | none => ((Config.freeWord (s.free + x.1)).toNat % 2 ^ w, 0))

/-- A segment's results are written to the local store, and the instruction ends. -/
def writeSeg (p : Proc) (t : Fin 136) (d : Desc) (o : Idx) (codes : List (Nat × BitVec 7)) (s : State) : State :=
  let (m, fl) := segWrite t d o s.mem codes
  writeAll p t (spanWrites m t (boxSpans d (segBox o codes.length))) (s.modTile t fun x => x.setFlags fl)

/-- VDW. A segment without outputs (x at or past EXT0 of td) makes no box and no kernel checks and completes: the spec does not say
(log 115, DESIGN CHOICE; VPOOL and ARGMAXC do the same). -/
def execVdw (p : Proc) (e : Enc) (s : State) : Out :=
  let kh := tFld e 23 3 + 1; let kw := tFld e 20 3 + 1
  let sx := tFld e 18 1 + 1; let sy := tFld e 19 1 + 1
  let dy := tFld e 16 2 + 1; let dx := tFld e 14 2 + 1
  let g := tFld e 11 3 + 1
  let rm := tFld e 8 3; let ovf := tFld e 7 1 = 1
  .next (issue p e (tOk p 0x7F#48 e && rmOk rm && kh ≤ 7 && kw ≤ 7) [] [.regParity, .windowParity] s fun s => onCore p s fun t s =>
    let c := coords (readReg (s.seq p) (tReg e 31) false)
    let o := coords (readReg (s.seq p) (tReg e 26) false)
    let td (ds : List Desc) : Desc := ds.getD 0 (mkDesc 0 [])
    let ta (ds : List Desc) : Desc := ds.getD 1 (mkDesc 0 [])
    let tb (ds : List Desc) : Desc := ds.getD 2 (mkDesc 0 [])
    let outs (ds : List Desc) : Nat := segLen (ta ds).fmt (td ds) o.1
    let span (ds : List Desc) : Nat := (outs ds - 1) * sx + (kw - 1) * dx + 1
    let kBox : Box := ((0, 0, 0, o.2.2.1), ((kw : Int) - 1, (kh : Int) - 1, (g : Int) - 1, o.2.2.1))
    withDescsOf p t [tTd e, tTa e, tTb e] (fun ds => [imgUse vectorFmts, imgUse imgFmts, imgUse [(ta ds).fmt]])
      (fun _ => [])
      (fun ds =>
        if outs ds = 0 then []
        else
          [spansBad (boxSpans (td ds) (segBox o (outs ds))),
           spansBad (boxSpans (ta ds) (c, (c.1 + span ds - 1, c.2.1 + (kh - 1) * dy, c.2.2.1 + g - 1, c.2.2.2))),
           spansBad (boxSpans (tb ds) kBox),
           failAt (windowRow (ta ds).fmt < span ds) (ta ds).base])
      (fun _ => []) s fun ds s =>
        let n := outs ds
        let kept := keptRows (s.tiles[t]).window (tTa e) c g sy
        if n = 0 then (s.noWindow t).advance p
        else
          withReads p t (loadSpans (ta ds) c kept kh dy g (span ds) ++ boxSpans (tb ds) kBox) s fun s =>
            let (s, codes) := fillFree s (fmtBits (td ds).fmt) ((List.range n).map fun k =>
              vdwOut (ta ds).fmt (td ds).fmt rm ovf (vdwTaps s.mem t (ta ds) (tb ds) c o kept kh kw g sx dy dx k))
            let w : DwWin :=
              { ta := tTa e, at_ := c, g := g, rows := if g = 1 then windowRows s.mem t (ta ds) c kept kh dy (span ds) else [],
                kernel := kernelBytes s.mem t (tb ds) o kh kw g }
            writeSeg p t (td ds) o codes (s.modTile t fun x => { x with window := some w }))

/-! ## VPOOL (R77, R168) -/

/-- Max of the in-bounds elements of a window (R44, R77); +0 with none (R168). -/
def poolMax (f g rm : Nat) (ovf : Bool) (l : List Nat) : Nat × BitVec 7 :=
  match l with
  | [] => toFmt g rm ovf (.fin false 0 0)
  | x :: xs =>
    let first : Nat × BitVec 7 := if !fmtIsInt f && (fmtVal f x).isNan then (fmtNan f, flInvalid) else (x, 0)
    let r := xs.foldl (fun a y => let (c, fl) := minMaxLane f true a.1 y; (c, a.2 ||| fl)) first
    let (c, fl) := toFmt g rm ovf (fmtVal f r.1)
    (c, fl ||| r.2)

/-- Average of a window (R77): the sum over the in-bounds elements, out-of-extent ones being zero, over `div`. INT16 and INT32
have no stated average: `none`. -/
def poolAvg (f g rm : Nat) (ovf : Bool) (div : Nat) (l : List Nat) : Option (Nat × BitVec 7) :=
  if f = 9 || f = 10 then
    let r := l.foldl (fun (a : Nat × BitVec 7) y =>
      let x := ieeeRound 10 ((fmtVal 10 a.1).add 0 (fmtVal f y)); (x.1, a.2 ||| x.2)) (0, 0)
    let (q, fl) := ieeeDiv 10 r.1 (toFmt 10 0 true (intVal div)).1
    let (c, fl') := toFmt g rm ovf (fmtVal 10 q)
    some (c, r.2 ||| fl ||| fl')
  else if f = 2 || f = 3 then none
  else
    let r := l.foldl (fun (a : FVal × Bool) y => let x := a.1.add 0 (fmtVal f y); (x.1, a.2 || x.2)) (.fin false 0 0, false)
    let fl : BitVec 7 := if r.2 then flInvalid else 0
    match r.1 with
    | .fin neg m x =>
      let (a, y, st) := divMag m x div 0
      let (c, fl') := roundMag g rm ovf neg a y st
      some (c, fl ||| fl')
    | v => let (c, fl') := toFmt g rm ovf v; some (c, fl ||| fl')

/-- The codes of the in-bounds elements of the window of output `k` (R168). -/
def poolWin (m : Mem) (t : Fin 136) (ta : Desc) (c : Idx) (kh kw sx k : Nat) : List Nat :=
  let win : List Idx := (List.range kh).flatMap fun (ky : Nat) => (List.range kw).map fun (kx : Nat) =>
    (c.1 + k * sx + kx, c.2.1 + ky, c.2.2)
  (win.filter (inExt ta)).map fun i => elemCode m t ta i

/-- VPOOL. -/
def execVpool (p : Proc) (e : Enc) (s : State) : Out :=
  let kh := tFld e 23 3 + 1; let kw := tFld e 20 3 + 1
  let sx := tFld e 14 3 + 1
  let avg := tFld e 13 1 = 1; let cnt := tFld e 12 1 = 1
  let rm := tFld e 9 3; let ovf := tFld e 8 1 = 1
  .next (issue p e (tOk p 0x00F0000000FF#48 e && rmOk rm) [] [.regParity] s fun s => onCore p s fun t s =>
    let c := coords (readReg (s.seq p) (tReg e 31) false)
    let o := coords (readReg (s.seq p) (tReg e 26) false)
    let td (ds : List Desc) : Desc := ds.getD 0 (mkDesc 0 [])
    let ta (ds : List Desc) : Desc := ds.getD 1 (mkDesc 0 [])
    let outs (ds : List Desc) : Nat := segLen (ta ds).fmt (td ds) o.1
    let iBox (ds : List Desc) : Box := (c, (c.1 + (outs ds - 1) * sx + kw - 1, c.2.1 + kh - 1, c.2.2))
    withDescsOf p t [tTd e, tTa e] (fun _ => [imgUse vectorFmts, imgUse vectorFmts]) (fun _ => [])
      (fun ds => if outs ds = 0 then [] else [spansBad (boxSpans (td ds) (segBox o (outs ds))), spansBad (boxSpans (ta ds) (iBox ds))])
      (fun _ => []) s fun ds s =>
        let n := outs ds
        let td := td ds
        let iBox := iBox ds
        let ta := ta ds
        let s := s.noWindow t
        if n = 0 then s.advance p
        else
          withReads p t (boxSpans ta iBox) s fun s =>
            let out (k : Nat) : Option (Nat × BitVec 7) :=
              let l := poolWin s.mem t ta c kh kw sx k
              if !avg then some (poolMax ta.fmt td.fmt rm ovf l)
              else if l.isEmpty then some (toFmt td.fmt rm ovf (.fin false 0 0))
              else poolAvg ta.fmt td.fmt rm ovf (if cnt then l.length else kh * kw) l
            let (s, codes) := fillFree s (fmtBits td.fmt) ((List.range n).map out)
            writeSeg p t td o codes s)

/-! ## ARGMAXC (R78, R169) -/

/-- Index and value of the largest of channel values (R78). -/
def argmaxOf (f : Nat) (l : List Nat) : Nat × Nat × BitVec 7 :=
  let gt (a b : Nat) : Bool :=
    if fmtIsInt f then sgn (fmtBits f) b < sgn (fmtBits f) a else (fmtVal f a).cmp (fmtVal f b) == some .gt
  let isNan (a : Nat) : Bool := !fmtIsInt f && (fmtVal f a).isNan
  let best := ((List.range l.length).zip l).foldl (fun (b : Option (Nat × Nat)) x =>
    if isNan x.2 then b
    else match b with | none => some x | some y => if gt x.2 y.2 then some x else b) none
  match best with
  | some x => (x.1, x.2, 0)
  | none => (0xFFFF, fmtNan f, flInvalid)

/-- The memory, and the flags, after the index and the value of each output's largest channel have been written (R169). -/
def argmaxMem (m : Mem) (t : Fin 136) (ta td tb : Desc) (c o : Idx) (n : Nat) : Mem × BitVec 7 :=
  let r := (List.range n).map fun (k : Nat) =>
    argmaxOf ta.fmt ((List.range ta.ext.2.2.1).map fun (j : Nat) => elemCode m t ta (c.1 + k, c.2.1, j, c.2.2.2))
  let (m, fl) := segWrite t td o m (r.map fun x => (x.1, x.2.2))
  ((segWrite t tb o m (r.map fun x => (x.2.1, 0))).1, fl)

/-- ARGMAXC. -/
def execArgmaxc (p : Proc) (e : Enc) (s : State) : Out :=
  .next (issue p e (tOk p 0x3FFFFFF#48 e) [] [.regParity] s fun s => onCore p s fun t s =>
    let c := coords (readReg (s.seq p) (tReg e 31) false)
    let o := coords (readReg (s.seq p) (tReg e 26) false)
    let td (ds : List Desc) : Desc := ds.getD 0 (mkDesc 0 [])
    let ta (ds : List Desc) : Desc := ds.getD 1 (mkDesc 0 [])
    let tb (ds : List Desc) : Desc := ds.getD 2 (mkDesc 0 [])
    let outs (ds : List Desc) : Nat := segLen (ta ds).fmt (td ds) o.1
    let iBox (ds : List Desc) : Box :=
      ((c.1, c.2.1, 0, c.2.2.2), (c.1 + outs ds - 1, c.2.1, ((ta ds).ext.2.2.1 : Int) - 1, c.2.2.2))
    withDescsOf p t [tTd e, tTa e, tTb e]
      (fun ds => [imgUse [2], imgUse vectorFmts, imgUse [(ta ds).fmt]]) (fun _ => [])
      (fun ds =>
        if outs ds = 0 then []
        else
          [spansBad (boxSpans (td ds) (segBox o (outs ds))), spansBad (boxSpans (ta ds) (iBox ds)),
           spansBad (boxSpans (tb ds) (segBox o (outs ds)))])
      (fun _ => []) s fun ds s =>
        let n := outs ds
        let td := td ds
        let tb := ds.getD 2 (mkDesc 0 [])
        let iBox := iBox ds
        let ta := ta ds
        let s := s.noWindow t
        if n = 0 then s.advance p
        else
          withReads p t (boxSpans ta iBox) s fun s =>
            let (m, fl) := argmaxMem s.mem t ta td tb c o n
            writeAll p t (spanWrites m t (boxSpans td (segBox o n) ++ boxSpans tb (segBox o n)))
              (s.modTile t fun x => x.setFlags fl))

end Sys2Proof.Machine
end

