-- ==== Sys2Proof/Machine/Attention.lean ====
section
/-! DEFINITION. Attention and the KV cache (R173 to R189): ATT.QK, ATT.SMX, ATT.PV, ATT.MERGE, ATT.ACCEPT, KVAPP, KVTRIM. -/

namespace Sys2Proof.Machine

/-! ## State registers: FP32 lanes -/

def lane32 (v : BitVec 2048) (i : Nat) : Nat := nbits v.toNat (32 * i) 32

/-- Replaces lanes of a register from lane `i` on. -/
def setLanes32 (v : BitVec 2048) (i : Nat) (l : List Nat) : BitVec 2048 :=
  let old := lanes 10 v
  ofLanes 10 (old.take i ++ l ++ old.drop (i + l.length))

def negInf32 : Nat := 0xFF800000

/-- A single rounding in RM of an exact result (R179). -/
def rnd32 (rm : Nat) (r : FVal × Bool) : Nat × BitVec 7 := fpLane 10 rm false r

/-- exp2 of the exact difference of two FP32 codes, rounded to FP32 (R179). -/
def exp2Diff (rm a b : Nat) : Nat × BitVec 7 :=
  let d := (fmtVal 10 a).sub rm (fmtVal 10 b)
  let (c, fl) := exp2Of 10 rm false (a * 2 ^ 32 + b) d.1
  (c, if d.2 then fl ||| flInvalid else fl)

/-- The pairwise tree sum of 64 lanes in the order of R164, each adder in RM. -/
def treeSum (rm : Nat) (l : List (Nat × BitVec 7)) : Nat × BitVec 7 := (treeFold (redNode .sum 10 rm false) 6 l).headD (0, 0)

/-! ## ATT.QK (R178) -/

/-- Formats of queries, keys and values. -/
def kvFmts : List Nat := [1, 6, 7, 8]

def kvUse : Use := { reg := 0, fmts := kvFmts, kvOk := true, align := 1, bsOk := true }

/-- The value of an element with its block's scale (R45). -/
def scaledElem (m : Mem) (t : Fin 136) (d : Desc) (i : Idx) : FVal :=
  if !d.bs then elemVal m t d i
  else
    let e := scaleByte m t d true i
    if e = 255 then .nan else scaleVal (elemVal m t d i) ((e : Int) - 127)

/-- One score: the exact sum over the head dimension in the F0 or FS frame, rounded once (R53 to R56, R178). -/
def qkScore (m : Mem) (t : Fin 136) (q k : Desc) (qi ki : Idx) (dh rm : Nat) : Nat × BitVec 7 :=
  let at_ (i : Idx) (d : Nat) : Idx := ((d : Int), i.2)
  let av := (List.range dh).map fun d => elemVal m t q (at_ qi d)
  let wv := (List.range dh).map fun d => elemVal m t k (at_ ki d)
  let nb := (dh + 31) / 32
  let asc := (List.range nb).map fun b => scaleByte m t q true (at_ qi (32 * b))
  let wsc := (List.range nb).map fun b => scaleByte m t k true (at_ ki (32 * b))
  let (e, fl) := tmulEntry (if q.bs || k.bs then .fs else .f0) AccEntry.cleared av wv asc wsc
  let (c, fl') := toFmt 10 rm false (accVal e)
  (c, fl ||| fl')

/-- Trap of attention operands whose head dimensions R178 does not allow: too large, or not equal. -/
def qkChecks (q k : Desc) : List (Option Int) :=
  [if 256 < q.ext.1 then some (q.base : Int) else if q.ext.1 ≠ k.ext.1 then some (k.base : Int) else none]

/-- The byte spans of `n` positions of one head of a KV operand, from coordinate `i` on, and of their scale bytes. -/
def headSpans (d : Desc) (i : Idx) (dh n : Nat) : List (Int × Int) :=
  let box : Box := ((0, i.2), ((dh : Int) - 1, i.2.1 + n - 1, i.2.2))
  boxSpans d box ++ boxScales d true box

/-- ATT.QK. -/
def execAttQk (p : Proc) (e : Enc) (s : State) : Out :=
  let rm := tFld e 12 3
  let np := tFld e 15 6 + 1
  .next (issue p e (tOk p 0xF00000000FFF#48 e && rmOk rm) [] [.regParity] s fun s => onCore p s fun t s =>
    let ki := coords (readReg (s.seq p) (tReg e 26) false)
    let qi := coords (readReg (s.seq p) (tReg e 21) false)
    let q (ds : List Desc) : Desc := ds.getD 0 (mkDesc 0 [])
    let k (ds : List Desc) : Desc := ds.getD 1 (mkDesc 0 [])
    withDescsOf p t [tTa e, tTb e] (fun _ => [kvUse, kvUse])
      (fun ds => [failAt (!(q ds).kv) (q ds).base, failAt (!(k ds).kv) (k ds).base])
      (fun ds => qkChecks (q ds) (k ds) ++ [spansBad (headSpans (q ds) qi (q ds).ext.1 1), spansBad (headSpans (k ds) ki (q ds).ext.1 np)])
      (fun _ => []) s fun ds s =>
        let dh := (q ds).ext.1
        withReads p t (headSpans (q ds) qi dh 1 ++ headSpans (k ds) ki dh np) s fun s =>
          let r := (List.range np).map fun (i : Nat) => qkScore s.mem t (q ds) (k ds) qi (ki.1, ki.2.1 + i, ki.2.2) dh rm
          s.setV p t (tFld e 31 5) (ofLanes 10 (r.map (·.1) ++ List.replicate (64 - np) negInf32)) (joinFlags r))

/-! ## ATT.SMX (R179) -/

/-- The result of the softmax step: probabilities, the three state lanes, flags. -/
def smxVal (rm : Nat) (va : List Nat) (live : Nat → Bool) (m0 l0 : Nat) : List Nat × List Nat × BitVec 7 :=
  let nanC := fmtNan 10
  let lv := ((List.range 64).zip va).filter fun x => live x.1
  let isNan (c : Nat) : Bool := (fmtVal 10 c).isNan
  let isPInf (c : Nat) : Bool := fmtVal 10 c == .inf false
  if isNan m0 || lv.any (fun x => isNan x.2 || isPInf x.2) then
    (List.replicate 64 nanC, [nanC, nanC, nanC], if lv.any fun x => isPInf x.2 then flInvalid else 0)
  else
    let m1 := lv.foldl (fun m x => (minMaxLane 10 true m x.2).1) m0
    let (a, pr) : (Nat × BitVec 7) × List (Nat × BitVec 7) :=
      if fmtVal 10 m1 == .inf true then ((0x3F800000, 0), List.replicate 64 (0, 0))
      else (exp2Diff rm m0 m1, ((List.range 64).zip va).map fun x => if live x.1 then exp2Diff rm x.2 m1 else (0, 0))
    let sm := treeSum rm pr
    let q := (fmtVal 10 a.1).mul (fmtVal 10 l0)
    let r := q.1.add rm (fmtVal 10 sm.1)
    let l1 := rnd32 rm (r.1, q.2 || r.2)
    (pr.map (·.1), [m1, l1.1, a.1], a.2 ||| sm.2 ||| l1.2)

/-- ATT.SMX. -/
def execAttSmx (p : Proc) (e : Enc) (s : State) : Out :=
  .next (issue p e (tOk p 0x003E001007FF#48 e && vFmt e = 10 && rmOk (vRm e)) [] [.regParity, .vectorParity] s fun s => onCore p s fun t s =>
    let c := tFld e 17 3
    let mask := tFld e 16 1 = 1
    let rp := readReg (s.seq p) (tReg e 11) false
    let p0 := (bits rp 0 16 : BitVec 16).toNat
    let lim := (bits rp 16 16 : BitVec 16).toNat
    let st := vreg s t (vVc e)
    let (pr, l, fl) := smxVal (vRm e) (lanes 10 (vreg s t (vVa e))) (fun i => !(mask && lim + c < p0 + i)) (lane32 st (4 * c))
      (lane32 st (4 * c + 1))
    let s := s.modTile t fun x => { x with vr := vmodN x.vr (vVc e) fun _ => setLanes32 st (4 * c) l }
    s.setV p t (vVd e) (ofLanes 10 pr) fl)

/-! ## ATT.PV (R180) -/

/-- The memory, and the flags, after one ATT.PV: each output element becomes the factor of the step times itself plus the tree sum of
the probabilities times the values, each product and sum rounded to FP32 (R180). -/
def pvMem (m : Mem) (t : Fin 136) (d v : Desc) (vi oi : Idx) (rm np : Nat) (pr : List Nat) (al : FVal) : Mem × BitVec 7 :=
  (List.range v.ext.1).foldl (fun (r : Mem × BitVec 7) (j : Nat) =>
    let terms := (List.range 64).map fun (i : Nat) =>
      if i < np then rnd32 rm ((fmtVal 10 (pr.getD i 0)).mul (scaledElem m t v ((j : Int), vi.2.1 + i, vi.2.2))) else (0, 0)
    let sm := treeSum rm terms
    let oj : Idx := ((j : Int), oi.2)
    let q := al.mul (elemVal m t d oj)
    let z := q.1.add rm (fmtVal 10 sm.1)
    let o := rnd32 rm (z.1, q.2 || z.2)
    if inExt d oj then (elemWrite r.1 t d oj o.1, r.2 ||| sm.2 ||| o.2) else r) (m, (0 : BitVec 7))

/-- ATT.PV. -/
def execAttPv (p : Proc) (e : Enc) (s : State) : Out :=
  let rm := tFld e 4 3
  let np := tFld e 17 6 + 1
  let c := tFld e 23 3
  .next (issue p e (tOk p 0x0F000000000F#48 e && rmOk rm) [] [.regParity, .vectorParity] s fun s => onCore p s fun t s =>
    let vi := coords (readReg (s.seq p) (tReg e 12) false)
    let oi := coords (readReg (s.seq p) (tReg e 7) false)
    let d (ds : List Desc) : Desc := ds.getD 0 (mkDesc 0 [])
    let v (ds : List Desc) : Desc := ds.getD 1 (mkDesc 0 [])
    let sd (ds : List Desc) : List (Int × Int) := boxSpans (d ds) ((0, oi.2), (((v ds).ext.1 : Int) - 1, oi.2))
    let sv (ds : List Desc) : List (Int × Int) := headSpans (v ds) vi (v ds).ext.1 np
    withDescsOf p t [tTd e, tTb e] (fun _ => [{ kvUse with fmts := [10] }, kvUse])
      (fun ds => [failAt (!(d ds).kv) (d ds).base, failAt (!(v ds).kv) (v ds).base])
      (fun ds => [failAt (decide (256 < (v ds).ext.1)) (v ds).base, spansBad (sd ds), spansBad (sv ds)])
      (fun _ => []) s fun ds s =>
        let sv := sv ds
        let sd := sd ds
        let d := d ds
        let v := v ds
        let s := s.noWindow t
        withReads p t (sd ++ sv) s fun s =>
          let (m, fl) := pvMem s.mem t d v vi oi rm np (lanes 10 (vreg s t (tFld e 31 5)))
            (fmtVal 10 (lane32 (vreg s t (tFld e 26 5)) (4 * c + 2)))
          writeAll p t (spanWrites m t sd) (s.modTile t fun x => x.setFlags fl))

/-! ## ATT.MERGE and ATT.ACCEPT (R186, R188) -/

/-- ATT.MERGE. -/
def execAttMerge (p : Proc) (e : Enc) (s : State) : Out :=
  let rm := vRm e
  let c := tFld e 17 3
  let upd := tFld e 16 1 = 1
  .next (issue p e (tOk p 0x00000010FFFF#48 e && vFmt e = 10 && rmOk rm) [] [.vectorParity] s fun s => onCore p s fun t s =>
    let sa := vreg s t (vVc e); let sb := vreg s t (vVb e)
    let mA := lane32 sa (4 * c); let lA := lane32 sa (4 * c + 1)
    let mB := lane32 sb (4 * c); let lB := lane32 sb (4 * c + 1)
    let setS (s : State) (l : List Nat) : State :=
      s.modTile t fun x => { x with vr := vmodN x.vr (vVc e) fun v => setLanes32 v (4 * c) l }
    let nanC := fmtNan 10
    if (fmtVal 10 mA).isNan || (fmtVal 10 mB).isNan then
      let s := s.setV p t (vVd e) (ofLanes 10 (List.replicate 64 nanC)) 0
      if upd then setS s [nanC, nanC, nanC] else s
    else
      let m := (minMaxLane 10 true mA mB).1
      let z : Nat × BitVec 7 := (0, 0)
      let (aA, aB) := if fmtVal 10 m == .inf true then (z, z) else (exp2Diff rm mA m, exp2Diff rm mB m)
      let comb (a b : Nat) : Nat × BitVec 7 :=
        let x := (fmtVal 10 aA.1).mul (fmtVal 10 a)
        let y := (fmtVal 10 aB.1).mul (fmtVal 10 b)
        let r := x.1.add rm y.1
        rnd32 rm (r.1, x.2 || y.2 || r.2)
      let r := ((lanes 10 (vreg s t (vVd e))).zip (lanes 10 (vreg s t (vVa e)))).map fun x => comb x.1 x.2
      let l := comb lA lB
      let s := s.setV p t (vVd e) (ofLanes 10 (r.map (·.1))) (aA.2 ||| aB.2 ||| joinFlags r ||| (if upd then l.2 else 0))
      if upd then setS s [m, l.1, aA.1] else s)

/-- The accepted prefix: the number of drafts that follow their targets. -/
def acceptK (x y : List Nat) : Nat → Nat → Nat
  | 0, k => k
  | n + 1, k => if y.getD k 0 ≠ 0xFFFFFFFF && x.getD (k + 1) 0 = y.getD k 0 then acceptK x y n (k + 1) else k

/-- ATT.ACCEPT. -/
def execAttAccept (p : Proc) (e : Enc) (s : State) : Out :=
  let nc := tFld e 17 3 + 1
  .next (issue p e (tOk p 0x0001F0F00FFF#48 e && vFmt e = 3) [] [.vectorParity] s fun s => onCore p s fun t s =>
    let x := lanes 3 (vreg s t (vVa e)); let y := lanes 3 (vreg s t (vVb e))
    let k := acceptK x y (nc - 1) 0
    let yk := y.getD k 0
    let s := s.modSeq p fun q => writeReg q (tReg e 12) false (BitVec.ofNat 64 (nc - 1 - k))
    s.setV p t (vVd e) (ofLanes 3 ([k, k + 1, yk, nc - 1 - k] ++ List.replicate 60 0)) (if yk = 0xFFFFFFFF then flInvalid else 0))

/-! ## KV slot records (R175, R185) -/

/-- A KV slot record. -/
structure KvRec where
  region : Nat
  maxlen : Nat
  len : Nat
  layers : Nat
  heads : Nat
  hbase : Nat
  hcount : Nat
  dh : Nat
  fmt : Nat
  bs : Bool
deriving DecidableEq, Repr

def kvRec (b : List Byte) : KvRec where
  region := leAt b 0 6
  maxlen := leAt b 8 2
  len := leAt b 10 2
  layers := leAt b 12 1
  heads := leAt b 13 1
  hbase := leAt b 14 1
  hcount := leAt b 15 1
  dh := leAt b 16 2
  fmt := leAt b 18 1 % 16
  bs := leAt b 18 1 / 16 % 2 = 1

/-- A reserved field is not zero, or a field is outside its range. -/
def kvRecBad (b : List Byte) : Bool :=
  let r := kvRec b
  leAt b 6 2 ≠ 0 || r.maxlen = 0 || 32768 < r.maxlen || r.maxlen < r.len || r.heads = 0 || 64 < r.heads || r.hcount = 0 ||
  4 < r.hcount || r.dh < 32 || 256 < r.dh || r.dh % 32 ≠ 0 || !kvFmts.contains r.fmt || (r.bs && r.fmt = 8) ||
  32 ≤ leAt b 18 1 || 64 ≤ leAt b 19 1 || (b.drop 20).any (· ≠ 0)

/-- Bytes of a data row. -/
def KvRec.rb (r : KvRec) : Nat := r.dh * (fmtBits r.fmt / 8)

/-- Row number of (layer, part, head, position) in the data part (R173). -/
def KvRec.row (r : KvRec) (l k h p : Nat) : Nat := ((l * 2 + k) * r.heads + h) * r.maxlen + p

def KvRec.dataAddr (r : KvRec) (l k h p : Nat) : Nat := r.region + r.row l k h p * r.rb

def KvRec.scaleAddr (r : KvRec) (l k h p : Nat) : Nat :=
  r.region + (r.layers + 1) * 2 * r.heads * r.maxlen * r.rb + r.row l k h p * r.dh / 32

/-- A run of `n` bytes from one address to another as transactions of at most 256 B that cross no 256-byte boundary of either
side (R133): source, destination, length. -/
def splitRun : Nat → Nat → Nat → Nat → List (Nat × Nat × Nat)
  | 0, _, _, _ => []
  | fuel + 1, a, b, n =>
    if n = 0 then []
    else
      let k := min n (min (256 - a % 256) (256 - b % 256))
      (a, b, k) :: splitRun fuel (a + k) (b + k) (n - k)

/-- One write of a KVAPP goes to the core's DMA port (R183); an error there is a deferred trap (R185). -/
def kvWrite (t : Fin 136) (s : State) (x : Nat × Nat × Nat) : State :=
  let src := s.dmaSrcOf (.core t)
  let part := s.partOf src
  let data := memGetN s.mem (localBase t + x.1) x.2.2
  match portCheck s x.2.1 x.2.2 with
  | .error .link => (s.raise 0x53 src part x.2.1).kvError t 0x09 x.2.1 s.nowOrd
  | .error _ => (s.raiseDecode src part x.2.1).kvError t 0x07 x.2.1 s.nowOrd
  | .ok _ =>
    let (c, dl) := s.seqLabel (.core t)
    let (s, _) := s.submit src x.2.1 x.2.2 true data c dl (.kv t)
    s.modTile t fun y => { y with kvOut := y.kvOut + 1 }

/-- A deferred tensor-operand trap of R185. -/
def kvTrap (s : State) (p : Proc) (a : BitVec 64) : State := s.deferTrap p 0x0B a

/-- The record at an address; `none` when the address is not 64-byte aligned, lies beyond the local store, or the record is
not valid (R185). -/
def withKvRec (p : Proc) (t : Fin 136) (a : BitVec 64) (s : State) (body : KvRec → State → State) : State :=
  if a.toNat % 64 ≠ 0 || localSize < a.toNat + 64 then kvTrap s p a
  else
    match readLocal s t a.toNat 64 (s.srcOf p) with
    | (s, .error w) => s.deferTrap p 0x0A (BitVec.ofNat 64 (w - localBase t))
    | (s, .ok b) => if kvRecBad b then kvTrap s p a else body (kvRec b) s

/-- LEN of a record is written, and the instruction ends. -/
def setKvLen (p : Proc) (t : Fin 136) (a len : Nat) (s : State) : State := writeAll p t [(a + 10, natLe 2 len)] s

/-- The writes of a KVAPP: for each head and position the row's data, then its scale bytes (R182, R183). -/
def kvRows (d : Desc) (r : KvRec) (layer part n : Nat) : List (Nat × Nat × Nat) :=
  (List.range r.hcount).flatMap fun (j : Nat) => (List.range n).flatMap fun (i : Nat) =>
    let pos := r.len + i
    splitRun 64 (rowAddr d (0, i, j, 0)).toNat (r.dataAddr layer part (r.hbase + j) pos) r.rb ++
    (if r.bs then
      splitRun 64 (scaleAddr d true (0, i, j, 0)).toNat (r.scaleAddr layer part (r.hbase + j) pos) (r.dh / 32)
     else [])

/-- KVAPP (R182, R183, R185). -/
def execKvapp (p : Proc) (e : Enc) (s : State) : Out :=
  .next (issue p e (tOk p 0xF0F0001FFFFF#48 e) [] [.regParity] s fun s => onCore p s fun t s =>
    let a := readReg (s.seq p) (tReg e 31) false
    let n := tFld e 28 3 + 1
    let layer := (readReg (s.seq p) (tReg e 23) false).toNat
    let part := tFld e 22 1
    withDesc p t { kvUse with reg := tTa e, fmts := anyFmts } (fun _ => []) (fun _ => []) (fun _ => []) s fun d s =>
      withKvRec p t a s fun r s =>
        if r.maxlen < r.len + n then kvTrap s p a
        else if r.layers < layer || r.heads < r.hbase + r.hcount then kvTrap s p a
        else if !d.kv || d.fmt ≠ r.fmt || d.bs ≠ r.bs || d.ext.1 ≠ r.dh || d.ext.2.1 < n || d.ext.2.2.1 < r.hcount then
          kvTrap s p (BitVec.ofNat 64 d.base)
        else
          let box : Box := ((0, 0, 0, 0), ((r.dh : Int) - 1, (n : Int) - 1, (r.hcount : Int) - 1, 0))
          let sp := boxSpans d box ++ boxScales d true box
          withChecks p [spansBad sp] s fun s =>
            withReads p t sp (s.noWindow t) fun s =>
              let s := (kvRows d r layer part n).foldl (kvWrite t) s
              if tFld e 21 1 = 1 && (s.seq p).deferred.isNone then setKvLen p t a.toNat (r.len + n) s else s.advance p)

/-- KVTRIM (R184, R185). -/
def execKvtrim (p : Proc) (e : Enc) (s : State) : Out :=
  .next (issue p e (tOk p 0xFFF003FFFFFF#48 e) [] [.regParity] s fun s => onCore p s fun t s =>
    let a := readReg (s.seq p) (tReg e 31) false
    let k := (bits (readReg (s.seq p) (tReg e 26) false) 0 16 : BitVec 16).toNat
    withKvRec p t a s fun r s =>
      if r.len < k then kvTrap s p a else setKvLen p t a.toNat (r.len - k) (s.noWindow t))

end Sys2Proof.Machine
end

