-- ==== Sys2Proof/Machine/LongOps.lean ====
section
/-! DEFINITION. The life of a long operation (R229 to R233): its start, its units of work with the suspend points between
them, and its end. -/

namespace Sys2Proof.Machine

/-! ## SNAPSHOT: the request reaches the agents (R246) -/

/-- The engines that wait when the request reaches them (R246): the fusion engine and the planner on their RELEASE homes; the intake, the
decoder and a check-value unit with no work in hand. That such idleness counts as waiting is DEDUCED (log 56). -/
def State.waitingEngines (s : State) : List Src :=
  (if s.fus.startDt.isNone then [0x120] else []) ++ (if s.pln.granted.isNone && s.pln.query.isNone && !s.pln.running then [0x121] else []) ++
  (if s.int.str.toList.all fun x => x.sample.isNone && x.takes.isEmpty then [0x110] else []) ++
  (if s.int.str.toList.all fun x => x.decoding.isEmpty then [0x111] else []) ++
  ([(0, 0x124), (1, 0x125), (2, 0x126), (3, 0x127)] : List (Fin 4 × Src)).filterMap fun u =>
    if (s.cvu[u.1]).cur.isNone && (s.cvu[u.1]).yielded.isNone then some u.2 else none

/-- The snapshot begins: an agent that waits, or is halted or faulted, is at its cut point at once. -/
def State.startSnap (s : State) (k : Fin 64) (o : LongOp) : State :=
  let x : Snap :=
    { slot := k, out := (o.p[0]).toNat, outLen := (o.p[1]).toNat, hostmem := o.hostmem, dram := (o.p[2]).getLsbD 0,
      eng := (o.p[2]).getLsbD 1, dt := s.dt, cut := [], cutEng := [], tiles := [], stores := [], fus := none, pln := none, shadow := [], log := [], pos := 0, bytes := 0 }
  let s := { s with snap := some x }
  let s := (s.progTiles.filter fun t => (s.tiles[t]).seq.run ≠ .running).foldl State.cutCore s
  s.waitingEngines.foldl State.cutSrc s

/-! ## RETRAIN (R303) -/

/-- The next channel of a RETRAIN is to be retrained. -/
def State.retrainNext (s : State) (o : LongOp) : State :=
  match (retrainChans o)[o.progress]? with
  | some c => s.modCh c fun x => { x with retrainDue := x.retrainDue || !(x.state == .retired || x.state == .untrained) }
  | none => s

/-- The channel of a RETRAIN that is being retrained, if its step has not ended. -/
def State.retrainBusy (s : State) (o : LongOp) : Bool :=
  match (retrainChans o)[o.progress]? with | some c => (s.dmc.ch[c]).retrainDue | none => false

/-- A RETRAIN goes on to the next channel. -/
def State.retrainUnit (s : State) (k : Fin 64) (o : LongOp) : State :=
  let l := retrainChans o
  if l.length ≤ o.progress || s.retrainBusy o then s
  else
    let o := { o with progress := o.progress + 1, permille := 1000 * (o.progress + 1) / l.length }
    (s.setOp k (some o)).retrainNext o

/-- A RETRAIN whose channels have all been retrained ends (R303). -/
def State.retrainEnd (s : State) (k : Fin 64) (o : LongOp) : State :=
  if o.progress + 1 < (retrainChans o).length || s.retrainBusy o then s
  else if o.lost then s.endH k .failed csDataLost
  else if (retrainChans o).any fun c => (s.dmc.ch[c]).state == .retired then s.endH k .failed csHwFault
  else s.endH k .done csOk

/-! ## SCRUB (R297) -/

/-- Start and 4 KB pages of a SCRUB. -/
def State.scrubRange (s : State) (o : LongOp) : Nat × Nat :=
  if o.p[0] = 0 && o.p[1] = 0 then (0, s.fuse.dramBytes / 4096) else ((o.p[0]).toNat, (o.p[1]).toNat / 4096)

/-- The copies that a SCRUB reads for a line: the mirror of an M region's, and the parity of a stripe with its first. -/
def State.scrubKeys (s : State) (a : Nat) : List Nat :=
  match s.classAt a with
  | .u => [a]
  | .m => [a, mirrorKey a]
  | .e => if (s.placeOf a).start a = a then [a, parityKey false a, parityKey true a] else [a]

/-- The copier reads the copies of some lines; the answer says whether data was found lost. -/
def scrubLines (l : List Nat) (s : State) (lost : Bool) : State × Bool :=
  let s := (l.flatMap s.scrubKeys).foldl (fun s k => s.scrubKey 0x107 k) s
  (s, lost || l.any s.lineGone)

/-- A SCRUB reads its next page. -/
def State.scrubUnit (s : State) (k : Fin 64) (o : LongOp) : State :=
  let (a, n) := s.scrubRange o
  if !s.boot.dinit || n ≤ o.progress then s
  else
    let (s, lost) := scrubLines (granules 64 (a + 4096 * o.progress) 4096) s o.lost
    s.modOp k fun o => { o with progress := o.progress + 1, permille := 1000 * (o.progress + 1) / n, lost := lost }

/-! ## REPAIR (R473) -/

/-- Soft repairs left on the channels of a hard repair. -/
def State.softLeft (s : State) (o : LongOp) : Nat :=
  ((chans8.filter fun c => (o.p[1]).getLsbD c.val).map fun c => (s.dmc.ch[c]).soft.length).foldl (· + ·) 0

/-- A hard repair of the next soft repair in force, on the lowest of the channels (R305); not while a program runs. -/
def State.hardUnit (s : State) (k : Fin 64) (o : LongOp) : State :=
  if s.prog.state = .running || s.prog.state = .readmitting then s
  else
    match chans8.find? fun c => (o.p[1]).getLsbD c.val && !(s.dmc.ch[c]).soft.isEmpty with
    | none => s
    | some c =>
      (s.modCh c fun x =>
        match x.soft with
        | r :: l => { x with soft := l, hard := addCand x.hard r, sppr := x.sppr - 1 }
        | [] => x).modOp k fun o => { o with progress := o.progress + 1, permille := 1000 * (o.progress + 1) / (o.progress + s.softLeft o) }

/-! ## Start (R229, R231) -/

/-- What an operation does as it starts. -/
def State.opBegin (s : State) (k : Fin 64) (o : LongOp) : State :=
  match o.opcode.toNat with
  | 0x10 => s.startSnap k o
  | 0x11 => s.startScan k o
  | 0x13 => s.retrainNext o
  | 0x14 =>
    (match finOf 128 (o.p[0]).toNat with
     | some lc =>
       if s.prog.state = .none || s.prog.state = .loading || s.prog.state = .faulted then s.endH k .failed csHwFault
       else s.arm lc (if (o.p[1]).toNat = 0xFF then none else finOf 136 (o.p[1]).toNat) (some k)
     | none => s)
  | 0x15 =>
    (match o.kind with
     | 3 =>
       (match finOf 136 (o.p[1]).toNat with
        | some t =>
          if s.tileSt t = .spare then
            s.modWear fun w => { w with tile := vmod w.tile t fun x => { x with testing := true } }
          else s.endH k .failed csHwFault
        | none => s)
     | 4 | 0x10 => s.modDmc fun d => { d with replacing := true }
     | _ => s)
  | _ => s

/-- LONG_OP_START: a QUEUED operation that nothing holds back becomes RUNNING. -/
def execLongOpStart (slot : Fin 64) (s : State) : Out :=
  .next (match s.cmd.ops[slot] with
    | none => s
    | some o =>
      if o.state ≠ .queued || !s.opServed o || s.opBlocked slot then s
      else (s.modOp slot fun o => { o with state := .running, started := true }).opBegin slot o)

/-! ## Cancellation (R233) -/

/-- A CANCEL takes hold: the undo of the operation ends. A tile test goes on to its end, and a scan to its boundary. -/
def State.opCancelled (s : State) (k : Fin 64) (o : LongOp) : State :=
  if o.kind = 3 || o.opcode = 0x11 then s else (s.opUndo k o).endH k .cancelled csCancelled

/-! ## Suspend points (R232, R233) -/

/-- The unit of work that ends at the next suspend point. Re-placement is moved by COPIER_MOVE, and retraining by its own
windows. -/
def State.opUnit (s : State) (k : Fin 64) (o : LongOp) : State :=
  match o.opcode.toNat with
  | 0x01 => s.loadUnit k o
  | 0x10 => s.snapUnit k
  | 0x12 => s.scrubUnit k o
  | 0x13 => s.retrainUnit k o
  | 0x15 =>
    (match o.kind with
     | 1 => s.hardUnit k o
     | 2 => s.modOp k fun o => { o with progress := min 2 (o.progress + 1), permille := 500 * min 2 (o.progress + 1) }
     | _ => s)
  | _ => s

/-- The operation has suspend points here: a MIGRATE and a tile test have none, a CHECKSCAN has its own command, and a LOAD
has its first after its checks. -/
def State.opPoint (s : State) (o : LongOp) : Bool :=
  !(o.opcode == 0x11 || o.opcode == 0x14 || o.kind == 3 || (o.opcode == 0x01 && s.prog.staged.isNone))

/-- LONG_OP_SUSPEND_POINT. -/
def execLongOpSuspendPoint (slot : Fin 64) (s : State) : Out :=
  .next (match s.cmd.ops[slot] with
    | none => s
    | some o =>
      if !s.opServed o then s
      else
        match o.state with
        | .cancelling => s.opCancelled slot o
        | .running | .suspending =>
          let s := s.opUnit slot o
          if s.opPoint o then
            s.modOp slot fun o => { o with state := if o.state = .suspending then .suspended else o.state }
          else s
        | _ => s)

/-! ## End (R231) -/

/-- At most `n` more units of work. -/
def State.opUnits (k : Fin 64) : Nat → State → State
  | 0, s => s
  | n + 1, s =>
    match s.cmd.ops[k] with
    | some o => if o.state.terminal then s else State.opUnits k n (s.opUnit k o)
    | none => s

/-- The work of an operation runs to its end. -/
def State.opFinish (s : State) (k : Fin 64) (o : LongOp) : State :=
  match o.opcode.toNat with
  | 0x01 =>
    let s := State.opUnits k 1 s
    (match s.prog.staged with
     | some (img, _) => State.opUnits k (img.copies.length + 1) s
     | none => s)
  | 0x12 =>
    if !s.boot.dinit then s
    else
      let s := State.opUnits k ((s.scrubRange o).2 - o.progress) s
      (match s.cmd.ops[k] with
       | some _ => s.endH k .done csOk
       | none => s)
  | 0x13 => s.retrainEnd k o
  | 0x15 =>
    (match o.kind with
     | 1 =>
       let s := State.opUnits k (s.softLeft o) s
       if s.softLeft o = 0 then s.endH k .done csOk else s
     | 2 => s.endH k .done csOk
     | 3 => s
     | _ => if s.replaced then (s.modDmc fun d => { d with replacing := false }).endH k .done csOk else s)
  | _ => s

/-- LONG_OP_END. `res` says whether the hardware let the work end well; SNAPSHOT, CHECKSCAN, MIGRATE and a tile test end well
through SNAPSHOT_DONE, SCAN_END, MIGRATION_STOP and TILE_SELF_TEST_DONE. -/
def execLongOpEnd (slot : Fin 64) (res : HwResult) (s : State) : Out :=
  .next (match s.cmd.ops[slot] with
    | none => s
    | some o =>
      if o.state.terminal || !s.opServed o then s
      else
        match res with
        | .fault => s.opFailed slot o csHwFault
        | .lost => s.opFailed slot o csDataLost
        | .ok =>
          match o.state with
          | .cancelling => s.opCancelled slot o
          | .running | .suspending => s.opFinish slot o
          | _ => s)

end Sys2Proof.Machine
end

