-- ==== Sys2Proof/Machine/Dispatch.lean ====
section
/-! DEFINITION. One arm per command of the block: the command's meaning, or its rejection by name. -/

namespace Sys2Proof.Machine

def exec (i : Instr) (s : State) : Host.Outcome State Fault Refusal :=
  match i with
  | .aluRegOp p op e => Sys2Proof.Machine.execAluRegOp p op e s
  | .aluImmOp p op e => Sys2Proof.Machine.execAluImmOp p op e s
  | .movi p e => Sys2Proof.Machine.execMovi p e s
  | .movhi p e => Sys2Proof.Machine.execMovhi p e s
  | .compare p op imm e => Sys2Proof.Machine.execCompare p op imm e s
  | .predicateLogic p op e => Sys2Proof.Machine.execPredicateLogic p op e s
  | .br p e => Sys2Proof.Machine.execBr p e s
  | .jr p e => Sys2Proof.Machine.execJr p e s
  | .call p e => Sys2Proof.Machine.execCall p e s
  | .callr p e => Sys2Proof.Machine.execCallr p e s
  | .ret p e => Sys2Proof.Machine.execRet p e s
  | .trap p e => Sys2Proof.Machine.execTrap p e s
  | .eret p e => Sys2Proof.Machine.execEret p e s
  | .mfsr p e => Sys2Proof.Machine.execMfsr p e s
  | .mtsr p e => Sys2Proof.Machine.execMtsr p e s
  | .nop p e => Sys2Proof.Machine.execNop p e s
  | .ld p e ups core => Sys2Proof.Machine.execLd p e ups core s
  | .st p e => Sys2Proof.Machine.execSt p e s
  | .ldResponse p => Sys2Proof.Machine.execLdResponse p s
  | .stErrorResponse p => Sys2Proof.Machine.execStErrorResponse p s
  | .dmaG p e => Sys2Proof.Machine.execDmaG p e s
  | .dmaS p e => Sys2Proof.Machine.execDmaS p e s
  | .dmaDescriptorComplete p slot => Sys2Proof.Machine.execDmaDescriptorComplete p slot s
  | .signal p e => Sys2Proof.Machine.execSignal p e s
  | .wait p e => Sys2Proof.Machine.execWait p e s
  | .waitt p e => Sys2Proof.Machine.execWaitt p e s
  | .sigr p e => Sys2Proof.Machine.execSigr p e s
  | .sigrResult p => Sys2Proof.Machine.execSigrResult p s
  | .trapEntry p => Sys2Proof.Machine.execTrapEntry p s
  | .deferredTrap p => Sys2Proof.Machine.execDeferredTrap p s
  | .tdset p e => Sys2Proof.Machine.execTdset p e s
  | .tdget p e => Sys2Proof.Machine.execTdget p e s
  | .tldw p e => Sys2Proof.Machine.execTldw p e s
  | .tmul p e core => Sys2Proof.Machine.execTmul p e core s
  | .tout p e => Sys2Proof.Machine.execTout p e s
  | .tclr p e => Sys2Proof.Machine.execTclr p e s
  | .accxA p e => Sys2Proof.Machine.execAccxA p e s
  | .accxE p e => Sys2Proof.Machine.execAccxE p e s
  | .vectorLaneOp p op e => Sys2Proof.Machine.execVectorLaneOp p op e s
  | .vcmp p e => Sys2Proof.Machine.execVcmp p e s
  | .vsel p e => Sys2Proof.Machine.execVsel p e s
  | .vcvt p e => Sys2Proof.Machine.execVcvt p e s
  | .vectorTableFunction p op e => Sys2Proof.Machine.execVectorTableFunction p op e s
  | .vectorReduction p op e => Sys2Proof.Machine.execVectorReduction p op e s
  | .vld p e ups core => Sys2Proof.Machine.execVld p e ups core s
  | .vst p e => Sys2Proof.Machine.execVst p e s
  | .vbcast p e => Sys2Proof.Machine.execVbcast p e s
  | .vdw p e => Sys2Proof.Machine.execVdw p e s
  | .vpool p e => Sys2Proof.Machine.execVpool p e s
  | .argmaxc p e => Sys2Proof.Machine.execArgmaxc p e s
  | .attQk p e => Sys2Proof.Machine.execAttQk p e s
  | .attSmx p e => Sys2Proof.Machine.execAttSmx p e s
  | .attPv p e => Sys2Proof.Machine.execAttPv p e s
  | .attMerge p e => Sys2Proof.Machine.execAttMerge p e s
  | .attAccept p e => Sys2Proof.Machine.execAttAccept p e s
  | .kvapp p e => Sys2Proof.Machine.execKvapp p e s
  | .kvtrim p e => Sys2Proof.Machine.execKvtrim p e s
  | .arrayPowerDown t => Sys2Proof.Machine.execArrayPowerDown t s
  | .arrayPowerUpDone t => Sys2Proof.Machine.execArrayPowerUpDone t s
  | .localStoreScrub t line ups => Sys2Proof.Machine.execLocalStoreScrub t line ups s
  | .haltReq src t => Sys2Proof.Machine.execHaltReq src t s
  | .coreResume src t => Sys2Proof.Machine.execCoreResume src t s
  | .run src t => Sys2Proof.Machine.execRun src t s
  | .coreRst src t => Sys2Proof.Machine.execCoreRst src t s
  | .coreHalted t => Sys2Proof.Machine.execCoreHalted t s
  | .tallySignalApply isl => Sys2Proof.Machine.execTallySignalApply isl s
  | .tallyWaitApply isl => Sys2Proof.Machine.execTallyWaitApply isl s
  | .tallyGrant home => Sys2Proof.Machine.execTallyGrant home s
  | .waittExpiry isl => Sys2Proof.Machine.execWaittExpiry isl s
  | .waitWithdrawal isl => Sys2Proof.Machine.execWaitWithdrawal isl s
  | .tileWake d => Sys2Proof.Machine.execTileWake d s
  | .tlyDbgSel src v => Sys2Proof.Machine.execTlyDbgSel src v s
  | .loReadCapture src off => Sys2Proof.Machine.execLoReadCapture src off s
  | .registerWrite src off v => Sys2Proof.Machine.execRegisterWrite src off v s
  | .cmdSqTail src q v hostWrites => Sys2Proof.Machine.execCmdSqTail src q v hostWrites s
  | .cmdCqHead src q v => Sys2Proof.Machine.execCmdCqHead src q v s
  | .cmdQEnable src q v => Sys2Proof.Machine.execCmdQEnable src q v s
  | .commandFetch => Sys2Proof.Machine.execCommandFetch s
  | .completionPost q => Sys2Proof.Machine.execCompletionPost q s
  | .nopCommand q => Sys2Proof.Machine.execNopCommand q s
  | .load q => Sys2Proof.Machine.execLoad q s
  | .start q => Sys2Proof.Machine.execStart q s
  | .stop q => Sys2Proof.Machine.execStop q s
  | .unload q => Sys2Proof.Machine.execUnload q s
  | .suspend q => Sys2Proof.Machine.execSuspend q s
  | .resume q => Sys2Proof.Machine.execResume q s
  | .cancel q => Sys2Proof.Machine.execCancel q s
  | .queryOp q => Sys2Proof.Machine.execQueryOp q s
  | .snapshot q => Sys2Proof.Machine.execSnapshot q s
  | .checkscan q => Sys2Proof.Machine.execCheckscan q s
  | .scrub q => Sys2Proof.Machine.execScrub q s
  | .retrain q => Sys2Proof.Machine.execRetrain q s
  | .migrate q => Sys2Proof.Machine.execMigrate q s
  | .repairHardDram q => Sys2Proof.Machine.execRepairHardDram q s
  | .repairLaneTest q => Sys2Proof.Machine.execRepairLaneTest q s
  | .repairTileTest q => Sys2Proof.Machine.execRepairTileTest q s
  | .repairReplace q => Sys2Proof.Machine.execRepairReplace q s
  | .calRead q => Sys2Proof.Machine.execCalRead q s
  | .calWrite q flashOk => Sys2Proof.Machine.execCalWrite q flashOk s
  | .timeSetStepDt q => Sys2Proof.Machine.execTimeSetStepDt q s
  | .timeSetOffset q => Sys2Proof.Machine.execTimeSetOffset q s
  | .timeSetSource q => Sys2Proof.Machine.execTimeSetSource q s
  | .powerBudget q => Sys2Proof.Machine.execPowerBudget q s
  | .fence q => Sys2Proof.Machine.execFence q s
  | .longOpStart slot => Sys2Proof.Machine.execLongOpStart slot s
  | .longOpSuspendPoint slot => Sys2Proof.Machine.execLongOpSuspendPoint slot s
  | .longOpEnd slot res => Sys2Proof.Machine.execLongOpEnd slot res s
  | .snapshotDone => Sys2Proof.Machine.execSnapshotDone s
  | .timeBaseRelease task => Sys2Proof.Machine.execTimeBaseRelease task s
  | .deadlineCheck task => Sys2Proof.Machine.execDeadlineCheck task s
  | .readmission => Sys2Proof.Machine.execReadmission s
  | .requestIssue src slot => Sys2Proof.Machine.execRequestIssue src slot s
  | .arbiterGrant a => Sys2Proof.Machine.execArbiterGrant a s
  | .agePromotion id => Sys2Proof.Machine.execAgePromotion id s
  | .promotionTokenRefill src => Sys2Proof.Machine.execPromotionTokenRefill src s
  | .fabricRequest id ups => Sys2Proof.Machine.execFabricRequest id ups s
  | .crosscutFailure x => Sys2Proof.Machine.execCrosscutFailure x s
  | .laneRepair x toHigh errs => Sys2Proof.Machine.execLaneRepair x toHigh errs s
  | .dramRead id ups => Sys2Proof.Machine.execDramRead id ups s
  | .dramWrite id => Sys2Proof.Machine.execDramWrite id s
  | .dramRefresh sub => Sys2Proof.Machine.execDramRefresh sub s
  | .dramTempPoll c status => Sys2Proof.Machine.execDramTempPoll c status s
  | .patrolScrub c ups => Sys2Proof.Machine.execPatrolScrub c ups s
  | .alertN c duringReplay => Sys2Proof.Machine.execAlertN c duringReplay s
  | .marginMeasure c rd wr ca corr => Sys2Proof.Machine.execMarginMeasure c rd wr ca corr s
  | .channelRetrain c works => Sys2Proof.Machine.execChannelRetrain c works s
  | .frequencyChange c bin patternOk => Sys2Proof.Machine.execFrequencyChange c bin patternOk s
  | .maintWindowEnd c => Sys2Proof.Machine.execMaintWindowEnd c s
  | .softPpr c row resourceLeft => Sys2Proof.Machine.execSoftPpr c row resourceLeft s
  | .channelRetire c => Sys2Proof.Machine.execChannelRetire c s
  | .copierMove => Sys2Proof.Machine.execCopierMove s
  | .dramInitDone => Sys2Proof.Machine.execDramInitDone s
  | .csi2Packet port pkt => Sys2Proof.Machine.execCsi2Packet port pkt s
  | .sampleComplete n => Sys2Proof.Machine.execSampleComplete n s
  | .slotReady n v => Sys2Proof.Machine.execSlotReady n v s
  | .framesetClose g => Sys2Proof.Machine.execFramesetClose g s
  | .bitstreamDescriptor n => Sys2Proof.Machine.execBitstreamDescriptor n s
  | .decodeDone n pic => Sys2Proof.Machine.execDecodeDone n pic s
  | .ethFrameRx port f => Sys2Proof.Machine.execEthFrameRx port f s
  | .portLossTimeout p => Sys2Proof.Machine.execPortLossTimeout p s
  | .portRetryTimeout p => Sys2Proof.Machine.execPortRetryTimeout p s
  | .canary n => Sys2Proof.Machine.execCanary n s
  | .fusionCycle => Sys2Proof.Machine.execFusionCycle s
  | .egoStep => Sys2Proof.Machine.execEgoStep s
  | .wheelFrame c f => Sys2Proof.Machine.execWheelFrame c f s
  | .imuRead bytes => Sys2Proof.Machine.execImuRead bytes s
  | .egoTimeout => Sys2Proof.Machine.execEgoTimeout s
  | .plannerCycle => Sys2Proof.Machine.execPlannerCycle s
  | .queryServe pops => Sys2Proof.Machine.execQueryServe pops s
  | .queryBudgetExpiry => Sys2Proof.Machine.execQueryBudgetExpiry s
  | .plannerIdlePoll => Sys2Proof.Machine.execPlannerIdlePoll s
  | .deputyStart d testsOk => Sys2Proof.Machine.execDeputyStart d testsOk s
  | .deputyImageRetry d => Sys2Proof.Machine.execDeputyImageRetry d s
  | .deputyFaulted d cause => Sys2Proof.Machine.execDeputyFaulted d cause s
  | .deputyWatchdogExpiry d => Sys2Proof.Machine.execDeputyWatchdogExpiry d s
  | .dwdt d v => Sys2Proof.Machine.execDwdt d v s
  | .dreport d v => Sys2Proof.Machine.execDreport d v s
  | .dfcmd d v => Sys2Proof.Machine.execDfcmd d v s
  | .observerFetchDone d => Sys2Proof.Machine.execObserverFetchDone d s
  | .dctrlRel d set => Sys2Proof.Machine.execDctrlRel d set s
  | .dctrlReady d => Sys2Proof.Machine.execDctrlReady d s
  | .dctrlDbgEn d => Sys2Proof.Machine.execDctrlDbgEn d s
  | .dctrlErrclr d => Sys2Proof.Machine.execDctrlErrclr d s
  | .dctrlPintest d => Sys2Proof.Machine.execDctrlPintest d s
  | .pintestEnd d readbackOk => Sys2Proof.Machine.execPintestEnd d readbackOk s
  | .errorRecord => Sys2Proof.Machine.execErrorRecord s
  | .deputyErrorReaction d => Sys2Proof.Machine.execDeputyErrorReaction d s
  | .hubHeartbeat reachA reachB => Sys2Proof.Machine.execHubHeartbeat reachA reachB s
  | .deputyHeartbeat d => Sys2Proof.Machine.execDeputyHeartbeat d s
  | .hubLost d => Sys2Proof.Machine.execHubLost d s
  | .deputyLost d => Sys2Proof.Machine.execDeputyLost d s
  | .refugeTransmission d => Sys2Proof.Machine.execRefugeTransmission d s
  | .lockstepMismatch w => Sys2Proof.Machine.execLockstepMismatch w s
  | .latentFaultTest t passed => Sys2Proof.Machine.execLatentFaultTest t passed s
  | .debugActionReplay w => Sys2Proof.Machine.execDebugActionReplay w s
  | .checkJobStart u job => Sys2Proof.Machine.execCheckJobStart u job s
  | .scanEnd u ea eb => Sys2Proof.Machine.execScanEnd u ea eb s
  | .checkscanSuspendPoint u => Sys2Proof.Machine.execCheckscanSuspendPoint u s
  | .tierRaise src d => Sys2Proof.Machine.execTierRaise src d s
  | .tierLower src d => Sys2Proof.Machine.execTierLower src d s
  | .relockDone d => Sys2Proof.Machine.execRelockDone d s
  | .railSettled d mv => Sys2Proof.Machine.execRailSettled d mv s
  | .tierSwitch d => Sys2Proof.Machine.execTierSwitch d s
  | .powerEstimate pkgMw amps mv => Sys2Proof.Machine.execPowerEstimate pkgMw amps mv s
  | .burstCreditExhausted => Sys2Proof.Machine.execBurstCreditExhausted s
  | .peakPeriodLimit => Sys2Proof.Machine.execPeakPeriodLimit s
  | .peakLockoutEnd => Sys2Proof.Machine.execPeakLockoutEnd s
  | .peakAllowanceExhausted d => Sys2Proof.Machine.execPeakAllowanceExhausted d s
  | .droopDetect isl cycles => Sys2Proof.Machine.execDroopDetect isl cycles s
  | .clockMonitorWindow isl khz noEdge160 => Sys2Proof.Machine.execClockMonitorWindow isl khz noEdge160 s
  | .voltageMonitorFault r mv => Sys2Proof.Machine.execVoltageMonitorFault r mv s
  | .thermalSample readings => Sys2Proof.Machine.execThermalSample readings s
  | .throttleStep u => Sys2Proof.Machine.execThrottleStep u s
  | .coolantRead r => Sys2Proof.Machine.execCoolantRead r s
  | .thermtrip => Sys2Proof.Machine.execThermtrip s
  | .avsbusRetry d ack => Sys2Proof.Machine.execAvsbusRetry d ack s
  | .mpMajorFrame usedUs telemetry => Sys2Proof.Machine.execMpMajorFrame usedUs telemetry s
  | .mpBudgetOverrun order => Sys2Proof.Machine.execMpBudgetOverrun order s
  | .mpWatchdogExpiry => Sys2Proof.Machine.execMpWatchdogExpiry s
  | .mpRestartDone => Sys2Proof.Machine.execMpRestartDone s
  | .stressAccrual => Sys2Proof.Machine.execStressAccrual s
  | .thermalCycleSample => Sys2Proof.Machine.execThermalCycleSample s
  | .ledgerAoUpdate => Sys2Proof.Machine.execLedgerAoUpdate s
  | .ledgerFlashWrite => Sys2Proof.Machine.execLedgerFlashWrite s
  | .tileSelfTestDone t pass => Sys2Proof.Machine.execTileSelfTestDone t pass s
  | .spareRetest => Sys2Proof.Machine.execSpareRetest s
  | .migrationStop lc => Sys2Proof.Machine.execMigrationStop lc s
  | .dieLost d cause => Sys2Proof.Machine.execDieLost d cause s
  | .hostRequest bar off len write data => Sys2Proof.Machine.execHostRequest bar off len write data s
  | .pcieReset => Sys2Proof.Machine.execPcieReset s
  | .gptpEventMessage port phaseNs => Sys2Proof.Machine.execGptpEventMessage port phaseNs s
  | .servoAdjust phaseNs => Sys2Proof.Machine.execServoAdjust phaseNs s
  | .ppsIn => Sys2Proof.Machine.execPpsIn s
  | .ppsOut => Sys2Proof.Machine.execPpsOut s
  | .canFrameRx c f => Sys2Proof.Machine.execCanFrameRx c f s
  | .canFrameTx c => Sys2Proof.Machine.execCanFrameTx c s
  | .gpioEdge pin level => Sys2Proof.Machine.execGpioEdge pin level s
  | .galleryFrameRx l raw => Sys2Proof.Machine.execGalleryFrameRx l raw s
  | .galleryHunt l stream => Sys2Proof.Machine.execGalleryHunt l stream s
  | .galleryReadRequest l => Sys2Proof.Machine.execGalleryReadRequest l s
  | .galleryWriteRequest l => Sys2Proof.Machine.execGalleryWriteRequest l s
  | .galleryReadResponse l => Sys2Proof.Machine.execGalleryReadResponse l s
  | .galleryWriteAck l => Sys2Proof.Machine.execGalleryWriteAck l s
  | .gallerySignal l => Sys2Proof.Machine.execGallerySignal l s
  | .gallerySignalAck l => Sys2Proof.Machine.execGallerySignalAck l s
  | .galleryErrorResponse l => Sys2Proof.Machine.execGalleryErrorResponse l s
  | .galleryIdle l => Sys2Proof.Machine.execGalleryIdle l s
  | .linkTrainingDone l serial half => Sys2Proof.Machine.execLinkTrainingDone l serial half s
  | .linkLost l => Sys2Proof.Machine.execLinkLost l s
  | .linkRetryTimeout l => Sys2Proof.Machine.execLinkRetryTimeout l s
  | .linkTrainingRetry l => Sys2Proof.Machine.execLinkTrainingRetry l s
  | .calendarSecond => Sys2Proof.Machine.execCalendarSecond s
  | .calSnap src => Sys2Proof.Machine.execCalSnap src s
  | .calCommit src => Sys2Proof.Machine.execCalCommit src s
  | .jtagInstruction ji => Sys2Proof.Machine.execJtagInstruction ji s
  | .runControl p a => Sys2Proof.Machine.execRunControl p a s
  | .traceSync => Sys2Proof.Machine.execTraceSync s
  | .railValid r => Sys2Proof.Machine.execRailValid r s
  | .startupStage o => Sys2Proof.Machine.execStartupStage o s
  | .mpFirmwareRetry fwOk => Sys2Proof.Machine.execMpFirmwareRetry fwOk s
  | .porstN low => Sys2Proof.Machine.execPorstN low s
  | .wrstN low => Sys2Proof.Machine.execWrstN low s
  | .saRstN low => Sys2Proof.Machine.execSaRstN low s
  | .sbRstN low => Sys2Proof.Machine.execSbRstN low s
  | .supplyDropout r => Sys2Proof.Machine.execSupplyDropout r s
  | .stAcknowledge p => Sys2Proof.Machine.execStAcknowledge p s
  | .deputyRailDropout d => Sys2Proof.Machine.execDeputyRailDropout d s
  | .droopRecovery isl => Sys2Proof.Machine.execDroopRecovery isl s

end Sys2Proof.Machine
end

