-- ==== Sys2Proof/WellFormed.lean ====
section
/-! DEFINITION. Which commands are well-formed: the operands that the outside can send at all. A command that is not well-formed
names something that the device has no place for (an offset outside CSR space, a CAN frame of a length that CAN FD does not
have); the meanings do not lean on it. -/

namespace Sys2Proof

/-- Storage errors strike bytes of the store that is read: below `n`. -/
def okUps (n : Nat) (ups : List Upset) : Bool := ups.all fun u => u.addr < n

/-- A CSR access names an aligned register of the 48 MB of CSR space (R529, R532). -/
def okCsr (off : Nat) : Bool := off < 0x3000000 && off % 4 == 0

/-- Host memory has 64-bit bus addresses (R485). -/
def okHostWrites (l : List MemCell) : Bool := l.all fun c => c.1 < 2 ^ 64

/-- A lane of a crosscut direction is counted once (R471). -/
def okLaneErrs (l : List (Fin 68 × Nat)) : Bool := l.all fun c => (l.filter fun d => d.1 == c.1).length == 1

/-- A CSI-2 packet that carries pixels has a long data type, of code 0x10 on, and a frame start or end a short one (R310). -/
def okCsi (p : CsiPacket) : Bool :=
  match p.body with
  | .line _ _ _ => 0x10 ≤ p.dt.toNat
  | _ => p.dt.toNat < 0x10

/-- A UDP datagram has a 16-bit port, and its payload fits its 16-bit length (R312). -/
def okEth (f : EthFrame) : Bool := f.dstPort < 0x10000 && f.payload.length < 0x10000

/-- The data lengths of CAN FD, and its 11- and 29-bit identifiers (R493: ISO 11898-1). -/
def okCan (f : CanFrame) : Bool :=
  (f.data.length ≤ 8 || [12, 16, 20, 24, 32, 48, 64].contains f.data.length) &&
  f.id < (if f.ext then 2 ^ 29 else 2 ^ 11)

/-- A host access lies in its BAR, and a write carries as many bytes as it says (R484). -/
def okHost (bar : Bar) (off len : Nat) (write : Bool) (data : List Byte) : Bool :=
  0 < len && off + len ≤ (match bar with | .bar0 => 0x4000000 | .bar2 => 0x100000000) &&
  data.length == (if write then len else 0)

/-- A gallery frame has 256 bytes (R497). -/
def okFrame (raw : List Byte) : Bool := raw.length == 256

/-- What start-up observes names a channel once, and no channel both as failed and with a bin (R517). -/
def okObs (o : StageObs) : Bool :=
  let l := o.bins.map (·.1) ++ o.chBad
  l.all fun c => l.count c == 1

/-- A breakpoint is at an instruction address (R86). -/
def okRun : RunAction → Bool
  | .breakpoint _ (some a) => a &&& 7 == 0
  | _ => true

/-- The operands of a command are ones that the outside can send. -/
def Instr.wf : Instr → Bool
  | .ld p _ ups _ => okUps (match p with | .core _ => 0xC0000 | _ => 0x200000) ups
  | .vld _ _ ups _ => okUps 0xC0000 ups
  | .localStoreScrub _ _ ups => okUps 32 ups
  | .loReadCapture _ off => okCsr off
  | .registerWrite _ off _ => okCsr off
  | .cmdSqTail _ _ _ hw => okHostWrites hw
  | .fabricRequest _ ups => okUps 0x20000000000 ups
  | .laneRepair _ _ errs => okLaneErrs errs
  | .dramRead _ ups => okUps (2 ^ 43) ups
  | .patrolScrub _ ups => okUps (2 ^ 43) ups
  | .csi2Packet _ pkt => okCsi pkt
  | .ethFrameRx _ f => okEth f
  | .wheelFrame _ f => okCan f
  | .hostRequest bar off len write data => okHost bar off len write data
  | .canFrameRx _ f => okCan f
  | .galleryFrameRx _ raw => okFrame raw
  | .runControl _ a => okRun a
  | .startupStage o => okObs o
  | .aluRegOp _ _ _ | .aluImmOp _ _ _ | .movi _ _ | .movhi _ _ | .compare _ _ _ _ | .predicateLogic _ _ _ | .br _ _ => true
  | .jr _ _ | .call _ _ | .callr _ _ | .ret _ _ | .trap _ _ | .eret _ _ | .mfsr _ _ | .mtsr _ _ | .nop _ _ | .st _ _ => true
  | .ldResponse _ | .stErrorResponse _ | .dmaG _ _ | .dmaS _ _ | .dmaDescriptorComplete _ _ | .signal _ _ | .wait _ _ => true
  | .waitt _ _ | .sigr _ _ | .sigrResult _ | .trapEntry _ | .deferredTrap _ | .tdset _ _ | .tdget _ _ | .tldw _ _ => true
  | .tmul _ _ _ | .tout _ _ | .tclr _ _ | .accxA _ _ | .accxE _ _ | .vectorLaneOp _ _ _ | .vcmp _ _ | .vsel _ _ => true
  | .vcvt _ _ | .vectorTableFunction _ _ _ | .vectorReduction _ _ _ | .vst _ _ | .vbcast _ _ | .vdw _ _ | .vpool _ _ => true
  | .argmaxc _ _ | .attQk _ _ | .attSmx _ _ | .attPv _ _ | .attMerge _ _ | .attAccept _ _ | .kvapp _ _ | .kvtrim _ _ => true
  | .arrayPowerDown _ | .arrayPowerUpDone _ | .haltReq _ _ | .coreResume _ _ | .run _ _ | .coreRst _ _ | .coreHalted _ => true
  | .tallySignalApply _ | .tallyWaitApply _ | .tallyGrant _ | .waittExpiry _ | .waitWithdrawal _ | .tileWake _ => true
  | .tlyDbgSel _ _ | .cmdCqHead _ _ _ | .cmdQEnable _ _ _ | .commandFetch | .completionPost _ | .nopCommand _ => true
  | .load _ | .start _ | .stop _ | .unload _ | .suspend _ | .resume _ | .cancel _ | .queryOp _ | .snapshot _ => true
  | .checkscan _ | .scrub _ | .retrain _ | .migrate _ | .repairHardDram _ | .repairLaneTest _ | .repairTileTest _ => true
  | .repairReplace _ | .calRead _ | .calWrite _ _ | .timeSetStepDt _ | .timeSetOffset _ | .timeSetSource _ | .powerBudget _ => true
  | .fence _ | .longOpStart _ | .longOpSuspendPoint _ | .longOpEnd _ _ | .snapshotDone | .timeBaseRelease _ => true
  | .deadlineCheck _ | .readmission | .requestIssue _ _ | .arbiterGrant _ | .agePromotion _ | .promotionTokenRefill _ => true
  | .crosscutFailure _ | .dramWrite _ | .dramRefresh _ | .dramTempPoll _ _ | .alertN _ _ | .marginMeasure _ _ _ _ _ => true
  | .channelRetrain _ _ | .frequencyChange _ _ _ | .maintWindowEnd _ | .softPpr _ _ _ | .channelRetire _ | .copierMove => true
  | .dramInitDone | .sampleComplete _ | .slotReady _ _ | .framesetClose _ | .bitstreamDescriptor _ | .decodeDone _ _ => true
  | .portLossTimeout _ | .portRetryTimeout _ | .canary _ | .fusionCycle | .egoStep | .imuRead _ | .egoTimeout => true
  | .plannerCycle | .queryServe _ | .queryBudgetExpiry | .plannerIdlePoll | .deputyStart _ _ | .deputyImageRetry _ => true
  | .deputyFaulted _ _ | .deputyWatchdogExpiry _ | .dwdt _ _ | .dreport _ _ | .dfcmd _ _ | .observerFetchDone _ => true
  | .dctrlRel _ _ | .dctrlReady _ | .dctrlDbgEn _ | .dctrlErrclr _ | .dctrlPintest _ | .pintestEnd _ _ | .errorRecord => true
  | .deputyErrorReaction _ | .hubHeartbeat _ _ | .deputyHeartbeat _ | .hubLost _ | .deputyLost _ | .refugeTransmission _ => true
  | .lockstepMismatch _ | .latentFaultTest _ _ | .debugActionReplay _ | .checkJobStart _ _ | .scanEnd _ _ _ => true
  | .checkscanSuspendPoint _ | .tierRaise _ _ | .tierLower _ _ | .relockDone _ | .railSettled _ _ | .tierSwitch _ => true
  | .powerEstimate _ _ _ | .burstCreditExhausted | .peakPeriodLimit | .peakLockoutEnd | .peakAllowanceExhausted _ => true
  | .droopDetect _ _ | .clockMonitorWindow _ _ _ | .voltageMonitorFault _ _ | .thermalSample _ | .throttleStep _ => true
  | .coolantRead _ | .thermtrip | .avsbusRetry _ _ | .mpMajorFrame _ _ | .mpBudgetOverrun _ | .mpWatchdogExpiry => true
  | .mpRestartDone | .stressAccrual | .thermalCycleSample | .ledgerAoUpdate | .ledgerFlashWrite | .tileSelfTestDone _ _ => true
  | .spareRetest | .migrationStop _ | .dieLost _ _ | .pcieReset | .gptpEventMessage _ _ | .servoAdjust _ | .ppsIn => true
  | .ppsOut | .canFrameTx _ | .gpioEdge _ _ | .galleryHunt _ _ | .galleryReadRequest _ | .galleryWriteRequest _ => true
  | .galleryReadResponse _ | .galleryWriteAck _ | .gallerySignal _ | .gallerySignalAck _ | .galleryErrorResponse _ => true
  | .galleryIdle _ | .linkTrainingDone _ _ _ | .linkLost _ | .linkRetryTimeout _ | .linkTrainingRetry _ | .calendarSecond => true
  | .calSnap _ | .calCommit _ | .jtagInstruction _ | .traceSync | .railValid _ | .mpFirmwareRetry _ | .porstN _ => true
  | .wrstN _ | .saRstN _ | .sbRstN _ | .supplyDropout _ | .stAcknowledge _ | .deputyRailDropout _ | .droopRecovery _ => true

end Sys2Proof
end

