-- ==== Sys2Proof/Safety.lean ====
section
/-! DEFINITION. What a safe step is, when an instruction executes, and the canonical forms that every state of a run has:
the terms in which claims are stated. -/

namespace Sys2Proof.Machine

/-- A step that neither faults nor is refused. -/
def SafeStep (s : State) : Prop := ∃ t, step s = .next t

/-- Processor `p` executes the instruction at its PC whose fields are `e` (R105, R106, R125, R139): nothing stands before its
issue, its fetch and its reads of core storage meet no error, no SIGR owns its predicate, and the predicate lets it execute. -/
structure Executes (s : State) (p : Proc) (e : Enc) : Prop where
  issues : s.canIssue p = true
  inSpace : (s.seq p).pc.toNat < localSpace p
  fetched : s.fetchErr p = none
  sound : e.core = .none
  owned : predBusy (s.seq p) e.pred = false
  holds : (readPred (s.seq p) e.pred != e.pneg) = true

/-- The same of an instruction whose predicate keeps it from executing (R106). -/
structure PassedOver (s : State) (p : Proc) (e : Enc) : Prop where
  issues : s.canIssue p = true
  inSpace : (s.seq p).pc.toNat < localSpace p
  fetched : s.fetchErr p = none
  sound : e.core = .none
  owned : predBusy (s.seq p) e.pred = false
  holds : (readPred (s.seq p) e.pred != e.pneg) = false

/-- Everything but the sequencer of `p` is as it was. -/
def OnlySeq (p : Proc) (s t : State) : Prop := t.modSeq p (fun _ => s.seq p) = s

/-- Everything but tile `i` is as it was. -/
def OnlyTile (i : Fin 136) (s t : State) : Prop := t.modTile i (fun _ => s.tiles[i]) = s

/-- Between two sequencers only scalar registers, PC and the marks of a single step (R512) may differ. -/
def RegsOnly (q r : Seq) : Prop :=
  { r with g := q.g, ring := q.ring, tf := q.tf, pc := q.pc, dbgStep := q.dbgStep, bpArmed := q.bpArmed } = q

/-- Between two sequencers only predicates, PC and the marks of a single step may differ. -/
def PredsOnly (q r : Seq) : Prop := { r with preds := q.preds, pc := q.pc, dbgStep := q.dbgStep, bpArmed := q.bpArmed } = q

/-- Between two sequencers only PC and the marks of a single step may differ. -/
def PcOnly (q r : Seq) : Prop := { r with pc := q.pc, dbgStep := q.dbgStep, bpArmed := q.bpArmed } = q

/-- What an instruction that writes scalar register `c` leaves: the value (g0 reads 0), every other register of the frame, the
next PC, and nothing else changed in the device. -/
structure WritesReg (p : Proc) (s t : State) (c : BitVec 5) (v : BitVec 64) : Prop where
  value : t.reg p c = if c = 0 then 0 else v
  others : ∀ x, x ≠ c → t.reg p x = s.reg p x
  pc : (t.seq p).pc = (s.seq p).pc + 8
  seq : RegsOnly (s.seq p) (t.seq p)
  rest : OnlySeq p s t

/-- The same of an instruction that writes predicate `c` (p0 reads 1). -/
structure WritesPred (p : Proc) (s t : State) (c : BitVec 3) (b : Bool) : Prop where
  value : readPred (t.seq p) c = if c = 0 then true else b
  others : ∀ x, x ≠ c → readPred (t.seq p) x = readPred (s.seq p) x
  pc : (t.seq p).pc = (s.seq p).pc + 8
  seq : PredsOnly (s.seq p) (t.seq p)
  rest : OnlySeq p s t

/-- Execution continues at `a` and nothing else has changed. -/
structure Continues (p : Proc) (s t : State) (a : BitVec 64) : Prop where
  pc : (t.seq p).pc = a
  seq : PcOnly (s.seq p) (t.seq p)
  rest : OnlySeq p s t

/-- A precise trap waits to be taken (R119, R120): its cause, EADDR and EPC; nothing else has changed, PC included. -/
structure TrapWaits (p : Proc) (s t : State) (cause : BitVec 8) (eaddr epc : BitVec 64) : Prop where
  pend : (t.seq p).pend = some { cause := cause, deferred := false, eaddr := eaddr, epc := epc, ord := s.nowOrd }
  seq : { t.seq p with pend := (s.seq p).pend, dbgStep := (s.seq p).dbgStep, bpArmed := (s.seq p).bpArmed } = s.seq p
  rest : OnlySeq p s t

/-- An address at which a branch, call or return may continue (R115): aligned, and in the processor's local space. -/
def GoodTarget (p : Proc) (a : BitVec 64) : Prop := a &&& 7 = 0 ∧ a.toNat < localSpace p

/-- The store that holds a processor's local space, where that space starts in it, and the errors its words hold. -/
def State.spaceStore (s : State) : Proc → Mem
  | .core _ => s.mem
  | .mp => s.mpSram
  | .dep d => s.deps[d].sram

def spaceBase : Proc → Nat
  | .core i => localBase i
  | _ => 0

def State.spaceErrs (s : State) : Proc → List (Nat × EccKind)
  | .core _ => s.ecc
  | .mp => s.mpEcc
  | .dep d => s.deps[d].ecc

/-- A byte of a processor's local space. -/
def State.spaceByte (s : State) (p : Proc) (a : Nat) : Byte := memGet (s.spaceStore p) (spaceBase p + a)

/-- No word of `[a, a + n)` of a processor's local space holds an error. -/
def SpaceClean (s : State) (p : Proc) (a n : Nat) : Prop :=
  ∀ c ∈ s.spaceErrs p, c.1 < (spaceBase p + a) / 8 * 8 ∨ spaceBase p + a + n ≤ c.1

/-- What a load that writes scalar register `c` through the LD and ST view of the registers (R89) leaves. -/
structure Loads (p : Proc) (s t : State) (c : BitVec 5) (v : BitVec 64) : Prop where
  value : readReg (t.seq p) c true = if c = 0 then 0 else v
  others : ∀ x, x ≠ c → readReg (t.seq p) x true = readReg (s.seq p) x true
  pc : (t.seq p).pc = (s.seq p).pc + 8
  rest : OnlySeq p s t

/-- The bytes `[a, a + n)` of a processor's local space become those of a number, least significant first; every other byte of
that store and every other store stay. -/
structure Stores (p : Proc) (s t : State) (a n v : Nat) : Prop where
  inside : ∀ i, i < n → t.spaceByte p (a + i) = BitVec.ofNat 8 (v / 256 ^ i)
  outside : ∀ x, x < spaceBase p + a ∨ spaceBase p + a + n ≤ x → memGet (t.spaceStore p) x = memGet (s.spaceStore p) x
  mem : (∀ i, p ≠ .core i) → t.mem = s.mem
  mpSram : p ≠ .mp → t.mpSram = s.mpSram
  deps : (∀ d, p ≠ .dep d) → t.deps = s.deps
  pc : (t.seq p).pc = (s.seq p).pc + 8
  seq : PcOnly (s.seq p) (t.seq p)
  hub : t.fab = s.fab ∧ t.tly = s.tly ∧ t.saf = s.saf ∧ t.hostMem = s.hostMem ∧ t.flash = s.flash

/-- A tally operation reaches the end of the queue of its home's island, and the queues of the other islands stay (R199). -/
def Queued (s t : State) (home : Nat) (op : TallyOp) : Prop :=
  (t.tly.queue)[islandOf home] = (s.tly.queue)[islandOf home] ++ [op] ∧
  (∀ i, i ≠ islandOf home → (t.tly.queue)[i] = (s.tly.queue)[i]) ∧ t.tly.tab = s.tly.tab

/-- Lane `j` of a vector register in format `f` (R73). -/
def laneOf (f : Nat) (v : BitVec 2048) (j : Nat) : Nat := nbits v.toNat (fmtBits f * j) (fmtBits f)

/-- The sticky flags that `n` lanes set together (R50): each that some lane sets, and no other. -/
def FlagsOf (n : Nat) (g : Nat → BitVec 7) (fl : BitVec 7) : Prop :=
  ∀ b, fl.getLsbD b = true ↔ ∃ j, j < n ∧ (g j).getLsbD b = true

/-- What a vector instruction that writes `v_k` leaves: the value, the sticky flags it adds, every other vector register, the next
PC, no window rows kept for a VDW (R167), and nothing else changed in the device: no accumulator, no scalar register, no store. -/
structure WritesVec (i : Fin 136) (s t : State) (k : Nat) (v : BitVec 2048) (fl : BitVec 7) : Prop where
  value : vreg t i k = v
  others : ∀ j, j ≠ k → vreg t i j = vreg s i j
  flags : (t.tiles[i]).aflags = (s.tiles[i]).aflags ||| fl
  pc : (t.tiles[i]).seq.pc = (s.tiles[i]).seq.pc + 8
  seq : PcOnly (s.tiles[i]).seq (t.tiles[i]).seq
  window : (t.tiles[i]).window = none
  tile : { t.tiles[i] with vr := (s.tiles[i]).vr, aflags := (s.tiles[i]).aflags, seq := (s.tiles[i]).seq,
                           window := (s.tiles[i]).window } = s.tiles[i]
  rest : OnlyTile i s t

/-- The spans `sp` of tile `i`'s local store hold what memory `m` holds there, and no other byte of the device's stores has changed. -/
structure SpansHold (i : Fin 136) (s t : State) (m : Mem) (sp : List (Int × Int)) : Prop where
  inside : ∀ x ∈ sp, ∀ a : Nat, x.1 ≤ a → (a : Int) ≤ x.2 → memGet t.mem (localBase i + a) = memGet m (localBase i + a)
  outside : ∀ a : Nat, (∀ x ∈ sp, (a : Int) < localBase i + x.1 ∨ (localBase i : Int) + x.2 < a) → memGet t.mem a = memGet s.mem a
  others : t.mpSram = s.mpSram ∧ t.deps = s.deps ∧ t.hostMem = s.hostMem ∧ t.flash = s.flash

/-- The instruction of tile `i` has completed: PC at the next one, and no trap waits. -/
def Ends (i : Fin 136) (s t : State) : Prop :=
  (t.tiles[i]).seq.pc = (s.tiles[i]).seq.pc + 8 ∧ (t.tiles[i]).seq.pend = none ∧ (t.tiles[i]).seq.deferred = none ∧
  (t.tiles[i]).seq.run = .running

/-- Every store of the device is in canonical form. -/
structure StoresOk (s : State) : Prop where
  mem : Memory.wf s.mem = true
  mpSram : Memory.wf s.mpSram = true
  flash : Memory.wf s.flash = true
  hostMem : Memory.wf s.hostMem = true
  deps : ∀ d : Fin 2, Memory.wf s.deps[d].sram = true

/-- The command in hand of queue pair `q` is the one with entry `e`, and it is due: a command for the MP is the oldest of the MP's
queue, and the MP is at work (R221, R454, R456). -/
def Served (s : State) (q : Fin 16) (e : CmdEntry) : Prop :=
  (s.cmd.q[q]).cur = some e ∧
  (e.opcode ∈ [0x00#8, 0x03#8, 0x0B#8, 0x1F#8] ∨ (s.cmd.mpq.head? = some q ∧ s.pwr.mpAbsent = false))

/-- The command with entry `e` is no longer in hand of pair `q`, and a completion entry with these contents falls due (R219, R220). -/
structure Answered (s t : State) (q : Fin 16) (e : CmdEntry) (st : BitVec 8) (long : Bool) (i0 i1 : BitVec 32) : Prop where
  cur : (t.cmd.q[q]).cur = none
  mpq : q ∉ t.cmd.mpq
  entry : (s.cmd.q[q]).enable = true → (t.cmd.q[q]).held = (s.cmd.q[q]).held ++
    [{ cid := e.cid, sqhead := (t.cmd.q[q]).sqHead.setWidth 16, status := st, long := long, final := !long, info0 := i0, info1 := i1,
       irq := e.irq && !long }]

/-- A command completes with one entry (R220). -/
def Completes (s t : State) (q : Fin 16) (e : CmdEntry) (st : BitVec 8) (i0 i1 : BitVec 32) : Prop := Answered s t q e st false i0 i1

/-- A long command is accepted into slot `k` (R220, R227, R231): its operation is QUEUED, and the acceptance entry carries the handle. -/
def Accepts (s t : State) (q : Fin 16) (e : CmdEntry) (k : Fin 64) : Prop :=
  Answered s t q e 0x00 true (handleOf e.opcode s.cmd.nextSeq k) 0 ∧
  ∃ o, t.cmd.ops[k] = some o ∧ o.state = .queued ∧ o.opcode = e.opcode ∧ o.seq = s.cmd.nextSeq ∧ o.p = e.p ∧ o.q = q ∧ o.cid = e.cid

/-- Everything but the command queues and long operations is as it was. -/
def OnlyCmd (s t : State) : Prop := { t with cmd := s.cmd } = s

/-- Everything but the fields of queue pair `q` is as it was. -/
def OnlyPair (q : Fin 16) (s t : State) : Prop := t.modQ q (fun _ => s.cmd.q[q]) = s

/-- One record enters the aggregated error state: its category, source and INFO (R399). -/
def Raises (s t : State) (cat : BitVec 8) (src : Src) (info : Nat) : Prop :=
  ∃ r, t.saf.raised = s.saf.raised ++ [r] ∧ r.cat = cat ∧ r.src = src ∧ r.info = BitVec.ofNat 48 info ∧ r.dt = s.dt.setWidth 48

end Sys2Proof.Machine
end

