-- ==== Sys2Proof/Certificates/Slice0/Obligations.lean ====
section
/-! DEFINITION. The statements for the provers: what the rules of the spec say of the commands and of the machine. -/

open Sys2Proof Sys2Proof.Machine

/-! ## The block -/

/-- The step of a queue with a command at its front is that command's effect on the state with the queue's rest. -/
def Obligations.StepRunsFrontCommand : Prop :=
  ∀ (s : State) (c : Instr) (cs : List Instr), step { s with pending := c :: cs } = exec c { s with pending := cs }

/-- The model's choice (log entry 2): on an empty queue a step is one nanosecond of device time. DT counts on while it runs (R488),
and the queue stays empty. -/
def Obligations.IdleStepIsOneNanosecond : Prop :=
  ∀ s : State, s.pending = [] → ∃ t, step s = .next t ∧ t.pending = [] ∧
    t.tim.dt = if s.dtRuns then s.tim.dt + 1 else s.tim.dt

/-- No command ends in a fault or a refusal. -/
def Obligations.EveryCommandAnswersNext : Prop :=
  ∀ (c : Instr) (s : State), ∃ t, exec c s = .next t

/-! ## Bunov-C: integers, predicates, branches, calls, system registers -/

/-- R113: what each integer operation computes, as numbers. Products and sums wrap modulo 2^64; shifts use bits [5:0] of the
amount; MULH and MULHU give bits [127:64]; DIV and REM round toward zero; a division by zero gives all ones and the dividend; DIV of
the most negative number by -1 gives it back, with remainder 0.
R105, R106, R113: an integer instruction, MOVI or MOVHI that executes writes rd and changes nothing else but the PC, which
advances by one word: no other register, no predicate, no AFLAGS, no memory; it never traps on its values. The immediate of ANDI, ORI and XORI is zero-extended,
every other one sign-extended; MOVHI keeps the low half of rd; a shift by an immediate whose bits [31:6] are not 0 is illegal. -/
def Obligations.IntegerOperations : Prop :=
  (∀ a b : BitVec 64,
    (aluVal .add a b).toNat = (a.toNat + b.toNat) % 2 ^ 64 ∧
    (aluVal .sub a b).toNat = (a.toNat + (2 ^ 64 - b.toNat)) % 2 ^ 64 ∧
    (∀ i : Nat, (aluVal .and a b).getLsbD i = (a.getLsbD i && b.getLsbD i) ∧
      (aluVal .or a b).getLsbD i = (a.getLsbD i || b.getLsbD i) ∧
      (aluVal .xor a b).getLsbD i = (a.getLsbD i != b.getLsbD i)) ∧
    (aluVal .shl a b).toNat = a.toNat * 2 ^ (b.toNat % 64) % 2 ^ 64 ∧
    (aluVal .shr a b).toNat = a.toNat / 2 ^ (b.toNat % 64) ∧
    (aluVal .sra a b).toInt = a.toInt / 2 ^ (b.toNat % 64) ∧
    (aluVal .mul a b).toNat = a.toNat * b.toNat % 2 ^ 64 ∧
    (aluVal .mulh a b).toInt = a.toInt * b.toInt / 2 ^ 64 ∧
    (aluVal .mulhu a b).toNat = a.toNat * b.toNat / 2 ^ 64 ∧
    (b = 0 → aluVal .div a b = 0xFFFFFFFFFFFFFFFF ∧ aluVal .divu a b = 0xFFFFFFFFFFFFFFFF ∧
      aluVal .rem a b = a ∧ aluVal .remu a b = a) ∧
    (b ≠ 0 → ¬ (a.toInt = -2 ^ 63 ∧ b.toInt = -1) →
      (aluVal .div a b).toInt = a.toInt.tdiv b.toInt ∧ (aluVal .rem a b).toInt = a.toInt.tmod b.toInt) ∧
    (a.toInt = -2 ^ 63 → b.toInt = -1 → aluVal .div a b = a ∧ aluVal .rem a b = 0) ∧
    (b ≠ 0 → (aluVal .divu a b).toNat = a.toNat / b.toNat ∧ (aluVal .remu a b).toNat = a.toNat % b.toNat) ∧
    (aluVal .min a b).toInt = min a.toInt b.toInt ∧ (aluVal .max a b).toInt = max a.toInt b.toInt ∧
    (aluVal .minu a b).toNat = min a.toNat b.toNat ∧ (aluVal .maxu a b).toNat = max a.toNat b.toNat) ∧
  (∀ (s : State) (p : Proc) (e : Enc), Executes s p e →
    (∀ op, crOk e = true → ∃ t, exec (.aluRegOp p op e) s = .next t ∧
      WritesReg p s t (opRd e) (aluVal op (s.reg p (opRa e)) (s.reg p (opRb e)))) ∧
    (∀ op, aluImmOk op e = true → ∃ t, exec (.aluImmOp p op e) s = .next t ∧
      WritesReg p s t (opRd e) (aluVal op (s.reg p (opRa e))
        (if op = .and ∨ op = .or ∨ op = .xor then (opImm e).setWidth 64 else (opImm e).signExtend 64))) ∧
    (moviOk e = true → ∃ t, exec (.movi p e) s = .next t ∧ WritesReg p s t (opRd e) ((opImm e).signExtend 64)) ∧
    (moviOk e = true → ∃ t, exec (.movhi p e) s = .next t ∧
      WritesReg p s t (opRd e) (opImm e ++ ((s.reg p (opRd e)).setWidth 32 : BitVec 32))) ∧
    ((s.seq p).inTrap = false → ∀ op, op = .shl ∨ op = .shr ∨ op = .sra → 64 ≤ (opImm e).toNat →
      ∃ t, exec (.aluImmOp p op e) s = .next t ∧ TrapWaits p s t 0x01 0 (s.seq p).pc))

/-- R112: a comparison, PAND, POR or PXOR that executes, and whose predicates no SIGR owns, writes pd and changes nothing else but
the PC. Comparisons LT and GE are signed, LTU and GEU unsigned. -/
def Obligations.ComparisonsWritePd : Prop :=
  ∀ (s : State) (p : Proc) (e : Enc), Executes s p e →
    (∀ op imm, compareOk imm e = true → ∃ t b, exec (.compare p op imm e) s = .next t ∧ WritesPred p s t (opPd e) b ∧
      let x := s.reg p (opRa e)
      let y := if imm then (opImm e).signExtend 64 else s.reg p (opRb e)
      (b = true ↔ match op with
        | .eq => x = y
        | .ne => x ≠ y
        | .lt => x.toInt < y.toInt
        | .ge => y.toInt ≤ x.toInt
        | .ltu => x.toNat < y.toNat
        | .geu => y.toNat ≤ x.toNat)) ∧
    (∀ op, cpOk e = true → predBusy (s.seq p) (bits e.ops 42 3) = false → predBusy (s.seq p) (bits e.ops 38 3) = false →
      ∃ t, exec (.predicateLogic p op e) s = .next t ∧
        let x := (readPred (s.seq p) (bits e.ops 42 3)) ^^ (e.ops.getLsbD 41)
        let y := (readPred (s.seq p) (bits e.ops 38 3)) ^^ (e.ops.getLsbD 37)
        WritesPred p s t (opPd e) (match op with | .and => x && y | .or => x || y | .xor => x ^^ y))

/-- R106: an instruction whose predicate holds it back only advances the PC, whatever its operation; and one with a reserved bit
set raises an illegal-instruction trap, whatever its predicate (R107), outside the trap frame. -/
def Obligations.PredicationAndReservedBits : Prop :=
  ∀ (s : State) (p : Proc) (e : Enc),
    (PassedOver s p e → ∀ op, crOk e = true →
      ∃ t, exec (.aluRegOp p op e) s = .next t ∧ Continues p s t ((s.seq p).pc + 8)) ∧
    (s.canIssue p = true → (s.seq p).pc.toNat < localSpace p → s.fetchErr p = none → (s.seq p).inTrap = false →
      ∀ op, crOk e = false → ∃ t, exec (.aluRegOp p op e) s = .next t ∧ TrapWaits p s t 0x01 0 (s.seq p).pc)

/-- R115: BR that executes continues at PC + 8 x off24, and JR at ra, when that is an aligned address of the local space.
R115: JR to an address that is not aligned raises an alignment trap (0x05), and one to an aligned address beyond the local
space a fetch-address trap (0x06): EADDR holds the target, EPC the instruction, and nothing else changes. Outside the trap frame. -/
def Obligations.BranchesAndTheirTargets : Prop :=
  (∀ (s : State) (p : Proc) (e : Enc), Executes s p e →
    (cbOffOk e = true → GoodTarget p ((s.seq p).pc + 8 * (opOff24 e).signExtend 64) →
      ∃ t, exec (.br p e) s = .next t ∧ Continues p s t ((s.seq p).pc + 8 * (opOff24 e).signExtend 64)) ∧
    (cbRegOk e = true → GoodTarget p (s.reg p (opRaB e)) →
      ∃ t, exec (.jr p e) s = .next t ∧ Continues p s t (s.reg p (opRaB e)))) ∧
  (∀ (s : State) (p : Proc) (e : Enc), Executes s p e → (s.seq p).inTrap = false →
    let a := s.reg p (opRaB e)
    cbRegOk e = true →
      (a &&& 7 ≠ 0 → ∃ t, exec (.jr p e) s = .next t ∧ TrapWaits p s t 0x05 a (s.seq p).pc) ∧
      (a &&& 7 = 0 → localSpace p ≤ a.toNat → ∃ t, exec (.jr p e) s = .next t ∧ TrapWaits p s t 0x06 a (s.seq p).pc))

/-- R116, R117: outside the trap frame, with fewer than seven frames resident and a good target, CALL and CALLR increment DEPTH,
write the address of the next instruction into w4 of the new frame and continue at the target; RET, with DEPTH above FLOOR and a
good address in w4, continues there and decrements DEPTH. The global registers, the predicates, FLOOR and the trap registers do not change.
R116, R117: with seven frames resident a call raises a window-overflow trap; a RET at depth 0 raises a return-empty trap, and
one whose caller is not resident a window-underflow trap; each changes nothing else. -/
def Obligations.CallsReturnsAndTheWindow : Prop :=
  (∀ (s : State) (p : Proc) (e : Enc), Executes s p e → (s.seq p).inTrap = false →
    let q := s.seq p
    let called (t : State) (a : BitVec 64) : Prop :=
      (t.seq p).depth = q.depth + 1 ∧ t.reg p 20 = q.pc + 8 ∧ (t.seq p).pc = a ∧ (t.seq p).floor = q.floor ∧
      (t.seq p).g = q.g ∧ (t.seq p).tf = q.tf ∧ (t.seq p).preds = q.preds ∧ (t.seq p).pend = q.pend ∧ OnlySeq p s t ∧
      ∀ (k : Fin 8) (j : Fin 12), k.val ≠ (q.depth.toNat + 1) % 8 ∨ j.val ≠ 0 → ((t.seq p).ring[k])[j] = (q.ring[k])[j]
    (cbOffOk e = true → q.depth - q.floor ≠ 6 → GoodTarget p (q.pc + 8 * (opOff24 e).signExtend 64) →
      ∃ t, exec (.call p e) s = .next t ∧ called t (q.pc + 8 * (opOff24 e).signExtend 64)) ∧
    (cbRegOk e = true → q.depth - q.floor ≠ 6 → GoodTarget p (s.reg p (opRaB e)) →
      ∃ t, exec (.callr p e) s = .next t ∧ called t (s.reg p (opRaB e))) ∧
    (allZero e = true → q.depth ≠ 0 → q.depth ≠ q.floor → GoodTarget p (s.reg p 20) →
      ∃ t, exec (.ret p e) s = .next t ∧ (t.seq p).depth = q.depth - 1 ∧ (t.seq p).pc = s.reg p 20 ∧ (t.seq p).floor = q.floor ∧
        (t.seq p).ring = q.ring ∧ (t.seq p).g = q.g ∧ (t.seq p).preds = q.preds ∧ (t.seq p).pend = q.pend ∧ OnlySeq p s t)) ∧
  (∀ (s : State) (p : Proc) (e : Enc), Executes s p e → (s.seq p).inTrap = false →
    let q := s.seq p
    (cbOffOk e = true → q.depth - q.floor = 6 → ∃ t, exec (.call p e) s = .next t ∧ TrapWaits p s t 0x02 0 q.pc) ∧
    (cbRegOk e = true → q.depth - q.floor = 6 → ∃ t, exec (.callr p e) s = .next t ∧ TrapWaits p s t 0x02 0 q.pc) ∧
    (allZero e = true → q.depth = 0 → ∃ t, exec (.ret p e) s = .next t ∧ TrapWaits p s t 0x04 0 q.pc) ∧
    (allZero e = true → q.depth ≠ 0 → q.depth = q.floor → ∃ t, exec (.ret p e) s = .next t ∧ TrapWaits p s t 0x03 0 q.pc))

/-- R88: MFSR reads a system register that the processor implements into rd, and NOP only advances the PC. MTSR of SPILLBASE,
TRAPBASE and TASKLBL keeps the bits those registers have, and AFLAGS (of a core) clears the bits written as 1; a write of ECAUSE,
EADDR or DTIME, or of RING or EPC outside the trap frame, raises an illegal-instruction trap. -/
def Obligations.SystemRegisterAccess : Prop :=
  ∀ (s : State) (p : Proc) (e : Enc), Executes s p e →
    (mfsrOk e = true → srImplemented p (srNum e) = true → ∃ t, exec (.mfsr p e) s = .next t ∧
      WritesReg p s t (opRd e) (srRead s p (srNum e))) ∧
    (allZero e = true → ∃ t, exec (.nop p e) s = .next t ∧ Continues p s t ((s.seq p).pc + 8)) ∧
    (mtsrOk e = true → srImplemented p (srNum e) = true →
      let v := s.reg p (opRa e)
      (srNum e = 2 → ∃ t, exec (.mtsr p e) s = .next t ∧ (t.seq p).spillBase = v &&& ~~~0x7F#64 ∧
        (t.seq p).pc = (s.seq p).pc + 8 ∧ OnlySeq p s t) ∧
      (srNum e = 3 → ∃ t, exec (.mtsr p e) s = .next t ∧ (t.seq p).trapBase = v &&& ~~~0x7#64 ∧
        (t.seq p).pc = (s.seq p).pc + 8 ∧ OnlySeq p s t) ∧
      (srNum e = 7 → ∃ t, exec (.mtsr p e) s = .next t ∧ (t.seq p).taskLbl = v &&& 0xFFFFFF07#64 ∧
        (t.seq p).pc = (s.seq p).pc + 8 ∧ OnlySeq p s t) ∧
      (∀ i : Fin 136, p = .core i → srNum e = 0 → ∃ t, exec (.mtsr p e) s = .next t ∧
        (t.tiles[i]).aflags = (s.tiles[i]).aflags &&& ~~~(v.setWidth 7) ∧ (t.seq p).pc = (s.seq p).pc + 8) ∧
      ((s.seq p).inTrap = false → srNum e ∈ [1, 4, 5, 6, 8] →
        ∃ t, exec (.mtsr p e) s = .next t ∧ TrapWaits p s t 0x01 0 (s.seq p).pc))

/-- R120, R121, R123, R124: TRAP makes a software trap wait, with off24 in EADDR and the next instruction in EPC; a trap that waits is
taken once no posted store and no TMUL that waits for the array is outstanding, EPC, ECAUSE and EADDR taking its values, RING.TRAP
becoming 1 and execution continuing at TRAPBASE; a deferred error becomes the trap to take, with bit 8 of its ECAUSE and the PC as EPC,
in place of a precise trap that waits, and of two deferred errors the one that comes first in program order (of two stores that is
the model's reading, log 110); ERET in the trap frame continues at EPC with TRAP and SELEN 0. -/
def Obligations.TrapsEnterAndReturn : Prop :=
  ∀ (s : State) (p : Proc),
    (∀ e, Executes s p e → (s.seq p).inTrap = false → cbOffOk e = true → ∃ t, exec (.trap p e) s = .next t ∧
      TrapWaits p s t 0x0D ((opOff24 e).signExtend 64) ((s.seq p).pc + 8)) ∧
    (∀ e, Executes s p e → (s.seq p).inTrap = true → allZero e = true → ∃ t, exec (.eret p e) s = .next t ∧
      (t.seq p).pc = (s.seq p).epc ∧ (t.seq p).inTrap = false ∧ (t.seq p).selen = false ∧ (t.seq p).g = (s.seq p).g ∧
      (t.seq p).ring = (s.seq p).ring ∧ (t.seq p).tf = (s.seq p).tf ∧ (t.seq p).preds = (s.seq p).preds ∧ OnlySeq p s t) ∧
    (∀ r, (s.seq p).pend = some r → (s.seq p).postedSt = 0 → (s.seq p).deferred = none → s.tmulPending p = false →
      ∃ t, exec (.trapEntry p) s = .next t ∧ (t.seq p).epc = r.epc ∧
        (t.seq p).ecause = BitVec.ofNat 64 (r.cause.toNat + if r.deferred then 256 else 0) ∧ (t.seq p).eaddr = r.eaddr ∧
        (t.seq p).inTrap = true ∧ (t.seq p).pc = (s.seq p).trapBase ∧ (t.seq p).pend = none ∧ (t.seq p).g = (s.seq p).g ∧
        (t.seq p).ring = (s.seq p).ring ∧ (t.seq p).tf = (s.seq p).tf ∧ (t.seq p).preds = (s.seq p).preds ∧ OnlySeq p s t) ∧
    (∀ r, (s.seq p).deferred = some r → (s.seq p).inTrap = false → s.tmulPending p = false → ∃ t, exec (.deferredTrap p) s = .next t ∧
      ((∀ x, (s.seq p).pend = some x → x.deferred = false ∨ r.ord < x.ord) →
        (t.seq p).pend = some { r with deferred := true, epc := (s.seq p).pc }) ∧
      (∀ x, (s.seq p).pend = some x → x.deferred = true → x.ord ≤ r.ord → (t.seq p).pend = some { x with epc := (s.seq p).pc }) ∧
      (t.seq p).deferred = none ∧ (t.seq p).pendSig = none ∧ OnlySeq p s t)

/-! ## Bunov-C: loads, stores, DMA, tally instructions -/

/-- R127, R128: an LD of an aligned address of the local space, whose words hold no error, writes rd with the 2^SIZE bytes there, least
significant first, zero-extended with U = 1 and sign-extended with U = 0, and changes nothing else but the PC.
R127: an ST of an aligned address of the local space, whose words hold no error, writes the 2^SIZE low bytes of rd there, least
significant first, and no other byte of any store. -/
def Obligations.LocalLoadsAndStores : Prop :=
  (∀ (s : State) (p : Proc) (e : Enc), Executes s p e → ldOk e = true → opL e = true →
    let ea := (effAddr (s.seq p) e).toNat
    let n := 2 ^ (opSize e).toNat
    ea % n = 0 → ea + n ≤ localSpace p → SpaceClean s p ea n →
    ∃ t, exec (.ld p e [] .none) s = .next t ∧
      let v := leNat ((List.range n).map fun i => s.spaceByte p (ea + i))
      Loads p s t (opRd e) (if opU e then BitVec.ofNat 64 v else (BitVec.ofNat (8 * n) v).signExtend 64)) ∧
  (∀ (s : State) (p : Proc) (e : Enc), Executes s p e → stOk e = true → opL e = true → Memory.wf (s.spaceStore p) = true →
    let ea := (effAddr (s.seq p) e).toNat
    let n := 2 ^ (opSize e).toNat
    ea % n = 0 → ea + n ≤ localSpace p → SpaceClean s p ea n →
    ∃ t, exec (.st p e) s = .next t ∧ Stores p s t ea n (readReg (s.seq p) (opRd e) true).toNat)

/-- R127, R123: outside the trap frame an LD or ST whose address is not a multiple of the access size raises an alignment trap
(0x05), and one of the local space that reaches beyond it a decode bus error (0x07), with the address in EADDR and nothing else
changed but that the decode error is entered (R35; that it is entered for the local space too is the model's reading, log 14): of a core
or the MP as category 0x21 with its source and the address.
R127, R128, R252: a device-physical LD or ST of a core that its port lets pass hands one request of the sequencer's source, class and
deadline to the fabric, after those that wait there. The LD keeps the sequencer until its response (PC unchanged); the ST is posted and
the sequencer goes on. No store changes. -/
def Obligations.BadAndDeviceAccesses : Prop :=
  (∀ (s : State) (p : Proc) (e : Enc), Executes s p e → (s.seq p).inTrap = false →
    let ea := effAddr (s.seq p) e
    let n := 2 ^ (opSize e).toNat
    (ldOk e = true → ea.toNat % n ≠ 0 → ∃ t, exec (.ld p e [] .none) s = .next t ∧ TrapWaits p s t 0x05 ea (s.seq p).pc) ∧
    (stOk e = true → ea.toNat % n ≠ 0 → ∃ t, exec (.st p e) s = .next t ∧ TrapWaits p s t 0x05 ea (s.seq p).pc) ∧
    (opL e = true → ea.toNat % n = 0 → localSpace p < ea.toNat + n →
      (ldOk e = true → ∃ t, exec (.ld p e [] .none) s = .next t ∧ TrapWaits p (s.localDecode p ea) t 0x07 ea (s.seq p).pc) ∧
      (stOk e = true → ∃ t, exec (.st p e) s = .next t ∧ TrapWaits p (s.localDecode p ea) t 0x07 ea (s.seq p).pc) ∧
      (isDep p = false → Raises s (s.localDecode p ea) 0x21 (s.srcOf p) (ea.toNat % 2 ^ 48) ∧
        { s.localDecode p ea with saf := s.saf } = s))) ∧
  (∀ (s : State) (i : Fin 136) (e : Enc) (tg : Target), Executes s (.core i) e → opL e = false →
    let q := s.seq (.core i)
    let ea := effAddr q e
    let n := 2 ^ (opSize e).toNat
    ea.toNat % n = 0 → ea.toNat / 2 ^ 48 = 0 → portCheck s ea.toNat n = .ok tg →
    let handed (t : State) (w : Bool) (d : List Byte) (o : Origin) : Prop :=
      ∃ r, t.fab.ports = s.fab.ports ++ [r] ∧ r.src = s.srcOf (.core i) ∧ r.addr = ea.toNat ∧ r.len = n ∧ r.write = w ∧ r.data = d ∧
        r.org = o ∧ r.cls = q.taskLbl.setWidth 3 ∧ r.dl = (q.taskLbl >>> 8).setWidth 24 ∧ t.mem = s.mem ∧ t.tly = s.tly
    (ldOk e = true → ∃ t, exec (.ld (.core i) e [] .none) s = .next t ∧ handed t false [] (.ld (.core i)) ∧
      (t.seq (.core i)).ldWait = some { rd := opRd e, size := opSize e, zext := opU e, addr := ea.toNat, resp := none } ∧
      (t.seq (.core i)).pc = q.pc) ∧
    (stOk e = true → ∃ t, exec (.st (.core i) e) s = .next t ∧
      handed t true (natLe n (readReg q (opRd e) true).toNat) (.st (.core i)) ∧
      (t.seq (.core i)).postedSt = q.postedSt + 1 ∧ (t.seq (.core i)).pc = q.pc + 8))

/-- R128, R124, R135: the data that comes back for an LD is written to rd, and the LD has completed (the MP's data cache keeps data of
device memory besides); an error makes a precise trap wait. The acknowledgement of a posted ST, and its error response, take it off
the count of those outstanding; the error becomes a deferred trap at the present PC, once no TMUL waits for the array, and of two
deferred errors the first in program order is kept (of two stores that is the model's reading, log 110). -/
def Obligations.ResponsesComplete : Prop :=
  ∀ (s : State) (p : Proc),
    (∀ w v, (s.seq p).ldWait = some w → w.resp = some (.data v) → ∃ t, exec (.ldResponse p) s = .next t ∧
      (t.seq p).ldWait = none ∧ (p ≠ .mp → t.mpCache = s.mpCache) ∧
      Loads p { s with mpCache := t.mpCache } t w.rd (if w.zext then BitVec.ofNat 64 (v.toNat % 2 ^ (8 * 2 ^ w.size.toNat))
        else (BitVec.ofNat (8 * 2 ^ w.size.toNat) v.toNat).signExtend 64)) ∧
    (∀ w c a, (s.seq p).ldWait = some w → w.resp = some (.error c a) → (s.seq p).inTrap = false →
      ∃ t, exec (.ldResponse p) s = .next t ∧ (t.seq p).ldWait = none ∧
        (t.seq p).pend = some { cause := c, deferred := false, eaddr := a, epc := (s.seq p).pc, ord := s.nowOrd } ∧ OnlySeq p s t) ∧
    (∀ c a k rest, (s.seq p).stErr = (c, a, k) :: rest → (s.seq p).ldWait = none → (s.seq p).wait = none → (s.seq p).inTrap = false →
      s.tmulPending p = false →
      ∃ t, exec (.stErrorResponse p) s = .next t ∧ (t.seq p).stErr = rest ∧ (t.seq p).postedSt = (s.seq p).postedSt - 1 ∧
        ((∀ x, (s.seq p).pend = some x → x.deferred = false ∨ k < x.ord) →
          (t.seq p).pend = some { cause := c, deferred := true, eaddr := a, epc := (s.seq p).pc, ord := k }) ∧
        (∀ x, (s.seq p).pend = some x → x.deferred = true → x.ord ≤ k → (t.seq p).pend = some { x with epc := (s.seq p).pc }) ∧
        OnlySeq p s t) ∧
    ((s.seq p).stAck ≠ 0 → (s.seq p).pendSig = none → ∃ t, exec (.stAcknowledge p) s = .next t ∧
      (t.seq p).stAck = (s.seq p).stAck - 1 ∧ (t.seq p).postedSt = (s.seq p).postedSt - 1 ∧ OnlySeq p s t)

/-- R131, R134, R92: DMA.G and DMA.S of a 64-byte-aligned descriptor in the local space put it into the first free slot of the engine and go
on; a descriptor whose transactions are done leaves its slot, its status word is written at offset 56 if it asks for it, and its
tally is signalled once by the engine's source. -/
def Obligations.DmaDescriptorsIssueAndComplete : Prop :=
  ∀ (s : State) (p : Proc),
    (∀ (e : Enc) (k : Fin 32), Executes s p e → dOk e = true → isDep p = false → s.freeDma p = some k →
      let a := (s.reg p (opRaB e)).toNat
      let d := (List.range 64).map fun i => s.spaceByte p (a + i)
      a % 64 = 0 → a + 64 ≤ localSpace p → SpaceClean s p a 64 →
      (∃ t, exec (.dmaG p e) s = .next t ∧ t.dmaOf p k = some (descSlot false (s.marked (s.srcOf p)) a d) ∧
        (∀ j, j ≠ k → t.dmaOf p j = s.dmaOf p j) ∧ (t.seq p).pc = (s.seq p).pc + 8 ∧ t.mem = s.mem) ∧
      (∃ t, exec (.dmaS p e) s = .next t ∧ t.dmaOf p k = some (descSlot true (s.marked (s.srcOf p)) a d) ∧
        (∀ j, j ≠ k → t.dmaOf p j = s.dmaOf p j) ∧ (t.seq p).pc = (s.seq p).pc + 8 ∧ t.mem = s.mem)) ∧
    (∀ (k : Fin 32) (d : DmaSlot), s.dmaOf p k = some d → d.finished = true → s.procClocked p = true → (s.seq p).pendSig = none →
      (d.statusEn = true → d.addr % 64 = 0 ∧ d.addr + 64 ≤ localSpace p ∧ SpaceClean s p (d.addr + 56) 8 ∧ Memory.wf (s.spaceStore p) = true) →
      ∃ t, exec (.dmaDescriptorComplete p k) s = .next t ∧ t.dmaOf p k = none ∧ (∀ j, j ≠ k → t.dmaOf p j = s.dmaOf p j) ∧
        Queued s t d.tally.toNat (.sig d.tally.toNat (s.dmaSrcOf p) (s.partOf (s.dmaSrcOf p)) 1 d.marked none) ∧
        (d.statusEn = false → t.mem = s.mem) ∧
        (d.statusEn = true → (∀ n, n < 8 → t.spaceByte p (d.addr + 56 + n) = BitVec.ofNat 8 (d.status / 256 ^ n)) ∧
          ∀ x, x < spaceBase p + d.addr + 56 ∨ spaceBase p + d.addr + 64 ≤ x → memGet (t.spaceStore p) x = memGet (s.spaceStore p) x))

/-- R135, R183: SIGNAL to a home up to 16,383, with no snapshot under way, sends N to the home when every posted ST has been acknowledged and,
with D = 1, every descriptor has completed and every write of a KVAPP; otherwise it waits, with the PC where it is. R136: a home above 16,383 raises a tally-range trap. -/
def Obligations.SignalReleases : Prop :=
  ∀ (s : State) (p : Proc) (e : Enc), Executes s p e → sOk false true false e = true → s.snap = none →
    let h := sHome (s.seq p) e
    (h.toNat ≤ 16383 → s.released p (opD e) = true → ∃ t, exec (.signal p e) s = .next t ∧
      Queued s t h.toNat (.sig h.toNat (s.srcOf p) (s.partOf (s.srcOf p)) (opN e) false none) ∧
      (t.seq p).pc = (s.seq p).pc + 8 ∧ (t.seq p).pendSig = none ∧ t.mem = s.mem) ∧
    (h.toNat ≤ 16383 → s.released p (opD e) = false → ∃ t, exec (.signal p e) s = .next t ∧ t.tly = s.tly ∧
      (t.seq p).pendSig = some { home := h.toNat, n := opN e, d := opD e, remote := false, pd := 0 } ∧
      (t.seq p).pc = (s.seq p).pc) ∧
    (16383 < h.toNat → (s.seq p).inTrap = false → ∃ t, exec (.signal p e) s = .next t ∧ TrapWaits p s t 0x0C h (s.seq p).pc)

/-- R137, R138, R136: WAIT and WAITT on a home that the processor may wait on, with no snapshot under way, register it as a waiter of N at the
home and keep it there, WAITING at its PC; WAITT sends the deadline DT + T, T being bits [31:0] of rt. (A core that is armed for
migration holds at its WAIT instead.)
R139: SIGR with its release condition met and a link in service hands a SIGNAL message (TYPE 5) to the link and stays outstanding, owning
pd, while the sequencer goes on; with no link in service it writes 0 to pd. The result of the oldest SIGR that has one is
written to its predicate. -/
def Obligations.WaitsAndRemoteSignals : Prop :=
  (∀ (s : State) (p : Proc) (e : Enc), Executes s p e → s.snap = none →
    let h := (sHome (s.seq p) e).toNat
    h ≤ 16383 → (isDep p = true → 12288 ≤ h) →
    let waits (t : State) (d : Option (BitVec 64)) (poll : Bool) (pd : BitVec 3) : Prop :=
      Queued s t h (.wait h (s.srcOf p) (s.partOf (s.srcOf p)) s.tly.nextWait (opN e) d poll false) ∧ (t.seq p).run = .waiting ∧
      (t.seq p).wait = some { tag := s.tly.nextWait, home := h, n := opN e, deadline := d, pd := pd, outcome := .pending, withdrawn := false } ∧
      (t.seq p).pc = (s.seq p).pc ∧ t.mem = s.mem
    (sOk false false false e = true → s.holdsForMigration p = false → ∃ t, exec (.wait p e) s = .next t ∧ waits t none false 0) ∧
    (sOk true false true e = true → ∃ t, exec (.waitt p e) s = .next t ∧
      let T : BitVec 32 := (s.reg p (opRt e)).setWidth 32
      waits t (some (s.procDt p + T.setWidth 64)) (T == 0) (opPdS e))) ∧
  (∀ (s : State) (p : Proc),
    (∀ e, Executes s p e → sOk true true false e = true → isDep p = false → s.snap = none → (s.seq p).sigrs.length < 4 →
      let h := (sHome (s.seq p) e).toNat
      h ≤ 16383 → s.released p (opD e) = true →
      (∀ l, s.linkFor (s.srcOf p) = some l → ∃ t x m, exec (.sigr p e) s = .next t ∧ (t.seq p).sigrs = (s.seq p).sigrs ++ [x] ∧
        x.pd = opPdS e ∧ x.home = h ∧ x.n = opN e ∧ x.link = l ∧ x.result = none ∧ (t.ifc.link[l]).sent = m :: (s.ifc.link[l]).sent ∧
        m.typ = 5 ∧ m.addr = BitVec.ofNat 40 (h + (opN e).toNat * 2 ^ 14) ∧ (t.seq p).pc = (s.seq p).pc + 8) ∧
      (s.linkFor (s.srcOf p) = none → ∃ t, exec (.sigr p e) s = .next t ∧ (t.seq p).sigrs = (s.seq p).sigrs ∧
        readPred (t.seq p) (opPdS e) = (opPdS e == 0) ∧ (t.seq p).pc = (s.seq p).pc + 8 ∧
        t.saf.raised.length = s.saf.raised.length + 1)) ∧
    (∀ x xs b, (s.seq p).sigrs = x :: xs → x.result = some b → ∃ t, exec (.sigrResult p) s = .next t ∧ (t.seq p).sigrs = xs ∧
      readPred (t.seq p) x.pd = (if x.pd = 0 then true else b) ∧
      (∀ c, c ≠ x.pd → readPred (t.seq p) c = readPred (s.seq p) c) ∧ OnlySeq p s t))

/-! ## Bunov-T: descriptors, the tensor array, vectors, image operators -/

/-- R143, R153: TDSET writes a descriptor register with the reserved bits 0, TDGET reads one into a scalar register, and TCLR clears the
entries and the product counts of its rows and no others. -/
def Obligations.DescriptorsAndClearedRows : Prop :=
  ∀ (s : State) (i : Fin 136) (e : Enc), Executes s (.core i) e →
    (tOk (.core i) 0x0FF07FFFFFFF#48 e = true → ∃ t, exec (.tdset (.core i) e) s = .next t ∧
      vgetN (t.tiles[i]).td (tTd e) 0 = s.reg (.core i) (tReg e 31) &&& 0x00007FFF03FFFFFF#64 ∧
      (∀ k, k ≠ tTd e → vgetN (t.tiles[i]).td k 0 = vgetN (s.tiles[i]).td k 0) ∧ Ends i s t ∧
      (t.tiles[i]).acc = (s.tiles[i]).acc ∧ (t.tiles[i]).vr = (s.tiles[i]).vr ∧ OnlyTile i s t) ∧
    (tOk (.core i) 0xF0F07FFFFFFF#48 e = true → ∃ t, exec (.tdget (.core i) e) s = .next t ∧
      WritesReg (.core i) s t (tReg e 31) (vgetN (s.tiles[i]).td (tTa e) 0)) ∧
    (tOk (.core i) 0xFFFF8000FFFF#48 e = true →
      let n := tFld e 24 7 + 1
      let row := tFld e 17 7
      let bank := tFld e 16 1
      row + n ≤ 128 → tabWf AccEntry.cleared (s.tiles[i]).acc = true → tabWf 0 (s.tiles[i]).rowCount = true →
      ∃ t, exec (.tclr (.core i) e) s = .next t ∧ Ends i s t ∧ OnlyTile i s t ∧ (t.tiles[i]).vr = (s.tiles[i]).vr ∧
        (∀ b r c, c < 64 → r < 128 → accGet (t.tiles[i]) b r c =
          if b = bank ∧ row ≤ r ∧ r < row + n then AccEntry.cleared else accGet (s.tiles[i]) b r c) ∧
        (∀ b r, r < 128 → tabGet 0 (t.tiles[i]).rowCount (rowKey b r) =
          if b = bank ∧ row ≤ r ∧ r < row + n then 0 else tabGet 0 (s.tiles[i]).rowCount (rowKey b r)))

/-- R67, R150, R70: a TLDW whose checks pass, with no error in any store, loads its plane with the codes and scale bytes of 64 columns, and
powers an array that is off up; nothing else of the tile changes but the PC and the marks of a single step: the other plane, the
accumulators, the registers and every store stay. -/
def Obligations.TldwLoadsAPlane : Prop :=
  ∀ (s : State) (i : Fin 136) (e : Enc) (d : Desc), Executes s (.core i) e → s.ecc = [] →
    tOk (.core i) 0xF0F00FFFFFFF#48 e = true → tFld e 28 2 ≠ 3 →
    let x := s.tiles[i]
    let c := coords (s.reg (.core i) (tReg e 31))
    let rows := rowsOf (tFld e 28 2)
    readDesc s i (tTa e) = (s, d, none) →
    descChecks [({ reg := tTa e, fmts := tensorFmts, kvOk := false, align := 32, bsOk := true }, d)] = none →
    (d.bs = true → c.1 % 32 = 0) → spansBad (tldwSpans d c rows) = none →
    ∃ t, exec (.tldw (.core i) e) s = .next t ∧ Ends i s t ∧ OnlyTile i s t ∧ PcOnly x.seq (t.tiles[i]).seq ∧
      let pl := vgetN (t.tiles[i]).planes (tFld e 30 1) Plane.cleared
      pl.loaded = true ∧ pl.fmt = BitVec.ofNat 4 d.fmt ∧ pl.bs = d.bs ∧ pl.rows = rows ∧
      (∀ j k, j < 64 → k < rows → (pl.w.getD j []).getD k 0 = elemCode s.mem i d (c.1 + k, c.2.1 + j, c.2.2.1, c.2.2.2)) ∧
      (∀ j b, j < 64 → b < (rows + 31) / 32 →
        (pl.sc.getD j []).getD b 0 = scaleByte s.mem i d true (c.1 + 32 * b, c.2.1 + j, c.2.2.1, c.2.2.2)) ∧
      vgetN (t.tiles[i]).planes (1 - tFld e 30 1) Plane.cleared = vgetN x.planes (1 - tFld e 30 1) Plane.cleared ∧
      (t.tiles[i]).arrayUse = s.dt ∧ (t.tiles[i]).array = (if x.array = .off then .rising else x.array) ∧
      { t.tiles[i] with planes := x.planes, arrayUse := x.arrayUse, array := x.array, seq := x.seq } = x

/-- R53, R54, R57, R151: a TMUL whose checks pass, with the array on, no error in any store and no entry in another frame, adds to every
entry of its rows the products of its activation vector and its plane's column, by the rules of the entry's frame, and the
plane's reduction rows to the product count of each row, modulo 2^30, with RANGE set where a count passes 2^28; every other entry,
every other row's count and every store stay, no sticky flag is cleared, and nothing else of the tile changes but the PC. With the
array down it powers up and the TMUL waits with what it has read; when the columns are up, it does the same.
R52: a TMUL of rows with an entry in another frame makes a deferred tensor-operand trap, and changes no entry. -/
def Obligations.TmulAccumulates : Prop :=
  ∀ (s : State) (i : Fin 136) (e : Enc) (d : Desc), s.ecc = [] →
    tabWf AccEntry.cleared (s.tiles[i]).acc = true → tabWf 0 (s.tiles[i]).rowCount = true →
    let x := s.tiles[i]
    let c := coords (s.reg (.core i) (tReg e 31))
    let n := tFld e 24 7 + 1
    let row := tFld e 17 7
    let bank := tFld e 16 1
    let sx := tFld e 13 2 + 1
    let pl := vgetN x.planes (tFld e 15 1) Plane.cleared
    let mine (b r : Nat) : Prop := b = bank ∧ row ≤ r ∧ r < row + n
    let fits (f : Frame) : Prop := f = .empty ∨ f = tmulFrame d pl
    let adds (at_ : Idx) (t : State) : Prop := Ends i s t ∧ OnlyTile i s t ∧ PcOnly x.seq (t.tiles[i]).seq ∧ (t.tiles[i]).array = .on ∧
      (∀ k j, k < n → j < 64 → accGet (t.tiles[i]) bank (row + k) j =
        (tmulEntry (tmulFrame d pl) (accGet x bank (row + k) j) (actVec s.mem i d at_ sx k pl.rows) (planeCol pl j)
          (actScales s.mem i d at_ sx k pl.rows) (pl.sc.getD j [])).1) ∧
      (∀ b r j, j < 64 → r < 128 → ¬ mine b r → accGet (t.tiles[i]) b r j = accGet x b r j) ∧
      (∀ b r, r < 128 → tabGet 0 (t.tiles[i]).rowCount (rowKey b r) = tabGet 0 x.rowCount (rowKey b r) +
        if b = bank ∧ row ≤ r ∧ r < row + n then BitVec.ofNat 30 pl.rows else 0) ∧
      (t.tiles[i]).aflags ||| x.aflags = (t.tiles[i]).aflags ∧
      (∀ k, k < n → 2 ^ 28 < (tabGet 0 x.rowCount (rowKey bank (row + k))).toNat + pl.rows → (t.tiles[i]).aflags &&& flRange = flRange) ∧
      { t.tiles[i] with acc := x.acc, rowCount := x.rowCount, aflags := x.aflags, arrayUse := x.arrayUse, array := x.array,
                        tmulWait := x.tmulWait, seq := x.seq } = x
    (Executes s (.core i) e → tOk (.core i) 0xF0F000001FFF#48 e = true → readDesc s i (tTa e) = (s, d, none) → pl.loaded = true →
      pairRows d.fmt pl.fmt.toNat = some pl.rows →
      descChecks [({ reg := tTa e, fmts := tensorFmts, kvOk := true, align := 32, bsOk := true }, d)] = none →
      (d.bs = true → redOf d c % 32 = 0) → spansBad (tmulSpans d c sx n pl.rows) = none → row + n ≤ 128 →
      (x.array ≠ .on → ∃ t, exec (.tmul (.core i) e .none) s = .next t ∧ OnlyTile i s t ∧
        ∃ q, PcOnly x.seq q ∧ q.pc = x.seq.pc ∧
          t.tiles[i] = { x with array := .rising, tmulWait := some { enc := e, desc := d, at_ := c }, seq := q }) ∧
      (x.array = .on → (∀ k j, k < n → j < 64 → fits (accGet x bank (row + k) j).frame) →
        ∃ t, exec (.tmul (.core i) e .none) s = .next t ∧ adds c t) ∧
      (x.array = .on → (∃ k j, k < n ∧ j < 64 ∧ ¬ fits (accGet x bank (row + k) j).frame) →
        ∃ t, exec (.tmul (.core i) e .none) s = .next t ∧ OnlyTile i s t ∧ (t.tiles[i]).acc = x.acc ∧ (t.tiles[i]).seq.deferred =
          some { cause := 0x0B, deferred := true, eaddr := 0, epc := x.seq.pc + 8, ord := s.nowOrd })) ∧
    (∀ at_ : Idx, x.array = .rising → x.tmulWait = some { enc := e, desc := d, at_ := at_ } → x.seq.run = .running → x.seq.pend = none →
      x.seq.deferred = none → row + n ≤ 128 → (∀ k j, k < n → j < 64 → fits (accGet x bank (row + k) j).frame) →
      ∃ t, exec (.arrayPowerUpDone i) s = .next t ∧ (t.tiles[i]).tmulWait = none ∧ adds at_ t)

/-- R53, R56, R57: the entry that a list of products leaves in frame F0 does not depend on the order of the products, NaNs and infinities
among them.
R61: adding partial F0 entries into a target gives the same whatever the order in which they come. -/
def Obligations.AccumulationIsOrderFree : Prop :=
  (∀ (e : AccEntry) (l m : List FVal), l.Perm m → l.foldl addF0 e = m.foldl addF0 e) ∧
  (∀ (e p q : AccEntry), p.frame = .f0 → q.frame = .f0 →
    (accMerge (accMerge e p).1 q).1 = (accMerge (accMerge e q).1 p).1)

/-- R62, R557: the 32-byte record of an entry gives back the entry and its row's count; an FS entry that holds no anchor comes back
anchored at X = 0.
R152, R154: TOUT, ACCX.E and ACCX.A whose checks pass, with no error in any store. TOUT writes its elements' units with the
conversions of its entries and no other byte; ACCX.E writes the records of its entries, 2,048 bytes a row; either clears those
entries where the instruction asks for it, and no others; ACCX.A adds to each entry of its rows the partial that its record holds,
and to each row's count the one of its records; every other entry stays. -/
def Obligations.AccumulatorRecords : Prop :=
  (∀ (e : AccEntry) (n : BitVec 30), (e.frame = .empty → e.a = 0 ∧ e.special = .none) →
    (e.frame = .fb → e.a.toNat < 2 ^ 32 ∧ e.special = .none) →
    accParse (accRecord e n) = some ({ e with x := if e.frame = .fs ∧ e.anchored = true then e.x else 0,
                                              anchored := e.frame == .fs }, n)) ∧
  (∀ (s : State) (i : Fin 136) (e : Enc), Executes s (.core i) e → s.ecc = [] → Memory.wf s.mem = true →
    tabWf AccEntry.cleared (s.tiles[i]).acc = true →
    let v := s.reg (.core i) (tReg e 31)
    let n := tFld e 24 7 + 1
    let row := tFld e 17 7
    let bank := tFld e 16 1
    let x := s.tiles[i]
    (∀ d, tOk (.core i) 0x0FF00000001F#48 e = true → rmOk (tFld e 12 3) = true → readDesc s i (tTd e) = (s, d, none) →
      descChecks [({ reg := tTd e, fmts := anyFmts, kvOk := true, align := 32, bsOk := true }, d)] = none →
      let c := coords v
      let sp := toutSpans d c n
      let out := toutMem i d c (tFld e 12 3) (decide (tFld e 11 1 = 1)) (sgn 6 (tFld e 5 6)) n (accGet x bank) row s.mem
      (d.bs = true → redOf d c % 32 = 0) → spansBad sp = none → row + n ≤ 128 →
      ∃ t, exec (.tout (.core i) e) s = .next t ∧ Ends i s t ∧ SpansHold i s t out.1 sp ∧
        (t.tiles[i]).aflags = x.aflags ||| out.2 ∧ (tFld e 15 1 = 0 → (t.tiles[i]).acc = x.acc ∧ (t.tiles[i]).rowCount = x.rowCount) ∧
        (tFld e 15 1 = 1 → ∀ b r j, j < 64 → r < 128 →
          accGet (t.tiles[i]) b r j = if b = bank ∧ row ≤ r ∧ r < row + n then AccEntry.cleared else accGet x b r j)) ∧
    (row + n ≤ 128 → v.toNat % 32 = 0 → v.toNat + 2048 * n ≤ localSize →
      (tOk (.core i) 0xFFF000007FFF#48 e = true → ∃ t, exec (.accxE (.core i) e) s = .next t ∧ Ends i s t ∧
        (∀ k j b, k < n → j < 64 → b < 32 → some (memGet t.mem (localBase i + v.toNat + 2048 * k + 32 * j + b)) =
          (accRecord (accGet x bank (row + k) j) (tabGet 0 x.rowCount (rowKey bank (row + k))))[b]?) ∧
        (∀ a, a < localBase i + v.toNat ∨ localBase i + v.toNat + 2048 * n ≤ a → memGet t.mem a = memGet s.mem a) ∧
        (tFld e 15 1 = 0 → (t.tiles[i]).acc = x.acc ∧ (t.tiles[i]).rowCount = x.rowCount) ∧
        (tFld e 15 1 = 1 → ∀ b r j, j < 64 → r < 128 →
          accGet (t.tiles[i]) b r j = if b = bank ∧ row ≤ r ∧ r < row + n then AccEntry.cleared else accGet x b r j)) ∧
      (tOk (.core i) 0xFFF00000FFFF#48 e = true → accxScan x s.mem (localBase i + v.toNat) bank row n = none →
        ∃ t, exec (.accxA (.core i) e) s = .next t ∧ Ends i s t ∧ t.mem = s.mem ∧
        (∀ k j r c, k < n → j < 64 → accParse (memGetN s.mem (localBase i + v.toNat + (64 * k + j) * 32) 32) = some (r, c) →
          accGet (t.tiles[i]) bank (row + k) j = (accMerge (accGet x bank (row + k) j) r).1) ∧
        (∀ k r c, k < n → tabWf 0 x.rowCount = true → accParse (memGetN s.mem (localBase i + v.toNat + 2048 * k) 32) = some (r, c) →
          tabGet 0 (t.tiles[i]).rowCount (rowKey bank (row + k)) = tabGet 0 x.rowCount (rowKey bank (row + k)) + c) ∧
        (∀ b r j, j < 64 → r < 128 → ¬ (b = bank ∧ row ≤ r ∧ r < row + n) → accGet (t.tiles[i]) b r j = accGet x b r j))))

/-- R73, R157 to R160: the lane operations, VCMP and VSEL write vd lane by lane and change nothing else but the sticky flags, to which
they add those that their lanes set.
R157, R50: integer lane results are the exact sum, difference, product or product-sum, saturated to the lane's range with OVERFLOW and
ROUNDED set, or with OVF = 1 wrapped to the lane's width with no flag. -/
def Obligations.VectorOperationsActByLane : Prop :=
  (∀ (s : State) (i : Fin 136) (e : Enc), Executes s (.core i) e →
    let f := vFmt e
    let w := fmtBits f
    let a := vreg s i (vVa e)
    let b := vreg s i (vVb e)
    let c := vreg s i (vVc e)
    (∀ op, vOk (.core i) (laneMask op) e = true → laneFmtOk op f = true → ∃ t v fl, exec (.vectorLaneOp (.core i) op e) s = .next t ∧
      WritesVec i s t (vVd e) v fl ∧
      (let r (j : Nat) := laneOp op f (vRm e) (vOvf e) (laneOf f a j) (laneOf f b j) (laneOf f c j)
       FlagsOf (laneCount f) (fun j => (r j).2) fl ∧ ∀ j, j < laneCount f → laneOf f v j = (r j).1 % 2 ^ w)) ∧
    (vOk (.core i) 0x1F001FFFF#48 e = true → tFld e 17 3 ≠ 7 → ∃ t v fl, exec (.vcmp (.core i) e) s = .next t ∧
      WritesVec i s t (vVd e) v fl ∧
      (let r (j : Nat) := condLane f (tFld e 17 3) (laneOf f a j) (laneOf f b j)
       FlagsOf (laneCount f) (fun j => (r j).2) fl ∧ ∀ j, j < laneCount f → laneOf f v j = if (r j).1 then 2 ^ w - 1 else 0)) ∧
    (vOk (.core i) 0xFFFFF#48 e = true → ∃ t v, exec (.vsel (.core i) e) s = .next t ∧ WritesVec i s t (vVd e) v 0 ∧
      ∀ j, j < laneCount f → laneOf f v j = if (laneOf f c j).testBit (w - 1) then laneOf f a j else laneOf f b j)) ∧
  (∀ (f rm a b c : Nat) (ovf : Bool), f ∈ [1, 2, 3] → a < 2 ^ fmtBits f → b < 2 ^ fmtBits f → c < 2 ^ fmtBits f →
    let w := fmtBits f
    let lo : Int := -(2 ^ (w - 1))
    let hi : Int := 2 ^ (w - 1) - 1
    let gives (r : Nat × BitVec 7) (v : Int) : Prop :=
      r.1 < 2 ^ w ∧ (ovf = true → (sgn w r.1 - v) % 2 ^ w = 0 ∧ r.2 = 0) ∧
      (ovf = false → sgn w r.1 = max lo (min hi v) ∧ (r.2 = flOverflow ||| flRounded ↔ (v < lo ∨ hi < v)) ∧ (lo ≤ v → v ≤ hi → r.2 = 0))
    gives (laneOp .add f rm ovf a b c) (sgn w a + sgn w b) ∧ gives (laneOp .sub f rm ovf a b c) (sgn w a - sgn w b) ∧
    gives (laneOp .mul f rm ovf a b c) (sgn w a * sgn w b) ∧ gives (laneOp .fma f rm ovf a b c) (sgn w a * sgn w b + sgn w c))

/-- R163, R161, R164, R165: VCVT, the table-assisted functions, the reductions and VBCAST write vd from their operands' lanes and change
nothing else but the sticky flags, to which they add those that their lanes or nodes set. VCVT converts the part of the source
lanes that PART names, or into the part of vd that it names, whose other lanes stay. A reduction combines lane 2k with lane
2k + 1, then pairs of those results, up to one value (`T l k` is node `k` of level `l`), which lane 0 takes, every other lane
being 0; an integer sum is exact and an INT32. -/
def Obligations.ConversionsFunctionsAndReductions : Prop :=
  ∀ (s : State) (i : Fin 136) (e : Enc), Executes s (.core i) e →
    let f := vFmt e
    let a := vreg s i (vVa e)
    (let g := tFld e 16 4
     let part := tFld e 14 2
     let conv (j : Nat) : Nat × BitVec 7 := toFmt g (vRm e) (vOvf e) (fmtVal f (laneOf f a j))
     vOk (.core i) 0x3FF0003FFF#48 e = true → vectorFmts.contains g = true → partOk f g part = true →
      ∃ t v fl, exec (.vcvt (.core i) e) s = .next t ∧ WritesVec i s t (vVd e) v fl ∧
        (laneCount g ≤ laneCount f → FlagsOf (laneCount g) (fun j => (conv (part * laneCount g + j)).2) fl ∧
          ∀ j, j < laneCount g → laneOf g v j = (conv (part * laneCount g + j)).1 % 2 ^ fmtBits g) ∧
        (laneCount f < laneCount g → FlagsOf (laneCount f) (fun j => (conv j).2) fl ∧
          (∀ j, j < laneCount f → laneOf g v (part * laneCount f + j) = (conv j).1 % 2 ^ fmtBits g) ∧
          ∀ j, j < laneCount g → (j < part * laneCount f ∨ part * laneCount f + laneCount f ≤ j) →
            laneOf g v j = laneOf g (vreg s i (vVd e)) j)) ∧
    (∀ op, vOk (.core i) 0x3FF00FFFFF#48 e = true → f ∈ [8, 9, 10] → ∃ t v fl, exec (.vectorTableFunction (.core i) op e) s = .next t ∧
      WritesVec i s t (vVd e) v fl ∧
      (let r (j : Nat) := funcVal op f (vRm e) (vOvf e) (laneOf f a j)
       FlagsOf (laneCount f) (fun j => (r j).2) fl ∧ ∀ j, j < laneCount f → laneOf f v j = (r j).1 % 2 ^ fmtBits f)) ∧
    (∀ op, vOk (.core i) 0x3FF00FFFFF#48 e = true → ∃ t v fl, exec (.vectorReduction (.core i) op e) s = .next t ∧
      WritesVec i s t (vVd e) v fl ∧
      (let sum := (((List.range (laneCount f)).map fun j => sgn (fmtBits f) (laneOf f a j)).sum)
       fmtIsInt f = true → op = .sum → v.toNat = (satLane 3 (vOvf e) sum).1 ∧ fl = (satLane 3 (vOvf e) sum).2) ∧
      (fmtIsInt f = false ∨ op ≠ .sum → ∃ (T : Nat → Nat → Nat × BitVec 7) (L : Nat), 2 ^ L = laneCount f ∧
        (∀ j, j < laneCount f → T 0 j = (laneOf f a j, 0)) ∧
        (∀ l k, l < L → k < 2 ^ (L - l - 1) → T (l + 1) k =
          let r := match op with
            | .sum => fpLane f (vRm e) (vOvf e) ((fmtVal f (T l (2 * k)).1).add (vRm e) (fmtVal f (T l (2 * k + 1)).1))
            | .max => minMaxLane f true (T l (2 * k)).1 (T l (2 * k + 1)).1
            | .min => minMaxLane f false (T l (2 * k)).1 (T l (2 * k + 1)).1
          (r.1, (T l (2 * k)).2 ||| (T l (2 * k + 1)).2 ||| r.2)) ∧
        v = BitVec.ofNat 2048 (T L 0).1 ∧ fl = (T L 0).2 ∧
        (∀ j, 1 ≤ j → j < laneCount f → laneOf f v j = 0))) ∧
    (vOk (.core i) 0x7FFF0007FFF#48 e = true → ∃ t v, exec (.vbcast (.core i) e) s = .next t ∧ WritesVec i s t (vVd e) v 0 ∧
      ∀ j, j < laneCount f → laneOf f v j = (s.reg (.core i) (tReg e 15)).toNat % 2 ^ fmtBits f)

/-- R165: VLD of a 32-byte-aligned address with 256 bytes in the local store, no word of which holds an error, writes vd with them; VST
writes them from vd and changes no other byte. An address that is not aligned raises an alignment trap outside the trap frame. -/
def Obligations.VectorLoadsAndStores : Prop :=
  ∀ (s : State) (i : Fin 136) (e : Enc), Executes s (.core i) e → vOk (.core i) 0x7FFF0000000#48 e = true → s.ecc = [] →
    let a := vAddr (s.seq (.core i)) e
    (a.toNat % 32 = 0 → a.toNat + 256 ≤ localSize →
      (∃ t v, exec (.vld (.core i) e [] .none) s = .next t ∧ WritesVec i s t (vVd e) v 0 ∧
        ∀ j, j < 256 → nbits v.toNat (8 * j) 8 = (memGet s.mem (localBase i + a.toNat + j)).toNat) ∧
      (Memory.wf s.mem = true → ∃ t, exec (.vst (.core i) e) s = .next t ∧ Ends i s t ∧
        (∀ j, j < 256 → (memGet t.mem (localBase i + a.toNat + j)).toNat = nbits (vreg s i (vVd e)).toNat (8 * j) 8) ∧
        (∀ x, x < localBase i + a.toNat ∨ localBase i + a.toNat + 256 ≤ x → memGet t.mem x = memGet s.mem x) ∧
        (∀ j, j ≠ i → t.tiles[j] = s.tiles[j]) ∧ (t.tiles[i]).vr = (s.tiles[i]).vr)) ∧
    (a.toNat % 32 ≠ 0 → (s.seq (.core i)).inTrap = false →
      (∃ t, exec (.vld (.core i) e [] .none) s = .next t ∧ TrapWaits (.core i) s t 0x05 a (s.seq (.core i)).pc) ∧
      (∃ t, exec (.vst (.core i) e) s = .next t ∧ TrapWaits (.core i) s t 0x05 a (s.seq (.core i)).pc))

/-- R166 to R169: VDW, VPOOL and ARGMAXC whose checks pass, with no error in any store, write the elements' units of their output
segment (ARGMAXC two of them) from the input box, and no other byte. An input element of a VDW comes from the window row that the
VDW before it left, where that row is kept, and else from the local store; the window then holds this VDW's rows and kernel, and none
after a VPOOL or ARGMAXC. A segment without outputs writes nothing (the model's choice, log 115). -/
def Obligations.ImageOperatorsWriteSegments : Prop :=
  ∀ (s : State) (i : Fin 136) (e : Enc) (td ta tb : Desc), Executes s (.core i) e → s.ecc = [] → Memory.wf s.mem = true →
    readDesc s i (tTd e) = (s, td, none) → readDesc s i (tTa e) = (s, ta, none) →
    let c := coords (s.reg (.core i) (tReg e 31))
    let o := coords (s.reg (.core i) (tReg e 26))
    let n := segLen ta.fmt td o.1
    let out := boxSpans td (segBox o n)
    let nothing (op : Instr) : Prop := ∃ t, exec op s = .next t ∧ Ends i s t ∧ OnlyTile i s t ∧ (t.tiles[i]).vr = (s.tiles[i]).vr ∧
      (t.tiles[i]).acc = (s.tiles[i]).acc
    (readDesc s i (tTb e) = (s, tb, none) →
      let kh := tFld e 23 3 + 1
      let kw := tFld e 20 3 + 1
      let sy := tFld e 19 1 + 1
      let sx := tFld e 18 1 + 1
      let dy := tFld e 16 2 + 1
      let dx := tFld e 14 2 + 1
      let g := tFld e 11 3 + 1
      let span := (n - 1) * sx + (kw - 1) * dx + 1
      let kept := keptRows (s.tiles[i]).window (tTa e) c g sy
      tOk (.core i) 0x7F#48 e = true → rmOk (tFld e 8 3) = true → kh ≤ 7 → kw ≤ 7 →
      descChecks [(imgUse vectorFmts, td), (imgUse imgFmts, ta), (imgUse [ta.fmt], tb)] = none →
      (n = 0 → nothing (.vdw (.core i) e)) ∧
      (n ≠ 0 → spansBad out = none → span ≤ windowRow ta.fmt →
        spansBad (boxSpans ta (c, (c.1 + span - 1, c.2.1 + (kh - 1) * dy, c.2.2.1 + g - 1, c.2.2.2))) = none →
        spansBad (boxSpans tb ((0, 0, 0, o.2.2.1), ((kw : Int) - 1, (kh : Int) - 1, (g : Int) - 1, o.2.2.1))) = none →
        ∃ t codes, exec (.vdw (.core i) e) s = .next t ∧ Ends i s t ∧ codes.length = n ∧
          (∀ k r, k < n → vdwOut ta.fmt td.fmt (tFld e 8 3) (decide (tFld e 7 1 = 1)) (vdwTaps s.mem i ta tb c o kept kh kw g sx dy dx k) = some r →
            codes[k]? = some r) ∧
          SpansHold i s t (segWrite i td o s.mem codes).1 out ∧ (t.tiles[i]).aflags = (s.tiles[i]).aflags ||| (segWrite i td o s.mem codes).2 ∧
          ∃ w, (t.tiles[i]).window = some w ∧ w.ta = tTa e ∧ w.at_ = c ∧ w.g = g ∧ w.kernel = kernelBytes s.mem i tb o kh kw g ∧
            (g = 1 → w.rows = windowRows s.mem i ta c kept kh dy span))) ∧
    (let kh := tFld e 23 3 + 1
     let kw := tFld e 20 3 + 1
     let sx := tFld e 14 3 + 1
     let rm := tFld e 9 3
     let ovf := decide (tFld e 8 1 = 1)
     tOk (.core i) 0x00F0000000FF#48 e = true → rmOk rm = true →
      descChecks [(imgUse vectorFmts, td), (imgUse vectorFmts, ta)] = none →
      (n = 0 → nothing (.vpool (.core i) e)) ∧
      (n ≠ 0 → spansBad out = none → spansBad (boxSpans ta (c, (c.1 + (n - 1) * sx + kw - 1, c.2.1 + kh - 1, c.2.2))) = none →
        ∃ t codes, exec (.vpool (.core i) e) s = .next t ∧ Ends i s t ∧ codes.length = n ∧ (t.tiles[i]).window = none ∧
          (tFld e 13 1 = 0 → ∀ k, k < n → codes[k]? = some (poolMax ta.fmt td.fmt rm ovf (poolWin s.mem i ta c kh kw sx k))) ∧
          (tFld e 13 1 = 1 → ∀ k r, k < n → poolWin s.mem i ta c kh kw sx k ≠ [] →
            poolAvg ta.fmt td.fmt rm ovf (if tFld e 12 1 = 1 then (poolWin s.mem i ta c kh kw sx k).length else kh * kw)
              (poolWin s.mem i ta c kh kw sx k) = some r → codes[k]? = some r) ∧
          SpansHold i s t (segWrite i td o s.mem codes).1 out ∧
          (t.tiles[i]).aflags = (s.tiles[i]).aflags ||| (segWrite i td o s.mem codes).2)) ∧
    (readDesc s i (tTb e) = (s, tb, none) → tOk (.core i) 0x3FFFFFF#48 e = true →
      descChecks [(imgUse [2], td), (imgUse vectorFmts, ta), (imgUse [ta.fmt], tb)] = none →
      (n = 0 → nothing (.argmaxc (.core i) e)) ∧
      (n ≠ 0 → spansBad out = none →
        spansBad (boxSpans ta ((c.1, c.2.1, 0, c.2.2.2), (c.1 + n - 1, c.2.1, (ta.ext.2.2.1 : Int) - 1, c.2.2.2))) = none →
        spansBad (boxSpans tb (segBox o n)) = none →
        ∃ t, exec (.argmaxc (.core i) e) s = .next t ∧ Ends i s t ∧ (t.tiles[i]).window = none ∧
          SpansHold i s t (argmaxMem s.mem i ta td tb c o n).1 (out ++ boxSpans tb (segBox o n))))

/-! ## Attention and the KV cache -/

/-- R178 to R180, R186: ATT.QK (its checks passed, with no error in any store) writes the score of each position up to NP and minus
infinity in the lanes after them; ATT.SMX writes the probabilities to vd and the three values of its state to its lanes of vc; ATT.PV
writes its output elements' units and no other byte. -/
def Obligations.AttentionSteps : Prop :=
  ∀ (s : State) (i : Fin 136) (e : Enc), Executes s (.core i) e → s.ecc = [] → Memory.wf s.mem = true →
    (∀ (q k : Desc), let rm := tFld e 12 3
      let np := tFld e 15 6 + 1
      let ki := coords (s.reg (.core i) (tReg e 26))
      let qi := coords (s.reg (.core i) (tReg e 21))
      let dh := q.ext.1
      tOk (.core i) 0xF00000000FFF#48 e = true → rmOk rm = true →
      readDesc s i (tTa e) = (s, q, none) → readDesc s i (tTb e) = (s, k, none) → descChecks [(kvUse, q), (kvUse, k)] = none →
      q.kv = true → k.kv = true → dh ≤ 256 → k.ext.1 = dh → spansBad (headSpans q qi dh 1) = none →
      spansBad (headSpans k ki dh np) = none →
      ∃ t v fl, exec (.attQk (.core i) e) s = .next t ∧ WritesVec i s t (tFld e 31 5) v fl ∧ ∀ j, j < 64 →
        laneOf 10 v j = if j < np then (qkScore s.mem i q k qi (ki.1, ki.2.1 + j, ki.2.2) dh rm).1 % 2 ^ 32 else 0xFF800000) ∧
    (tOk (.core i) 0x003E001007FF#48 e = true → vFmt e = 10 → rmOk (vRm e) = true →
      let c := tFld e 17 3
      let rp := s.reg (.core i) (tReg e 11)
      let live (j : Nat) : Bool := !(decide (tFld e 16 1 = 1) && decide (rp.toNat / 2 ^ 16 % 2 ^ 16 + c < rp.toNat % 2 ^ 16 + j))
      let st := vreg s i (vVc e)
      let r := smxVal (vRm e) (lanes 10 (vreg s i (vVa e))) live (laneOf 10 st (4 * c)) (laneOf 10 st (4 * c + 1))
      ∃ t, exec (.attSmx (.core i) e) s = .next t ∧ Ends i s t ∧ OnlyTile i s t ∧ vreg t i (vVd e) = ofLanes 10 r.1 ∧
        (vVd e ≠ vVc e → (∀ j, j < 3 → laneOf 10 (vreg t i (vVc e)) (4 * c + j) = r.2.1.getD j 0 % 2 ^ 32) ∧
          ∀ j, j < 64 → (j < 4 * c ∨ 4 * c + 3 ≤ j) → laneOf 10 (vreg t i (vVc e)) j = laneOf 10 st j) ∧
        (∀ j, j ≠ vVd e → j ≠ vVc e → vreg t i j = vreg s i j)) ∧
    (∀ (d v : Desc), let np := tFld e 17 6 + 1
      let vi := coords (s.reg (.core i) (tReg e 12))
      let oi := coords (s.reg (.core i) (tReg e 7))
      let dh := v.ext.1
      let oBox : Box := ((0, oi.2), ((dh : Int) - 1, oi.2))
      tOk (.core i) 0x0F000000000F#48 e = true → rmOk (tFld e 4 3) = true →
      readDesc s i (tTd e) = (s, d, none) → readDesc s i (tTb e) = (s, v, none) →
      descChecks [({ kvUse with fmts := [10] }, d), (kvUse, v)] = none → d.kv = true → v.kv = true → dh ≤ 256 →
      spansBad (boxSpans d oBox) = none → spansBad (headSpans v vi dh np) = none →
      ∃ t, exec (.attPv (.core i) e) s = .next t ∧ Ends i s t ∧
        SpansHold i s t (pvMem s.mem i d v vi oi (tFld e 4 3) np (lanes 10 (vreg s i (tFld e 31 5)))
          (fmtVal 10 (laneOf 10 (vreg s i (tFld e 26 5)) (4 * tFld e 23 3 + 2)))).1 (boxSpans d oBox))

/-- R188, R186: ATT.MERGE of two states whose maxima are no NaN leaves in every lane of vd the sum of the two inputs' lanes, each scaled
by exp2 of its own maximum minus the larger one (by 0 where that is minus infinity); with UPD it writes the merged state to its lanes
of vc. With a NaN for a maximum every lane of vd, and with UPD the state, is NaN. ATT.ACCEPT writes the length of
the prefix of drafts that follow their targets, and its successor values, and the number of rejected drafts to rd. -/
def Obligations.MergeAndAccept : Prop :=
  ∀ (s : State) (i : Fin 136) (e : Enc), Executes s (.core i) e →
    (tOk (.core i) 0x00000010FFFF#48 e = true → vFmt e = 10 → rmOk (vRm e) = true →
      let c := tFld e 17 3
      let rm := vRm e
      let sa := vreg s i (vVc e)
      let sb := vreg s i (vVb e)
      let mA := laneOf 10 sa (4 * c)
      let mB := laneOf 10 sb (4 * c)
      let m := (minMaxLane 10 true mA mB).1
      let fA := if fmtVal 10 m = .inf true then 0 else (exp2Diff rm mA m).1
      let aA := fmtVal 10 fA
      let aB := if fmtVal 10 m = .inf true then fmtVal 10 0 else fmtVal 10 (exp2Diff rm mB m).1
      let comb (a b : Nat) : Nat :=
        let r := (aA.mul (fmtVal 10 a)).1.add rm (aB.mul (fmtVal 10 b)).1
        (rnd32 rm (r.1, (aA.mul (fmtVal 10 a)).2 || (aB.mul (fmtVal 10 b)).2 || r.2)).1
      let upd : Bool := decide (tFld e 16 1 = 1)
      let leaves (t : State) (out : Nat → Nat) (m l a : Nat) : Prop := Ends i s t ∧ OnlyTile i s t ∧
        (∀ j, j < 64 → upd = false ∨ vVd e ≠ vVc e ∨ j < 4 * c ∨ 4 * c + 3 ≤ j → laneOf 10 (vreg t i (vVd e)) j = out j % 2 ^ 32) ∧
        (upd = false → vVd e ≠ vVc e → vreg t i (vVc e) = sa) ∧
        (upd = true → laneOf 10 (vreg t i (vVc e)) (4 * c) = m % 2 ^ 32 ∧ laneOf 10 (vreg t i (vVc e)) (4 * c + 1) = l % 2 ^ 32 ∧
          laneOf 10 (vreg t i (vVc e)) (4 * c + 2) = a % 2 ^ 32 ∧
          (vVd e ≠ vVc e → ∀ j, j < 64 → (j < 4 * c ∨ 4 * c + 3 ≤ j) → laneOf 10 (vreg t i (vVc e)) j = laneOf 10 sa j)) ∧
        (∀ j, j ≠ vVd e → j ≠ vVc e → vreg t i j = vreg s i j)
      ((fmtVal 10 mA).isNan = false ∧ (fmtVal 10 mB).isNan = false → ∃ t, exec (.attMerge (.core i) e) s = .next t ∧
        leaves t (fun j => comb (laneOf 10 (vreg s i (vVd e)) j) (laneOf 10 (vreg s i (vVa e)) j)) m
          (comb (laneOf 10 sa (4 * c + 1)) (laneOf 10 sb (4 * c + 1))) fA) ∧
      ((fmtVal 10 mA).isNan = true ∨ (fmtVal 10 mB).isNan = true → ∃ t, exec (.attMerge (.core i) e) s = .next t ∧
        leaves t (fun _ => fmtNan 10) (fmtNan 10) (fmtNan 10) (fmtNan 10))) ∧
    (tOk (.core i) 0x0001F0F00FFF#48 e = true → vFmt e = 3 →
      let nc := tFld e 17 3 + 1
      let x (j : Nat) := laneOf 3 (vreg s i (vVa e)) j
      let y (j : Nat) := laneOf 3 (vreg s i (vVb e)) j
      ∃ t k, exec (.attAccept (.core i) e) s = .next t ∧ Ends i s t ∧ OnlyTile i s t ∧ k < nc ∧
        (∀ j, j < k → y j ≠ 0xFFFFFFFF ∧ x (j + 1) = y j) ∧ (k + 1 < nc → y k = 0xFFFFFFFF ∨ x (k + 1) ≠ y k) ∧
        laneOf 3 (vreg t i (vVd e)) 0 = k ∧ laneOf 3 (vreg t i (vVd e)) 1 = k + 1 ∧ laneOf 3 (vreg t i (vVd e)) 2 = y k ∧
        laneOf 3 (vreg t i (vVd e)) 3 = nc - 1 - k ∧ (∀ j, 4 ≤ j → j < 64 → laneOf 3 (vreg t i (vVd e)) j = 0) ∧
        t.reg (.core i) (tReg e 12) = (if tReg e 12 = 0 then 0 else BitVec.ofNat 64 (nc - 1 - k)) ∧
        (∀ c, c ≠ tReg e 12 → t.reg (.core i) c = s.reg (.core i) c) ∧ (∀ j, j ≠ vVd e → vreg t i j = vreg s i j))

/-- R182 to R185: with no error in any store, KVTRIM of a valid slot record takes its count off LEN, which it never takes below 0: a larger count
makes a deferred tensor-operand trap instead, and so does a record that is not valid, or not aligned in the local store, with its
address in EADDR. KVAPP of rows that fit, written through its DMA port, puts one write for each run of a row on the port, after those
that wait there, in the order of the rows, each with the run's bytes and the sequencer's class and deadline, and, with its update bit,
adds the rows to LEN. -/
def Obligations.KvRecordsGrowAndShrink : Prop :=
  ∀ (s : State) (i : Fin 136) (e : Enc), Executes s (.core i) e → s.ecc = [] → Memory.wf s.mem = true →
    let a := s.reg (.core i) (tReg e 31)
    let b := memGetN s.mem (localBase i + a.toNat) 64
    let r := kvRec b
    let lenSet (t : State) (n : Nat) : Prop :=
      memGet t.mem (localBase i + a.toNat + 10) = BitVec.ofNat 8 n ∧ memGet t.mem (localBase i + a.toNat + 11) = BitVec.ofNat 8 (n / 256) ∧
      ∀ x, x ≠ localBase i + a.toNat + 10 → x ≠ localBase i + a.toNat + 11 → memGet t.mem x = memGet s.mem x
    (a.toNat % 64 ≠ 0 ∨ localSize < a.toNat + 64 ∨ kvRecBad b = true → tOk (.core i) 0xFFF003FFFFFF#48 e = true →
      ∃ t, exec (.kvtrim (.core i) e) s = .next t ∧ t.mem = s.mem ∧ OnlySeq (.core i) s t ∧ (t.tiles[i]).seq.deferred =
        some { cause := 0x0B, deferred := true, eaddr := a, epc := (s.tiles[i]).seq.pc + 8, ord := s.nowOrd }) ∧
    (a.toNat % 64 = 0 → a.toNat + 64 ≤ localSize → kvRecBad b = false →
    (tOk (.core i) 0xFFF003FFFFFF#48 e = true →
      let k := (s.reg (.core i) (tReg e 26)).toNat % 2 ^ 16
      (k ≤ r.len → ∃ t, exec (.kvtrim (.core i) e) s = .next t ∧ Ends i s t ∧ lenSet t (r.len - k)) ∧
      (r.len < k → ∃ t, exec (.kvtrim (.core i) e) s = .next t ∧ t.mem = s.mem ∧ (t.tiles[i]).seq.deferred =
        some { cause := 0x0B, deferred := true, eaddr := a, epc := (s.tiles[i]).seq.pc + 8, ord := s.nowOrd })) ∧
    (∀ d : Desc, tOk (.core i) 0xF0F0001FFFFF#48 e = true → readDesc s i (tTa e) = (s, d, none) →
      descChecks [({ kvUse with fmts := anyFmts }, d)] = none →
      let n := tFld e 28 3 + 1
      let layer := (s.reg (.core i) (tReg e 23)).toNat
      let box : Box := ((0, 0, 0, 0), ((r.dh : Int) - 1, (n : Int) - 1, (r.hcount : Int) - 1, 0))
      let rows := kvRows d r layer (tFld e 22 1) n
      r.len + n ≤ r.maxlen → layer ≤ r.layers → r.hbase + r.hcount ≤ r.heads → d.kv = true → d.fmt = r.fmt → d.bs = r.bs →
      d.ext.1 = r.dh → n ≤ d.ext.2.1 → r.hcount ≤ d.ext.2.2.1 → spansBad (boxSpans d box ++ boxScales d true box) = none →
      (∀ x ∈ rows, ∃ tg, portCheck s x.2.1 x.2.2 = .ok tg) →
      ∃ t, exec (.kvapp (.core i) e) s = .next t ∧ Ends i s t ∧ (t.tiles[i]).kvOut = (s.tiles[i]).kvOut + rows.length ∧
        (∃ l : List Req, t.fab.ports = s.fab.ports ++ l ∧ l.length = rows.length ∧ ∀ (k : Nat) x, rows[k]? = some x → ∃ w, l[k]? = some w ∧
          w.src = s.dmaSrcOf (.core i) ∧ w.addr = x.2.1 ∧ w.len = x.2.2 ∧ w.write = true ∧ w.org = .kv i ∧
          w.data = memGetN s.mem (localBase i + x.1) x.2.2 ∧ w.cls = (s.tiles[i]).seq.taskLbl.setWidth 3 ∧
          w.dl = ((s.tiles[i]).seq.taskLbl >>> 8).setWidth 24) ∧
        (tFld e 21 1 = 1 → lenSet t (r.len + n)) ∧ (tFld e 21 1 = 0 → t.mem = s.mem)))

/-! ## Core tiles, tallies, CSR space -/

/-- R97, R98, R559: the MP and the debug subsystem control a core through CD_CORE_CTRL (with no STOP under way): HALT_REQ is set; cleared, it
lets a halted core that run control does not hold run on; RUN starts a core in reset at TRAPBASE + 0x100; CORE_RST clears its system
registers, AFLAGS, descriptors and fault cause and marks its planes not loaded, while its vector registers and accumulators stay;
any other source is refused and entered (0x20) with the register's address.
R98, R223: a running core at an instruction boundary that is asked to halt, with no STOP under way, becomes HALTED and nothing else
changes in the device but a breakpoint's hold of run control. R70: the array is powered down after 256 core cycles without work
unless ARRAY_HOLD is set, and is on when all 64 columns are up. -/
def Obligations.CoresAreControlled : Prop :=
  (∀ (s : State) (i : Fin 136) (src : Src), src = 0x100 ∨ src = 0x108 → s.prog.stopQ = none →
    let x := s.tiles[i]
    (∃ t, exec (.haltReq src i) s = .next t ∧ t.tiles[i] = { x with haltReq := true } ∧ OnlyTile i s t) ∧
    (∃ t, exec (.coreResume src i) s = .next t ∧ (t.tiles[i]).haltReq = false ∧ OnlyTile i s t ∧
      (t.tiles[i]).seq = if x.seq.run = .halted ∧ x.seq.dbgHalt = false then { x.seq with run := .running } else x.seq) ∧
    (x.seq.run = .reset → ∃ t, exec (.run src i) s = .next t ∧ OnlyTile i s t ∧
      t.tiles[i] = { x with seq := { x.seq with run := .running, pc := x.seq.trapBase + 0x100 } }) ∧
    (∃ t, exec (.coreRst src i) s = .next t ∧ (t.tiles[i]).seq.run = (if x.seq.run = .off then .off else .reset) ∧
      (t.tiles[i]).aflags = 0 ∧ (t.tiles[i]).td = Vector.replicate 16 0 ∧ (t.tiles[i]).fault = 0 ∧
      (∀ k : Fin 2, ((t.tiles[i]).planes[k]).loaded = false) ∧ (t.tiles[i]).tmulWait = none ∧
      (t.tiles[i]).seq = { Seq.reset (t.tiles[i]).seq.run 0x100 with bps := x.seq.bps, dbgHalt := x.seq.dbgHalt } ∧
      (t.tiles[i]).vr = x.vr ∧ (t.tiles[i]).acc = x.acc ∧ t.mem = s.mem)) ∧
  (∀ (s : State) (i : Fin 136) (src : Src), src ≠ 0x100 → src ≠ 0x108 →
    ∀ c ∈ [Instr.haltReq src i, Instr.coreResume src i, Instr.run src i, Instr.coreRst src i],
      ∃ t, exec c s = .next t ∧ Raises s t 0x20 src (csrBase + coreCsr i) ∧ t.tiles = s.tiles ∧ t.mem = s.mem) ∧
  (∀ (s : State) (i : Fin 136),
    let x := s.tiles[i]
    (atBoundary x = true → x.haltReq = true → s.prog.stopQ = none → ∃ t, exec (.coreHalted i) s = .next t ∧ OnlyTile i s t ∧
      t.tiles[i] = { x with seq := { x.seq with run := .halted, dbgHalt := x.seq.dbgHalt || atBreakpoint x.seq } }) ∧
    (x.array = .on → x.arrayHold = false → 2560 ≤ (s.dt - x.arrayUse).toNat * tierFreq (s.pwr.die[tileDie i]).tier →
      ∃ t, exec (.arrayPowerDown i) s = .next t ∧ t.tiles[i] = { x with array := .off } ∧ OnlyTile i s t) ∧
    (x.arrayHold = true → exec (.arrayPowerDown i) s = .next s) ∧
    (x.array = .rising → x.tmulWait = none →
      ∃ t, exec (.arrayPowerUpDone i) s = .next t ∧ t.tiles[i] = { x with array := .on } ∧ OnlyTile i s t))

/-- R84, R81: the scrubber corrects a single error of the line it reads, counting it; it enters a new uncorrectable one (0x10) and leaves
the word poisoned; a word already poisoned it passes over. The stores' bytes stay. -/
def Obligations.ScrubberCorrectsOrPoisons : Prop :=
  ∀ (s : State) (i : Fin 136) (line : Fin 24576) (k : Nat), s.hubAlive = true → k < 4 →
    let w := localBase i + 32 * line.val + 8 * k
    (s.ecc = [(w, .single)] → ∃ t, exec (.localStoreScrub i line []) s = .next t ∧ t.ecc = [] ∧ t.mem = s.mem ∧
      (t.tiles[i]).ceCount = satInc (s.tiles[i]).ceCount ∧ t.saf.raised = s.saf.raised) ∧
    (s.ecc = [(w, .hard)] → ∃ t r, exec (.localStoreScrub i line []) s = .next t ∧ t.ecc = [(w, .poison)] ∧ t.mem = s.mem ∧
      (t.tiles[i]).ueCount = satInc (s.tiles[i]).ueCount ∧ t.saf.raised = s.saf.raised ++ [r] ∧ r.cat = 0x10 ∧ r.info = BitVec.ofNat 48 w) ∧
    (s.ecc = [(w, .poison)] → ∃ t, exec (.localStoreScrub i line []) s = .next t ∧ t.ecc = s.ecc ∧ t.saf.raised = s.saf.raised ∧ t.mem = s.mem)

/-- R200 to R203, R197: with no snapshot and no grant due, the oldest signal of an island that its home lets through adds N to a counting
tally's count, which saturates at 65,535 with OVERFLOW set and entered (0x23), or sets an event tally's count to 1, counting the rest
as lost; the home records the source and DT. One on a disabled tally is refused and entered (0x23), one that the firewall refuses is
entered (0x20), and the tally stays.
R211: a core's signal on a barrier tally is an arrival; the K-th completes the round and records the last core and its lag. -/
def Obligations.SignalsAreApplied : Prop :=
  ∀ (s : State) (isl : Fin 5) (home : Nat) (src : Src) (part : BitVec 4) (n : BitVec 8) (rest : List TallyOp),
    (s.tly.queue)[isl] = .sig home src part n false none :: rest → s.grantDue isl = false → s.snap = none →
    tabWf Tally.off s.tly.tab = true →
    let y := s.tally home
    (s.homeAllowed y home src part true = true → y.barrier = none →
      (y.mode = .counting → ∃ t, exec (.tallySignalApply isl) s = .next t ∧ (t.tly.queue)[isl] = rest ∧
        (t.tally home).count.toNat = min 65535 (y.count.toNat + n.toNat) ∧
        (t.tally home).ovf = (y.ovf || decide (65535 < y.count.toNat + n.toNat)) ∧
        (65535 < y.count.toNat + n.toNat → Raises s t 0x23 src home) ∧ (y.count.toNat + n.toNat ≤ 65535 → t.saf = s.saf) ∧
        (t.tally home).last = some (src, s.dt.setWidth 48) ∧ (t.tally home).waiters = y.waiters ∧
        (∀ h, h ≠ home → t.tally h = s.tally h)) ∧
      (y.mode = .event → ∃ t, exec (.tallySignalApply isl) s = .next t ∧ (t.tly.queue)[isl] = rest ∧
        (t.tally home).count = 1 ∧ (t.tally home).lost.toNat = min 65535 (y.lost.toNat + (n.toNat - (1 - y.count.toNat))) ∧
        (t.tally home).last = some (src, s.dt.setWidth 48) ∧ (∀ h, h ≠ home → t.tally h = s.tally h))) ∧
    (∀ b, s.homeAllowed y home src part true = true → y.mode = .counting → y.barrier = some b → src.toNat < 0x100 → src.toNat % 2 = 0 →
      ∃ t c, exec (.tallySignalApply isl) s = .next t ∧ (t.tly.queue)[isl] = rest ∧ (t.tally home).barrier = some c ∧
        (t.tally home).count.toNat = min 65535 (y.count.toNat + n.toNat) ∧ c.k = b.k ∧ c.threshold = b.threshold ∧ c.lastDt = s.dt ∧
        (b.arrived.toNat + 1 < b.k.toNat → c.arrived = b.arrived + 1 ∧ c.lastLc = b.lastLc ∧ c.lag = b.lag) ∧
        (b.k.toNat ≤ b.arrived.toNat + 1 → c.arrived = 0 ∧ c.lastLc.toNat = src.toNat / 2 ∧ c.lag = lagUnits (s.dt - b.lastDt).toNat)) ∧
    (y.mode = .disabled → ∃ t, exec (.tallySignalApply isl) s = .next t ∧ (t.tly.queue)[isl] = rest ∧ t.tly.tab = s.tly.tab ∧
      Raises s t 0x23 src home) ∧
    (y.mode ≠ .disabled → s.homeAllowed y home src part true = false → ∃ t, exec (.tallySignalApply isl) s = .next t ∧
      (t.tly.queue)[isl] = rest ∧ t.tly.tab = s.tly.tab ∧ Raises s t 0x20 src home)

/-- R204: a wait that a counting tally with no waiter covers is granted at once and takes its N off the count; one that it does not cover
joins the end of the list, and so does one that finds a waiter there. R203: an event tally grants a wait of any N when its count is 1, and
sets it to 0. R138: a poll that is not covered times out and joins no list. R200: a wait on a disabled tally is refused and entered
(0x23), one that the firewall refuses is entered (0x20), and the tally stays. Each outcome reaches the core that waits with the
same tag, which then waits for its die's release from clock gating. -/
def Obligations.WaitsAreGrantedInOrder : Prop :=
  ∀ (s : State) (isl : Fin 5) (home : Nat) (src : Src) (part : BitVec 4) (tag : Nat) (n : BitVec 8) (dl : Option (BitVec 64)) (poll m : Bool)
    (rest : List TallyOp),
    (s.tly.queue)[isl] = .wait home src part tag n dl poll m :: rest → s.grantDue isl = false → s.snap = none →
    tabWf Tally.off s.tly.tab = true →
    let y := s.tally home
    let ends (t : State) (o : WaitOutcome) : Prop := (t.tly.queue)[isl] = rest ∧ (∀ h, h ≠ home → t.tally h = s.tally h) ∧
      ∀ i w, s.procOf src = some (.core i) → (s.tiles[i]).seq.wait = some w → w.tag = tag →
        (t.tiles[i]).seq.wait = some { w with outcome := o } ∧ (t.tly.wake)[tileDie i] = (s.tly.wake)[tileDie i] ++ [i]
    let uncovered := y.waiters ≠ [] ∨ (y.mode = .counting ∧ y.count.toNat < n.toNat) ∨ (y.mode = .event ∧ y.count ≠ 1)
    (s.homeAllowed y home src part false = true →
      (y.mode = .counting → y.waiters = [] → n.toNat ≤ y.count.toNat → ∃ t, exec (.tallyWaitApply isl) s = .next t ∧ ends t .granted ∧
        (t.tally home).count.toNat = y.count.toNat - n.toNat ∧ (t.tally home).waiters = []) ∧
      (y.mode = .event → y.waiters = [] → y.count = 1 → ∃ t, exec (.tallyWaitApply isl) s = .next t ∧ ends t .granted ∧
        (t.tally home).count = 0 ∧ (t.tally home).waiters = []) ∧
      (uncovered → y.mode ≠ .disabled → poll = false → ∃ t, exec (.tallyWaitApply isl) s = .next t ∧ (t.tly.queue)[isl] = rest ∧
        (t.tally home).count = y.count ∧ (t.tally home).waiters = y.waiters ++ [{ src := src, tag := tag, n := n, deadline := dl }] ∧
        (∀ h, h ≠ home → t.tally h = s.tally h) ∧ t.tiles = s.tiles) ∧
      (uncovered → y.mode ≠ .disabled → poll = true → ∃ t, exec (.tallyWaitApply isl) s = .next t ∧ ends t .timedOut ∧
        t.tally home = y)) ∧
    ((∀ p, s.procOf src = some p → isCore p = true ∨ (s.seq p).inTrap = false) →
      (y.mode = .disabled → ∃ t, exec (.tallyWaitApply isl) s = .next t ∧ ends t .refused ∧ t.tly.tab = s.tly.tab ∧ Raises s t 0x23 src home) ∧
      (y.mode ≠ .disabled → s.homeAllowed y home src part false = false → ∃ t, exec (.tallyWaitApply isl) s = .next t ∧ ends t .refused ∧
        t.tly.tab = s.tly.tab ∧ Raises s t 0x20 src home))

/-- R205, R199, R207, R561: a home grants the head of its list when the count covers it; a WAITT whose deadline has come leaves the list,
taking no count, when no grant is due and nothing is queued; a withdrawal that reaches the home takes the entry of its wait off.
R210, R446: the oldest tile of a die whose wait has ended leaves clock gating when fewer than 8 have in the last 100 ns, and its core goes
on behind its wait (with its predicate 1 for a grant and 0 at its deadline), or takes a firewall trap where the home refused it; when
8 have, none does. -/
def Obligations.WaitersLeaveAndTilesWake : Prop :=
  (∀ s : State, s.snap = none → tabWf Tally.off s.tly.tab = true →
    (∀ (home : Fin 16384) (w : Waiter) (ws : List Waiter), (s.tally home).waiters = w :: ws →
      ((s.tally home).mode = .counting → w.n.toNat ≤ (s.tally home).count.toNat → ∃ t, exec (.tallyGrant home) s = .next t ∧
        (t.tally home).waiters = ws ∧ (t.tally home).count.toNat = (s.tally home).count.toNat - w.n.toNat ∧
        ∀ h, h ≠ home.val → t.tally h = s.tally h) ∧
      ((s.tally home).mode = .event → (s.tally home).count = 1 → ∃ t, exec (.tallyGrant home) s = .next t ∧
        (t.tally home).waiters = ws ∧ (t.tally home).count = 0 ∧ ∀ h, h ≠ home.val → t.tally h = s.tally h)) ∧
    (∀ (isl : Fin 5) (home : Nat) (w : Waiter) (d : BitVec 64), s.grantDue isl = false → (s.tly.queue)[isl] = [] →
      earliest (s.expired isl) = some (home, w, d) → ∃ t, exec (.waittExpiry isl) s = .next t ∧
        (t.tally home).waiters = (s.tally home).waiters.filter (fun x => x.tag ≠ w.tag) ∧ (t.tally home).count = (s.tally home).count ∧
        (w.src = 0x100 → ∀ x, (s.seq .mp).wait = some x → x.tag = w.tag → t.mp.wait = none ∧ t.mp.run = .running ∧ t.mp.pc = s.mp.pc + 8)) ∧
    (∀ (isl : Fin 5) (home : Nat) (src : Src) (tag : Nat) (rest : List TallyOp), (s.tly.queue)[isl] = .withdraw home src tag :: rest →
      s.grantDue isl = false →
      ((∃ w ∈ (s.tally home).waiters, w.tag = tag) → ∃ t, exec (.waitWithdrawal isl) s = .next t ∧ (t.tly.queue)[isl] = rest ∧
        (t.tally home).waiters = (s.tally home).waiters.filter (fun x => x.tag ≠ tag) ∧ (t.tally home).count = (s.tally home).count) ∧
      ((∀ w ∈ (s.tally home).waiters, w.tag ≠ tag) → ∃ t, exec (.waitWithdrawal isl) s = .next t ∧ (t.tly.queue)[isl] = rest ∧
        t.tly.tab = s.tly.tab ∧ t.tiles = s.tiles))) ∧
  (∀ (s : State) (d : Fin 4) (i : Fin 136) (ts : List (Fin 136)), (s.tly.wake)[d] = i :: ts →
    let recent := ((s.tly.wakeLog)[d]).filter fun x => decide ((s.dt - x).toNat < 100)
    (∀ w, recent.length < 8 → (s.tiles[i]).seq.wait = some w → w.outcome ≠ .pending →
      (w.outcome = .refused → (s.tiles[i]).seq.inTrap = false) → ∃ t, exec (.tileWake d) s = .next t ∧
      (t.tly.wake)[d] = ts ∧ (t.tiles[i]).seq.run = .running ∧ (t.tiles[i]).seq.wait = none ∧ t.mem = s.mem ∧
      (w.outcome = .granted ∨ w.outcome = .timedOut → (t.tiles[i]).seq.pc = (s.tiles[i]).seq.pc + 8 ∧
        (w.deadline ≠ none → w.pd ≠ 0 → readPred (t.tiles[i]).seq w.pd = (w.outcome == .granted))) ∧
      (w.outcome = .refused → (t.tiles[i]).seq.pc = (s.tiles[i]).seq.pc ∧
        (t.tiles[i]).seq.pend = some { cause := 0x08, deferred := false, eaddr := BitVec.ofNat 64 w.home, epc := (s.tiles[i]).seq.pc, ord := s.nowOrd })) ∧
    (8 ≤ recent.length → exec (.tileWake d) s = .next s))

/-- R213, R532, R534: a write of TLY_DBG_SEL by the debug subsystem captures the tally that its bits [13:0] name. A read of a _LO register
by a system source captures the _HI register of the same time for that source.
R532: the host may set FAB_LOCK, and until then may write FAB_AGE_LIMIT_c (a value other than 0); the MP, and no other source, clears
the DEV_RESET_CAUSE bits that it writes as 1; a write of a register by a source without the right to it changes no register but the violation's and is entered
(0x20) with the source and the address. -/
def Obligations.RegisterReadsAndWrites : Prop :=
  (∀ s : State,
    (∀ v : BitVec 32, ∃ t, exec (.tlyDbgSel 0x108 v) s = .next t ∧ t.tly.dbgSel = v.setWidth 14 ∧
      t.tly.dbgCap = some (s.tally (v.toNat % 16384)) ∧ t.tly.tab = s.tly.tab) ∧
    (∀ (src : Src) (off h : Nat), off % 4 = 0 → off < 0x3000000 → isSystem src = true → hiOf off = some h →
      ∃ t, exec (.loReadCapture src off) s = .next t ∧
        t.fab.hiCap.find? (fun x => x.1 == (src, h)) = some ((src, h), (csrLive s h).getD 0) ∧ t.mem = s.mem ∧ t.tiles = s.tiles)) ∧
  (∀ s : State,
    (∀ v : BitVec 32, v.getLsbD 0 = true → ∃ t, exec (.registerWrite 0x130 0x300004 v) s = .next t ∧
      t = s.modFab fun f => { f with lock := true }) ∧
    (∀ (c : Fin 4) (v : BitVec 32), s.fab.lock = false → v.setWidth 16 ≠ 0#16 →
      ∃ t, exec (.registerWrite 0x130 (0x300010 + 4 * c.val) v) s = .next t ∧
        t = s.modFab fun f => { f with age := f.age.set c (v.setWidth 16) }) ∧
    (∀ v : BitVec 32, ∃ t, exec (.registerWrite 0x100 0x104 v) s = .next t ∧
      t.boot.cPower = (s.boot.cPower && !v.getLsbD 0) ∧ t.boot.cPin = (s.boot.cPin && !v.getLsbD 1) ∧
      t.boot.cWarm = (s.boot.cWarm && !v.getLsbD 2) ∧ t.boot.cSupply = (s.boot.cSupply && !v.getLsbD 3)) ∧
    (∀ src : Src, src ≠ 0x100 → mayWriteCsr s src 0x104 = false) ∧
    (∀ (src : Src) (off : Nat) (v : BitVec 32), off % 4 = 0 → off < 0x3000000 → mayWriteCsr s src off = false →
      ∃ t r, exec (.registerWrite src off v) s = .next t ∧ t.saf.raised = s.saf.raised ++ [r] ∧ r.cat = 0x20 ∧ r.src = src ∧
        r.info = BitVec.ofNat 48 (csrBase + off) ∧ t.fab.lock = s.fab.lock ∧ t.fab.age = s.fab.age ∧ t.dmc = s.dmc ∧ t.pwr = s.pwr ∧
        t.wear = s.wear ∧ t.tim = s.tim ∧ t.boot = s.boot ∧ t.tiles = s.tiles ∧ t.cmd = s.cmd ∧ t.tly = s.tly ∧ t.ifc = s.ifc))

/-! ## Command queues, programs and long operations -/

/-- R217, R218: the host's write of a submission tail or a completion head that lies in the ring (for the head: from the present head to the
tail) is applied; one that does not lie in it is not applied, puts the pair out of service and is entered (0x24). While a pair is
enabled only ENABLE of CMD_Q_CFG changes; a pair that is not enabled takes its configuration.
R219 to R222, R454: the next enabled pair in turn that has a command and nothing in hand or held fetches one entry of 64 bytes; a command
for the MP joins the MP's queue while fewer than 32 wait there, and completes BUSY otherwise; a reserved opcode completes
ILLEGAL_STATE. The oldest completion of a pair whose ring has room is written as 16 bytes with the pair's PHASE, which inverts when
the ring wraps. -/
def Obligations.CommandsArriveAndAreAnswered : Prop :=
  (∀ (s : State) (q : Fin 16) (v : BitVec 32),
    let x := s.cmd.q[q]
    let n := 2 ^ x.cqSize.toNat
    (v.toNat < 2 ^ x.sqSize.toNat → ∃ t, exec (.cmdSqTail 0x130 q v []) s = .next t ∧ OnlyPair q s t ∧ t.cmd.q[q] = { x with sqTail := v }) ∧
    (2 ^ x.sqSize.toNat ≤ v.toNat → ∃ t, exec (.cmdSqTail 0x130 q v []) s = .next t ∧ t.cmd.q[q] = { x with enable := false } ∧
      Raises s t 0x24 0x130 q.val) ∧
    (∀ (a : Nat) (b : Byte), ∃ t, exec (.cmdSqTail 0x130 q v [(a, b)]) s = .next t ∧
      (Memory.wf s.hostMem = true → memGet t.hostMem a = b ∧ ∀ c, c ≠ a → memGet t.hostMem c = memGet s.hostMem c)) ∧
    (v.toNat < n → (v.toNat + n - x.cqHead.toNat) % n ≤ (x.cqTail.toNat + n - x.cqHead.toNat) % n →
      ∃ t, exec (.cmdCqHead 0x130 q v) s = .next t ∧ OnlyPair q s t ∧ t.cmd.q[q] = { x with cqHead := v }) ∧
    (n ≤ v.toNat ∨ (x.cqTail.toNat + n - x.cqHead.toNat) % n < (v.toNat + n - x.cqHead.toNat) % n →
      ∃ t, exec (.cmdCqHead 0x130 q v) s = .next t ∧ t.cmd.q[q] = { x with enable := false } ∧ Raises s t 0x24 0x130 q.val) ∧
    (x.enable = true → ∃ t, exec (.cmdQEnable 0x130 q v) s = .next t ∧ OnlyPair q s t ∧
      ∃ b, t.cmd.q[q] = { x with enable := b } ∧ (v.getLsbD 31 = false → b = false)) ∧
    (x.enable = false → ∃ t, exec (.cmdQEnable 0x130 q v) s = .next t ∧ OnlyPair q s t ∧
      (t.cmd.q[q]).sqSize = v.setWidth 4 ∧ (t.cmd.q[q]).cqSize = (v >>> 4).setWidth 4 ∧ (t.cmd.q[q]).sqTail = x.sqTail ∧
      ((t.cmd.q[q]).enable = true ↔ v.getLsbD 31 = true ∧ 4 ≤ v.toNat % 16 ∧ v.toNat % 16 ≤ 12 ∧
        4 ≤ v.toNat / 16 % 16 ∧ v.toNat / 16 % 16 ≤ 12))) ∧
  ((∀ (s : State) (k : Fin 16), s.boot.stage = .ready →
    let q := s.cmd.rr + k
    let x := s.cmd.q[q]
    (x.enable = true ∧ x.cur = none ∧ x.held = [] ∧ x.sqHead ≠ x.sqTail) → x.sqLoc = false →
    (∀ j : Fin 16, j < k → (s.cmd.q[s.cmd.rr + j]).ready = false) →
    let a := x.sqBase.toNat / 4096 * 4096 + 64 * x.sqHead.toNat
    let h := fun n => memGet s.hostMem (a + n)
    ∃ t, ∃ e : CmdEntry, exec .commandFetch s = .next t ∧ t.cmd.rr = q + 1 ∧
      (t.cmd.q[q]).sqHead.toNat = (x.sqHead.toNat + 1) % 2 ^ x.sqSize.toNat ∧
      e.opcode = h 0 ∧ e.irq = (h 1).getLsbD 0 ∧ e.hostmem = (h 1).getLsbD 1 ∧ e.cid = h 3 ++ h 2 ∧
      (∀ n : Fin 7, e.p[n] = h (15 + 8 * n) ++ h (14 + 8 * n) ++ h (13 + 8 * n) ++ h (12 + 8 * n) ++ h (11 + 8 * n) ++ h (10 + 8 * n) ++
        h (9 + 8 * n) ++ h (8 + 8 * n)) ∧ t.hostMem = s.hostMem ∧ t.mem = s.mem ∧
      (h 1 &&& 0xFC = 0 → (∀ n, 4 ≤ n → n < 8 → h n = 0) →
        (e.opcode ∈ [0x00#8, 0x03#8, 0x0B#8, 0x1F#8] → (t.cmd.q[q]).cur = some e ∧ t.cmd.mpq = s.cmd.mpq) ∧
        (e.opcode ∈ [0x01#8, 0x02#8, 0x04#8, 0x08#8, 0x09#8, 0x0A#8, 0x10#8, 0x11#8, 0x12#8, 0x13#8, 0x14#8, 0x18#8, 0x19#8, 0x1C#8] →
          s.cmd.mpq.length < 32 → (t.cmd.q[q]).cur = some e ∧ t.cmd.mpq = s.cmd.mpq ++ [q]) ∧
        (e.opcode ∈ [0x01#8, 0x02#8, 0x04#8, 0x08#8, 0x09#8, 0x0A#8, 0x10#8, 0x11#8, 0x12#8, 0x13#8, 0x14#8, 0x18#8, 0x19#8, 0x1C#8] →
          32 ≤ s.cmd.mpq.length → Completes s t q e 0x08 0 0 ∧ t.pwr.busy = satInc s.pwr.busy) ∧
        (0x1F < e.opcode.toNat → Completes s t q e 0x09 0 0))) ∧
  (∀ (s : State) (q : Fin 16) (c : ComplEnt) (r : List ComplEnt),
    let x := s.cmd.q[q]
    let i := (x.cqTail.toNat + 1) % 2 ^ x.cqSize.toNat
    let a := x.cqBase.toNat / 4096 * 4096 + 16 * x.cqTail.toNat
    let v := c.cid.toNat + 2 ^ 16 * c.sqhead.toNat + 2 ^ 32 * c.status.toNat + 2 ^ 40 * (b2n x.phase + 2 * b2n c.long + 4 * b2n c.final) +
      2 ^ 64 * c.info0.toNat + 2 ^ 96 * c.info1.toNat
    x.held = c :: r → x.enable = true → x.cqLoc = false → Memory.wf s.hostMem = true →
    (x.cqHead.toNat ≠ i → ∃ t, exec (.completionPost q) s = .next t ∧
      (∀ n, n < 16 → memGet t.hostMem (a + n) = BitVec.ofNat 8 (v / 256 ^ n)) ∧
      (∀ b, b < a ∨ a + 16 ≤ b → memGet t.hostMem b = memGet s.hostMem b) ∧ t.mem = s.mem ∧
      (t.cmd.q[q]).held = r ∧ (t.cmd.q[q]).cqTail.toNat = i ∧ (t.cmd.q[q]).phase = (if i = 0 then !x.phase else x.phase) ∧
      t.cmd.msix = if c.irq = true ∧ c.final = true then x.vector :: s.cmd.msix else s.cmd.msix) ∧
    (x.cqHead.toNat = i → exec (.completionPost q) s = .next s)))

/-- R222, R225, R230, R226: NOP completes OK; QUERY_OP answers an operation's state code and progress, and ILLEGAL_STATE for a handle
whose slot holds another sequence number; a FENCE completes when what it waits for has ended, and waits until then.
R232, R233: SUSPEND, RESUME and CANCEL move an operation from state to state as the table says, and complete ILLEGAL_STATE, the
operation unchanged, where it says so. A QUEUED LOAD that is cancelled ends CANCELLED, with its final entry, and the program is NONE.
R480, R491, R244: CAL_READ copies the set in force to the buffer; CAL_WRITE of a set that is not right, or not the next of the one in force,
changes no flash; TIME_SET steps DT forwards with no program, sets the PTP offset and its source; POWER_BUDGET outside its range
is ILLEGAL_STATE, sets the limit with no program, and changes nothing where its plan would end FAULTED. A limit below 180,000 mW
lowers every die above the sustained tier (the model's reading of R445, log 136). -/
def Obligations.CommandsCompleteAtOnce : Prop :=
  (∀ (s : State) (q : Fin 16) (e : CmdEntry), Served s q e →
    (e.opcode = 0x00 → ∃ t, exec (.nopCommand q) s = .next t ∧ Completes s t q e 0x00 0 0 ∧ OnlyCmd s t ∧ t.cmd.ops = s.cmd.ops) ∧
    (e.opcode = 0x0B → ∀ (k : Fin 64) (o : LongOp), s.cmd.ops[k] = some o → o.seq ≠ 0 →
      (e.p[0] = (handleOf o.opcode o.seq k).setWidth 64 → ∃ t, exec (.queryOp q) s = .next t ∧ OnlyCmd s t ∧ t.cmd.ops = s.cmd.ops ∧
        ∃ c, (o.state, c) ∈ [(.queued, 0), (.running, 1), (.suspending, 2), (.suspended, 3), (.cancelling, 4), (.done, 5), (.cancelled, 6),
          (.failed, 7)] ∧ Completes s t q e 0x00 c (BitVec.ofNat 32 o.permille)) ∧
      (∀ w : BitVec 18, w ≠ o.seq → e.p[0] = (handleOf o.opcode w k).setWidth 64 →
        ∃ t, exec (.queryOp q) s = .next t ∧ OnlyCmd s t ∧ t.cmd.ops = s.cmd.ops ∧ Completes s t q e 0x09 0 0)) ∧
    (e.opcode = 0x1F →
      let earlierCmd := fun r : Fin 16 => r ≠ q ∧ (s.cmd.q[r]).cur ≠ none ∧ (s.cmd.q[r]).order ≤ (s.cmd.q[q]).order
      let earlierOp := fun o : LongOp => o.state.terminal = false ∧ o.internal = false ∧ o.order ≤ (s.cmd.q[q]).order
      (3 < (e.p[0]).toNat → ∃ t, exec (.fence q) s = .next t ∧ Completes s t q e 0x09 0 0) ∧
      ((e.p[0]).toNat ≤ 3 → ((e.p[0]).getLsbD 0 = true → ∀ r, ¬ earlierCmd r) →
        ((e.p[0]).getLsbD 1 = true → ∀ (k : Fin 64) (o : LongOp), s.cmd.ops[k] = some o → ¬ (earlierOp o ∧ ((e.p[0]).getLsbD 0 = true ∨ o.q = q))) →
        ∃ t, exec (.fence q) s = .next t ∧ Completes s t q e 0x00 0 0 ∧ OnlyCmd s t) ∧
      ((e.p[0]).toNat ≤ 3 → (e.p[0]).getLsbD 0 = true → (∃ r, earlierCmd r) → exec (.fence q) s = .next s) ∧
      ((e.p[0]).toNat ≤ 3 → (e.p[0]).getLsbD 1 = true →
        (∃ (k : Fin 64) (o : LongOp), s.cmd.ops[k] = some o ∧ earlierOp o ∧ ((e.p[0]).getLsbD 0 = true ∨ o.q = q)) →
        exec (.fence q) s = .next s))) ∧
  (∀ (s : State) (q : Fin 16) (e : CmdEntry) (k : Fin 64) (o : LongOp), Served s q e → s.cmd.ops[k] = some o → o.seq ≠ 0 →
    e.p[0] = (handleOf o.opcode o.seq k).setWidth 64 →
    let goes := fun (t : State) (st : OpState) => t.cmd.ops[k] = some { o with state := st } ∧ Completes s t q e 0x00 0 0
    let stays := fun (c : Instr) => ∃ t, exec c s = .next t ∧ t.cmd.ops = s.cmd.ops ∧ Completes s t q e 0x09 0 0 ∧ OnlyCmd s t
    (e.opcode = 0x08 →
      (o.state = .queued ∨ o.state = .suspended → ∃ t, exec (.suspend q) s = .next t ∧ goes t .suspended ∧ OnlyCmd s t) ∧
      (o.state = .running ∨ o.state = .suspending → ∃ t, exec (.suspend q) s = .next t ∧ goes t .suspending ∧ OnlyCmd s t) ∧
      (o.state = .cancelling ∨ o.state.terminal = true → stays (.suspend q))) ∧
    (e.opcode = 0x09 →
      (o.state = .queued ∨ (o.state = .suspended ∧ o.started = false) → ∃ t, exec (.resume q) s = .next t ∧ goes t .queued ∧ OnlyCmd s t) ∧
      (o.state = .running ∨ o.state = .suspending → ∃ t, exec (.resume q) s = .next t ∧ goes t .running ∧ OnlyCmd s t) ∧
      (o.state = .suspended → o.started = true → ∃ t, exec (.resume q) s = .next t ∧ goes t .running) ∧
      (o.state = .cancelling ∨ o.state.terminal = true → stays (.resume q))) ∧
    (e.opcode = 0x0A →
      (o.state = .running ∨ o.state = .suspending ∨ o.state = .cancelling ∨ (o.state = .suspended ∧ o.started = true) →
        ∃ t, exec (.cancel q) s = .next t ∧ goes t .cancelling) ∧
      (o.state = .queued ∨ (o.state = .suspended ∧ o.started = false) → ∃ t p, exec (.cancel q) s = .next t ∧ t.cmd.ops[k] = some p ∧
        p.state = .cancelled ∧ p.result = some (0x07, handleOf o.opcode o.seq k, 0) ∧ (o.opcode = 0x01 → t.prog.state = .none)) ∧
      (o.state.terminal = true → stays (.cancel q)))) ∧
  (∀ (s : State) (q : Fin 16) (e : CmdEntry), Served s q e →
    (e.opcode = 0x18 → e.hostmem = true → 9280 ≤ (e.p[1]).toNat → Memory.wf s.hostMem = true →
      ∃ t, exec (.calRead q) s = .next t ∧ Completes s t q e 0x00 0 0 ∧ t.flash = s.flash ∧
        (∀ n, n < 9280 → memGet t.hostMem ((e.p[0]).toNat + n) = memGet s.flash (s.calArea + n)) ∧
        (∀ a, a < (e.p[0]).toNat ∨ (e.p[0]).toNat + 9280 ≤ a → memGet t.hostMem a = memGet s.hostMem a)) ∧
    (e.opcode = 0x19 → e.hostmem = true → s.prog.state = .none ∨ s.prog.state = .loaded → (e.p[1]).toNat = 9280 →
      let b := s.hostGet (e.p[0]).toNat 9280
      (calOk b = false → ∃ t, exec (.calWrite q true) s = .next t ∧ Completes s t q e 0x04 0 0 ∧ OnlyCmd s t) ∧
      (calOk b = true → calWcountOf b ≠ calWcountOf s.calSet →
        ∃ t, exec (.calWrite q true) s = .next t ∧ Completes s t q e 0x09 0 0 ∧ OnlyCmd s t) ∧
      (calOk b = true → calWcountOf b = calWcountOf s.calSet → Memory.wf s.flash = true →
        ∃ t other, exec (.calWrite q true) s = .next t ∧ Completes s t q e 0x00 0 0 ∧ other ≠ s.calArea ∧ (other = 0x700000 ∨ other = 0x704000) ∧
          (∀ a, a < other ∨ other + 9280 ≤ a → memGet t.flash a = memGet s.flash a) ∧
          (∀ n, 0x40 ≤ n → n < 9280 → memGet t.flash (other + n) = memGet s.hostMem ((e.p[0]).toNat + n)))) ∧
    (e.opcode = 0x1A → e.p[0] = 0 → s.prog.state = .none → s.tim.dt.toNat ≤ (e.p[1]).toNat →
      ∃ t, exec (.timeSetStepDt q) s = .next t ∧ Completes s t q e 0x00 0 0 ∧ t.tim.dt = e.p[1] ∧ t.mem = s.mem) ∧
    (e.opcode = 0x1A → e.p[0] = 0 → s.prog.state ≠ .none →
      ∃ t, exec (.timeSetStepDt q) s = .next t ∧ Completes s t q e 0x09 0 0 ∧ OnlyCmd s t) ∧
    (e.opcode = 0x1A → e.p[0] = 1 → ∃ t, exec (.timeSetOffset q) s = .next t ∧ Completes s t q e 0x00 0 0 ∧
      t.tim.ptpOffset = e.p[1] ∧ t.tim.steps = satInc s.tim.steps ∧ t.tim.dt = s.tim.dt) ∧
    (e.opcode = 0x1A → e.p[0] = 2 → (e.p[1]).toNat < 256 → (e.p[1]).toNat % 4 ≤ 2 → (e.p[1]).toNat / 4 % 4 = 0 →
      ∃ t, exec (.timeSetSource q) s = .next t ∧ Completes s t q e 0x00 0 0 ∧ t.tim.src = (e.p[1]).setWidth 2 ∧
        t.ifc.gptpMask = ((e.p[1]) >>> 4).setWidth 4 ∧ t.tim.locked = false) ∧
    (e.opcode = 0x1C →
      let mw := (e.p[0]).toNat
      (mw < 60000 ∨ 180000 < mw → ∃ t, exec (.powerBudget q) s = .next t ∧ Completes s t q e 0x09 0 0 ∧ OnlyCmd s t) ∧
      (60000 ≤ mw → mw ≤ 180000 → s.prog.state = .none → ∃ t, exec (.powerBudget q) s = .next t ∧ Completes s t q e 0x00 0 0 ∧
        t.prog.budget.toNat = mw ∧ t.prog.epoch = s.prog.epoch + 1 ∧ t.prog.state = .none ∧
        (mw = 180000 → t.pwr = s.pwr) ∧
        (mw < 180000 → ∀ d : Fin 4, (s.pwr.die[d]).change = none → (s.pwr.die[d]).tier ≠ 0 →
          (t.pwr.die[d]).change = some (0, .lowering false))) ∧
      (60000 ≤ mw → mw ≤ 180000 → s.prog.state = .running → ∀ (shed : List Nat) (r : Refuse), plan s mw = (shed, .error r) →
        ∃ t i, exec (.powerBudget q) s = .next t ∧ Completes s t q e 0x02 0 i ∧ OnlyCmd s t)))

/-- R222, R224, R227, R228: a long command whose parameters and program state its row allows is accepted into a slot as a QUEUED operation,
and the acceptance entry carries its handle; with no slot free it completes BUSY; elsewhere it completes ILLEGAL_STATE (a SNAPSHOT of a
RUNNING program whose image reserves no rate REFUSED_RESOURCE, R245). A LOAD takes the program from NONE to LOADING; nothing else
changes but the queues and the operations. -/
def Obligations.LongCommandsAreAccepted : Prop :=
  ∀ (s : State) (q : Fin 16) (e : CmdEntry), Served s q e →
    let p0 := (e.p[0]).toNat
    let p1 := (e.p[1]).toNat
    let ends (c : Instr) (st : BitVec 8) : Prop := ∃ t, exec c s = .next t ∧ Completes s t q e st 0 0 ∧ OnlyCmd s t
    let row (c : Instr) (ok : Prop) : Prop :=
      (ok → (∀ k, s.freeSlot = some k → ∃ t, exec c s = .next t ∧ Accepts s t q e k ∧ OnlyCmd s t) ∧ (s.freeSlot = none → ends c 0x08)) ∧
      (¬ ok → ends c 0x09)
    (e.opcode = 0x01 →
      (s.prog.state = .none →
        (∀ k, s.freeSlot = some k → ∃ t, exec (.load q) s = .next t ∧ Accepts s t q e k ∧ t.prog.state = .loading ∧
          { t with cmd := s.cmd, prog := s.prog } = s) ∧
        (s.freeSlot = none → ends (.load q) 0x08)) ∧
      (s.prog.state ≠ .none → ends (.load q) 0x09)) ∧
    (e.opcode = 0x10 → s.prog.state = .running → s.prog.img.snapRate = 0 → ends (.snapshot q) 0x01) ∧
    (e.opcode = 0x10 → ¬ (s.prog.state = .running ∧ s.prog.img.snapRate = 0) → row (.snapshot q)
      ((s.prog.state = .loaded ∨ s.prog.state = .running) ∧ (e.p[2]).toNat ≤ 3 ∧
        ∀ (j : Fin 64) (o : LongOp), s.cmd.ops[j] = some o → o.opcode = 0x10 → o.state.terminal = true)) ∧
    (e.opcode = 0x12 → row (.scrub q) ((p0 = 0 ∧ p1 = 0) ∨ (p0 % 4096 = 0 ∧ p1 % 4096 = 0 ∧ 1 ≤ p1 ∧ p0 + p1 ≤ s.fuse.dramBytes))) ∧
    (e.opcode = 0x13 → row (.retrain q) (p0 < 256)) ∧
    (e.opcode = 0x14 → row (.migrate q) ((s.prog.state = .loaded ∨ s.prog.state = .running) ∧ ∃ (lc : Fin 128) (i : Fin 136),
      p0 = lc.val ∧ s.tileOf lc = some i ∧ ((p1 = 0xFF ∧ (s.spareOf (tileDie i)).isSome = true) ∨
        ∃ d : Fin 136, p1 = d.val ∧ (s.wear.tile[d]).state = .spare ∧ tileDie d = tileDie i))) ∧
    (e.opcode = 0x15 → p0 = 1 → row (.repairHardDram q) (p1 < 256 ∧ (s.prog.state = .none ∨ s.prog.state = .loaded))) ∧
    (e.opcode = 0x15 → p0 = 2 → row (.repairLaneTest q) (p1 < 12)) ∧
    (e.opcode = 0x15 → p0 = 3 → row (.repairTileTest q) (∃ i : Fin 136, p1 = i.val ∧ (s.wear.tile[i]).state = .spare)) ∧
    (e.opcode = 0x15 → p0 = 4 → row (.repairReplace q) (p1 = 0))

/-- R222, R223, R241: START of a LOADED program whose checks still stand makes it RUNNING from its start DT, and a core of it that is in reset
starts with it; where the capacity epoch has changed since, it makes checks 3 to 12 again first, and a check that fails leaves the
program LOADED and completes with the check's status. STOP of a RUNNING program asks each of its cores to halt, enters 0x44, and completes with the program LOADED when
none runs or waits; UNLOAD leaves the program NONE and every tally disabled. Each is ILLEGAL_STATE in a state that its row does not allow.
R241 to R243: a time-base task's RELEASE home is signalled at start DT + OFFSET + k PERIOD (with the cut mark of a snapshot that is taken,
R246); at a deadline the monitor polls the DONE
home, and a miss is counted and entered (0x40); re-admission whose plan passes returns the program to RUNNING with the plan's
tasks shed. -/
def Obligations.ProgramsAndTheirTasks : Prop :=
  (∀ (s : State) (q : Fin 16) (e : CmdEntry), Served s q e →
    (e.opcode = 0x02 → s.prog.state = .loaded → s.prog.epoch = s.prog.checkedEpoch →
      (s.tim.dt.toNat < (e.p[0]).toNat → ∃ t, exec (.start q) s = .next t ∧ Completes s t q e 0x00 0 0 ∧ t.prog.state = .running ∧
        t.prog.startDt = e.p[0] ∧ t.tiles = s.tiles ∧ t.mem = s.mem) ∧
      ((e.p[0]).toNat ≤ s.tim.dt.toNat → ∃ t, exec (.start q) s = .next t ∧ Completes s t q e 0x00 0 0 ∧ t.prog.state = .running ∧
        t.prog.startDt = s.tim.dt ∧ (∀ i ∈ s.progTiles, (s.tiles[i]).seq.run = .reset →
          (t.tiles[i]).seq.run = .running ∧ (t.tiles[i]).seq.pc = (s.tiles[i]).seq.trapBase + 0x100))) ∧
    (e.opcode = 0x02 → s.prog.state = .loaded → s.prog.epoch ≠ s.prog.checkedEpoch →
      (∀ r, resourceChecks s s.prog.img s.prog.shed = .error r → ∃ t, exec (.start q) s = .next t ∧
        Completes s t q e r.status r.info0 r.info1 ∧ t.prog.state = .loaded ∧ t.prog.reason = BitVec.ofNat 8 r.reason ∧
        t.tiles = s.tiles ∧ t.mem = s.mem) ∧
      (∀ b, resourceChecks s s.prog.img s.prog.shed = .ok b → s.tim.dt.toNat < (e.p[0]).toNat → ∃ t, exec (.start q) s = .next t ∧
        Completes s t q e 0x00 0 0 ∧ t.prog.state = .running ∧ t.prog.startDt = e.p[0] ∧ t.prog.reason = 0 ∧ t.tiles = s.tiles ∧
        t.mem = s.mem)) ∧
    (e.opcode = 0x03 → s.prog.state ∈ [PState.none, PState.loading, PState.loaded] → s.prog.stopQ = none →
      ∃ t, exec (.stop q) s = .next t ∧ Completes s t q e 0x09 0 0 ∧ OnlyCmd s t) ∧
    (e.opcode = 0x03 → s.prog.state = .running → s.prog.stopQ = none →
      ((∀ i ∈ s.progTiles, (s.tiles[i]).seq.run = .halted) → ∃ t, exec (.stop q) s = .next t ∧ Completes s t q e 0x00 0 0 ∧
        t.prog.state = .loaded ∧ Raises s t 0x44 0x101 0) ∧
      ((∃ i ∈ s.progTiles, (s.tiles[i]).seq.run = .running) → ∃ t, exec (.stop q) s = .next t ∧ t.prog.stopQ = some q ∧
        t.prog.state = .running ∧ t.cmd = s.cmd ∧ ∀ i ∈ s.progTiles, (t.tiles[i]).haltReq = true)) ∧
    (e.opcode = 0x04 → s.prog.state = .loaded → s.prog.stopQ = none → ∃ t, exec (.unload q) s = .next t ∧ Completes s t q e 0x00 0 0 ∧
      t.prog.state = .none ∧ t.prog.img = Image.empty ∧ t.fab.loaded = false ∧ ∀ h, (t.tally h).mode = .disabled) ∧
    (e.opcode = 0x02 → s.prog.state ≠ .loaded → ∃ t, exec (.start q) s = .next t ∧ Completes s t q e 0x09 0 0 ∧ OnlyCmd s t) ∧
    (e.opcode = 0x04 → s.prog.state ≠ .loaded → ∃ t, exec (.unload q) s = .next t ∧ Completes s t q e 0x09 0 0 ∧ OnlyCmd s t)) ∧
  ((∀ (s : State) (i : Nat) (x : Task), s.prog.img.tasks[i]? = some x → x.tb = true → s.prog.state = .running →
    s.prog.startDt.toNat ≤ s.tim.dt.toNat → i ∉ s.prog.shed → tabWf 0 s.prog.nextK = true →
    let k := tabGet 0 s.prog.nextK i
    (s.prog.startDt.toNat + x.offset + k * x.period ≤ s.tim.dt.toNat → x.release < 16384 → ∃ t, exec (.timeBaseRelease i) s = .next t ∧
      tabGet 0 t.prog.nextK i = k + 1 ∧
      Queued s t x.release (.sig x.release 0x104 (s.partOf 0x104) (BitVec.ofNat 8 x.releaseN) s.snap.isSome none)) ∧
    (s.tim.dt.toNat < s.prog.startDt.toNat + x.offset + k * x.period → exec (.timeBaseRelease i) s = .next s)) ∧
  (∀ (s : State) (i : Nat) (x : Task) (d : BitVec 64), s.prog.img.tasks[i]? = some x → s.dueDeadline i = some (i, d) →
    s.snap = none → tabWf Tally.off s.tly.tab = true → (s.tally x.done).mode = .counting → (s.tally x.done).waiters = [] →
    s.homeAllowed (s.tally x.done) x.done 0x105 (s.partOf 0x105) false = true →
    ((s.tally x.done).count = 0 → ∃ t, exec (.deadlineCheck i) s = .next t ∧ Raises s t 0x40 0 i ∧
      t.prog.missCount = satInc s.prog.missCount ∧ t.prog.deadlines = s.prog.deadlines.erase (i, d)) ∧
    ((s.tally x.done).count ≠ 0 → ∃ t, exec (.deadlineCheck i) s = .next t ∧ t.saf.raised = s.saf.raised ∧
      t.prog.missCount = s.prog.missCount ∧ (t.tally x.done).count.toNat + 1 = (s.tally x.done).count.toNat)) ∧
  (∀ (s : State) (shed : List Nat) (b : Option (Int × Nat)), s.prog.state = .readmitting → s.pwr.mpAbsent = false →
    plan s s.prog.budget.toNat = (shed, .ok b) → ∃ t, exec .readmission s = .next t ∧ t.prog.state = .running ∧ t.prog.shed = shed ∧
      t.tiles = s.tiles ∧ t.saf.raised.length = s.saf.raised.length + (shed.filter (fun i => !s.prog.shed.contains i)).length))

/-- R229, R231, R233: a LOAD or SCRUB that is QUEUED and that none of its kind holds back becomes RUNNING; at a suspend point a SUSPENDING SCRUB becomes
SUSPENDED, and a CANCELLING one ends CANCELLED; a fault makes it FAILED with HW_FAULT and leaves the program of a LOAD NONE; a
lane test that ends well is DONE. Each end posts the final entry.
R246, R248: a snapshot whose agents have passed their cut points and whose unmarked operations are applied writes the records that are left and
ends, DONE when none is left; where the buffer cannot hold its next record it is FAILED with REFUSED_RESOURCE. -/
def Obligations.LongOperationsEnd : Prop :=
  ∀ (s : State) (k : Fin 64) (o : LongOp), s.cmd.ops[k] = some o → s.pwr.mpAbsent = false →
    let ended := fun (t : State) (st : OpState) (c : BitVec 8) => ∃ p, t.cmd.ops[k] = some p ∧ p.state = st ∧
      p.result = some (c, handleOf o.opcode o.seq k, 0) ∧ (o.internal = false → (s.cmd.q[o.q]).enable = true →
        (t.cmd.q[o.q]).held = (s.cmd.q[o.q]).held ++ [ComplEnt.mk o.cid o.sqhead c true true
          (handleOf o.opcode o.seq k) 0 o.irq])
    (o.state = .queued → o.opcode ∈ [0x01#8, 0x12#8] → s.opBlocked k = false → ∃ t, exec (.longOpStart k) s = .next t ∧ OnlyCmd s t ∧
      t.cmd.ops[k] = some { o with state := .running, started := true }) ∧
    (o.state = .queued → s.opBlocked k = true → exec (.longOpStart k) s = .next s) ∧
    (o.state = .suspending → o.opcode = 0x12 → (s.scrubRange o).2 ≤ o.progress → ∃ t, exec (.longOpSuspendPoint k) s = .next t ∧
      OnlyCmd s t ∧ t.cmd.ops[k] = some { o with state := .suspended }) ∧
    (o.state = .cancelling → o.opcode = 0x12 → ∃ t, exec (.longOpSuspendPoint k) s = .next t ∧ ended t .cancelled 0x07 ∧ OnlyCmd s t) ∧
    (o.state.terminal = false → o.opcode = 0x12 → ∃ t, exec (.longOpEnd k .fault) s = .next t ∧ ended t .failed 0x0B ∧ OnlyCmd s t) ∧
    (o.state.terminal = false → o.opcode = 0x01 → ∃ t, exec (.longOpEnd k .fault) s = .next t ∧ ended t .failed 0x0B ∧ t.prog.state = .none) ∧
    (o.state = .running → o.opcode = 0x15 → o.p[0] = 2 → o.lost = false → ∃ t, exec (.longOpEnd k .ok) s = .next t ∧ ended t .done 0x00 ∧ OnlyCmd s t) ∧
    (o.state = .running → o.opcode = 0x10 → ∀ x : Snap, s.snap = some x → x.slot = k → s.snapReady x = true →
      (∃ t p, exec .snapshotDone s = .next t ∧ t.snap = none ∧ t.cmd.ops[k] = some p ∧ p.state.terminal = true) ∧
      (o.lost = false → (s.snapItems x).drop x.pos = [] → ∃ t, exec .snapshotDone s = .next t ∧ ended t .done 0x00 ∧
        { t with snap := s.snap, cmd := s.cmd } = s ∧ t.snap = none) ∧
      (∀ item rest r, (s.snapItems x).drop x.pos = item :: rest → s.snapPayload x item = (s, .ok r) →
        x.outLen < x.bytes + (snapRecord r.1 r.2.1 r.2.2).length → ∃ t, exec .snapshotDone s = .next t ∧ ended t .failed 0x01 ∧
          { t with snap := s.snap, cmd := s.cmd } = s ∧ t.snap = none))

/-! ## Fabric and DRAM -/

/-- R35, R255, R260, R261, R264, R562: the oldest request of a source's port that nothing regulates leaves the port, a processor's with the
label of its TASKLBL: one that the port's own
check refuses is entered (0x21) and answered with an error, and one that passes is under way on its route; one that no crosscut in
service leads to its target waits (R22). A partition agent's
class that none of its tasks has is replaced by class 0 and entered (0x22). A regulated request pays from its bucket, and waits while
the bucket holds too little. The port of a DMA
engine is meant with the descriptor's transaction already at it.
R251, R256 to R259, R262, R263: with no budgets in force, an arbiter at which a request with a deadline waits that it can serve grants the one whose deadline is
earliest by the signed 24-bit distance from DT [26:3], when the sources differ; the granted request moves on, and so does a response at the
arbiter, in its own channel, to its requester in the end. A request of class 0
to 3 that has waited past its class's limit is promoted for one of its source's tokens, with the deadline DT; the tokens come back
one a period, up to DEPTH. -/
def Obligations.RequestsCrossTheFabric : Prop :=
  (∀ (s : State) (src : Src) (k : Fin 32) (r : Req),
    (∀ p, s.dmaProc src = some p → s.fab.ports.any (fun x => x.org == Origin.dma p k) = true) →
    s.fab.ports.find? (fun x => x.src == src && x.ofSlot k) = some r →
    let w := s.portLabel r
    (∀ p, r.org = .ld p ∨ r.org = .st p → (∀ d, p ≠ .dep d) →
      w = { r with cls := (s.seq p).taskLbl.setWidth 3, dl := ((s.seq p).taskLbl >>> 8).setWidth 24 }) ∧
    (portCheck s r.addr r.len = .error .decode → ∀ p, r.org = .ld p → ∃ t, exec (.requestIssue src k) s = .next t ∧
      Raises s t 0x21 r.src r.addr ∧ t.fab.ports = s.fab.ports.filter (fun x => x.id ≠ r.id) ∧
      ∀ w, (s.seq p).ldWait = some w → (t.seq p).ldWait = some { w with resp := some (.error 0x07 (BitVec.ofNat 64 r.addr)) }) ∧
    (∀ g, portCheck s r.addr r.len = .ok g →
      let way := s.wayOk src (s.srcLoc src) (targetLoc (s.tileAt g) g)
      let sent (t : State) (c : BitVec 3) : Prop :=
        let x := { w with cls := c, tile := s.tileAt g, hops := s.route src (s.tileAt g) g, since := s.tim.dt, arr := s.tim.dt, iss := s.fab.nextIss
                          hold := s.fab.flight.any fun x => x.hold && sameQueue s { w with cls := c, tile := s.tileAt g } x }
        t.fab.ports = s.fab.ports.filter (fun x => x.id ≠ r.id) ∧ t.fab.nextIss = s.fab.nextIss + 1 ∧
        (x.hops ≠ [] → t.fab.flight = s.fab.flight ++ [x] ∧ t.fab.arrived = s.fab.arrived) ∧
        (x.hops = [] → t.fab.arrived = s.fab.arrived ++ [x] ∧ t.fab.flight = s.fab.flight)
      (way = false → exec (.requestIssue src k) s = .next s) ∧
      (way = true → isPartAgent src = false → ∃ t, exec (.requestIssue src k) s = .next t ∧ sent t w.cls ∧ t.saf.raised = s.saf.raised) ∧
      (way = true → isPartAgent src = true → s.fab.loaded = true →
        (w.cls ∉ s.classesOf src → ∀ bs, s.issueBuckets w g true = some bs → ∃ t, exec (.requestIssue src k) s = .next t ∧
          sent t 0 ∧ Raises s t 0x22 src 0 ∧ t.fab.statLabelFix = satInc s.fab.statLabelFix ∧ t.fab.buckets = bs) ∧
        (w.cls ∈ s.classesOf src → ∀ bs, s.issueBuckets w g false = some bs → ∃ t, exec (.requestIssue src k) s = .next t ∧
          sent t w.cls ∧ t.saf.raised = s.saf.raised ∧ t.fab.buckets = bs) ∧
        (w.cls ∈ s.classesOf src → (∀ p, r.org ≠ .ld p) → ∀ d, s.groupOf src g = some d →
          let rate := s.bucketRate src w.cls d
          let n := if d then s.chargeD r.addr r.len r.write else r.len
          ∀ b, bucketFind s.fab.buckets (src, w.cls, d) = some b →
            (b.now rate.1 1 rate.2 s.tim.dt.toNat < 256 * n → exec (.requestIssue src k) s = .next s) ∧
            (256 * n ≤ b.now rate.1 1 rate.2 s.tim.dt.toNat → ∃ t, exec (.requestIssue src k) s = .next t ∧ sent t w.cls ∧
              bucketFind t.fab.buckets (src, w.cls, d) =
                some { level := b.now rate.1 1 rate.2 s.tim.dt.toNat - 256 * n, dt := s.tim.dt }))))) ∧
  (∀ s : State, s.fab.modeP = false →
    (∀ (a : Arb) (r : Req), r ∈ s.waitingAt a → r.promoted = none → 4 ≤ r.cls.toNat → r.hold = false → s.servable a r = true →
      (∀ p ∈ s.fab.resps, p.hops.head? ≠ some a) →
      (s.waitingAt a).Pairwise (fun x y => x.src ≠ y.src ∧ x.id ≠ y.id) →
      (∀ x ∈ s.waitingAt a, x ≠ r → x.promoted = none ∧ (4 ≤ x.cls.toNat →
        (r.dl - (s.tim.dt >>> 3).setWidth 24).toInt < (x.dl - (s.tim.dt >>> 3).setWidth 24).toInt)) →
      ∃ t, exec (.arbiterGrant a) s = .next t ∧ t.mem = s.mem ∧ t.tiles = s.tiles ∧ t.fab.ports = s.fab.ports ∧
        (r.hops = [a] → t.fab.arrived = s.fab.arrived ++ [{ r with hops := [], arr := s.tim.dt }]) ∧
        (∀ b l, r.hops = a :: b :: l → t.fab.arrived = s.fab.arrived ∧
          t.fab.flight = s.fab.flight.filter (fun x => x.id ≠ r.id) ++ [{ r with hops := b :: l, arr := s.tim.dt }])) ∧
    (∀ (a : Arb) (p : Resp), s.fab.resps = [p] → p.hops.head? = some a → (∀ x b, a = .crosscut x b → (s.fab.xcuts[x]).failed = false) →
      s.waitingAt a = [] →
      (∀ b l, p.hops = a :: b :: l → ∃ t, exec (.arbiterGrant a) s = .next t ∧
        t.fab.resps = [{ p with hops := b :: l, arr := s.tim.dt }] ∧ t.tiles = s.tiles ∧ t.mem = s.mem) ∧
      (p.hops = [a] → ∀ q w, p.req.org = .ld q → p.err = none → (s.seq q).ldWait = some w → ∃ t, exec (.arbiterGrant a) s = .next t ∧
        t.fab.resps = [] ∧ (t.seq q).ldWait = some { w with resp := some (.data (BitVec.ofNat 64 (leNat p.data))) } ∧ t.mem = s.mem)) ∧
    (∀ (r : Req) (c : Fin 4), s.fab.flight.find? (fun x => x.id == r.id) = some r → r.cls.toNat = c.val → r.promoted = none →
      0 < s.tokens r.src →
      (8 * (s.fab.age[c]).toNat < (s.tim.dt - r.since).toNat → ∃ t, exec (.agePromotion r.id) s = .next t ∧
        t.fab.flight.find? (fun x => x.id == r.id) = some { r with promoted := some ((s.tim.dt >>> 3).setWidth 24) } ∧
        t.tokens r.src + 1 = s.tokens r.src ∧ t.fab.statPromoted = satInc s.fab.statPromoted) ∧
      ((s.tim.dt - r.since).toNat ≤ 8 * (s.fab.age[c]).toNat → exec (.agePromotion r.id) s = .next s)) ∧
    (∀ src : Src, s.tokens src < s.fab.promoDepth.toNat →
      (∀ x, s.fab.promoDt.find? (fun y => y.1 == src) = some x → 8 * s.fab.promoPeriod.toNat ≤ (s.tim.dt - x.2).toNat) →
      ∃ t, exec (.promotionTokenRefill src) s = .next t ∧ t.tokens src = s.tokens src + 1 ∧
        ∀ y, y ≠ src → t.tokens y = s.tokens y))

/-- R28, R35, R267, R272, R562: the first request of its source at a target is checked and performed there: a DRAM request joins its channel's
queue; a read of the hub store or of a local store by a processor is answered with the bytes, and a write changes exactly them, in the tile
to which the logical window led when the request was issued; one that the access
rules refuse is entered (0x20) with the FAB registers keeping the first violation, and one at no target is entered (0x21). The answer
travels back through the response channel (R251), or is there at once with no arbiter on its way. A later request of the source at
the same target waits.
R20, R22, R241, R471: a crosscut that fails is out of service and the others stay; a request whose way led over it is retried on a way that does
not, and every other one goes on as it was; a direction whose lanes reach more than 16 errors has them
replaced, the traffic over it taking another way meanwhile, and entered (0x52), and at more than four lost it goes on at half width, a loss of capacity (0x42). -/
def Obligations.TargetsAndCrosscuts : Prop :=
  (∀ (s : State) (r : Req), s.fab.arrived.find? (fun x => x.id == r.id) = some r →
    (s.firstAtTarget r = false → exec (.fabricRequest r.id []) s = .next s) ∧
    (s.firstAtTarget r = true → s.portHolds r = false →
    let left := s.fab.arrived.filter fun x => x.id ≠ r.id
    let answered (t : State) (g : Target) (p : Proc) (d : List Byte) (e : Option AccessErr) : Prop :=
      t.fab.arrived = left ∧
      (∀ h l, s.routeBack r.src r.tile g = h :: l →
        t.fab.resps = s.fab.resps ++ [{ req := r, data := d, err := e, hops := h :: l, arr := s.tim.dt }] ∧ t.seq p = s.seq p) ∧
      (s.routeBack r.src r.tile g = [] → t.fab.resps = s.fab.resps ∧
        (∀ w, r.org = .ld p → (s.seq p).ldWait = some w → e = none →
          (t.seq p).ldWait = some { w with resp := some (.data (BitVec.ofNat 64 (leNat d))) }) ∧
        (r.org = .st p → e = none → (t.seq p).stAck = (s.seq p).stAck + 1) ∧
        (∀ x, r.org = .st p → e = some x → (t.seq p).stErr = (s.seq p).stErr ++ [(x.cause, BitVec.ofNat 64 r.addr, r.ord)]))
    (∀ a, s.reqTarget r = .ok (.dram a) → s.allowed r.src r.part (.dram a) r.len r.write = true →
      ∃ t, exec (.fabricRequest r.id []) s = .next t ∧ t.fab.arrived = left ∧ t.mem = s.mem ∧
        t.fab.dramQ = s.fab.dramQ ++ [{ r with addr := a, arr := s.tim.dt }]) ∧
    (∀ g b, (∃ off, g = .hubStore off ∧ b = hubBase + off) ∨ (∃ lc off x, g = .localLog lc off ∧ r.tile = some x ∧ b = localBase x + off) →
      s.reqTarget r = .ok g → s.allowed r.src r.part g r.len r.write = true → s.ecc = [] → Memory.wf s.mem = true →
      (∀ p, r.write = false → r.org = .ld p → ∃ t, exec (.fabricRequest r.id []) s = .next t ∧ t.mem = s.mem ∧
        answered t g p (memGetN s.mem b r.len) none) ∧
      (∀ p, r.write = true → r.org = .st p → s.snap = none → ∃ t, exec (.fabricRequest r.id []) s = .next t ∧ answered t g p [] none ∧
        (∀ n, (h : n < r.data.length) → memGet t.mem (b + n) = r.data[n]) ∧
        ∀ c, c < b ∨ b + r.data.length ≤ c → memGet t.mem c = memGet s.mem c)) ∧
    (∀ g, s.reqTarget r = .ok g → s.allowed r.src r.part g r.len r.write = false → ∀ p, r.org = .st p →
      ∃ t, exec (.fabricRequest r.id []) s = .next t ∧ t.mem = s.mem ∧ Raises s t 0x20 r.src r.addr ∧ answered t g p [] (some .firewall) ∧
        t.fab.violValid = true ∧
        (s.fab.violValid = false → t.fab.violSrc = r.src ∧ t.fab.violAddr = BitVec.ofNat 48 r.addr ∧ t.fab.violWrite = r.write) ∧
        (s.fab.violValid = true → t.fab.violSrc = s.fab.violSrc ∧ t.fab.violAddr = s.fab.violAddr)) ∧
    (s.reqTarget r = .error .decode → ∀ p, r.org = .st p → ∃ t, exec (.fabricRequest r.id []) s = .next t ∧ t.mem = s.mem ∧
      Raises s t 0x21 r.src r.addr ∧ (t.seq p).stErr = (s.seq p).stErr ++ [(0x07, BitVec.ofNat 64 r.addr, r.ord)]))) ∧
  (∀ (s : State) (x : Fin 12), s.hubAlive = true → (s.fab.xcuts[x]).failed = false →
    (∃ t, exec (.crosscutFailure x) s = .next t ∧ (t.fab.xcuts[x]).failed = true ∧ (∀ y, y ≠ x → t.fab.xcuts[y] = s.fab.xcuts[y]) ∧
      t.mem = s.mem ∧ t.tiles = s.tiles ∧ t.fab.arrived = s.fab.arrived ∧ t.fab.flight.length = s.fab.flight.length ∧
      ∀ (n : Nat) (r : Req), s.fab.flight[n]? = some r →
        (overCrosscut x r.hops = false → t.fab.flight[n]? = some r) ∧
        (overCrosscut x r.hops = true → ∀ g, t.reqTarget r = .ok g → t.wayOk r.src (t.srcLoc r.src) (targetLoc r.tile g) = true →
          t.fab.flight[n]? = some { r with hops := t.route r.src r.tile g, hold := true } ∧ overCrosscut x (t.route r.src r.tile g) = false)) ∧
    (∀ lane : Fin 68, lane ∉ (s.fab.xcuts[x]).toHigh.badLanes → ∀ n, 16 < n → ∃ t, exec (.laneRepair x true [(lane, n)]) s = .next t ∧
      (t.fab.xcuts[x]).toHigh.badLanes = (s.fab.xcuts[x]).toHigh.badLanes ++ [lane] ∧ (t.fab.xcuts[x]).toLow = (s.fab.xcuts[x]).toLow ∧
      ((s.fab.xcuts[x]).toHigh.badLanes.length < 4 → (s.fab.xcuts[x]).toHigh.half = false →
        (t.fab.xcuts[x]).toHigh.half = false ∧ Raises s t 0x52 0 0 ∧ t.prog.epoch = s.prog.epoch) ∧
      (4 ≤ (s.fab.xcuts[x]).toHigh.badLanes.length → (s.fab.xcuts[x]).toHigh.half = false →
        (t.fab.xcuts[x]).toHigh.half = true ∧ t.prog.epoch = s.prog.epoch + 1 ∧
        ∃ a b, t.saf.raised = s.saf.raised ++ [a, b] ∧ a.cat = 0x52 ∧ b.cat = 0x42) ∧
      ∀ (k : Nat) (r : Req), s.fab.flight[k]? = some r →
        (overDirection x true r.hops = false → t.fab.flight[k]? = some r) ∧
        (overDirection x true r.hops = true → ∀ g, (s.setFailed x true).reqTarget r = .ok g →
          (s.setFailed x true).wayOk r.src ((s.setFailed x true).srcLoc r.src) (targetLoc r.tile g) = true →
          t.fab.flight[k]? = some { r with hops := (s.setFailed x true).route r.src r.tile g, hold := true })) ∧
    (∀ (lane : Fin 68) (n : Nat), n ≤ 16 → (s.fab.xcuts[x]).toLow.badLanes.length ≤ 4 → exec (.laneRepair x false [(lane, n)]) s = .next s))

/-- R281, R282, R289 to R292, R302, R518: the oldest request of a channel that is not held is served, and a later one waits. With every
subchannel in service and no other error in the device, a read of a line without an error answers
with its bytes; a single symbol's error is corrected and counted; an uncorrectable error of a line is entered (0x13) with its address, and the
line of a region of class M or E is restored, while one
of class U is poisoned, its loss entered (0x14), and answered DATA_LOST, as cause 0x0A; so is a read of a poisoned line, with no new
record. A write changes exactly its bytes.
Where the line's own channel cannot serve, an M region answers from the mirror, an E region from the other chunks and P, and a U line whose
channel is retired is answered DATA_LOST. A write to an M region whose mirror's channel is in ERROR goes to the primary alone. Before DINIT every
request is held. -/
def Obligations.DramServesReadsAndWrites : Prop :=
  ∀ (s : State) (r : Req) (p : Proc) (w : LdWait), s.fab.dramQ.find? (fun x => x.id == r.id) = some r → s.snap = none →
    (s.boot.dinit = false → exec (.dramRead r.id []) s = .next s ∧ exec (.dramWrite r.id) s = .next s) ∧
    (∀ x, s.fab.dramQ.find? (fun x => s.chanOf x.addr == s.chanOf r.addr) = some x → x.id ≠ r.id →
      exec (.dramRead r.id []) s = .next s ∧ exec (.dramWrite r.id) s = .next s) ∧
    (s.fab.dramQ.find? (fun x => s.chanOf x.addr == s.chanOf r.addr) = some r → s.dramHeld r = false → r.addr < 0x1000000000 →
      r.addr / 64 = (r.addr + r.len - 1) / 64 → 0 < r.len →
      let line := r.addr / 64 * 64
      let data := BitVec.ofNat 64 (leNat (memGetN s.mem r.addr r.len))
      let up (i : Nat) : Prop := s.subDown i = false
      let chunk : Prop := s.classAt line = .e → line ∈ (s.placeOf line).chunks line
      (r.write = false → r.org = .ld p → (s.seq p).ldWait = some w →
        let reads (t : State) (x : LdResp) : Prop := exec (.dramRead r.id []) s = .next t ∧ t.mem = s.mem ∧
          t.fab.dramQ = s.fab.dramQ.filter (fun x => x.id ≠ r.id) ∧ (t.seq p).ldWait = some { w with resp := some x }
        ((∀ i, i < 16 → up i) → chunk →
          (s.ecc = [] → ∃ t, reads t (.data data) ∧ t.saf.raised = s.saf.raised ∧ t.ecc = []) ∧
          (∀ k, s.ecc = [(line, .symbol k)] → ∃ t, reads t (.data data) ∧ t.ecc = [] ∧
            (t.dmc.ch[chanOfSub (s.subOf line)]).ce = satInc (s.dmc.ch[chanOfSub (s.subOf line)]).ce ∧ t.saf.raised = s.saf.raised) ∧
          (s.ecc = [(line, .hard)] → s.classAt line ≠ .u → ∃ t, reads t (.data data) ∧ t.ecc = [] ∧
            (t.dmc.ch[chanOfSub (s.subOf line)]).ue = satInc (s.dmc.ch[chanOfSub (s.subOf line)]).ue ∧ Raises s t 0x13 r.src line) ∧
          (s.ecc = [(line, .hard)] → s.classAt line = .u → ∃ t, reads t (.error 0x0A (BitVec.ofNat 64 r.addr)) ∧ t.ecc = [(line, .poison)] ∧
            ∃ x y, t.saf.raised = s.saf.raised ++ [x, y] ∧ x.cat = 0x13 ∧ x.info = BitVec.ofNat 48 line ∧ y.cat = 0x14 ∧
              ∀ k, s.regionIdx line = some k → y.info = BitVec.ofNat 48 k) ∧
          (s.ecc = [(line, .poison)] → ∃ t, reads t (.error 0x0A (BitVec.ofNat 64 r.addr)) ∧ t.ecc = s.ecc ∧ t.saf.raised = s.saf.raised)) ∧
        (s.ecc = [] → s.classAt line = .m → ¬ up (s.subOf line) → up (s.subOfKey (mirrorKey line)) →
          ∃ t, reads t (.data data) ∧ t.saf.raised = s.saf.raised ∧ t.ecc = []) ∧
        (s.ecc = [] → s.classAt line = .e → chunk → ¬ up (s.subOf line) → up ((s.placeOf line).parity false line) →
          (∀ c ∈ (s.placeOf line).chunks line, c ≠ line → up ((s.placeOf line).primary c)) →
          ∃ t, reads t (.data data) ∧ t.saf.raised = s.saf.raised ∧ t.ecc = []) ∧
        (s.ecc = [] → s.classAt line = .u → s.dmc.inserv.getLsbD (s.subOf line) = false →
          ∃ t, reads t (.error 0x0A (BitVec.ofNat 64 r.addr)) ∧ t.saf.raised = s.saf.raised ∧ t.ecc = [])) ∧
      (r.write = true → r.org = .st p → s.ecc = [] → r.data.length = r.len → Memory.wf s.mem = true →
        let writes (t : State) : Prop := exec (.dramWrite r.id) s = .next t ∧ (t.seq p).stAck = (s.seq p).stAck + 1 ∧
          t.fab.dramQ = s.fab.dramQ.filter (fun x => x.id ≠ r.id) ∧
          (∀ n, (h : n < r.data.length) → memGet t.mem (r.addr + n) = r.data[n]) ∧
          ∀ b, b < r.addr ∨ r.addr + r.len ≤ b → memGet t.mem b = memGet s.mem b
        ((∀ i, i < 16 → up i) → chunk → ∃ t, writes t ∧ t.ecc = []) ∧
        (s.classAt line = .m → up (s.subOf line) → ¬ up (s.subOfKey (mirrorKey line)) →
          ∃ t, writes t ∧ t.ecc = [(mirrorKey line, .hard)])))

/-- R286, R288, R294 to R302: a channel that runs is refreshed, which closes its open rows; its temperature status sets the refresh rate, and one above the operating range is
entered (0x51) and shown to the thermal manager; patrol scrub moves to the next copy on the channel and corrects it, and begins a pass again once
SCRUB_HOURS have gone by; an alert replays the buffer, and one during a
third replay in a row puts the channel in ERROR (0x50); a measured margin is recorded; a training step takes a window, that finds a
setting ends the retraining, and the 64th that finds none leaves the channel at its last good setting while the margins allow, else its bin
without one.
R298, R299, R301, R302, R304 to R308: the MP opens one window in the device at a time, for a change of frequency to a bin that works or for a soft
repair of a candidate row; an alert closes it with the timing set of before; the window's end lets the channel run, and a lower bin is a loss of
capacity (0x42). A channel in ERROR goes on at the highest bin that trains, or is left with none. A channel with no
bin is retired: its subchannels leave service, the epoch increments, and a re-placement is started. The copier moves one granule or stripe of the
next region; DINIT follows the DRAM stage. -/
def Obligations.DramChannelsAreKeptUp : Prop :=
  (∀ (s : State) (c : Fin 8), (s.dmc.ch[c]).state = .active →
    let x := s.dmc.ch[c]
    let bit : BitVec 8 := 1#8 <<< c.val
    let onlyCh := fun t : State => t.modCh c (fun _ => x) = s
    let window (t : State) (y : Channel) : Prop := t.dmc.ch[c] = { y with state := .maint, window := some (.retrain, x.set, x.bin), openRows := [] }
    (∃ t, exec (.dramRefresh ⟨2 * c.val, by omega⟩) s = .next t ∧ onlyCh t ∧ (t.dmc.ch[c]).refreshes = x.refreshes + 1 ∧
      { t.dmc.ch[c] with refreshes := x.refreshes, openRows := x.openRows } = x ∧ (s.dmc.refmode = true → (t.dmc.ch[c]).openRows = [])) ∧
    (∀ n : Fin 3, n ≠ 2 → ∃ t, exec (.dramTempPoll c n) s = .next t ∧ onlyCh { t with pwr := s.pwr } ∧
      t.dmc.ch[c] = { x with refrate := BitVec.ofNat 2 n.val } ∧ t.pwr = { s.pwr with dramHot := s.pwr.dramHot &&& ~~~bit }) ∧
    (∃ t, exec (.dramTempPoll c 2) s = .next t ∧ t.dmc.ch[c] = { x with refrate := 2 } ∧ Raises s t 0x51 0 c.val ∧
      t.pwr.dramHot = s.pwr.dramHot ||| bit) ∧
    (∀ a, s.boot.dinit = true → s.nextLine c 1024 x.scrubPos = some a → (∀ i, i < 16 → s.subDown i = false) →
      (s.classAt a = .e → a < 2 ^ 40 → a ∈ (s.placeOf a).chunks a) → ∃ t, exec (.patrolScrub c []) s = .next t ∧ t.mem = s.mem ∧
      (t.dmc.ch[c]).scrubPos = a + 64 ∧ (s.ecc = [] → onlyCh t ∧ t.ecc = []) ∧
      (∀ k, s.ecc = [(a, .symbol k)] → t.ecc = [] ∧ (t.dmc.ch[c]).ce = satInc x.ce)) ∧
    (s.boot.dinit = true → s.nextLine c 1024 x.scrubPos = none →
      (s.dmc.scrubHours.toNat * 3600000000000 ≤ (s.tim.dt - x.scrubDt).toNat → ∃ t, exec (.patrolScrub c []) s = .next t ∧ onlyCh t ∧
        t.dmc.ch[c] = { x with scrubPos := 0, scrubDt := s.tim.dt }) ∧
      ((s.tim.dt - x.scrubDt).toNat < s.dmc.scrubHours.toNat * 3600000000000 → exec (.patrolScrub c []) s = .next s)) ∧
    (x.window = none → ∀ again : Bool, (again = true → x.alerts < 2) → ∃ t, exec (.alertN c again) s = .next t ∧ onlyCh t ∧
      (t.dmc.ch[c]).replays = satInc x.replays ∧ (t.dmc.ch[c]).alerts = (if again then x.alerts + 1 else 0) ∧
      { t.dmc.ch[c] with replays := x.replays, alerts := x.alerts, openRows := x.openRows } = x) ∧
    (x.window = none → 2 ≤ x.alerts → ∃ t, exec (.alertN c true) s = .next t ∧ (t.dmc.ch[c]).state = .error ∧
      (t.dmc.ch[c]).replays = x.replays ∧ Raises s t 0x50 0 c.val) ∧
    (∀ rd wr ca corr : BitVec 8,
      let y := { x with mRd := rd, mWr := wr, mCa := ca }
      (x.keeps = false → ∃ t, exec (.marginMeasure c rd wr ca corr) s = .next t ∧ onlyCh t ∧
        t.dmc.ch[c] = { y with retrainDue := x.retrainDue || decide (8 < corr.toNat) }) ∧
      (x.keeps = true → s.marginOk y = true → ∃ t, exec (.marginMeasure c rd wr ca corr) s = .next t ∧ onlyCh t ∧
        (t.dmc.ch[c]).keeps = true ∧ (t.dmc.ch[c]).noBin = x.noBin) ∧
      (x.keeps = true → s.marginOk y = false → ∃ t, exec (.marginMeasure c rd wr ca corr) s = .next t ∧ onlyCh t ∧
        (t.dmc.ch[c]).keeps = false ∧ (t.dmc.ch[c]).noBin = x.noBin ||| (1#5 <<< x.bin.toNat))) ∧
    (∀ works : BitVec 5, x.retrainDue = true → s.mayOpen c = true →
      (works.getLsbD x.bin.toNat = true → ∃ t, exec (.channelRetrain c works) s = .next t ∧
        { t.dmc.ch[c] with stored := x.stored, shadow := x.shadow } =
          { x with state := .maint, window := some (.retrain, x.set, x.bin), openRows := [], retrainDue := false, keeps := false, steps := 0 } ∧
        (∃ v, (t.dmc.ch[c]).storedAt x.bin = some v) ∧ t.mem = s.mem ∧ t.prog = s.prog ∧ t.saf = s.saf) ∧
      (works.getLsbD x.bin.toNat = false → x.steps + 1 < 64 → ∃ t, exec (.channelRetrain c works) s = .next t ∧
        window t { x with steps := x.steps + 1 } ∧ t.mem = s.mem ∧ t.prog = s.prog) ∧
      (works.getLsbD x.bin.toNat = false → 64 ≤ x.steps + 1 →
        (s.marginOk x = true → ∃ t, exec (.channelRetrain c works) s = .next t ∧
          window t { x with retrainDue := false, steps := 0, keeps := true } ∧ t.mem = s.mem ∧ t.prog = s.prog) ∧
        (s.marginOk x = false → ∃ t, exec (.channelRetrain c works) s = .next t ∧
          window t { x with retrainDue := false, steps := 0, keeps := false, noBin := x.noBin ||| (1#5 <<< x.bin.toNat) } ∧
          t.mem = s.mem ∧ t.prog = s.prog)))) ∧
  (∀ (s : State) (c : Fin 8),
    let x := s.dmc.ch[c]
    let others := fun t : State => t.mem = s.mem ∧ t.prog = s.prog ∧ t.saf = s.saf ∧ ∀ d : Fin 8, d ≠ c → t.dmc.ch[d] = s.dmc.ch[d]
    ((∃ d : Fin 8, (s.dmc.ch[d]).window ≠ none) → s.mayOpen c = false) ∧
    (s.mayOpen c = false → ∀ (b : Fin 5) (row : Nat) (ok : Bool),
      exec (.frequencyChange c b ok) s = .next s ∧ exec (.softPpr c row ok) s = .next s) ∧
    (s.mayOpen c = true →
      (∀ b : Fin 5, b.val ≤ x.maxbin.toNat → x.noBin.getLsbD b.val = false → ∀ ok : Bool, ∃ t, exec (.frequencyChange c b ok) s = .next t ∧
        others t ∧ (t.dmc.ch[c]).state = .maint ∧ (t.dmc.ch[c]).window = some (.freq, x.set, x.bin) ∧ t.dmc.windowDt = some s.tim.dt ∧
        (ok = true → (t.dmc.ch[c]).set = (!x.set) ∧ (t.dmc.ch[c]).bin.toNat = b.val ∧ (t.dmc.ch[c]).noBin = x.noBin) ∧
        (ok = false → (t.dmc.ch[c]).set = x.set ∧ (t.dmc.ch[c]).bin = x.bin ∧ (t.dmc.ch[c]).noBin = x.noBin ||| (1#5 <<< b.val))) ∧
      (∀ row, row ∈ x.cands → s.ecc = [] → ∃ t, exec (.softPpr c row true) s = .next t ∧ others t ∧ (t.dmc.ch[c]).state = .maint ∧
        (t.dmc.ch[c]).window = some (.repair row, x.set, x.bin) ∧
        row ∉ (t.dmc.ch[c]).cands ∧ row ∈ (t.dmc.ch[c]).soft ∧ (t.dmc.ch[c]).sppr = satInc x.sppr) ∧
      (∀ row, row ∈ x.cands → ∃ t, exec (.softPpr c row false) s = .next t ∧ t.modCh c (fun _ => x) = s ∧
        (t.dmc.ch[c]).state = .active ∧ row ∉ (t.dmc.ch[c]).cands ∧ row ∈ (t.dmc.ch[c]).unrep)) ∧
    (∀ (k : WindowKind) (set : Bool) (old : BitVec 3), x.window = some (k, set, old) →
      (∃ t, exec (.maintWindowEnd c) s = .next t ∧
        (t.dmc.ch[c]).state = .active ∧ (t.dmc.ch[c]).window = none ∧ (t.dmc.ch[c]).bin = x.bin ∧ (t.dmc.ch[c]).lastBin = some x.bin ∧
        (x.bin.toNat < old.toNat → t.prog.epoch = s.prog.epoch + 1 ∧ Raises s t 0x42 0 (256 * 4 + c.val) ∧
          (t.dmc.ch[c]).stepdown = satInc x.stepdown) ∧
        (old.toNat ≤ x.bin.toNat → t.prog = s.prog ∧ t.saf = s.saf)) ∧
      (x.state = .maint → ∃ t, exec (.alertN c false) s = .next t ∧ others t ∧ (t.dmc.ch[c]).state = .active ∧ (t.dmc.ch[c]).window = none ∧
        (t.dmc.ch[c]).set = set ∧ (t.dmc.ch[c]).bin = old ∧ (t.dmc.ch[c]).replays = satInc x.replays ∧
        (k = .retrain → (t.dmc.ch[c]).retrainDue = true) ∧ (∀ row, k = .repair row → row ∈ (t.dmc.ch[c]).cands ∧ row ∉ (t.dmc.ch[c]).soft))) ∧
    (x.state = .error → s.pwr.mpAbsent = false → s.ecc = [] → ∀ works : BitVec 5,
      (∀ b, bestBin works x.bin.toNat = some b → ∃ t, exec (.channelRetrain c works) s = .next t ∧ (t.dmc.ch[c]).state = .active ∧
        (t.dmc.ch[c]).bin = BitVec.ofNat 3 b ∧ t.mem = s.mem ∧
        (b < x.bin.toNat → t.prog.epoch = s.prog.epoch + 1 ∧ Raises s t 0x42 0 (256 * 4 + c.val)) ∧ (b = x.bin.toNat → t.prog = s.prog)) ∧
      (bestBin works x.bin.toNat = none → ∃ t, exec (.channelRetrain c works) s = .next t ∧ t.modCh c (fun _ => x) = s ∧
        t.dmc.ch[c] = { x with noBin := 0x1F })) ∧
    (x.noneLeft = true → x.state = .active ∨ x.state = .error → ∃ t, exec (.channelRetire c) s = .next t ∧ (t.dmc.ch[c]).state = .retired ∧
      t.prog.epoch = s.prog.epoch + 1 ∧ t.mem = s.mem ∧
      (s.freeSlot = none → t.dmc.replaceDue = true) ∧
      (∀ k, s.freeSlot = some k → ∃ o, t.cmd.ops[k] = some o ∧ o.opcode = 0x15 ∧ o.internal = true ∧
        t.dmc.restripe = handleOf 0x15 s.cmd.nextSeq k) ∧
      (∀ i : Fin 16, t.dmc.inserv.getLsbD i.val = (s.dmc.inserv.getLsbD i.val && decide (i.val / 2 ≠ c.val)))) ∧
    (x.noneLeft = true → x.state = .active → s.prog.state = .running → s.prog.img.regions = [] → ∃ t, exec (.channelRetire c) s = .next t ∧
      t.prog.state = .readmitting ∧ Raises s t 0x42 0 (256 * 3 + c.val)) ∧
    (∀ (k : Fin 64) (o : LongOp) (i : Nat) (g : Region) (used : Nat), s.dmc.replaceDue = false → s.replaceRun = some (k, o) →
      s.pwr.mpAbsent = false → nextMove s.width 0 s.replaceOrder = some (i, g, used) → classPossible s.width g = true → used ≤ rawCapacity s →
      let a := g.base + (match g.segs with | (o, _) :: _ => o | [] => 0)
      (∀ x ∈ s.readUnits a (g.move s.width).2, s.readLine 0x107 x = s) →
      ∃ t, exec .copierMove s = .next t ∧ t.mem = s.mem ∧
        t.prog.img.regions = s.prog.img.regions.modify i (fun y => { y with segs := (g.move s.width).1.segs })) ∧
    (s.boot.stage = .dram ∨ s.boot.stage = .ready → ∃ t, exec .dramInitDone s = .next t ∧ t = s.modBoot fun b => { b with dinit := true }))

/-! ## Sensor intake, fusion, planner, check-value units -/

/-- R310, R312 to R317, R323, R329, R330, R337: a packet of a port that is ACTIVE or in RESYNC reaches the streams of its virtual channel: a frame start
begins a sample whose CAPTURE is DT less the port's fixed latency, a line joins it and a wrong CRC makes it corrupt, one that finds the
port's buffer full truncates it, and a frame end
completes it; a header that cannot be corrected makes the samples under way corrupt. After a loss the first packet starts a new
session in RESYNC. An Ethernet frame for no stream is counted as dropped; a datagram of a stream in service joins its sample, or begins
one with the capture DT that the stream's timestamp gives. A complete sample is judged, in Mode P in its partition's slots: a stale one and
a corrupt one are counted, and their open slots end ABSENT, or SUBSTITUTE where there is a last good output; a good one fills its takes and
becomes the last good one.
R311, R323, R324, R327, R328, R335, R337: a frame-set whose collection time has come closes and its group counts on; the decoder takes the
next access unit when the stream's tally covers one, and a decoded picture comes out as a complete sample with the capture DT of the access
unit that coded it; a written
take has its header stored and READY signalled, and an open take of a stream that STOP has put out of service first ends ABSENT (the model's
reading, log entry 120); a port with no valid packet for its loss time is LOST, its open slots ABSENT, and DOWN (0x60) when its
retry time ends; a canary that is due joins the queue of its check-value unit. -/
def Obligations.IntakeReceivesAndFillsSlots : Prop :=
  (∀ s : State, s.intakeOn = true →
    (∀ (p : Fin 4) (n : Fin 56) (vc : Fin 32) (ty : BitVec 6), n ∈ s.csiStreams p → (s.int.port[p]).state ≠ .off →
      let mine := u8 (s.strR n.val) 2 = vc.val
      let x := s.int.str[n]
      (∃ t, exec (.csi2Packet p { vc := vc, dt := ty, ecc := .bad, body := .frameEnd }) s = .next t ∧ t.tly = s.tly ∧ t.mem = s.mem ∧
        (t.int.str[n]).sample = x.sample.map (fun y => { y with corrupt := y.corrupt || y.complete.isNone })) ∧
      ((s.int.port[p]).state = .active ∨ (s.int.port[p]).state = .resync →
        (∃ t, exec (.csi2Packet p { vc := vc, dt := ty, ecc := .ok, body := .frameEnd }) s = .next t ∧
          (t.int.port[p]).lastValid = s.tim.dt ∧ t.tly = s.tly ∧ t.mem = s.mem ∧
          (t.int.str[n]).sample = if mine then x.sample.map (fun y => { y with complete := y.complete.or (some s.tim.dt) }) else x.sample) ∧
        (∀ y px ok full, x.sample = some y → y.complete = none → y.lines ≠ [] → mine → u8 (s.strR n.val) 3 = ty.toNat →
          ∃ t, exec (.csi2Packet p { vc := vc, dt := ty, ecc := .corrected, body := .line px ok full }) s = .next t ∧
            (t.int.str[n]).sample = some (if full then { y with corrupt := true }
              else { y with lines := y.lines ++ [px], corrupt := y.corrupt || !ok })) ∧
        (x.sample = none → mine → srGroup (s.strR n.val) < 8 →
          ∃ t y, exec (.csi2Packet p { vc := vc, dt := ty, ecc := .ok, body := .frameStart }) s = .next t ∧
            (t.int.str[n]).sample = some y ∧ y.capture = s.tim.dt - BitVec.ofNat 64 (u32 (s.portR p.val) 4) ∧
            y.complete = none ∧ y.lines = [] ∧ y.corrupt = false)) ∧
      ((s.int.port[p]).state = .lost ∨ (s.int.port[p]).state = .down →
        ∃ t, exec (.csi2Packet p { vc := vc, dt := ty, ecc := .ok, body := .frameEnd }) s = .next t ∧ (t.int.port[p]).state = .resync ∧
          (t.int.str[n]).state = .resync ∧ (t.int.str[n]).session = x.session + 1 ∧ (t.int.str[n]).sample = none ∧
          (t.int.port[p]).retryAt = some (s.tim.dt + BitVec.ofNat 64 (1000000 * u16 (s.portR p.val) 12)))) ∧
    (∀ (p : Fin 4) (f : EthFrame), f.gptp = false →
      let dest := streams56.find? fun n => 48 ≤ n.val && srKind (s.strR n.val) = 3 && srPort (s.strR n.val) = p.val &&
        u16 (s.strR n.val) 20 = f.dstPort && (s.int.str[n]).state ≠ .off
      (dest = none → ∃ t, exec (.ethFrameRx p f) s = .next t ∧ t.int = s.int ∧ t.ifc.ethDrop[p] = satInc (s.ifc.ethDrop[p])) ∧
      (∀ n, dest = some n → f.udp = true → f.checksumOk = true → (s.int.str[n]).state = .active →
        let r := s.strR n.val
        let x := s.int.str[n]
        let full (l : List Bytes) : Option (BitVec 64) := if u16 r 24 ≤ l.length then some s.tim.dt else none
        (∀ y, x.sample = some y → y.complete = none → ∃ t, exec (.ethFrameRx p f) s = .next t ∧
          t = s.modStr n fun z => { z with lastValid := s.tim.dt
                                           sample := some { y with pkts := y.pkts ++ [f.payload.take (u16 r 26)]
                                                                   corrupt := y.corrupt || decide (u16 r 26 < f.payload.length)
                                                                   complete := full (y.pkts ++ [f.payload.take (u16 r 26)]) } }) ∧
        (x.sample = none → srGroup r < 8 → ∃ t y, exec (.ethFrameRx p f) s = .next t ∧ (t.int.str[n]).lastValid = s.tim.dt ∧
          (t.int.str[n]).sample = some y ∧ y.pkts = [f.payload.take (u16 r 26)] ∧ y.complete = full y.pkts ∧
          y.corrupt = decide (u16 r 26 < f.payload.length) ∧ (y.capture, y.tsFallback) = s.ethCapture r f.payload))) ∧
    (∀ (n : Fin 56) (x : Sample) (d : BitVec 64), (s.int.str[n]).sample = some x → x.complete = some d → x.stepped = false →
      let left (t : State) (k : SlotTake) (v : Bool × Bool × Bool) : Prop :=
        ∃ k' ∈ (t.int.str[n]).takes, k'.variant = k.variant ∧ k'.slot = k.slot ∧ k'.ready = some v
      (s.inShare 0 (s.partOf (strSrc n)) = false → exec (.sampleComplete n) s = .next s) ∧
      (s.inShare 0 (s.partOf (strSrc n)) = true →
        (stale (s.strR n.val) x.capture d = true → ∃ t, exec (.sampleComplete n) s = .next t ∧
          (t.int.str[n]).sample = none ∧ (t.int.str[n]).stale = satInc (s.int.str[n]).stale ∧
          ∀ k ∈ (s.int.str[n]).takes, k.ready = none → left t k (false, true, x.tsFallback)) ∧
        (stale (s.strR n.val) x.capture d = false → x.bad (s.strR n.val) = true →
          ∃ t, exec (.sampleComplete n) s = .next t ∧ (t.int.str[n]).sample = none ∧
            (t.int.str[n]).corrupt = satInc (s.int.str[n]).corrupt ∧
            ∀ k ∈ (s.int.str[n]).takes, k.ready = none →
              match (s.int.str[n]).good.find? fun g => g.variant == k.variant with
              | none => left t k (false, true, x.tsFallback)
              | some g => left t k (true, false, g.tsFallback)) ∧
        (∀ k, stale (s.strR n.val) x.capture d = false → x.bad (s.strR n.val) = false → (s.int.str[n]).takes = [k] → k.ready = none →
          k.variant < srVariants (s.strR n.val) →
          ∃ t, exec (.sampleComplete n) s = .next t ∧ (t.int.str[n]).sample = none ∧
            (t.int.str[n]).takes = [{ k with ready := some (false, false, x.tsFallback), capture := x.capture, complete := d, srcframe := x.frameno }] ∧
            LastGood.mk k.variant x.capture d x.frameno x.tsFallback ∈ (t.int.str[n]).good)))) ∧
  (∀ s : State, s.intakeOn = true →
    (∀ (g : Fin 8) (c : BitVec 64), (s.int.grp[g]).closeAt = some c →
      (c.toNat ≤ s.tim.dt.toNat → ∃ t, exec (.framesetClose g) s = .next t ∧ (t.int.grp[g]).nextF = (s.int.grp[g]).nextF + 1 ∧
        (t.int.grp[g]).closeAt = none ∧ (t.int.grp[g]).joined = [] ∧ ∀ h, h ≠ g → t.int.grp[h] = s.int.grp[h]) ∧
      (s.tim.dt.toNat < c.toNat → exec (.framesetClose g) s = .next s)) ∧
    (∀ n : Fin 56, srKind (s.strR n.val) = 2 → (s.int.str[n]).state = .active → s.snap = none → tabWf Tally.off s.tly.tab = true →
      let h := u16 (s.strR n.val) 136
      (s.tally h).mode = .counting → (s.tally h).waiters = [] → s.homeAllowed (s.tally h) h 0x111 (s.partOf 0x111) false = true →
      ((s.tally h).count ≠ 0 → ∃ t u, exec (.bitstreamDescriptor n) s = .next t ∧
        (t.int.str[n]).decoding = (s.int.str[n]).decoding ++ [u] ∧ u.stepped = false ∧ (t.tally h).count.toNat + 1 = (s.tally h).count.toNat ∧
        (t.int.str[n]).bsNext = ((s.int.str[n]).bsNext + 1) % u16 (s.strR n.val) 138) ∧
      ((s.tally h).count = 0 → ∃ t, exec (.bitstreamDescriptor n) s = .next t ∧ t.int = s.int)) ∧
    (∀ (n : Fin 56) (pic : Picture) (u : DecUnit), (s.int.str[n]).state = .active → (s.int.str[n]).decoding[pic.unit]? = some u →
      (s.int.str[n]).sample = none → srGroup (s.strR n.val) < 8 → ∃ t y, exec (.decodeDone n pic) s = .next t ∧
        (t.int.str[n]).decoding = (s.int.str[n]).decoding.eraseIdx pic.unit ∧ (t.int.str[n]).sample = some y ∧ y.capture = u.capture ∧
        y.lines = pic.lines ∧ y.corrupt = (!pic.ok || !u.readable) ∧ y.stepped = u.stepped ∧ y.complete = some s.tim.dt) ∧
    (∀ (n : Fin 56) (k : SlotTake) (ks : List SlotTake) (v : Fin 8), (s.int.str[n]).takes = k :: ks → k.variant = v.val →
      let off := u32 (s.ringR (srRing (s.strR n.val))) 16 + 64 * k.slot
      let ready (t : State) (k : SlotTake) (sub absent fb : Bool) : Prop := (t.int.str[n]).takes = ks ∧
        Queued s t (srReady (s.strR n.val)) (.sig (srReady (s.strR n.val)) (strSrc n) (s.partOf (strSrc n)) 1 s.snap.isSome none) ∧
        (off + 64 ≤ 0x2000000 → s.fab.modeP = false → s.ecc = [] → Memory.wf s.mem = true →
          memGetN t.mem (hubBase + off) 64 = headerBytes n k sub absent fb s.tim.dt)
      (∀ sub absent fb, (s.int.str[n]).state ≠ .off → k.ready = some (sub, absent, fb) →
        ∃ t, exec (.slotReady n v) s = .next t ∧ ready t k sub absent fb) ∧
      ((s.int.str[n]).state = .off → k.ready = none → ks = [] →
        ∃ t, exec (.slotReady n v) s = .next t ∧ ready t { k with capture := 0, complete := 0, srcframe := 0 } false true false)) ∧
    (∀ p : Fin 4, let x := s.int.port[p]
      (x.state = .active → 1000 * u32 (s.portR p.val) 8 ≤ (s.tim.dt - x.lastValid).toNat → ∃ t, exec (.portLossTimeout (.csi p)) s = .next t ∧
        (t.int.port[p]).state = .lost ∧
        (t.int.port[p]).retryAt = some (s.tim.dt + BitVec.ofNat 64 (1000000 * u16 (s.portR p.val) 12)) ∧
        ∀ n ∈ s.csiStreams p, (t.int.str[n]).state = .lost ∧ (t.int.str[n]).sample = none ∧
          ∀ k ∈ (t.int.str[n]).takes, ∃ c b, k.ready = some (c, true, b)) ∧
      (∀ r, x.state = .lost → x.retryAt = some r → r.toNat ≤ s.tim.dt.toNat → (∀ n ∈ s.csiStreams p, (s.int.str[n]).takes = []) →
        ∃ t, exec (.portRetryTimeout (.csi p)) s = .next t ∧ (t.int.port[p]).state = .down ∧ (t.int.port[p]).retryAt = none ∧
          Raises s t 0x60 0x112 p.val)) ∧
    (∀ n : Fin 56, srKind (s.strR n.val) = 1 → srCanInt (s.strR n.val) ≠ 0 →
      ((s.int.str[n]).sinceCanary < srCanInt (s.strR n.val) → exec (.canary n) s = .next s) ∧
      (srCanInt (s.strR n.val) ≤ (s.int.str[n]).sinceCanary →
        (∀ u : Fin 4, (s.cvu[u]).cur ≠ none) → ∃ t, exec (.canary n) s = .next t ∧
          (t.int.str[n]).sinceCanary = (s.int.str[n]).sinceCanary - srCanInt (s.strR n.val) ∧
          ∃ u : Fin 4, u.val = u8 (s.strR n.val) 13 / 16 % 4 ∧ (t.cvu[u]).canaries = (s.cvu[u]).canaries ++ [n])))

/-- R344 to R347, R354: the wheel frame that the table names and an IMU read that is due are taken at DT, each with its value; with either
missing past its time the ego-motion is no longer valid, whether or not a program runs. A step moves the pose along the mean heading of its
0.5 ms, and joins the history of 2,048. A
cycle whose release is granted, in Mode P in its partition's slots, ends with its counter incremented and its output DT noted, and the
engine waits on its RELEASE home again; without a grant there is none. -/
def Obligations.FusionFollowsMotion : Prop :=
  (∀ s : State, s.fusionOn = true →
    let t0 := s.fusT
    (∀ (c : Fin 4) (f : CanFrame), c.val = u8 t0 20 → (s.ifc.can[c]).enabled = true → f.id = u32 t0 24 → f.ext = (u8 t0 21).testBit 0 →
      (∀ i, i < 4 → u8 t0 (28 + i) + 2 ≤ f.data.length) → ∃ t, exec (.wheelFrame c f) s = .next t ∧
        t.fus.wheel = (s.tim.dt, BitVec.ofNat 64 (wheelSpeed t0 f.data)) :: s.fus.wheel ∧ t.fus.hist = s.fus.hist ∧
        (t.fus.egoValid = true ↔ ∃ d, s.fus.imuDt = some d ∧ (s.tim.dt - d).toNat ≤ 1000000 * u16 t0 22)) ∧
    (∀ (c : Fin 4) (f : CanFrame), f.id ≠ u32 t0 24 → exec (.wheelFrame c f) s = .next s) ∧
    (∀ bytes : List Byte, bytes.length = u8 t0 39 → s.fus.imuNext.toNat ≤ s.tim.dt.toNat → 0 < u16 t0 36 →
      ∃ t v, exec (.imuRead bytes) s = .next t ∧ t.fus.yaw = s.fus.yaw ++ [(s.tim.dt, v)] ∧ t.fus.imuDt = some s.tim.dt ∧
      t.fus.wheel = s.fus.wheel ∧
      (let period := 1000 * u16 t0 36
       t.fus.imuNext = s.fus.imuNext + BitVec.ofNat 64 (((s.tim.dt.toNat - s.fus.imuNext.toNat) / period + 1) * period)) ∧
      (u8 t0 40 + 2 ≤ bytes.length →
        let d := (bytes.drop (u8 t0 40)).take 2
        v = BitVec.ofNat 64 (yawRate t0 (sgn 16 (leNat (if (u8 t0 41).testBit 0 then d.reverse else d)))))) ∧
    (∀ (e : EgoEntry) (l : List EgoEntry) (d v : BitVec 64), s.fus.hist = e :: l → s.fus.egoNext.toNat ≤ s.tim.dt.toNat →
      s.fus.wheel = [(d, v)] → d.toNat < s.fus.egoNext.toNat → s.fus.yaw = [] →
      let len := dQuot 1 2000
      let turn := dMul e.om.toNat len
      let mid := dAdd e.psi.toNat (dMul e.om.toNat (dDiv len (dInt 2)))
      let dist := dMul v.toNat len
      ∃ t, exec .egoStep s = .next t ∧ t.fus.egoNext = s.fus.egoNext + 500000 ∧ t.fus.hist = (EgoEntry.mk s.fus.egoNext
        (BitVec.ofNat 64 (dAdd e.x.toNat (dMul dist (dCos mid)))) (BitVec.ofNat 64 (dAdd e.y.toNat (dMul dist (dSin mid))))
        (BitVec.ofNat 64 (dAdd e.psi.toNat turn)) v e.om :: e :: l).take 2048 ∧ t.mem = s.mem ∧ t.tly = s.tly) ∧
    (∀ d, s.fus.startDt = some d →
      (s.inShare 1 (s.partOf 0x120) = true → ∃ t, exec .fusionCycle s = .next t ∧ t.fus.startDt = none ∧ t.fus.cycle = s.fus.cycle + 1 ∧
        t.fus.tprev = BitVec.ofNat 64 (d.toNat + 1000 * u32 t0 16) ∧
        ∀ k, t.fusTask = some k → ∃ w, t.fus.wait = some w ∧ w.home = k.release ∧ w.outcome = .pending) ∧
      (s.inShare 1 (s.partOf 0x120) = false → exec .fusionCycle s = .next s)) ∧
    (s.fus.startDt = none → exec .fusionCycle s = .next s)) ∧
  (∀ s : State, s.pwr.thermtrip = false → s.fus.egoValid = true →
    let late (d : BitVec 64) : Prop := 1000000 * u16 s.fusT 22 < (s.tim.dt - d).toNat
    ((∃ d v l, s.fus.wheel = (d, v) :: l ∧ late d) ∨ s.fus.wheel = [] ∨ (∃ d, s.fus.imuDt = some d ∧ late d) ∨ s.fus.imuDt = none →
      ∃ t, exec .egoTimeout s = .next t ∧ t = s.modFus fun f => { f with egoValid := false }) ∧
    (∀ d v l c, s.fus.wheel = (d, v) :: l → s.fus.imuDt = some c → ¬ late d → ¬ late c → exec .egoTimeout s = .next s))

/-- R367, R374, R376, R377, R381 to R386: a granted cycle, in Mode P in its partition's slots, commits one refuge with the next SEQ, at the DT of
the grant, and signals it; a query that is not right is
answered with the refuge and entered (0x62), and so, with no search, is one that finds the refuge released, the engine in A3 or no grid; one
whose start is a goal is answered with a path, and one that finds no goal within its pops
waits for the end of its budget, when the refuge answers it; one whose refuge was released meanwhile is answered at the next
QUERY_BUDGET_EXPIRY (the model's reading, log entry 123). Each answer is stored at the query's address with its STATUS, and DONEQ is
signalled. A poll of QREADY that is granted hands the planner the next query; one that is not is made again 250 ns later; a release since
the cycle's own ends the loop, and the planner waits for its next cycle. -/
def Obligations.PlannerServesQueries : Prop :=
  ∀ s : State, s.plannerOn = true →
    let sig (h : Nat) : TallyOp := .sig h 0x121 (s.partOf 0x121) 1 s.snap.isSome none
    let clear : Prop := s.ecc = [] ∧ Memory.wf s.mem = true ∧ s.snap = none
    let answered (t : State) (q : Query) (status : Byte) : Prop := t.pln.query = none ∧
      (s.pln.relSince = false → homeOk (u16 q.record 20) = true → Queued s t (u16 q.record 20) (sig (u16 q.record 20))) ∧
      (clear → engCheck s 0x121 (s.partOf 0x121) (hubBase + u32 q.record 24) 1088 true = (s, .ok (.hubStore (u32 q.record 24))) →
        memGet t.mem (hubBase + u32 q.record 24 + 4) = status)
    let refuge (t : State) (q : Query) (status : Byte) : Prop :=
      answered t q status ∧ t.pln.refuge = satInc s.pln.refuge ∧ t.pln.paths = s.pln.paths
    (∀ tp, s.pln.granted = some tp →
      (s.inShare 2 (s.partOf 0x121) = true → ∃ t, exec .plannerCycle s = .next t ∧ t.pln.granted = none ∧ t.pln.tp = tp ∧
        t.pln.seq = s.pln.seq + 1 ∧ t.pln.query = s.pln.query ∧
        (s.pln.relSince = false → ∃ l, (t.tly.queue)[islandOf (u16 s.plnT 24)] = l ++ [sig (u16 s.plnT 24)])) ∧
      (s.inShare 2 (s.partOf 0x121) = false → exec .plannerCycle s = .next s)) ∧
    (s.pln.granted = none → exec .plannerCycle s = .next s) ∧
    (∀ (q : Query) (pops : Nat), s.pln.query = some q → q.searched = false →
      (queryOk q.record = false → ∃ t r, exec (.queryServe pops) s = .next t ∧ refuge t q (if s.pln.released then 4 else 3) ∧
        r ∈ t.saf.raised ∧ r.cat = 0x62) ∧
      (queryOk q.record = true → s.pln.released = true ∨ s.pln.a3 = true ∨ s.pln.grid = none → ∃ t, exec (.queryServe pops) s = .next t ∧
        refuge t q (if s.pln.released then 4 else 3)) ∧
      (queryOk q.record = true → s.pln.released = false → s.pln.a3 = false → s.pln.grid ≠ none →
        (1 ≤ pops → isGoal q.record (startNode s.pln) = true → ∃ t, exec (.queryServe pops) s = .next t ∧ answered t q 0 ∧
          t.pln.paths = satInc s.pln.paths ∧ t.pln.refuge = s.pln.refuge) ∧
        (pops = 0 → ∃ t, exec (.queryServe pops) s = .next t ∧ t.pln.query = some { q with searched := true, popped := 0 } ∧
          t.tly = s.tly ∧ t.mem = s.mem))) ∧
    (∀ q : Query, s.pln.query = some q → q.searched = true →
      (q.released = true → ∃ t, exec .queryBudgetExpiry s = .next t ∧ refuge t q 4) ∧
      (q.released = false → u32 q.record 12 ≤ (s.tim.dt - q.tq).toNat → ∃ t, exec .queryBudgetExpiry s = .next t ∧ refuge t q 1) ∧
      (q.released = false → (s.tim.dt - q.tq).toNat < u32 q.record 12 → exec .queryBudgetExpiry s = .next s)) ∧
    (∀ d, s.pln.idle = some d → s.inLoop = true →
      ((s.tim.dt - d).toNat < 250 → exec .plannerIdlePoll s = .next s) ∧
      (250 ≤ (s.tim.dt - d).toNat → s.pln.relSince = true → s.pln.query = none →
        (s.modPln fun p => { p with task := p.task + 1 }).plnTask ≠ none → ∃ t, exec .plannerIdlePoll s = .next t ∧
        t.pln.running = false ∧ t.pln.relSince = false ∧ t.pln.idle = none ∧ t.pln.query = none ∧ t.pln.task = s.pln.task + 1 ∧
        (∀ k, t.plnTask = some k → ∃ w, t.pln.wait = some w ∧ w.home = k.release ∧ w.outcome = .pending)) ∧
      (250 ≤ (s.tim.dt - d).toNat → s.pln.relSince = false → s.snap = none → tabWf Tally.off s.tly.tab = true →
        let h := u16 s.plnT 26
        (s.tally h).mode = .counting → (s.tally h).waiters = [] → s.homeAllowed (s.tally h) h 0x121 (s.partOf 0x121) false = true →
        ((s.tally h).count ≠ 0 → ∃ t q, exec .plannerIdlePoll s = .next t ∧ t.pln.query = some q ∧ q.tq = s.tim.dt ∧ q.searched = false ∧
          t.pln.idle = none ∧ t.pln.qNext = (s.pln.qNext + 1) % u16 s.plnT 30) ∧
        ((s.tally h).count = 0 → ∃ t, exec .plannerIdlePoll s = .next t ∧ t.pln.query = s.pln.query ∧ t.pln.idle = some s.tim.dt)))

/-- R419, R423 to R428: CHECKSCAN with a right descriptor is accepted; a unit takes the job whose START is granted when it is free; the scan
that has read its range compares under its mode, keeps its status and value, counts a mismatch and a suspect reference, and signals DONE; a
host scan writes its record and ends with the status and the value; at a 64 KB
boundary a host scan that is CANCELLING ends CANCELLED, one that is SUSPENDING is SUSPENDED, and one that is RUNNING goes on when the unit
has no other work. -/
def Obligations.CheckUnitsScan : Prop :=
  (∀ (s : State) (q : Fin 16) (e : CmdEntry) (k : Fin 64), Served s q e → e.opcode = 0x11 → e.hostmem = true →
    (e.p[1]).toNat % 32 = 0 → (e.p[2]).toNat ≤ 3 →
    let d := s.hostGet (e.p[0]).toNat 64
    (scanOk s d = true → s.freeSlot = some k → ∃ t, exec (.checkscan q) s = .next t ∧ Accepts s t q e k ∧ OnlyCmd s t ∧
      (t.cmd.ops[k]).map (·.desc) = some d) ∧
    (scanOk s d = false → ∃ t, exec (.checkscan q) s = .next t ∧ Completes s t q e 0x09 0 0 ∧ OnlyCmd s t)) ∧
  (∀ (s : State) (u : Fin 4) (j : Fin 256), s.prog.img.chk ≠ [] → j.val < chkNjob s.prog.img.chk → s.progOn = true → s.pwr.thermtrip = false →
    u8 (chkJob s.prog.img.chk j.val) 64 = u.val → (s.cvu[u]).cur = none → (s.cvu[u]).canaries = [] → (s.cvu[u]).jobs = [] →
    s.inShare 3 (s.scanPart u (.job j)) = true → s.snap = none → tabWf Tally.off s.tly.tab = true →
    let h := u16 (chkJob s.prog.img.chk j.val) 66
    (s.tally h).mode = .counting → (s.tally h).waiters = [] → (s.tally h).count ≠ 0 →
    s.homeAllowed (s.tally h) h (cvuSrc u) (s.scanPart u (.job j)) false = true →
    ∃ t, exec (.checkJobStart u j) s = .next t ∧ (t.cvu[u]).cur = some (jobScan s.prog.img.chk j) ∧ (t.cvu[u]).jobs = [] ∧
      (t.cvu[u]).job = BitVec.ofNat 9 j.val ∧ (t.tally h).count.toNat + 1 = (s.tally h).count.toNat) ∧
  (∀ (s : State) (u : Fin 4) (x y : Scan) (a b : Option Nat) (eA eB : Bool), (s.cvu[u]).cur = some x → s.pwr.thermtrip = false →
    x.fold u (scanLen x.desc - x.pos) s = (s, .ok y) → y.desc = x.desc → y.kind = x.kind → y.hostmem = x.hostmem → y.result = x.result →
    let m := scanMode x.desc
    (2 ≤ m → readRef s u (s.scanPart u x.kind) (scanRef x.desc 0) .clean = (s, a, eA)) →
    (m = 3 → readRef s u (s.scanPart u x.kind) (scanRef x.desc 1) .clean = (s, b, eB)) →
    let v := crcOut (scanParam x.desc) y.crc.toNat
    let status : BitVec 8 :=
      if m = 0 then 0x00
      else if m = 1 then (if v = scanRef x.desc 0 then 0x00 else 0x05)
      else if m = 2 then (if a = some v then 0x00 else 0x05)
      else if a = some v ∧ b = some v then 0x00 else if a = some v ∨ b = some v then 0x06 else 0x05
    let suspect : Prop := (m = 2 ∧ a ≠ some v ∧ eA = true) ∨
      (m = 3 ∧ ¬ (a = some v ∧ b = some v) ∧ (a = some v ∨ b = some v ∨ a = none ∨ b = none ∨ a ≠ b ∨ eA = true ∨ eB = true))
    let kept (t : State) : Prop := (t.cvu[u]).value = BitVec.ofNat 64 v ∧ (t.cvu[u]).lastst = status ∧
      (t.cvu[u]).mism = (if status = 0x05 then satInc (s.cvu[u]).mism else (s.cvu[u]).mism) ∧
      (suspect → (t.cvu[u]).susp = satInc (s.cvu[u]).susp) ∧ (¬ suspect → (t.cvu[u]).susp = (s.cvu[u]).susp)
    (∀ j, x.kind = .job j →
      let h := u16 (chkJob s.prog.img.chk j.val) 68
      ∃ t, exec (.scanEnd u .clean .clean) s = .next t ∧ kept t ∧
        Queued s t h (.sig h (cvuSrc u) (s.scanPart u x.kind) 1 s.snap.isSome none)) ∧
    (∀ (k : Fin 64) (o : LongOp), x.kind = .host k → x.hostmem = true → scanLen x.desc - x.pos ≤ x.step → s.cmd.ops[k] = some o →
      o.state = .running → o.lost = false → Memory.wf s.hostMem = true →
      ∃ t p, exec (.scanEnd u .clean .clean) s = .next t ∧ kept t ∧ t.cmd.ops[k] = some p ∧ p.state = .done ∧
        p.result = some (status, BitVec.ofNat 32 v, BitVec.ofNat 32 (v / 2 ^ 32)) ∧
        memGetN t.hostMem x.result 8 = natLe 8 v ∧ memGet t.hostMem (x.result + 25) = status)) ∧
  (∀ (s : State) (u : Fin 4) (x y : Scan) (k : Fin 64) (o : LongOp), (s.cvu[u]).cur = some x → x.kind = .host k → y.kind = x.kind →
    s.pwr.thermtrip = false → x.step < scanLen x.desc - x.pos → x.fold u x.step s = (s, .ok y) →
    s.cmd.ops[k] = some o →
    (o.state = .cancelling → ∃ t p, exec (.checkscanSuspendPoint u) s = .next t ∧ t.cmd.ops[k] = some p ∧ p.state = .cancelled) ∧
    (o.state = .suspending → ∃ t p, exec (.checkscanSuspendPoint u) s = .next t ∧ t.cmd.ops[k] = some p ∧ p.state = .suspended ∧
      p.progress = y.pos) ∧
    (o.state = .running → (s.cvu[u]).canaries = [] → (s.cvu[u]).jobs = [] → ∃ t, exec (.checkscanSuspendPoint u) s = .next t ∧
      (t.cvu[u]).cur = some y))

/-! ## Deputies and the aggregated error state -/

/-- R396 to R398, R402, R403, R409: a deputy that starts with a right image in boot flash runs its program at ENTRY; without one it is held out
of READY and tries again 100 ms later; a failed test, a fault, a lockstep mismatch and the watchdog leave it FAULTED with its pin
low and its program stopped; 100 µs without a heartbeat is the loss of the hub, on which it releases.
R408, R412, R413, R456: a lockstep mismatch of the MP is entered (0x01) and restarts it with its private SRAM lost; a lamp check that fails is
entered (0x03), and leaves the MP unprotected and a deputy FAULTED; the test of the aggregator enters a record (0xFE), and a pin that
reads back wrong is entered (0x0B); a test that passes changes nothing else. -/
def Obligations.DeputiesStartAndFault : Prop :=
  ∀ (s : State) (d : Fin 2),
    let x := s.deps[d]
    let h := memGetN s.flash (depImageBase d) 128
    let body := memGetN s.flash (depImageBase d + 128) (min (u32 h 4) 1048576 - 128)
    let loads := fun t : State => (t.deps[d]).loaded = true ∧ (t.deps[d]).imgBad = false ∧ (t.deps[d]).seq.run = .running ∧
      (t.deps[d]).seq.pc = BitVec.ofNat 64 (u32 h 12) ∧ (t.deps[d]).wdtKey = 0x5A ∧ (t.deps[d]).wdtRun = true ∧
      (t.deps[d]).wdtTimeout = BitVec.ofNat 17 (u32 h 16)
    let faulted := fun t : State => (t.deps[d]).state = .faulted ∧ (t.deps[d]).pinHigh = false ∧ (t.deps[d]).seq.run = .faulted ∧
      t.mem = s.mem ∧ ∀ e, e ≠ d → t.deps[e] = s.deps[e]
    (x.state = .starting → x.operational = false → x.railOk = true → x.rstLow = false →
      (s.hubAlive = true → depImageOk h body = true → ∃ t, exec (.deputyStart d true) s = .next t ∧ (t.deps[d]).operational = true ∧
        (t.deps[d]).safeLow = false ∧ (t.deps[d]).state = .starting ∧ loads t) ∧
      (depImageOk h body = false → ∃ t, exec (.deputyStart d true) s = .next t ∧ (t.deps[d]).operational = true ∧
        (t.deps[d]).loaded = x.loaded ∧ (t.deps[d]).imgBad = true) ∧
      (∃ t, exec (.deputyStart d false) s = .next t ∧ faulted t)) ∧
    (x.alive = true → x.loaded = false → x.imgBad = true →
      (100000000 ≤ (x.ownDt - x.imgTry).toNat → s.hubAlive = true → depImageOk h body = true →
        ∃ t, exec (.deputyImageRetry d) s = .next t ∧ loads t) ∧
      ((x.ownDt - x.imgTry).toNat < 100000000 → exec (.deputyImageRetry d) s = .next s)) ∧
    (x.alive = true →
      (∀ cause, ∃ t, exec (.deputyFaulted d cause) s = .next t ∧ faulted t) ∧
      (∃ t, exec (.lockstepMismatch (.dep d)) s = .next t ∧ faulted t) ∧
      (x.wdtRun = true →
        (1000 * x.wdtTimeout.toNat ≤ (x.ownDt - x.wdtSince).toNat → ∃ t, exec (.deputyWatchdogExpiry d) s = .next t ∧ faulted t) ∧
        ((x.ownDt - x.wdtSince).toNat < 1000 * x.wdtTimeout.toNat → exec (.deputyWatchdogExpiry d) s = .next s)) ∧
      (x.hubLost = false →
        (100000 ≤ (x.ownDt - x.hbAt).toNat → ∃ t, exec (.hubLost d) s = .next t ∧ (t.deps[d]).hubLost = true ∧ (t.deps[d]).rel = true ∧
          (t.deps[d]).pinHigh = false ∧ t.saf.raised = s.saf.raised ∧ (x.rel = false → (t.deps[d]).safeLow = true)) ∧
        ((x.ownDt - x.hbAt).toNat < 100000 → exec (.hubLost d) s = .next s))) ∧
    (s.mpGone = false → ∃ t, exec (.lockstepMismatch .mp) s = .next t ∧ t.pwr.mpAbsent = true ∧ Raises s t 0x01 0x100 0 ∧ t.mpSram = []) ∧
    (s.mpGone = false → (∃ t, exec (.latentFaultTest .lampMp false) s = .next t ∧ Raises s t 0x03 0x100 0 ∧ t.saf.mpUnprot = true) ∧
      (∀ b, ∃ t, exec (.latentFaultTest .aggregator b) s = .next t ∧ Raises s t 0xFE 0x100 0 ∧ t.deps = s.deps)) ∧
    (x.alive = true → (∃ t, exec (.latentFaultTest (.lampDep d) false) s = .next t ∧ faulted t) ∧
      (x.hubLost = false → ∃ t r, exec (.latentFaultTest (.pinReadback d) false) s = .next t ∧ t.saf.raised = s.saf.raised ++ [r] ∧
        r.cat = 0x0B ∧ (t.deps[d]).pinHigh = false ∧ t.mem = s.mem)) ∧
    (∀ k : LatentTest, k ≠ .aggregator → exec (.latentFaultTest k true) s = .next s)

/-- R394, R395, R398, R401, R404, R405, R407, R565: what a deputy's running program does by its system registers: the right watchdog key restarts
the count and inverts, a wrong one faults; a report is entered under its category, or under 0x7F; a fetch command is refused with a code, or
starts, and the observer fetch copies the bytes of the hub's memory and keeps their CRC, or ends with 0x04 while the hub is down; REL
releases and is seen by the planner; READY makes the deputy READY, after which ERRCLR raises the pin; DBG_EN is entered (0x0A); PINTEST
pulses the pin low for 20 µs, and a pulse that reads back wrong is entered (0x0B); while released, the refuge is transmitted. -/
def Obligations.DeputyProgramsControl : Prop :=
  ∀ (s : State) (d : Fin 2) (v : BitVec 64),
    let x := s.deps[d]
    let len := v.toNat / 2 ^ 32 % 2 ^ 21
    let dst := v.toNat % 2 ^ 21
    x.runs = true →
    (x.wdtRun = true → (v >>> 24).setWidth 8 = x.wdtKey → ∃ t, exec (.dwdt d v) s = .next t ∧ (t.deps[d]).wdtKey = ~~~x.wdtKey ∧
      (t.deps[d]).wdtSince = x.ownDt ∧ (t.deps[d]).state = x.state ∧
      (t.deps[d]).wdtTimeout.toNat = if 100 ≤ v.toNat % 2 ^ 17 ∧ v.toNat % 2 ^ 17 ≤ 100000 then v.toNat % 2 ^ 17 else x.wdtTimeout.toNat) ∧
    (x.wdtRun = true → (v >>> 24).setWidth 8 ≠ x.wdtKey → ∃ t, exec (.dwdt d v) s = .next t ∧ (t.deps[d]).state = .faulted) ∧
    (x.hubLost = false → ∃ t r, exec (.dreport d v) s = .next t ∧ t.saf.raised = s.saf.raised ++ [r] ∧
      r.cat.toNat = (if 0x70 ≤ v.toNat / 2 ^ 56 ∧ v.toNat / 2 ^ 56 ≤ 0x7F then v.toNat / 2 ^ 56 else 0x7F) ∧ r.info.toNat = v.toNat % 2 ^ 48 ∧
      r.origin.toNat = d.val + 1) ∧
    (x.dfBusy = true → ∃ t, exec (.dfcmd d v) s = .next t ∧ t.deps[d] = { x with dfOvr := true }) ∧
    (x.dfBusy = false → v.toNat / 2 ^ 53 = 0 → v.toNat / 2 ^ 21 % 2 ^ 11 = 0 → len % 64 = 0 → 64 ≤ len → len ≤ 1048576 → dst % 64 = 0 →
      x.imgLen ≤ dst → dst + len ≤ 0x1FF000 →
      ∃ t, exec (.dfcmd d v) s = .next t ∧ t.deps[d] = { x with dfOvr := false, dfBusy := true, fetch := some (x.dfsrc.toNat, len, dst) }) ∧
    (x.dfBusy = false → len % 64 ≠ 0 ∨ len < 64 ∨ dst % 64 ≠ 0 → ∃ t, exec (.dfcmd d v) s = .next t ∧
      t.deps[d] = { x with dfOvr := false, dfCode := 0x05 }) ∧
    (∀ src n a, x.fetch = some (src, n, a) →
      (∃ t, exec (.observerFetchDone d) s = .next t ∧ (t.deps[d]).dfBusy = false ∧ (t.deps[d]).fetch = none ∧
        (s.hubAlive = false → (t.deps[d]).dfCode = 0x04)) ∧
      (∀ off, s.hubAlive = true → src = hubBase + off → n % 64 = 0 → 0 < n → off % 64 = 0 → off + n ≤ 0x2000000 → a % 64 = 0 → a + n ≤ sramSize →
        s.ecc = [] → x.ecc = [] →
        Memory.wf x.sram = true → ∃ t, exec (.observerFetchDone d) s = .next t ∧ (t.deps[d]).dfCode = 0 ∧ t.mem = s.mem ∧
          (∀ i, i < n → memGet (t.deps[d]).sram (a + i) = memGet s.mem (hubBase + off + i)) ∧
          (t.deps[d]).dfCrc = BitVec.ofNat 32 (crc32c (memGetN s.mem (hubBase + off) n)))) ∧
    (∀ b, x.rel ≠ b → x.hubLost = false → ∃ t, exec (.dctrlRel d b) s = .next t ∧ (t.deps[d]).rel = b ∧ (t.deps[d]).safeLow = b ∧
      t.pln.released = (t.saf.rela || t.saf.relb) ∧ t.saf.safereq = ((t.deps[(0 : Fin 2)]).safeLow || (t.deps[(1 : Fin 2)]).safeLow)) ∧
    (x.state = .starting → x.hubLost = false → ∃ t, exec (.dctrlReady d) s = .next t ∧ t.deps[d] = { x with ready := true, state := .ready }) ∧
    (x.dbgEn = false → x.hubLost = false → ∃ t r, exec (.dctrlDbgEn d) s = .next t ∧ (t.deps[d]).dbgEn = true ∧ (t.deps[d]).pinHigh = false ∧
      t.saf.raised = s.saf.raised ++ [r] ∧ r.cat = 0x0A) ∧
    (∃ t, exec (.dctrlErrclr d) s = .next t ∧ (t.deps[d]).pinCause = false ∧
      (t.deps[d]).pinHigh = (x.pinHigh || (x.ready && !x.latched && !x.imgBad))) ∧
    (x.pinHigh = true → x.pinTest = none → ∃ t, exec (.dctrlPintest d) s = .next t ∧ t.deps[d] = { x with pinTest := some (x.ownDt + 20000) }) ∧
    (x.pinHigh = false → exec (.dctrlPintest d) s = .next s) ∧
    (∀ e, x.pinTest = some e → e.toNat ≤ x.ownDt.toNat + 2000 → ∃ t, exec (.pintestEnd d true) s = .next t ∧
      t.deps[d] = { x with pinTest := none } ∧ t.saf.raised = s.saf.raised) ∧
    (∀ e, x.pinTest = some e → e.toNat ≤ x.ownDt.toNat + 2000 → x.hubLost = false → ∃ t r, exec (.pintestEnd d false) s = .next t ∧
      (t.deps[d]).pinTest = none ∧ t.saf.raised = s.saf.raised ++ [r] ∧ r.cat = 0x0B) ∧
    (∀ e, x.rel = true → x.nextTx = some e → e.toNat ≤ x.ownDt.toNat → ∃ t fs, exec (.refugeTransmission d) s = .next t ∧ fs ≠ [] ∧
      (t.deps[d]).canTx = fs ++ x.canTx ∧ (t.deps[d]).nextTx = some (x.ownDt + BitVec.ofNat 64 (1000000 * x.rpt.toNat)) ∧ t.mem = s.mem)

/-- R399 to R403, R408, R410, R415: the oldest record, of several of one cycle that of the lowest category and then source, enters the log at the
next index and is counted, and goes to the deputies but the one it comes from; a deputy that is
operational enters it in its copy and takes at least the reaction of its category: 0x09, 0x33 and 0x43 release, 0x44 lowers the
pin; heartbeats carry the device time to the deputies and their state to the hub, and a deputy silent for 100 µs is lost (0x08). The
replay of a debug action takes the oldest of its buffer. -/
def Obligations.ErrorsReachTheDeputies : Prop :=
  ∀ s : State,
    (∀ i r, nextRaised s.saf.raised = some (i, r) → s.hubAlive = true → ∃ t, exec .errorRecord s = .next t ∧
      t.saf.raised = s.saf.raised.eraseIdx i ∧
      t.saf.log = s.saf.log.set s.saf.next.toFin r ∧ t.saf.next = s.saf.next + 1 ∧ t.saf.entered = s.saf.entered + 1 ∧
      (∀ d : Fin 2, (t.deps[d]).inbox = if r.origin.toNat = d.val + 1 then (s.deps[d]).inbox else (s.deps[d]).inbox ++ [r])) ∧
    (∀ (d : Fin 2) (r : ErrRec) (rs : List ErrRec), (s.deps[d]).inbox = r :: rs → (s.deps[d]).alive = true → r.origin.toNat ≠ d.val + 1 →
      ∃ t, exec (.deputyErrorReaction d) s = .next t ∧ (t.deps[d]).inbox = rs ∧ (t.deps[d]).logNext = (s.deps[d]).logNext + 1 ∧
        t.mem = s.mem ∧ (∀ e, e ≠ d → (t.deps[e]) = s.deps[e]) ∧
        (r.cat ∈ [0x03#8, 0x0A#8, 0x0B#8, 0x30#8, 0x31#8, 0x32#8, 0x44#8, 0x70#8] → (t.deps[d]).pinHigh = false ∧ (t.deps[d]).pinCause = true) ∧
        (r.cat ∈ [0x09#8, 0x33#8, 0x43#8] → (t.deps[d]).pinHigh = false ∧ (t.deps[d]).rel = true)) ∧
    (s.hubAlive = true → ∃ t, exec (.hubHeartbeat true true) s = .next t ∧ t.saf.hbSeq = s.saf.hbSeq + 1 ∧ t.mem = s.mem ∧
      (∀ d : Fin 2, (s.deps[d]).hubLost = false → (s.deps[d]).state ≠ .reset → (s.deps[d]).hbSeq ≠ s.saf.hbSeq + 1 →
        (t.deps[d]).ownDt = s.tim.dt ∧ (t.deps[d]).hbAt = s.tim.dt ∧ (t.deps[d]).hbSeq = s.saf.hbSeq + 1)) ∧
    (∀ d : Fin 2, s.hubAlive = true → (s.deps[d]).alive = true → (s.deps[d]).hubLost = false → ∃ t, exec (.deputyHeartbeat d) s = .next t ∧
      t.saf.depHb[d] = some s.tim.dt ∧ (d = 0 → t.saf.rela = (s.deps[d]).rel) ∧ (d = 1 → t.saf.relb = (s.deps[d]).rel) ∧ t.deps = s.deps) ∧
    (∀ (d : Fin 2) (e : BitVec 64), s.hubAlive = true → s.saf.depHb[d] = some e →
      (100000 ≤ (s.tim.dt - e).toNat → ∃ t, exec (.deputyLost d) s = .next t ∧ t.saf.depHb[d] = none ∧ t.saf.degraded = true ∧
        Raises s t 0x08 (BitVec.ofNat 12 (0x102 + d.val)) d.val) ∧
      ((s.tim.dt - e).toNat < 100000 → exec (.deputyLost d) s = .next s)) ∧
    (∀ (a : RunAction) (as : List RunAction), s.dbg.replay = a :: as → ∃ t, exec (.debugActionReplay .mp) s = .next t ∧ t.dbg.replay = as ∧
      t.mp = s.mp) ∧
    (∀ d : Fin 2, ∃ t, exec (.debugActionReplay (.dep d)) s = .next t ∧ (t.deps[d]) = { s.deps[d] with replay := (s.deps[d]).replay.drop 1 })

/-! ## Power, monitors, thermal management, the MP, wear -/

/-- R432, R434, R436, R440, R441 to R443, R450, R458: where the forecast of the MP stays below the limit its request raises a die one tier when
every condition holds, and is counted as denied otherwise; the MP makes none where it does not. A die goes down one tier on request. A change ends when the tiles of a relocked die, settled on a raise, have switched eight at a
time. The governor averages its last ten estimates, and trips lower the dies when burst credit, peak period or allowance is used up.
R437, R438, R433, R447 to R452, R495: at the sustained tier a stretch is a supply fault (0x31), and at a higher one a tile below 1,200 cycles
lowers its die; no edge for 160 ns is a clock fault (0x30); a rail out of its thresholds is entered (0x31); the hottest reading of
a sample is kept and, when it becomes too hot, entered (0x32: 125 °C, or TJ_THROTTLE at the sustained tier); in a hot sustained die, and in the hub, the hottest unit goes down a step, and a cool one gives a
step back; a failed inlet sensor, or a temperature out of its range, is entered (0x32) and lowers every die; THERMTRIP stops the tiles' clocks (0x33). -/
def Obligations.TiersMonitorsAndThermalLimits : Prop :=
  (∀ (s : State) (d : Fin 4),
    let x := s.pwr.die[d]
    (s.forecastLimit ≤ s.pwr.forecastT[d] → exec (.tierRaise 0x100 d) s = .next s) ∧
    (s.pwr.forecastT[d] < s.forecastLimit → s.mayRaise d = true → ∃ t, exec (.tierRaise 0x100 d) s = .next t ∧ (t.pwr.die[d]).tier = x.tier ∧
      (t.pwr.die[d]).change = some (x.tier + 1, .raising false false) ∧ (t.pwr.die[d]).target = s.tierMv d (x.tier + 1).toNat ∧
      t.pwr.denied = s.pwr.denied ∧ ∀ e, e ≠ d → t.pwr.die[e] = s.pwr.die[e]) ∧
    (s.pwr.forecastT[d] < s.forecastLimit → s.mayRaise d = false → ∃ t, exec (.tierRaise 0x100 d) s = .next t ∧ t = s.modPwr fun p => { p with denied := satInc p.denied }) ∧
    (x.change = none → 0 < x.tier.toNat → ∃ t, exec (.tierLower 0x100 d) s = .next t ∧ (t.pwr.die[d]).tier = x.tier ∧
      (t.pwr.die[d]).change = some (x.tier - 1, .lowering false) ∧ (t.pwr.die[d]).target = x.target) ∧
    (s.hubAlive = true →
      (∀ n a b, x.change = some (n, .raising a b) →
        (∃ t, exec (.relockDone d) s = .next t ∧ (t.pwr.die[d]).change = some (n, .raising true b) ∧ (t.pwr.die[d]).tier = x.tier) ∧
        (∀ mv : Nat, mv < 1024 → mv ≤ x.target + 10 → x.target ≤ mv + 10 → ∃ t, exec (.railSettled d mv) s = .next t ∧
          (t.pwr.die[d]).change = some (n, .raising a true) ∧ (t.pwr.die[d]).volt.toNat = mv)) ∧
      (∀ n, x.change = some (n, .raising true true) ∨ x.change = some (n, .lowering true) → x.switchDt = none →
        (x.switched + 8 < 34 → ∃ t, exec (.tierSwitch d) s = .next t ∧ (t.pwr.die[d]).switched = x.switched + 8 ∧
          (t.pwr.die[d]).tier = x.tier ∧ (t.pwr.die[d]).switchDt = some s.tim.dt) ∧
        (34 ≤ x.switched + 8 → ∃ t, exec (.tierSwitch d) s = .next t ∧ (t.pwr.die[d]).tier = n ∧ (t.pwr.die[d]).change = none ∧
          (t.pwr.die[d]).target = s.tierMv d n.toNat)) ∧
      (∀ (mw : Nat) (amps mv : Vector Nat 4),
        let l := (mw :: s.pwr.samples).take 10
        let avg := l.foldl (· + ·) 0 / l.length
        avg ≤ 250000 → (∀ e : Fin 4, amps[e] ≤ 85) →
        ∃ t, exec (.powerEstimate mw amps mv) s = .next t ∧ t.pwr.powerMw = avg ∧ t.pwr.samples = l ∧ t.pwr.drops = s.pwr.drops ∧
          (∀ e : Fin 4, (t.pwr.die[e]).tier = (s.pwr.die[e]).tier ∧ (t.pwr.die[e]).current.toNat = amps[e] ∧
            (t.pwr.die[e]).change = (s.pwr.die[e]).change)) ∧
      (s.pwr.creditUs = 0 → ∃ t, exec .burstCreditExhausted s = .next t ∧ ∀ e : Fin 4, (s.pwr.die[e]).change = none →
        ((s.pwr.die[e]).tier ≠ 0 → (t.pwr.die[e]).change = some (0, .lowering false)) ∧
        ((s.pwr.die[e]).tier = 0 → t.pwr.die[e] = s.pwr.die[e]))) ∧
    (x.tier = 2 → x.change = none →
      (200000 ≤ s.pwr.peakUs → ∃ t, exec .peakPeriodLimit s = .next t ∧ (t.pwr.die[d]).change = some (1, .lowering false) ∧
        t.pwr.drops = satInc s.pwr.drops) ∧
      (x.allowUs = 0 → ∃ t, exec (.peakAllowanceExhausted d) s = .next t ∧ (t.pwr.die[d]).change = some (1, .lowering false) ∧
        t.pwr.drops = satInc s.pwr.drops)) ∧
    (s.pwr.peakLock = true → (s.pwr.lockoutUs = 0 → ∃ t, exec .peakLockoutEnd s = .next t ∧ t = s.modPwr fun p => { p with peakLock := false }) ∧
      (0 < s.pwr.lockoutUs → exec .peakLockoutEnd s = .next s))) ∧
  (∀ s : State, s.hubAlive = true →
    (∀ (i : Fin 136) (n : Nat), (s.pwr.die[tileDie i]).tier = 0 → ∃ t, exec (.droopDetect (.tile i) n) s = .next t ∧
      Raises s t 0x31 0 i.val ∧ Island.tile i ∈ t.pwr.droop ∧ (t.pwr.die[tileDie i]).stretch = true) ∧
    (∀ (i : Fin 136) (n : Nat), (s.pwr.die[tileDie i]).tier ≠ 0 → (s.pwr.die[tileDie i]).change = none → n < 1200 →
      ∃ t, exec (.droopDetect (.tile i) n) s = .next t ∧ t.saf.raised = s.saf.raised ∧
        (t.pwr.die[tileDie i]).change = some (0, .lowering false) ∧ t.pwr.drops = satInc s.pwr.drops) ∧
    (∀ i : Island, ∃ t, exec (.droopRecovery i) s = .next t ∧ i ∉ t.pwr.droop ∧ t.saf = s.saf ∧
      ∀ j, j ≠ i → (j ∈ t.pwr.droop ↔ j ∈ s.pwr.droop)) ∧
    (∀ (i : Island) (khz : Nat), ∃ t, exec (.clockMonitorWindow i khz true) s = .next t ∧ Raises s t 0x30 0 (islandCode i)) ∧
    (∀ khz : Nat,
      (450000 ≤ khz → khz ≤ 1005000 → ∃ t, exec (.clockMonitorWindow .mp khz false) s = .next t ∧ t.saf = s.saf ∧
        (Island.mp, true) ∉ t.pwr.badWindow ∧ (Island.mp, false) ∉ t.pwr.badWindow) ∧
      (1005000 < khz → (Island.mp, true) ∈ s.pwr.badWindow → ∃ t, exec (.clockMonitorWindow .mp khz false) s = .next t ∧
        Raises s t 0x30 0 0x111)) ∧
    (∀ (r : Rail) (mv : Nat), (∀ d, r ≠ .cd d) →
      (95 * railMv r ≤ mv * 100 → mv * 100 ≤ 105 * railMv r → exec (.voltageMonitorFault r mv) s = .next s) ∧
      (mv * 100 < 95 * railMv r ∨ 105 * railMv r < mv * 100 →
        (r ≠ .sa → r ≠ .sb → ∃ t, exec (.voltageMonitorFault r mv) s = .next t ∧ Raises s t 0x31 0 (railCode r) ∧ t.pwr = s.pwr) ∧
        (∀ d, r = depRail d → (s.deps[d]).hubLost = false → ∃ t x, exec (.voltageMonitorFault r mv) s = .next t ∧
          t.saf.raised = s.saf.raised ++ [x] ∧ x.cat = 0x31 ∧ x.origin.toNat = d.val + 1 ∧ t.pwr = s.pwr))) ∧
    (∀ (d : Fin 4) (mv : Nat), (s.pwr.die[d]).change = none →
      (92 * (s.pwr.die[d]).target ≤ mv * 100 → mv * 100 ≤ 108 * (s.pwr.die[d]).target → exec (.voltageMonitorFault (.cd d) mv) s = .next s) ∧
      (mv * 100 < 92 * (s.pwr.die[d]).target ∨ 108 * (s.pwr.die[d]).target < mv * 100 →
        ∃ t, exec (.voltageMonitorFault (.cd d) mv) s = .next t ∧ Raises s t 0x31 0 (0x200 + d.val) ∧ (t.pwr.die[d]).fmax = true)) ∧
    (∀ d : Fin 4, exec (.avsbusRetry d true) s = .next s ∧ ∃ t, exec (.avsbusRetry d false) s = .next t ∧ Raises s t 0x31 0 (0x200 + d.val) ∧
      (t.pwr.die[d]).fmax = true) ∧
    (∀ l : List Int, ∃ t, exec (.thermalSample l) s = .next t ∧ ∀ u : Fin 5,
      let r := readingsOf l u.val
      (r = [] → t.pwr.therm[u] = s.pwr.therm[u]) ∧
      (r ≠ [] → (t.pwr.therm[u]).readings = r ∧ (t.pwr.therm[u]).temp ∈ r ∧ (∀ v ∈ r, v ≤ (t.pwr.therm[u]).temp) ∧
        (t.pwr.therm[u]).step = (s.pwr.therm[u]).step ∧
        (t.pwr.therm[u]).tooHot = s.overTemp u.val (t.pwr.therm[u]).temp ∧
        (s.overTemp u.val (t.pwr.therm[u]).temp = true → (s.pwr.therm[u]).tooHot = false →
          ∃ x ∈ t.saf.raised, x.cat = 0x32 ∧ x.info.toNat / 2 ^ 14 = u.val))) ∧
    (∀ u : Fin 5,
      let h := s.pwr.therm[u]
      let unit := Config.sensorUnit u.val h.hot.toNat
      s.sustained u.val = true → h.readings ≠ [] →
        ((s.pwr.tj.toNat : Int) ≤ h.temp → ∃ t, exec (.throttleStep u) s = .next t ∧ t.saf = s.saf ∧ t.pwr.therm[u] =
          if h.unit = unit ∧ h.step ≠ 0 then { h with step := if h.step.toNat < 12 then h.step + 1 else h.step } else { h with unit := unit, step := 1 }) ∧
        (h.temp < (s.pwr.tj.toNat : Int) → h.step ≠ 0 → ∀ v, unitTemp u.val h.readings h.unit = some v → v ≤ (s.pwr.tj.toNat : Int) - 3 →
          ∃ t, exec (.throttleStep u) s = .next t ∧ t.saf = s.saf ∧
            t.pwr.therm[u] = { h with step := h.step - 1, unit := if h.step = 1 then 0xFF else h.unit })) ∧
    (∀ v : Int, 100 ≤ v → v ≤ 650 → ∃ t, exec (.coolantRead (.temp v)) s = .next t ∧ t.pwr.coolFault = false ∧ t.pwr.inlet = BitVec.ofInt 16 v ∧
      t.saf = s.saf) ∧
    (∀ x : NtcReading, (∀ v, x = .temp v → v < 100 ∨ 650 < v) → s.pwr.coolFault = false → ∃ t r, exec (.coolantRead x) s = .next t ∧
      t.pwr.coolFault = true ∧ t.saf.raised = s.saf.raised ++ [r] ∧ r.cat = 0x32 ∧
      ∀ d : Fin 4, (s.pwr.die[d]).change = none → (s.pwr.die[d]).tier ≠ 0 → (t.pwr.die[d]).change = some (0, .lowering false)) ∧
    (s.pwr.thermtrip = false → ∃ t, exec .thermtrip s = .next t ∧ t.pwr.thermtrip = true ∧ Raises s t 0x33 0 0 ∧ t.mem = s.mem ∧
      ∀ i : Fin 136, (t.tiles[i]).clocked = false ∧ (t.tiles[i]).acc = (s.tiles[i]).acc))

/-- R450: each frame of the MP forecasts the dies' temperatures, and requests a lowering of each die above the sustained tier whose forecast is
above the limit. That the forecast is computed with the static power and the present margin is the model's reading (log 125).
R453 to R457: while the MP is at work its frame writes its watchdog, and skips its deferrable function when less than 150 µs are left; a
function over its budget is stopped, counted and entered (0x34); a watchdog not written for 2 ms restarts the MP, with its private
SRAM lost; when the restart ends its firmware runs from 0x100 and the commands that waited for it have ended HW_FAULT. -/
def Obligations.ManagementProcessorRestarts : Prop :=
  ∀ s : State,
    (s.mpGone = false →
      (s.mp.run ≠ .faulted → ∀ used n : Nat, ∃ t, exec (.mpMajorFrame used n) s = .next t ∧ t.pwr.mpKick = s.tim.dt ∧
        t.pwr.skipped = (if 1000 - used < 150 then satInc s.pwr.skipped else s.pwr.skipped) ∧
        t.pwr.telemetry = (if 1000 - used < 150 then s.pwr.telemetry else s.pwr.telemetry + n) ∧
        ∀ d : Fin 4, t.pwr.forecastT[d] = s.forecastMk d ∧
          (s.forecastLimit < s.forecastMk d → (s.pwr.die[d]).change = none → (s.pwr.die[d]).tier ≠ 0 →
            (t.pwr.die[d]).change = some ((s.pwr.die[d]).tier - 1, .lowering false) ∧ (t.pwr.die[d]).tier = (s.pwr.die[d]).tier) ∧
          (s.forecastMk d ≤ s.forecastLimit ∨ (s.pwr.die[d]).high = false → t.pwr.die[d] = s.pwr.die[d])) ∧
      (∀ k : Fin 4, ∃ t, exec (.mpBudgetOverrun k) s = .next t ∧ t.pwr.overruns = satInc s.pwr.overruns ∧ Raises s t 0x34 0x100 (k.val + 1)) ∧
      (s.mp.run ≠ .faulted → 2000000 ≤ (s.tim.dt - s.pwr.mpKick).toNat → ∃ t, exec .mpWatchdogExpiry s = .next t ∧ t.pwr.mpAbsent = true ∧
        Raises s t 0x34 0x100 0 ∧ t.mpSram = [] ∧ t.mp.run = .reset ∧ t.pwr.restarts = satInc s.pwr.restarts ∧ t.mem = s.mem) ∧
      (s.mp.run ≠ .faulted → (s.tim.dt - s.pwr.mpKick).toNat < 2000000 → exec .mpWatchdogExpiry s = .next s)) ∧
    (s.pwr.mpAbsent = true → ∃ t, exec .mpRestartDone s = .next t ∧ t.pwr.mpAbsent = false ∧ t.pwr.mpKick = s.tim.dt ∧
      t.mp.run = .running ∧ t.mp.pc = 0x100 ∧ (Memory.wf s.flash = true → ∀ a, a < 0x200000 → memGet t.mpSram a = memGet s.flash a) ∧
      t.cmd.mpq = s.cmd.mpq.filter (fun q => (s.cmd.q[q]).cur.isNone) ∧ ((∀ (j : Fin 64) (p : LongOp), s.cmd.ops[j] = some p → p.internal = false) →
        ∀ (k : Fin 64) (o : LongOp), s.cmd.ops[k] = some o → o.opcode = 0x12 → o.state.terminal = false →
          ∃ p, t.cmd.ops[k] = some p ∧ p.state = .failed)) ∧
    (s.pwr.mpAbsent = false → exec .mpRestartDone s = .next s)

/-- R461 to R477: a self-test that passes makes an untested tile SPARE, and one that fails retires the tile; a logical core at its stop moves
to the spare that its migration names: both tiles are MIGRATING and the map names the spare until the requests issued before have completed;
then registers, accumulators and local store are copied and the old tile is parked. A die that is lost
stops and unmaps its cores, and the epoch increments (0x42); stress, cycles and the ledger's copies are kept. -/
def Obligations.WearAndSparing : Prop :=
  ∀ s : State,
    (∀ i : Fin 136, (s.wear.tile[i]).testing = true → s.lcOf i = none →
      (∃ t, exec (.tileSelfTestDone i true) s = .next t ∧ (t.wear.tile[i]).testing = false ∧ (t.wear.tile[i]).suspect = false ∧
        (t.wear.tile[i]).selfTests = (s.wear.tile[i]).selfTests + 1 ∧
        ((s.wear.tile[i]).state = .untested → (t.wear.tile[i]).state = .spare)) ∧
      (∃ t, exec (.tileSelfTestDone i false) s = .next t ∧ (t.wear.tile[i]).state = .retired ∧ (t.wear.tile[i]).cause = 0x07 ∧
        (t.tiles[i]).fault = 0x07)) ∧
    (∃ t, exec .spareRetest s = .next t ∧ ∀ i : Fin 136, t.wear.tile[i] =
      if (s.wear.tile[i]).state = .spare ∧ (s.wear.die[tileDie i]).lost = false then { s.wear.tile[i] with testing := true } else s.wear.tile[i]) ∧
    (∀ (lc : Fin 128) (i j : Fin 136), s.tileOf lc = some i → s.wear.armed = [(lc, some j, none)] → s.atStop lc i = true → i ≠ j →
      s.spareOk j = true → tileDie j = tileDie i → s.wear.moving = [] → s.prog.state ≠ .loaded → ∃ t, exec (.migrationStop lc) s = .next t ∧
        t.tileOf lc = some j ∧ t.wear.armed = [] ∧ t.wear.moving = [{ lc := lc, src := i, dst := j, slot := none }] ∧
        (t.wear.tile[i]).state = .migrating ∧ (t.wear.tile[j]).state = .migrating ∧ t.mem = s.mem ∧ t.tiles = s.tiles) ∧
    (∀ m : Moving, s.wear.moving = [m] → m.src ≠ m.dst → s.prog.stopQ = none → Memory.wf s.mem = true →
      let i := m.src
      let j := m.dst
      ((∃ r ∈ s.outstanding, r.tile = some i) → exec (.migrationStop m.lc) s = .next s) ∧
      ((∀ r ∈ s.outstanding, r.tile ≠ some i) → ∃ t, exec (.migrationStop m.lc) s = .next t ∧
        t.wear.moving = [] ∧ t.wear.map = s.wear.map ∧ (t.tiles[j]).vr = (s.tiles[i]).vr ∧
        (t.tiles[j]).acc = (s.tiles[i]).acc.map (fun e => (e.1, e.2.recorded)) ∧
        (t.tiles[j]).seq.g = (s.tiles[i]).seq.g ∧ (t.tiles[j]).seq.pc = (s.tiles[i]).seq.pc ∧ (t.tiles[j]).seq.run = (s.tiles[i]).seq.run ∧
        (∀ a, a < localSize → memGet t.mem (localBase j + a) = memGet s.mem (localBase i + a)) ∧
        (∀ a, a < localBase j ∨ localBase j + localSize ≤ a → memGet t.mem a = memGet s.mem a) ∧ (t.tiles[i]).seq.run = .off ∧
        (t.wear.tile[j]).state = .active ∧ (t.wear.tile[i]).state = (if (s.wear.tile[i]).cand then .retired else .spare) ∧
        m.lc.val ∈ t.prog.migrated)) ∧
    (∀ d : Fin 4, s.hubAlive = true → (s.wear.die[d]).lost = false → s.prog.stopQ = none →
      (∀ i : Fin 136, (s.tiles[i]).seq.inTrap = false) → ∃ t, exec (.dieLost d .rail) s = .next t ∧ (t.wear.die[d]).lost = true ∧ (t.wear.die[d]).losses = (s.wear.die[d]).losses + 1 ∧
        t.prog.epoch = s.prog.epoch + 1 ∧ (t.pwr.die[d]).tier = 0 ∧
        ∀ i : Fin 136, tileDie i = d → (t.tiles[i]).seq.run = .off ∧ (t.wear.tile[i]).state = .untested) ∧
    (s.mpGone = false →
      (∃ t, exec .stressAccrual s = .next t ∧ t.tiles = s.tiles ∧ ∀ d : Fin 4, (s.wear.die[d]).lost = false →
        (t.wear.die[d]).s = (s.wear.die[d]).s + stressTerm (s.pwr.die[d]).volt.toNat (s.pwr.therm[(⟨d.val, by omega⟩ : Fin 5)]).temp ∧
        (t.wear.die[d]).peakMs = (s.wear.die[d]).peakMs + (if (s.pwr.die[d]).tier = 2 then 1 else 0)) ∧
      (∃ t, exec .thermalCycleSample s = .next t ∧ t.tiles = s.tiles ∧ ∀ d : Fin 4, (s.wear.die[d]).lost = false →
        (s.wear.die[d]).residue = [] → (s.pwr.therm[(⟨d.val, by omega⟩ : Fin 5)]).readings ≠ [] →
        (t.wear.die[d]).residue = [(s.pwr.therm[(⟨d.val, by omega⟩ : Fin 5)]).readings.foldl (· + ·) 0] ∧ (t.wear.die[d]).c = (s.wear.die[d]).c) ∧
      (∃ t l, exec .ledgerAoUpdate s = .next t ∧ t.wear.ao = some l ∧ l.valid = true ∧ l.drives = s.wear.drives ∧ t.wear.flash = s.wear.flash ∧
        ∀ d : Fin 4, l.dies[d] = t.wear.die[d] ∧ (t.wear.die[d]).s = (s.wear.die[d]).s) ∧
      (∃ t l, exec .ledgerFlashWrite s = .next t ∧ t.wear.flash = (l :: s.wear.flash).take 256 ∧ l.dies = s.wear.die ∧ t.wear.ao = s.wear.ao ∧
        t.flash = s.flash))

/-! ## Host, time, CAN FD, GPIO, calendar, debug, gallery links -/

/-- R484, R483, R487 to R491, R493, R521: a host access through BAR0 or BAR2 waits at the hub's port as a request of source 0x130, with its data
where it is a write; past CSR space BAR0 reads 0 and ignores writes; a link reset disables every queue pair; event messages are stamped
with DT; a locked servo needs ten good seconds; a phase error above 1 ms, or a PPS edge that far off the second, steps the offset; the PPS
output is high for the first 100 ms of a second. A CAN FD frame that no filter takes is left, one that a filter takes goes to the ring and
signals its tally, or is counted as dropped where the ring is full (when it is full is a free value); the next frame of a transmit ring
is sent; an edge of a pin is stamped.
R505 to R513: the calendar counts seconds to the next minute, hour, day, month and year, and its roll-over is kept; a snapshot copies the live
fields; a commit takes a possible date and time and refuses another. Run control halts, resumes and single-steps a core and sets its
breakpoints; an action on the MP enters its replay buffer; a deputy takes none while its debug access is off; EXTEST is refused while a
deputy is READY, and another instruction is taken; a synchronisation packet carries DT unless the trace buffer is full. -/
def Obligations.HostTimePinsAndDebug : Prop :=
  (∀ s : State,
    (s.hubAlive = true →
      (∀ (off n : Nat), 0 < n → off + n ≤ 0x3000000 → ∃ t r, exec (.hostRequest .bar0 off n false []) s = .next t ∧
        t.fab.ports = s.fab.ports ++ [r] ∧ r.src = 0x130 ∧ r.addr = 0x1F00000000 + off ∧ r.len = n ∧ r.write = false ∧ r.org = .host ∧
        r.part = s.fab.hostPart ∧ t.ifc.hostOut = s.ifc.hostOut + 1 ∧ t.mem = s.mem) ∧
      (∀ (off n : Nat) (b : List Byte), b ≠ [] → off + b.length ≤ 0x3000000 → ∃ t r, exec (.hostRequest .bar0 off n true b) s = .next t ∧
        t.fab.ports = s.fab.ports ++ [r] ∧ r.src = 0x130 ∧ r.addr = 0x1F00000000 + off ∧ r.len = b.length ∧ r.write = true ∧ r.data = b ∧
        r.org = .host ∧ t.ifc.hostOut = s.ifc.hostOut + 1 ∧ t.mem = s.mem) ∧
      (∀ (off n : Nat) (w : Bool) (b : List Byte), (w = false → 0 < n ∧ off + n ≤ 2 ^ 32) → (w = true → b ≠ [] ∧ off + b.length ≤ 2 ^ 32) →
        ∃ t r, exec (.hostRequest .bar2 off n w b) s = .next t ∧
          t.fab.ports = s.fab.ports ++ [r] ∧ r.src = 0x130 ∧ r.addr = s.ifc.bar2.toNat % 512 * 2 ^ 32 + off ∧ r.write = w ∧
          (w = true → r.data = b)) ∧
      (∀ (off n : Nat), 0 < n → 0x3000000 ≤ off → off + n ≤ 0x4000000 → ∃ t, exec (.hostRequest .bar0 off n false []) s = .next t ∧
        t.ifc.hostResp = some (List.replicate n 0, 0) ∧ t.fab = s.fab) ∧
      (∀ (off n : Nat) (b : List Byte), b ≠ [] → 0x3000000 ≤ off → off + b.length ≤ 0x4000000 →
        ∃ t, exec (.hostRequest .bar0 off n true b) s = .next t ∧ t.mem = s.mem ∧ t.fab = s.fab) ∧
      (∀ (p : Fin 4) (v : Int), ∃ t, exec (.gptpEventMessage p v) s = .next t ∧ t.ifc.gptpStamp[p] = s.tim.dt ∧ t.tim = s.tim ∧
        (s.ifc.gptpMask.getLsbD p.val = true → t.ifc.gptpPhase[p] = some v) ∧
        (s.ifc.gptpMask.getLsbD p.val = false → t.ifc.gptpPhase = s.ifc.gptpPhase)) ∧
      (∀ v : Int, s.tim.src = 1 → v.natAbs < 1000 → ∃ t, exec (.servoAdjust v) s = .next t ∧ t.tim.ptpOffset = s.tim.ptpOffset ∧
        t.tim.goodSec = min (s.tim.goodSec + 1) 10 ∧ (t.tim.locked = true ↔ 9 ≤ s.tim.goodSec)) ∧
      (∀ v : Int, s.tim.src = 1 → 1000000 < v.natAbs → ∃ t, exec (.servoAdjust v) s = .next t ∧ t.tim.locked = false ∧
        t.tim.ptpOffset = s.tim.ptpOffset + BitVec.ofInt 64 v ∧ t.tim.steps = satInc s.tim.steps) ∧
      (s.tim.src = 2 →
        let r := (s.tim.dt + s.tim.ptpOffset).toInt.emod 1000000000
        (1000000 < r → r < 999000000 → ∃ t, exec .ppsIn s = .next t ∧ t.tim.ptpOffset = s.tim.ptpOffset - BitVec.ofInt 64 r ∧
          t.tim.steps = satInc s.tim.steps ∧ t.tim.dt = s.tim.dt) ∧
        (r ≤ 1000000 ∨ 999000000 ≤ r → exec .ppsIn s = .next s)) ∧
      (∃ t, exec .ppsOut s = .next t ∧ (t.ifc.ppsOut = true ↔ (s.tim.dt + s.tim.ptpOffset).toInt.emod 1000000000 < 100000000) ∧ t.tim = s.tim) ∧
      (∀ (c : Fin 4) (f : CanFrame), (s.ifc.can[c]).enabled = true → s.fusionTakes c f = false →
        let x := s.ifc.can[c]
        let taken := x.filters.any fun k => Config.canAccepts k f.id f.ext
        ∃ t, exec (.canFrameRx c f) s = .next t ∧ (taken = false → t = s) ∧
          (taken = true → Config.freeBool s.free = true ∨ x.rxSize = 0 → (t.ifc.can[c]).drop = satInc x.drop ∧ t.tly = s.tly ∧ t.mem = s.mem) ∧
          (taken = true → Config.freeBool s.free = false → x.rxSize ≠ 0 → (t.ifc.can[c]).rxHead = (x.rxHead + 1) % x.rxSize ∧
            (t.ifc.can[c]).drop = x.drop ∧ ∃ m, Queued s t x.rxTally (.sig x.rxTally 0x100 (s.partOf 0x100) 1 m none))) ∧
      (∀ c : Fin 4, (s.ifc.can[c]).enabled = true → 0 < (s.ifc.can[c]).txSize → ∃ t, exec (.canFrameTx c) s = .next t ∧
        ∀ b, engRead s 0x100 (canSlot (s.ifc.can[c]).txBase (s.ifc.can[c]).txHead) Config.canEntryLen = (s, .ok b) →
          (Config.canFrameOf b = none → t = s) ∧
          (∀ f, Config.canFrameOf b = some f → (t.ifc.can[c]).sent = f :: (s.ifc.can[c]).sent ∧
            (t.ifc.can[c]).txHead = ((s.ifc.can[c]).txHead + 1) % (s.ifc.can[c]).txSize)) ∧
      (∀ (p : Fin 16) (b : Bool), s.ifc.gpio.getLsbD p.val ≠ b → ∃ t, exec (.gpioEdge p b) s = .next t ∧ t.ifc.gpio.getLsbD p.val = b ∧
        t.ifc.gpioDt[p] = s.tim.dt ∧ ∀ q : Fin 16, q ≠ p → t.ifc.gpio.getLsbD q.val = s.ifc.gpio.getLsbD q.val)) ∧
    (∃ t, exec .pcieReset s = .next t ∧ (∀ q : Fin 16, t.cmd.q[q] = { s.cmd.q[q] with enable := false }) ∧ t.ifc.hostOut = 0 ∧ t.mem = s.mem)) ∧
  (∀ s : State,
    (s.boot.valid.contains .ao = true →
      let c := s.tim.live
      (c.second.toNat < 59 → ∃ t, exec .calendarSecond s = .next t ∧ t.tim.live = { c with second := c.second + 1, sub := 0 } ∧ t.wear = s.wear) ∧
      (c.second = 59 → c.minute.toNat < 59 → ∃ t, exec .calendarSecond s = .next t ∧
        t.tim.live = { c with second := 0, minute := c.minute + 1, sub := 0 }) ∧
      (c.second = 59 → c.minute = 59 → c.hour.toNat < 23 → ∃ t, exec .calendarSecond s = .next t ∧
        t.tim.live = { c with second := 0, minute := 0, hour := c.hour + 1, sub := 0 }) ∧
      (c.second = 59 → c.minute = 59 → c.hour = 23 → c.day.toNat < monthDays c.year.toNat c.month.toNat → ∃ t, exec .calendarSecond s = .next t ∧
        t.tim.live = { c with second := 0, minute := 0, hour := 0, day := c.day + 1, sub := 0 }) ∧
      (c.second = 59 → c.minute = 59 → c.hour = 23 → c.day.toNat = monthDays c.year.toNat c.month.toNat → c.month.toNat < 12 →
        ∃ t, exec .calendarSecond s = .next t ∧
          t.tim.live = { c with second := 0, minute := 0, hour := 0, day := 1, month := c.month + 1, sub := 0 }) ∧
      (c.second = 59 → c.minute = 59 → c.hour = 23 → c.day = 31 → c.month = 12 → c.year.toNat < 199 → ∃ t, exec .calendarSecond s = .next t ∧
        t.tim.live = CalTime.mk (c.year + 1) 1 1 0 0 0 0 ∧ t.tim.calWrap = s.tim.calWrap) ∧
      (c.second = 59 → c.minute = 59 → c.hour = 23 → c.day = 31 → c.month = 12 → c.year = 199 → ∃ t, exec .calendarSecond s = .next t ∧
        t.tim.live = CalTime.mk 0 1 1 0 0 0 0 ∧ t.tim.calWrap = true)) ∧
    (∀ src : Src, src = 0x130 ∨ src = 0x100 →
      ∃ t v, exec (.calSnap src) s = .next t ∧ t.tim.snap = { s.tim.live with sub := v } ∧ t.tim.live = s.tim.live) ∧
    (∀ src : Src, src = 0x130 ∨ src = 0x100 → s.tim.stage.possible = true → ∃ t, exec (.calCommit src) s = .next t ∧ t.tim.live = { s.tim.stage with sub := 0 } ∧
      t.tim.calValid = true ∧ t.tim.calErr = false) ∧
    (∀ src : Src, src = 0x130 ∨ src = 0x100 → s.tim.stage.possible = false → ∃ t, exec (.calCommit src) s = .next t ∧ t = s.modTim fun x => { x with calErr := true }) ∧
    (∀ i : Fin 136, let q := (s.tiles[i]).seq
      (∃ t, exec (.runControl (.core i) .halt) s = .next t ∧ t.tiles[i] = { s.tiles[i] with haltReq := true, seq := { q with dbgHalt := true } } ∧
        OnlyTile i s t) ∧
      (∀ k a, ∃ t, exec (.runControl (.core i) (.breakpoint k a)) s = .next t ∧
        t.tiles[i] = { s.tiles[i] with seq := { q with bps := q.bps.set k a } } ∧ OnlyTile i s t) ∧
      (q.run = .halted → ∃ t, exec (.runControl (.core i) .resume) s = .next t ∧ (t.tiles[i]).seq.run = .running ∧
        (t.tiles[i]).seq.dbgHalt = false ∧ (t.tiles[i]).haltReq = false ∧ OnlyTile i s t) ∧
      (q.run = .halted → q.dbgHalt = true → ∃ t, exec (.runControl (.core i) .step) s = .next t ∧ (t.tiles[i]).seq.run = .running ∧
        (t.tiles[i]).seq.dbgStep = true ∧ (t.tiles[i]).seq.dbgHalt = true ∧ OnlyTile i s t)) ∧
    (s.dbg.replay.length < 64 → ∃ t, exec (.runControl .mp .halt) s = .next t ∧ t.mp.dbgHalt = true ∧ t.dbg.replay = s.dbg.replay ++ [.halt]) ∧
    (∀ d : Fin 2, (s.deps[d]).dbgEn = false → exec (.runControl (.dep d) .halt) s = .next s) ∧
    (∀ i : JtagInstr, i ≠ .extest → ∃ t, exec (.jtagInstruction i) s = .next t ∧ t.dbg.tap = i ∧ t.dbg.probe = true ∧ t.tiles = s.tiles) ∧
    ((∃ d : Fin 2, (s.deps[d]).state = .ready) → ∃ t, exec (.jtagInstruction .extest) s = .next t ∧ t.dbg.tap = s.dbg.tap ∧ t.dbg.refused = true) ∧
    (∃ t, exec .traceSync s = .next t ∧ t.dbg.trace = true ∧
      (Config.freeBool s.free = false → t.dbg.packets = s.tim.dt :: s.dbg.packets ∧ t.dbg.tdrop = s.dbg.tdrop) ∧
      (Config.freeBool s.free = true → t.dbg.packets = s.dbg.packets ∧ t.dbg.tdrop = satInc s.dbg.tdrop)))

/-- R497 to R504: on a link that is UP, the oldest whole message of its epoch has its effect: requests of the partner enter the fabric with its
label, answers settle the outstanding request of their tag, at once or by a response that crosses the fabric, a signal goes to its home
and its acknowledgement gives SIGR its result; a message of no effect is taken; one of another epoch is discarded, counted and entered (0x53).
R497, R499 to R502: a good frame in turn delivers its payload once; a repeated one delivers nothing; four bad frames in a row leave LOCKED
and lose the link, with every outstanding request answered by an error and entered (0x53); a receiver that finds four headers 256
bytes apart is LOCKED; training brings a link UP with a new epoch, one that is not up again in 10 ms is DOWN, and a DOWN link trains again
every 100 ms. -/
def Obligations.GalleryLinks : Prop :=
  (∀ (s : State) (l : Fin 2) (m : GalMsg) (rest : List Byte), s.hubAlive = true → (s.ifc.link[l]).state = .up →
    (s.ifc.link[l]).message = some (m, rest) →
    let k := s.ifc.link[l]
    let src : Src := BitVec.ofNat 12 (0x138 + l.val)
    let back := fun r : Req => s.routeBack r.src r.tile (.partner 0)
    let sent := fun (t : State) (r : Req) (data : Option (List Byte)) => ∃ x, t.fab.resps = s.fab.resps ++ [x] ∧ x.req = r ∧ x.hops = back r ∧
      (∀ d, data = some d → x.err = none ∧ x.data = d) ∧ (data = none → x.err ≠ none)
    (m.epoch = k.epoch →
      (m.typ = 1 → ∃ t r, exec (.galleryReadRequest l) s = .next t ∧ (t.ifc.link[l]).stream = rest ∧ t.fab.ports.getLast? = some r ∧
        t.fab.ports.length = s.fab.ports.length + 1 ∧ r.src = src ∧ r.addr = m.addr.toNat ∧ r.len = 8 * (m.len.toNat + 1) ∧ r.write = false ∧
        r.org = .partner l m.tag ∧ r.part = (m.label >>> 27).setWidth 4 ∧ r.cls = (m.label >>> 24).setWidth 3 ∧ r.dl = m.label.setWidth 24) ∧
      (m.typ = 2 → ∃ t r, exec (.galleryWriteRequest l) s = .next t ∧ (t.ifc.link[l]).stream = rest ∧ t.fab.ports.getLast? = some r ∧
        r.write = true ∧ r.data = m.data ∧ r.addr = m.addr.toNat ∧ r.org = .partner l m.tag) ∧
      (∀ r, k.out = [(m.tag, r)] → back r ≠ [] →
        (m.typ = 3 → r.write = false → ∃ t, exec (.galleryReadResponse l) s = .next t ∧ (t.ifc.link[l]).out = [] ∧
          sent t r (some (m.data.take r.len))) ∧
        (m.typ = 4 → r.write = true → ∃ t, exec (.galleryWriteAck l) s = .next t ∧ (t.ifc.link[l]).out = [] ∧ sent t r (some [])) ∧
        (m.typ = 7 → ∃ t, exec (.galleryErrorResponse l) s = .next t ∧ (t.ifc.link[l]).out = [] ∧ sent t r none)) ∧
      (∀ r p w, k.out = [(m.tag, r)] → back r = [] → r.org = .ld p → r.write = false → (s.seq p).ldWait = some w →
        (m.typ = 3 → ∃ t, exec (.galleryReadResponse l) s = .next t ∧ (t.ifc.link[l]).out = [] ∧
          (t.seq p).ldWait = some { w with resp := some (.data (BitVec.ofNat 64 (leNat (m.data.take r.len)))) }) ∧
        (m.typ = 7 → ∃ t c, exec (.galleryErrorResponse l) s = .next t ∧ (t.ifc.link[l]).out = [] ∧
          (t.seq p).ldWait = some { w with resp := some (.error c (BitVec.ofNat 64 r.addr)) })) ∧
      (∀ r p, k.out = [(m.tag, r)] → back r = [] → r.org = .st p → r.write = true → m.typ = 4 → ∃ t, exec (.galleryWriteAck l) s = .next t ∧
        (t.ifc.link[l]).out = [] ∧ (t.seq p).stAck = (s.seq p).stAck + 1) ∧
      (m.typ = 5 → ∃ t, exec (.gallerySignal l) s = .next t ∧ (t.ifc.link[l]).stream = rest ∧
        Queued s t (m.addr.toNat % 16384) (.sig (m.addr.toNat % 16384) src ((m.label >>> 27).setWidth 4) ((m.addr >>> 14).setWidth 8) false
          (some (l, m.tag)))) ∧
      (m.typ = 6 → ∀ x, s.mp.sigrs = [x] → x.link = l → x.tag = m.tag → x.epoch = m.epoch → x.result = none →
        ∃ t, exec (.gallerySignalAck l) s = .next t ∧ t.mp.sigrs = [{ x with result := some true }] ∧ t.tly = s.tly) ∧
      (m.typ = 0 ∨ 8 ≤ m.typ.toNat → ∃ t, exec (.galleryIdle l) s = .next t ∧ t = s.modLink l fun k => { k with stream := rest })) ∧
    (m.epoch ≠ k.epoch → m.typ = 5 → ∃ t, exec (.gallerySignal l) s = .next t ∧ t.tly = s.tly ∧ (t.ifc.link[l]).stream = rest ∧
      (t.ifc.link[l]).stale = satInc k.stale ∧ Raises s t 0x53 src l.val) ∧
    (m.typ ≠ 1 → exec (.galleryReadRequest l) s = .next s)) ∧
  (∀ (s : State) (l : Fin 2), let k := s.ifc.link[l]
    (∀ raw r d, s.hubAlive = true → k.locked = true → raw.length = 256 → descrBytes k.descr (raw.drop 8) = (r, d) →
      galHit (raw.take 8) = true → leAt d 244 4 = crc32c (d.take 244) → k.state = .up →
      (BitVec.ofNat 16 (leAt raw 4 2) = k.rxSeq → k.early = [] → ∃ t, exec (.galleryFrameRx l raw) s = .next t ∧
        (t.ifc.link[l]).stream = k.stream ++ d.take 244 ∧ (t.ifc.link[l]).rxSeq = k.rxSeq + 1 ∧ (t.ifc.link[l]).badHdr = 0) ∧
      (BitVec.ofNat 16 (leAt raw 4 2) = k.rxSeq - 1 → ∃ t, exec (.galleryFrameRx l raw) s = .next t ∧
        (t.ifc.link[l]).stream = k.stream ∧ (t.ifc.link[l]).rxSeq = k.rxSeq)) ∧
    (∀ raw, s.hubAlive = true → k.locked = true → raw.length = 256 → galHit (raw.take 8) = false → k.badHdr = 3 → k.state = .up → k.out = [] →
      ∃ t, exec (.galleryFrameRx l raw) s = .next t ∧ (t.ifc.link[l]).locked = false ∧ (t.ifc.link[l]).state = .lost) ∧
    (∀ stream p, s.hubAlive = true → k.locked = false → p < stream.length →
      (∀ j, j < 4 → galHit ((stream.drop (p + 256 * j)).take 8) = true) → ∃ t, exec (.galleryHunt l stream) s = .next t ∧
        t = s.modLink l fun k => { k with locked := true, badHdr := 0, badPay := 0 }) ∧
    (∀ (serial : BitVec 64) (half : Bool), s.galleryOn = true → k.state = .down → (s.ifc.link[otherLink l]).state = .down →
      ∃ t, exec (.linkTrainingDone l serial half) s = .next t ∧ (t.ifc.link[l]).state = .up ∧ (t.ifc.link[l]).epoch = k.epoch + 1 ∧
        (t.ifc.link[l]).half = half ∧ (t.ifc.link[l]).partner = some serial ∧ (t.ifc.link[l]).stream = [] ∧
        t.ifc.link[otherLink l] = s.ifc.link[otherLink l]) ∧
    (k.state = .up → (∀ r p w tag, k.out = [(tag, r)] → r.org = .ld p → s.mp.sigrs = [] → (∀ i : Fin 136, (s.tiles[i]).seq.sigrs = []) →
      (s.seq p).ldWait = some w → ∃ t, exec (.linkLost l) s = .next t ∧ (t.ifc.link[l]).state = .lost ∧ (t.ifc.link[l]).out = [] ∧
        (t.ifc.link[l]).retryAt = some (s.tim.dt + 10000000) ∧ Raises s t 0x53 r.src r.addr ∧
        (s.routeBack r.src r.tile (.partner 0) = [] →
          (t.seq p).ldWait = some { w with resp := some (.error 0x09 (BitVec.ofNat 64 r.addr)) }) ∧
        (s.routeBack r.src r.tile (.partner 0) ≠ [] → ∃ x, x ∈ t.fab.resps ∧ x.req = r ∧ x.err = some .link))) ∧
    (k.state ≠ .up → exec (.linkLost l) s = .next s) ∧
    (∀ c, k.state = .lost → k.retryAt = some c →
      (c.toNat ≤ s.tim.dt.toNat → ∃ t, exec (.linkRetryTimeout l) s = .next t ∧ (t.ifc.link[l]).state = .down ∧
        (t.ifc.link[l]).partner = none ∧ Raises s t 0x53 0 l.val) ∧
      (s.tim.dt.toNat < c.toNat → exec (.linkRetryTimeout l) s = .next s)) ∧
    (∀ c, s.galleryOn = true → k.state = .down → k.retryAt = some c → c.toNat ≤ s.tim.dt.toNat → ∃ t, exec (.linkTrainingRetry l) s = .next t ∧
      t = s.modLink l fun k => { k with retryAt := some (s.tim.dt + 100000000) }))

/-! ## Rails, resets, start-up -/

/-- R514 to R519, R522 to R527, R566: the device starts when the last rail is valid and no reset is asserted; a rail's dropout and PORST_N hold it in
cold reset, in which its stores read zero and the boot flash stays; WRST_N resets it and leaves DT; the stages follow one
another, the map stage gives no core to a tile that failed its self-test, and the DRAM stage puts the trained channels in
service: at the last bin where its stored result still reads good, else after full training; a deputy's reset pin and its rail reset that deputy alone. -/
def Obligations.RailsResetsAndStages : Prop :=
  ∀ s : State,
    (s.boot.started = false → s.boot.porstLow = false → s.boot.wrstLow = false →
      (∀ r, r ∈ hubRails → r ≠ .hub → r ∈ s.boot.valid) → Rail.hub ∉ s.boot.valid → ∃ t, exec (.railValid .hub) s = .next t ∧
        t.boot.started = true ∧ t.boot.held = false ∧ Rail.hub ∈ t.boot.valid ∧ t.tim.dt = s.tim.dt) ∧
    (Rail.phy ∉ s.boot.valid → s.boot.porstLow = true → ∃ t, exec (.railValid .phy) s = .next t ∧ t.boot.started = s.boot.started ∧
      t.boot.valid = s.boot.valid ++ [.phy]) ∧
    (Rail.hub ∈ s.boot.valid → ∃ t, exec (.supplyDropout .hub) s = .next t ∧ t.boot.started = false ∧ t.boot.held = true ∧
      t.boot.cSupply = true ∧ t.mem = [] ∧ t.mpSram = [] ∧ t.flash = s.flash ∧ t.tim.dt = 0 ∧ t.tim.live = s.tim.live ∧
      Rail.hub ∉ t.boot.valid) ∧
    (s.boot.porstLow = false → ∃ t, exec (.porstN true) s = .next t ∧ t.boot.porstLow = true ∧ t.boot.cPin = true ∧ t.boot.started = false ∧
      t.mem = [] ∧ t.tim.dt = 0 ∧ t.prog.state = .none ∧ t.flash = s.flash ∧ t.deps = s.deps ∧ t.fab.lock = false ∧ t.saf = SafSt.reset) ∧
    (s.boot.porstLow = true → s.boot.wrstLow = false → s.boot.started = false → (∀ r ∈ hubRails, r ∈ s.boot.valid) →
      ∃ t, exec (.porstN false) s = .next t ∧ t.boot.started = true ∧ t.boot.porstLow = false) ∧
    (s.boot.wrstLow = false → s.boot.started = true → ∃ t, exec (.wrstN true) s = .next t ∧ t.boot.wrstLow = true ∧ t.boot.cWarm = true ∧
      t.tim = s.tim ∧ t.boot.stage = .hub ∧ t.saf = SafSt.reset ∧ t.mem = [] ∧ t.fab.lock = s.fab.lock ∧ t.cmd.nextSeq = s.cmd.nextSeq ∧ t.deps = s.deps ∧
      (∀ q : Fin 16, (t.cmd.q[q]).enable = false)) ∧
    (s.hubAlive = true → ∀ o : StageObs,
      (s.boot.stage = .hub → ∃ t, exec (.startupStage o) s = .next t ∧ t.boot.stage = .crosscuts ∧ t.mem = s.mem) ∧
      (s.boot.stage = .crosscuts → o.lampOk = true → o.fwOk = true → ∃ t, exec (.startupStage o) s = .next t ∧ t.boot.stage = .mp ∧
        t.mp.run = .running ∧ t.mp.pc = 0x100 ∧ t.boot.fwMaj = o.fwMaj ∧ t.boot.fwMin = o.fwMin ∧ t.saf = s.saf) ∧
      (s.boot.stage = .crosscuts → o.lampOk = true → o.fwOk = false → ∃ t, exec (.startupStage o) s = .next t ∧ t.boot.stage = .failed ∧
        Raises s t 0x34 0x100 0) ∧
      (s.boot.stage = .mp → ∃ t, exec (.startupStage o) s = .next t ∧ t.boot.stage = .map ∧
        (∀ i : Fin 136, i ∈ o.tilesBad → (t.wear.tile[i]).state ≠ .active)) ∧
      (s.boot.stage = .map → ∃ t, exec (.startupStage o) s = .next t ∧ t.boot.stage = .dram ∧
        (∀ c : Fin 8, (c ∈ o.chBad → (t.dmc.ch[c]).state = .retired) ∧ (c ∉ o.chBad → (t.dmc.ch[c]).state = .active) ∧
          (c ∉ o.chBad → c ∉ o.patBad → ∀ b, (s.dmc.ch[c]).lastBin = some b →
            b.toNat ≤ min (if s.boot.cold then s.fuse.maxbin.toNat else (s.dmc.ch[c]).maxbin.toNat) s.fuse.maxbin.toNat →
            ((s.dmc.ch[c]).storedAt b).isSome = true → (t.dmc.ch[c]).bin = b) ∧
          (c ∉ o.chBad → c ∈ o.patBad → t.boot.fullTrain = true) ∧
          (t.dmc.inserv.getLsbD (2 * c.val) = true ↔ c ∉ o.chBad))) ∧
      (s.boot.stage = .dram → ∃ t, exec (.startupStage o) s = .next t ∧ t.boot.stage = .ready ∧ t.mem = s.mem)) ∧
    (s.hubAlive = true → s.boot.stage = .failed →
      (∃ t, exec (.mpFirmwareRetry true) s = .next t ∧ t.boot.stage = .mp ∧ t.mp.run = .running ∧ t.mp.pc = 0x100) ∧
      (∃ t, exec (.mpFirmwareRetry false) s = .next t ∧ t.boot.stage = .failed ∧ Raises s t 0x34 0x100 0)) ∧
    (∀ b : Bool, (s.deps[(0 : Fin 2)]).rstLow ≠ b → ∃ t, exec (.saRstN b) s = .next t ∧ t.deps[(1 : Fin 2)] = s.deps[(1 : Fin 2)] ∧
      t.deps[(0 : Fin 2)] = { Deputy.reset (s.deps[(0 : Fin 2)]).railOk b with ownDt := (s.deps[(0 : Fin 2)]).ownDt } ∧ t.mem = s.mem) ∧
    (∀ b : Bool, (s.deps[(1 : Fin 2)]).rstLow ≠ b → ∃ t, exec (.sbRstN b) s = .next t ∧ t.deps[(0 : Fin 2)] = s.deps[(0 : Fin 2)] ∧
      t.deps[(1 : Fin 2)] = { Deputy.reset (s.deps[(1 : Fin 2)]).railOk b with ownDt := (s.deps[(1 : Fin 2)]).ownDt } ∧ t.mem = s.mem) ∧
    (∀ d : Fin 2, (s.deps[d]).railOk = true → ∃ t, exec (.deputyRailDropout d) s = .next t ∧ (t.deps[d]).railOk = false ∧
      (t.deps[d]).state = .reset ∧ (t.deps[d]).rel = false ∧ ∀ e, e ≠ d → t.deps[e] = s.deps[e])

/-! ## Instruction words, reset, stores -/

/-- R105, R112, R140 and their worked examples: the words of `WAITT`, of `TMUL` and of a `NOP` stand for those instructions, and the
reserved majors and minors stand for none. -/
def Obligations.BunovWordsFromTheTable : Prop :=
  ∀ p : Proc,
    decodeBunov p 0x6022C03000C4A800 = some (.waitt p { pred := 1, pneg := false, ops := 0xC03000C4A800 }) ∧
    decodeBunov p 0x88000101DF018000 = some (.tmul p { pred := 0, pneg := false, ops := 0x0101DF018000 } .none) ∧
    decodeBunov p 0x1C20000000000000 = some (.nop p { pred := 0, pneg := false, ops := 0 }) ∧
    decodeBunov p 0x0D51000000000000 = some (.compare p .geu true { pred := 0, pneg := true, ops := 0 }) ∧
    decodeBunov p 0x0130000000000000 = none ∧ decodeBunov p 0x0D60000000000000 = none ∧ decodeBunov p 0x2000000000000000 = none ∧
    decodeBunov p 0xFC00000000000000 = none

/-- R105, R112, R140: the words that the opcode maps list and the commands of the processors correspond one to one: decoding an
instruction's word gives the instruction back with every field at every value, and a word that decodes is the word of what it
decodes to. -/
def Obligations.WordsAndInstructionsCorrespond : Prop :=
  (∀ (i : Instr) (w : BitVec 64) (p : Proc), bunovWord i = some w → bunovProc i = some p → decodeBunov p w = some i.bare) ∧
  (∀ (i : Instr), (bunovWord i).isSome = (bunovProc i).isSome) ∧
  (∀ (p : Proc) (w : BitVec 64) (i : Instr), decodeBunov p w = some i → bunovWord i = some w ∧ bunovProc i = some p)

/-- R126, R196, R217, R218, R415, R488 and the reset columns of the register tables: what the registers of every block read right after a
power-up cold reset. The rows of the model's own choice (where the spec gives no reset value) are not in it. Every store is in its canonical form. -/
def Obligations.RegistersReadTheirResetValues : Prop :=
  (∀ x ∈ [(0x000, 0x4D524128), (0x008, 0x1412874F), (0x104, 1), (0x20000C, 180000), (0x200000, 0), (0x300000, 0), (0x300004, 0),
      (0x300010, 0x9C4), (0x300014, 0x4E2), (0x300018, 0x271), (0x30001C, 0xFA), (0x300020, 0x400FA), (0x300024, 0),
      (0x480000, 0x201800), (0x48000C, 0x81000), (0xB0000C, 0xFFFFFFFF), (0xD00004, 0xAA), (0xD0000C, 0x7D0), (0xD00040, 0x73),
      (0xE00100, 0x10), (0xF00004, 0), (0x1100000, 0), (0x1100004, 0)], csrLive State.reset x.1 = some x.2) ∧
  (∀ n : Fin 128, csrLive State.reset (0x1000 + 4 * n.val) = some 0) ∧
  (∀ k : Fin 136, csrLive State.reset (0x1400 + 4 * k.val) = some 0xFF00) ∧
  (∀ n : Fin 16, csrLive State.reset (0x101010 + 0x40 * n.val) = some 0x44) ∧
  (∀ c : Fin 8, csrLive State.reset (0x400000 + 0x10000 * c.val) = some 0x800000) ∧
  (∀ i : Fin 32, csrLive State.reset (0xA00104 + 8 * i.val) = some 0xFFFFFFFF) ∧
  (∀ d : Fin 4, csrLive State.reset (0xD00024 + 8 * d.val) = some 5 ∧ csrLive State.reset (0xE00000 + 0x10 * d.val) = some 0xFFFF0000) ∧
  (∀ p : Proc, (State.reset.seq p).floor = 0 ∧ (State.reset.seq p).depth = 0 ∧ (State.reset.seq p).selen = false ∧
    (State.reset.seq p).sel = 0 ∧ (State.reset.seq p).inTrap = false ∧ (State.reset.seq p).spillBase = 0 ∧
    (State.reset.seq p).trapBase = 0 ∧ (State.reset.seq p).epc = 0 ∧ (State.reset.seq p).ecause = 0 ∧ (State.reset.seq p).eaddr = 0 ∧
    (State.reset.seq p).taskLbl = 0) ∧
  (∀ t : Fin 136, (State.reset.tiles[t]).aflags = 0) ∧
  State.reset.tly.tab = [] ∧ StoresOk State.reset

/-- Every step keeps every store of the device in its canonical form (addresses strictly rising, no byte 0 listed): device memory,
the private SRAMs, the boot flash and the host's memory. -/
def Obligations.StoresStayCanonical : Prop :=
  ∀ s t : State, StoresOk s → step s = .next t → StoresOk t
end

