-- ==== Sys2Proof/Laws/Memory.lean ====
section
/-! SUPPORT. The laws of stores: a read after a write to the same place gives what was written, a write leaves every other place
alone, and every memory operation keeps the canonical form. -/

namespace Sys2Proof.Machine

variable {α : Type} [DecidableEq α]

/-- A bound below every key of a table in canonical form. -/
theorem tabWfFrom_mono (d : α) : ∀ (m : List (Nat × α)) (l l' : Nat), l' ≤ l → tabWfFrom d (some l) m = true →
    tabWfFrom d (some l') m = true
  | [], _, _, _, _ => rfl
  | (a, b) :: m, l, l', h, w => by
    simp only [tabWfFrom, Bool.and_eq_true, decide_eq_true_eq] at w ⊢
    exact ⟨⟨by omega, w.1.2⟩, w.2⟩

theorem tabWf_of_from (d : α) : ∀ (m : List (Nat × α)) (l : Nat), tabWfFrom d (some l) m = true → tabWf d m = true
  | [], _, _ => rfl
  | (a, b) :: m, l, w => by
    simp only [tabWf, tabWfFrom, Bool.and_eq_true, decide_eq_true_eq, true_and] at w ⊢
    exact ⟨w.1.2, w.2⟩

/-- Below its bound a table lists nothing. -/
theorem tabGet_below (d : α) : ∀ (m : List (Nat × α)) (l x : Nat), tabWfFrom d (some l) m = true → x ≤ l → tabGet d m x = d
  | [], _, _, _, _ => rfl
  | (a, b) :: m, l, x, w, h => by
    simp only [tabWfFrom, Bool.and_eq_true, decide_eq_true_eq] at w
    simp only [tabGet]
    rw [if_pos (by omega)]

/-- Writing keeps the canonical form above a bound. -/
theorem tabPut_wfFrom (d : α) : ∀ (m : List (Nat × α)) (l x : Nat) (v : α), tabWfFrom d (some l) m = true → l < x →
    tabWfFrom d (some l) (tabPut d m x v) = true
  | [], l, x, v, _, h => by
    by_cases hv : v = d <;> simp [tabPut, tabWfFrom, hv, h]
  | (a, b) :: m, l, x, v, w, h => by
    simp only [tabWfFrom, Bool.and_eq_true, decide_eq_true_eq] at w
    simp only [tabPut]
    split
    · split
      · simp [tabWfFrom, w.1.1, w.1.2, w.2]
      · rename_i hx hv
        simp only [tabWfFrom, Bool.and_eq_true, decide_eq_true_eq]
        exact ⟨⟨h, hv⟩, ⟨⟨hx, w.1.2⟩, w.2⟩⟩
    · split
      · split
        · exact tabWfFrom_mono d m a l (by omega) w.2
        · rename_i hx hv
          simp only [tabWfFrom, Bool.and_eq_true, decide_eq_true_eq]
          exact ⟨⟨h, hv⟩, by rw [hx]; exact w.2⟩
      · simp only [tabWfFrom, Bool.and_eq_true, decide_eq_true_eq]
        exact ⟨w.1, tabPut_wfFrom d m a x v w.2 (by omega)⟩

/-- Writing a value at a key keeps the canonical form. -/
theorem tabPut_wf (d : α) (m : List (Nat × α)) (x : Nat) (v : α) (w : tabWf d m = true) : tabWf d (tabPut d m x v) = true := by
  cases m with
  | nil => by_cases hv : v = d <;> simp [tabPut, tabWf, tabWfFrom, hv]
  | cons c m =>
    obtain ⟨a, b⟩ := c
    simp only [tabWf, tabWfFrom, Bool.and_eq_true, decide_eq_true_eq, true_and] at w
    simp only [tabPut]
    split
    · split
      · simp [tabWf, tabWfFrom, w.1, w.2]
      · rename_i hx hv
        simp [tabWf, tabWfFrom, hv, hx, w.1, w.2]
    · split
      · split
        · exact tabWf_of_from d m a w.2
        · rename_i hx hv
          simp [tabWf, tabWfFrom, hv, hx, w.2]
      · simp only [tabWf, tabWfFrom, Bool.and_eq_true, decide_eq_true_eq, true_and]
        exact ⟨w.1, tabPut_wfFrom d m a x v w.2 (by omega)⟩

/-- A read after a write to the same key gives the value written. -/
theorem tabGet_tabPut_from (d : α) : ∀ (m : List (Nat × α)) (l x : Nat) (v : α), tabWfFrom d (some l) m = true → l < x →
    tabGet d (tabPut d m x v) x = v
  | [], l, x, v, _, _ => by
    by_cases hv : v = d <;> simp [tabPut, tabGet, hv]
  | (a, b) :: m, l, x, v, w, h => by
    simp only [tabWfFrom, Bool.and_eq_true, decide_eq_true_eq] at w
    simp only [tabPut]
    split
    · rename_i hx
      split
      · rename_i hv
        simp [tabGet, hx, hv]
      · simp [tabGet]
    · rename_i hx
      split
      · rename_i e
        subst e
        split
        · rename_i hv
          rw [hv]
          exact tabGet_below d m x x w.2 (Nat.le_refl x)
        · simp [tabGet]
      · rename_i e
        simp only [tabGet, hx, e, if_false]
        exact tabGet_tabPut_from d m a x v w.2 (by omega)

theorem tabGet_tabPut (d : α) (m : List (Nat × α)) (x : Nat) (v : α) (w : tabWf d m = true) :
    tabGet d (tabPut d m x v) x = v := by
  cases m with
  | nil => by_cases hv : v = d <;> simp [tabPut, tabGet, hv]
  | cons c m =>
    obtain ⟨a, b⟩ := c
    simp only [tabWf, tabWfFrom, Bool.and_eq_true, decide_eq_true_eq, true_and] at w
    simp only [tabPut]
    split
    · rename_i hx
      split
      · rename_i hv
        simp [tabGet, hx, hv]
      · simp [tabGet]
    · rename_i hx
      split
      · rename_i e
        subst e
        split
        · rename_i hv
          rw [hv]
          exact tabGet_below d m x x w.2 (Nat.le_refl x)
        · simp [tabGet]
      · rename_i e
        simp only [tabGet, hx, e, if_false]
        exact tabGet_tabPut_from d m a x v w.2 (by omega)

/-- A write leaves every other key alone. -/
theorem tabGet_tabPut_ne (d : α) : ∀ (m : List (Nat × α)) (x y : Nat) (v : α), tabWf d m = true → y ≠ x →
    tabGet d (tabPut d m x v) y = tabGet d m y
  | [], x, y, v, _, h => by
    by_cases hv : v = d
    · simp [tabPut, hv]
    · simp only [tabPut, hv, if_false, tabGet]
      by_cases hy : y < x <;> simp [hy, h]
  | (a, b) :: m, x, y, v, w, h => by
    simp only [tabWf, tabWfFrom, Bool.and_eq_true, decide_eq_true_eq, true_and] at w
    have wm : tabWf d m = true := tabWf_of_from d m a w.2
    simp only [tabPut]
    split
    · rename_i hx
      split
      · rfl
      · simp only [tabGet]
        by_cases h1 : y < x
        · simp [h1, Nat.lt_trans h1 hx]
        · simp [h1, h]
    · rename_i hx
      split
      · rename_i e
        subst e
        split
        · simp only [tabGet]
          by_cases h1 : y < x
          · simp only [h1, if_true]
            exact tabGet_below d m x y w.2 (by omega)
          · simp [h1, h]
        · simp only [tabGet]
          by_cases h1 : y < x <;> simp [h1, h]
      · simp only [tabGet]
        rw [tabGet_tabPut_ne d m x y v wm h]

/-! ## Memory -/

/-- Writing a byte keeps the canonical form. -/
theorem memPut_wf (m : Mem) (a : Nat) (b : Byte) (h : Memory.wf m = true) : Memory.wf (memPut m a b) = true :=
  tabPut_wf 0 m a b h

/-- Writing bytes keeps the canonical form. -/
theorem memPutN_wf : ∀ (m : Mem) (a : Nat) (bs : List Byte), Memory.wf m = true → Memory.wf (memPutN m a bs) = true
  | _, _, [], h => h
  | m, a, b :: bs, h => memPutN_wf (memPut m a b) (a + 1) bs (memPut_wf m a b h)

/-- A byte read where it was written. -/
theorem memGet_memPut (m : Mem) (a : Nat) (b : Byte) (h : Memory.wf m = true) : memGet (memPut m a b) a = b :=
  tabGet_tabPut 0 m a b h

/-- A byte read elsewhere. -/
theorem memGet_memPut_ne (m : Mem) (a x : Nat) (b : Byte) (h : Memory.wf m = true) (hx : x ≠ a) :
    memGet (memPut m a b) x = memGet m x :=
  tabGet_tabPut_ne 0 m a x b h hx

/-- Outside the bytes written nothing changes. -/
theorem memGet_memPutN_outside : ∀ (m : Mem) (a x : Nat) (bs : List Byte), Memory.wf m = true → x < a ∨ a + bs.length ≤ x →
    memGet (memPutN m a bs) x = memGet m x
  | _, _, _, [], _, _ => rfl
  | m, a, x, b :: bs, h, hx => by
    simp only [List.length_cons] at hx
    simp only [memPutN]
    rw [memGet_memPutN_outside (memPut m a b) (a + 1) x bs (memPut_wf m a b h) (by omega)]
    exact memGet_memPut_ne m a x b h (by omega)

/-- Inside them the byte written is read. -/
theorem memGet_memPutN_inside : ∀ (m : Mem) (a i : Nat) (bs : List Byte) (_ : Memory.wf m = true) (hi : i < bs.length),
    memGet (memPutN m a bs) (a + i) = bs[i]
  | m, a, i, b :: bs, h, hi => by
    cases i with
    | zero =>
      simp only [memPutN, Nat.add_zero, List.getElem_cons_zero]
      rw [memGet_memPutN_outside (memPut m a b) (a + 1) a bs (memPut_wf m a b h) (by omega)]
      exact memGet_memPut m a b h
    | succ i =>
      simp only [memPutN, List.getElem_cons_succ]
      have e : a + (i + 1) = a + 1 + i := by omega
      rw [e]
      exact memGet_memPutN_inside (memPut m a b) (a + 1) i bs (memPut_wf m a b h) (by simpa using hi)

/-- Leaving out entries keeps the canonical form above a bound. -/
theorem filter_wfFrom (d : α) (f : Nat × α → Bool) : ∀ (m : List (Nat × α)) (l : Nat), tabWfFrom d (some l) m = true →
    tabWfFrom d (some l) (m.filter f) = true
  | [], _, _ => rfl
  | (a, b) :: m, l, w => by
    simp only [tabWfFrom, Bool.and_eq_true, decide_eq_true_eq] at w
    simp only [List.filter_cons]
    split
    · simp only [tabWfFrom, Bool.and_eq_true, decide_eq_true_eq]
      exact ⟨w.1, filter_wfFrom d f m a w.2⟩
    · exact tabWfFrom_mono d _ a l (by omega) (filter_wfFrom d f m a w.2)

/-- Leaving out entries keeps the canonical form. -/
theorem filter_wf (d : α) (f : Nat × α → Bool) (m : List (Nat × α)) (w : tabWf d m = true) : tabWf d (m.filter f) = true := by
  cases m with
  | nil => rfl
  | cons c m =>
    obtain ⟨a, b⟩ := c
    simp only [tabWf, tabWfFrom, Bool.and_eq_true, decide_eq_true_eq, true_and] at w
    simp only [List.filter_cons]
    split
    · simp only [tabWf, tabWfFrom, Bool.and_eq_true, decide_eq_true_eq, true_and]
      exact ⟨w.1, filter_wfFrom d f m a w.2⟩
    · exact tabWf_of_from d _ a (filter_wfFrom d f m a w.2)

/-- Two tables in canonical form, the second above the first, make one. -/
theorem append_wfFrom (d : α) (k : Nat) : ∀ (m m' : List (Nat × α)) (l : Nat), tabWfFrom d (some l) m = true →
    (∀ c ∈ m, c.1 < k) → l < k → (∀ l', l' < k → tabWfFrom d (some l') m' = true) → tabWfFrom d (some l) (m ++ m') = true
  | [], m', l, _, _, hl, h => h l hl
  | (a, b) :: m, m', l, w, hk, hl, h => by
    simp only [tabWfFrom, Bool.and_eq_true, decide_eq_true_eq] at w
    simp only [List.cons_append, tabWfFrom, Bool.and_eq_true, decide_eq_true_eq]
    exact ⟨w.1, append_wfFrom d k m m' a w.2 (fun c hc => hk c (List.mem_cons_of_mem _ hc)) (hk (a, b) List.mem_cons_self) h⟩

/-- Erasing a range keeps the canonical form. -/
theorem tabErase_wf (m : Mem) (a n : Nat) (h : Memory.wf m = true) : Memory.wf (tabErase m a n) = true :=
  filter_wf 0 _ m h

end Sys2Proof.Machine
end

