-- ==== Sys2Proof/Laws/Vec.lean ====
section
/-! SUPPORT. Reading a vector after one of its entries has been updated. -/

namespace Sys2Proof.Machine

@[simp] theorem vmod_self {α : Type} {n : Nat} (v : Vector α n) (i : Fin n) (f : α → α) : (vmod v i f)[i] = f v[i] := by
  simp [vmod]

@[simp] theorem vmod_nat_self {α : Type} {n : Nat} (v : Vector α n) (i : Fin n) (f : α → α) :
    (vmod v i f)[i.val] = f v[i.val] := by
  simp [vmod]

theorem vmod_ne {α : Type} {n : Nat} (v : Vector α n) (i j : Fin n) (f : α → α) (h : j ≠ i) : (vmod v i f)[j] = v[j] := by
  have h' : i.val ≠ j.val := fun e => h (Fin.ext e.symm)
  simp [vmod, Vector.getElem_set_ne, h']

theorem vmod_nat_ne {α : Type} {n : Nat} (v : Vector α n) (i j : Fin n) (f : α → α) (h : j ≠ i) :
    (vmod v i f)[j.val] = v[j.val] := by
  have h' : i.val ≠ j.val := fun e => h (Fin.ext e.symm)
  simp [vmod, Vector.getElem_set_ne, h']

/-- Updating an entry to what it holds changes nothing. -/
theorem vmod_same {α : Type} {n : Nat} (v : Vector α n) (i : Fin n) (f : α → α) (h : f v[i] = v[i]) : vmod v i f = v := by
  unfold vmod
  rw [h]
  simp

@[simp] theorem vmod_id {α : Type} {n : Nat} (v : Vector α n) (i : Fin n) : (vmod v i fun _ => v[i]) = v := by
  simp [vmod]

@[simp] theorem vmod_vmod {α : Type} {n : Nat} (v : Vector α n) (i : Fin n) (f g : α → α) :
    vmod (vmod v i f) i g = vmod v i (fun x => g (f x)) := by
  simp [vmod]

end Sys2Proof.Machine
end

