-- ==== Sys2Proof/Laws/State.lean ====
section
/-! SUPPORT. What each update of one part of the state leaves and writes: one lemma per field and update, so that no proof unfolds
a record update. -/

namespace Sys2Proof.Machine

/-! ### State.modTly -/

@[simp] theorem State.modTly_tiles (s : State) (f : TallySt → TallySt) : (s.modTly f).tiles = s.tiles := rfl
@[simp] theorem State.modTly_mp (s : State) (f : TallySt → TallySt) : (s.modTly f).mp = s.mp := rfl
@[simp] theorem State.modTly_deps (s : State) (f : TallySt → TallySt) : (s.modTly f).deps = s.deps := rfl
@[simp] theorem State.modTly_mem (s : State) (f : TallySt → TallySt) : (s.modTly f).mem = s.mem := rfl
@[simp] theorem State.modTly_ecc (s : State) (f : TallySt → TallySt) : (s.modTly f).ecc = s.ecc := rfl
@[simp] theorem State.modTly_mpDma (s : State) (f : TallySt → TallySt) : (s.modTly f).mpDma = s.mpDma := rfl
@[simp] theorem State.modTly_mpSram (s : State) (f : TallySt → TallySt) : (s.modTly f).mpSram = s.mpSram := rfl
@[simp] theorem State.modTly_mpEcc (s : State) (f : TallySt → TallySt) : (s.modTly f).mpEcc = s.mpEcc := rfl
@[simp] theorem State.modTly_mpCache (s : State) (f : TallySt → TallySt) : (s.modTly f).mpCache = s.mpCache := rfl
@[simp] theorem State.modTly_flash (s : State) (f : TallySt → TallySt) : (s.modTly f).flash = s.flash := rfl
@[simp] theorem State.modTly_hostMem (s : State) (f : TallySt → TallySt) : (s.modTly f).hostMem = s.hostMem := rfl
@[simp] theorem State.modTly_tly (s : State) (f : TallySt → TallySt) : (s.modTly f).tly = f s.tly := rfl
@[simp] theorem State.modTly_fab (s : State) (f : TallySt → TallySt) : (s.modTly f).fab = s.fab := rfl
@[simp] theorem State.modTly_cmd (s : State) (f : TallySt → TallySt) : (s.modTly f).cmd = s.cmd := rfl
@[simp] theorem State.modTly_prog (s : State) (f : TallySt → TallySt) : (s.modTly f).prog = s.prog := rfl
@[simp] theorem State.modTly_snap (s : State) (f : TallySt → TallySt) : (s.modTly f).snap = s.snap := rfl
@[simp] theorem State.modTly_dmc (s : State) (f : TallySt → TallySt) : (s.modTly f).dmc = s.dmc := rfl
@[simp] theorem State.modTly_int (s : State) (f : TallySt → TallySt) : (s.modTly f).int = s.int := rfl
@[simp] theorem State.modTly_fus (s : State) (f : TallySt → TallySt) : (s.modTly f).fus = s.fus := rfl
@[simp] theorem State.modTly_pln (s : State) (f : TallySt → TallySt) : (s.modTly f).pln = s.pln := rfl
@[simp] theorem State.modTly_saf (s : State) (f : TallySt → TallySt) : (s.modTly f).saf = s.saf := rfl
@[simp] theorem State.modTly_cvu (s : State) (f : TallySt → TallySt) : (s.modTly f).cvu = s.cvu := rfl
@[simp] theorem State.modTly_pwr (s : State) (f : TallySt → TallySt) : (s.modTly f).pwr = s.pwr := rfl
@[simp] theorem State.modTly_wear (s : State) (f : TallySt → TallySt) : (s.modTly f).wear = s.wear := rfl
@[simp] theorem State.modTly_ifc (s : State) (f : TallySt → TallySt) : (s.modTly f).ifc = s.ifc := rfl
@[simp] theorem State.modTly_tim (s : State) (f : TallySt → TallySt) : (s.modTly f).tim = s.tim := rfl
@[simp] theorem State.modTly_dbg (s : State) (f : TallySt → TallySt) : (s.modTly f).dbg = s.dbg := rfl
@[simp] theorem State.modTly_boot (s : State) (f : TallySt → TallySt) : (s.modTly f).boot = s.boot := rfl
@[simp] theorem State.modTly_fuse (s : State) (f : TallySt → TallySt) : (s.modTly f).fuse = s.fuse := rfl
@[simp] theorem State.modTly_free (s : State) (f : TallySt → TallySt) : (s.modTly f).free = s.free := rfl
@[simp] theorem State.modTly_pending (s : State) (f : TallySt → TallySt) : (s.modTly f).pending = s.pending := rfl

/-! ### State.modFab -/

@[simp] theorem State.modFab_tiles (s : State) (f : FabSt → FabSt) : (s.modFab f).tiles = s.tiles := rfl
@[simp] theorem State.modFab_mp (s : State) (f : FabSt → FabSt) : (s.modFab f).mp = s.mp := rfl
@[simp] theorem State.modFab_deps (s : State) (f : FabSt → FabSt) : (s.modFab f).deps = s.deps := rfl
@[simp] theorem State.modFab_mem (s : State) (f : FabSt → FabSt) : (s.modFab f).mem = s.mem := rfl
@[simp] theorem State.modFab_ecc (s : State) (f : FabSt → FabSt) : (s.modFab f).ecc = s.ecc := rfl
@[simp] theorem State.modFab_mpDma (s : State) (f : FabSt → FabSt) : (s.modFab f).mpDma = s.mpDma := rfl
@[simp] theorem State.modFab_mpSram (s : State) (f : FabSt → FabSt) : (s.modFab f).mpSram = s.mpSram := rfl
@[simp] theorem State.modFab_mpEcc (s : State) (f : FabSt → FabSt) : (s.modFab f).mpEcc = s.mpEcc := rfl
@[simp] theorem State.modFab_mpCache (s : State) (f : FabSt → FabSt) : (s.modFab f).mpCache = s.mpCache := rfl
@[simp] theorem State.modFab_flash (s : State) (f : FabSt → FabSt) : (s.modFab f).flash = s.flash := rfl
@[simp] theorem State.modFab_hostMem (s : State) (f : FabSt → FabSt) : (s.modFab f).hostMem = s.hostMem := rfl
@[simp] theorem State.modFab_tly (s : State) (f : FabSt → FabSt) : (s.modFab f).tly = s.tly := rfl
@[simp] theorem State.modFab_fab (s : State) (f : FabSt → FabSt) : (s.modFab f).fab = f s.fab := rfl
@[simp] theorem State.modFab_cmd (s : State) (f : FabSt → FabSt) : (s.modFab f).cmd = s.cmd := rfl
@[simp] theorem State.modFab_prog (s : State) (f : FabSt → FabSt) : (s.modFab f).prog = s.prog := rfl
@[simp] theorem State.modFab_snap (s : State) (f : FabSt → FabSt) : (s.modFab f).snap = s.snap := rfl
@[simp] theorem State.modFab_dmc (s : State) (f : FabSt → FabSt) : (s.modFab f).dmc = s.dmc := rfl
@[simp] theorem State.modFab_int (s : State) (f : FabSt → FabSt) : (s.modFab f).int = s.int := rfl
@[simp] theorem State.modFab_fus (s : State) (f : FabSt → FabSt) : (s.modFab f).fus = s.fus := rfl
@[simp] theorem State.modFab_pln (s : State) (f : FabSt → FabSt) : (s.modFab f).pln = s.pln := rfl
@[simp] theorem State.modFab_saf (s : State) (f : FabSt → FabSt) : (s.modFab f).saf = s.saf := rfl
@[simp] theorem State.modFab_cvu (s : State) (f : FabSt → FabSt) : (s.modFab f).cvu = s.cvu := rfl
@[simp] theorem State.modFab_pwr (s : State) (f : FabSt → FabSt) : (s.modFab f).pwr = s.pwr := rfl
@[simp] theorem State.modFab_wear (s : State) (f : FabSt → FabSt) : (s.modFab f).wear = s.wear := rfl
@[simp] theorem State.modFab_ifc (s : State) (f : FabSt → FabSt) : (s.modFab f).ifc = s.ifc := rfl
@[simp] theorem State.modFab_tim (s : State) (f : FabSt → FabSt) : (s.modFab f).tim = s.tim := rfl
@[simp] theorem State.modFab_dbg (s : State) (f : FabSt → FabSt) : (s.modFab f).dbg = s.dbg := rfl
@[simp] theorem State.modFab_boot (s : State) (f : FabSt → FabSt) : (s.modFab f).boot = s.boot := rfl
@[simp] theorem State.modFab_fuse (s : State) (f : FabSt → FabSt) : (s.modFab f).fuse = s.fuse := rfl
@[simp] theorem State.modFab_free (s : State) (f : FabSt → FabSt) : (s.modFab f).free = s.free := rfl
@[simp] theorem State.modFab_pending (s : State) (f : FabSt → FabSt) : (s.modFab f).pending = s.pending := rfl

/-! ### State.modCmd -/

@[simp] theorem State.modCmd_tiles (s : State) (f : CmdSt → CmdSt) : (s.modCmd f).tiles = s.tiles := rfl
@[simp] theorem State.modCmd_mp (s : State) (f : CmdSt → CmdSt) : (s.modCmd f).mp = s.mp := rfl
@[simp] theorem State.modCmd_deps (s : State) (f : CmdSt → CmdSt) : (s.modCmd f).deps = s.deps := rfl
@[simp] theorem State.modCmd_mem (s : State) (f : CmdSt → CmdSt) : (s.modCmd f).mem = s.mem := rfl
@[simp] theorem State.modCmd_ecc (s : State) (f : CmdSt → CmdSt) : (s.modCmd f).ecc = s.ecc := rfl
@[simp] theorem State.modCmd_mpDma (s : State) (f : CmdSt → CmdSt) : (s.modCmd f).mpDma = s.mpDma := rfl
@[simp] theorem State.modCmd_mpSram (s : State) (f : CmdSt → CmdSt) : (s.modCmd f).mpSram = s.mpSram := rfl
@[simp] theorem State.modCmd_mpEcc (s : State) (f : CmdSt → CmdSt) : (s.modCmd f).mpEcc = s.mpEcc := rfl
@[simp] theorem State.modCmd_mpCache (s : State) (f : CmdSt → CmdSt) : (s.modCmd f).mpCache = s.mpCache := rfl
@[simp] theorem State.modCmd_flash (s : State) (f : CmdSt → CmdSt) : (s.modCmd f).flash = s.flash := rfl
@[simp] theorem State.modCmd_hostMem (s : State) (f : CmdSt → CmdSt) : (s.modCmd f).hostMem = s.hostMem := rfl
@[simp] theorem State.modCmd_tly (s : State) (f : CmdSt → CmdSt) : (s.modCmd f).tly = s.tly := rfl
@[simp] theorem State.modCmd_fab (s : State) (f : CmdSt → CmdSt) : (s.modCmd f).fab = s.fab := rfl
@[simp] theorem State.modCmd_cmd (s : State) (f : CmdSt → CmdSt) : (s.modCmd f).cmd = f s.cmd := rfl
@[simp] theorem State.modCmd_prog (s : State) (f : CmdSt → CmdSt) : (s.modCmd f).prog = s.prog := rfl
@[simp] theorem State.modCmd_snap (s : State) (f : CmdSt → CmdSt) : (s.modCmd f).snap = s.snap := rfl
@[simp] theorem State.modCmd_dmc (s : State) (f : CmdSt → CmdSt) : (s.modCmd f).dmc = s.dmc := rfl
@[simp] theorem State.modCmd_int (s : State) (f : CmdSt → CmdSt) : (s.modCmd f).int = s.int := rfl
@[simp] theorem State.modCmd_fus (s : State) (f : CmdSt → CmdSt) : (s.modCmd f).fus = s.fus := rfl
@[simp] theorem State.modCmd_pln (s : State) (f : CmdSt → CmdSt) : (s.modCmd f).pln = s.pln := rfl
@[simp] theorem State.modCmd_saf (s : State) (f : CmdSt → CmdSt) : (s.modCmd f).saf = s.saf := rfl
@[simp] theorem State.modCmd_cvu (s : State) (f : CmdSt → CmdSt) : (s.modCmd f).cvu = s.cvu := rfl
@[simp] theorem State.modCmd_pwr (s : State) (f : CmdSt → CmdSt) : (s.modCmd f).pwr = s.pwr := rfl
@[simp] theorem State.modCmd_wear (s : State) (f : CmdSt → CmdSt) : (s.modCmd f).wear = s.wear := rfl
@[simp] theorem State.modCmd_ifc (s : State) (f : CmdSt → CmdSt) : (s.modCmd f).ifc = s.ifc := rfl
@[simp] theorem State.modCmd_tim (s : State) (f : CmdSt → CmdSt) : (s.modCmd f).tim = s.tim := rfl
@[simp] theorem State.modCmd_dbg (s : State) (f : CmdSt → CmdSt) : (s.modCmd f).dbg = s.dbg := rfl
@[simp] theorem State.modCmd_boot (s : State) (f : CmdSt → CmdSt) : (s.modCmd f).boot = s.boot := rfl
@[simp] theorem State.modCmd_fuse (s : State) (f : CmdSt → CmdSt) : (s.modCmd f).fuse = s.fuse := rfl
@[simp] theorem State.modCmd_free (s : State) (f : CmdSt → CmdSt) : (s.modCmd f).free = s.free := rfl
@[simp] theorem State.modCmd_pending (s : State) (f : CmdSt → CmdSt) : (s.modCmd f).pending = s.pending := rfl

/-! ### State.modProg -/

@[simp] theorem State.modProg_tiles (s : State) (f : ProgSt → ProgSt) : (s.modProg f).tiles = s.tiles := rfl
@[simp] theorem State.modProg_mp (s : State) (f : ProgSt → ProgSt) : (s.modProg f).mp = s.mp := rfl
@[simp] theorem State.modProg_deps (s : State) (f : ProgSt → ProgSt) : (s.modProg f).deps = s.deps := rfl
@[simp] theorem State.modProg_mem (s : State) (f : ProgSt → ProgSt) : (s.modProg f).mem = s.mem := rfl
@[simp] theorem State.modProg_ecc (s : State) (f : ProgSt → ProgSt) : (s.modProg f).ecc = s.ecc := rfl
@[simp] theorem State.modProg_mpDma (s : State) (f : ProgSt → ProgSt) : (s.modProg f).mpDma = s.mpDma := rfl
@[simp] theorem State.modProg_mpSram (s : State) (f : ProgSt → ProgSt) : (s.modProg f).mpSram = s.mpSram := rfl
@[simp] theorem State.modProg_mpEcc (s : State) (f : ProgSt → ProgSt) : (s.modProg f).mpEcc = s.mpEcc := rfl
@[simp] theorem State.modProg_mpCache (s : State) (f : ProgSt → ProgSt) : (s.modProg f).mpCache = s.mpCache := rfl
@[simp] theorem State.modProg_flash (s : State) (f : ProgSt → ProgSt) : (s.modProg f).flash = s.flash := rfl
@[simp] theorem State.modProg_hostMem (s : State) (f : ProgSt → ProgSt) : (s.modProg f).hostMem = s.hostMem := rfl
@[simp] theorem State.modProg_tly (s : State) (f : ProgSt → ProgSt) : (s.modProg f).tly = s.tly := rfl
@[simp] theorem State.modProg_fab (s : State) (f : ProgSt → ProgSt) : (s.modProg f).fab = s.fab := rfl
@[simp] theorem State.modProg_cmd (s : State) (f : ProgSt → ProgSt) : (s.modProg f).cmd = s.cmd := rfl
@[simp] theorem State.modProg_prog (s : State) (f : ProgSt → ProgSt) : (s.modProg f).prog = f s.prog := rfl
@[simp] theorem State.modProg_snap (s : State) (f : ProgSt → ProgSt) : (s.modProg f).snap = s.snap := rfl
@[simp] theorem State.modProg_dmc (s : State) (f : ProgSt → ProgSt) : (s.modProg f).dmc = s.dmc := rfl
@[simp] theorem State.modProg_int (s : State) (f : ProgSt → ProgSt) : (s.modProg f).int = s.int := rfl
@[simp] theorem State.modProg_fus (s : State) (f : ProgSt → ProgSt) : (s.modProg f).fus = s.fus := rfl
@[simp] theorem State.modProg_pln (s : State) (f : ProgSt → ProgSt) : (s.modProg f).pln = s.pln := rfl
@[simp] theorem State.modProg_saf (s : State) (f : ProgSt → ProgSt) : (s.modProg f).saf = s.saf := rfl
@[simp] theorem State.modProg_cvu (s : State) (f : ProgSt → ProgSt) : (s.modProg f).cvu = s.cvu := rfl
@[simp] theorem State.modProg_pwr (s : State) (f : ProgSt → ProgSt) : (s.modProg f).pwr = s.pwr := rfl
@[simp] theorem State.modProg_wear (s : State) (f : ProgSt → ProgSt) : (s.modProg f).wear = s.wear := rfl
@[simp] theorem State.modProg_ifc (s : State) (f : ProgSt → ProgSt) : (s.modProg f).ifc = s.ifc := rfl
@[simp] theorem State.modProg_tim (s : State) (f : ProgSt → ProgSt) : (s.modProg f).tim = s.tim := rfl
@[simp] theorem State.modProg_dbg (s : State) (f : ProgSt → ProgSt) : (s.modProg f).dbg = s.dbg := rfl
@[simp] theorem State.modProg_boot (s : State) (f : ProgSt → ProgSt) : (s.modProg f).boot = s.boot := rfl
@[simp] theorem State.modProg_fuse (s : State) (f : ProgSt → ProgSt) : (s.modProg f).fuse = s.fuse := rfl
@[simp] theorem State.modProg_free (s : State) (f : ProgSt → ProgSt) : (s.modProg f).free = s.free := rfl
@[simp] theorem State.modProg_pending (s : State) (f : ProgSt → ProgSt) : (s.modProg f).pending = s.pending := rfl

/-! ### State.modDmc -/

@[simp] theorem State.modDmc_tiles (s : State) (f : DmcSt → DmcSt) : (s.modDmc f).tiles = s.tiles := rfl
@[simp] theorem State.modDmc_mp (s : State) (f : DmcSt → DmcSt) : (s.modDmc f).mp = s.mp := rfl
@[simp] theorem State.modDmc_deps (s : State) (f : DmcSt → DmcSt) : (s.modDmc f).deps = s.deps := rfl
@[simp] theorem State.modDmc_mem (s : State) (f : DmcSt → DmcSt) : (s.modDmc f).mem = s.mem := rfl
@[simp] theorem State.modDmc_ecc (s : State) (f : DmcSt → DmcSt) : (s.modDmc f).ecc = s.ecc := rfl
@[simp] theorem State.modDmc_mpDma (s : State) (f : DmcSt → DmcSt) : (s.modDmc f).mpDma = s.mpDma := rfl
@[simp] theorem State.modDmc_mpSram (s : State) (f : DmcSt → DmcSt) : (s.modDmc f).mpSram = s.mpSram := rfl
@[simp] theorem State.modDmc_mpEcc (s : State) (f : DmcSt → DmcSt) : (s.modDmc f).mpEcc = s.mpEcc := rfl
@[simp] theorem State.modDmc_mpCache (s : State) (f : DmcSt → DmcSt) : (s.modDmc f).mpCache = s.mpCache := rfl
@[simp] theorem State.modDmc_flash (s : State) (f : DmcSt → DmcSt) : (s.modDmc f).flash = s.flash := rfl
@[simp] theorem State.modDmc_hostMem (s : State) (f : DmcSt → DmcSt) : (s.modDmc f).hostMem = s.hostMem := rfl
@[simp] theorem State.modDmc_tly (s : State) (f : DmcSt → DmcSt) : (s.modDmc f).tly = s.tly := rfl
@[simp] theorem State.modDmc_fab (s : State) (f : DmcSt → DmcSt) : (s.modDmc f).fab = s.fab := rfl
@[simp] theorem State.modDmc_cmd (s : State) (f : DmcSt → DmcSt) : (s.modDmc f).cmd = s.cmd := rfl
@[simp] theorem State.modDmc_prog (s : State) (f : DmcSt → DmcSt) : (s.modDmc f).prog = s.prog := rfl
@[simp] theorem State.modDmc_snap (s : State) (f : DmcSt → DmcSt) : (s.modDmc f).snap = s.snap := rfl
@[simp] theorem State.modDmc_dmc (s : State) (f : DmcSt → DmcSt) : (s.modDmc f).dmc = f s.dmc := rfl
@[simp] theorem State.modDmc_int (s : State) (f : DmcSt → DmcSt) : (s.modDmc f).int = s.int := rfl
@[simp] theorem State.modDmc_fus (s : State) (f : DmcSt → DmcSt) : (s.modDmc f).fus = s.fus := rfl
@[simp] theorem State.modDmc_pln (s : State) (f : DmcSt → DmcSt) : (s.modDmc f).pln = s.pln := rfl
@[simp] theorem State.modDmc_saf (s : State) (f : DmcSt → DmcSt) : (s.modDmc f).saf = s.saf := rfl
@[simp] theorem State.modDmc_cvu (s : State) (f : DmcSt → DmcSt) : (s.modDmc f).cvu = s.cvu := rfl
@[simp] theorem State.modDmc_pwr (s : State) (f : DmcSt → DmcSt) : (s.modDmc f).pwr = s.pwr := rfl
@[simp] theorem State.modDmc_wear (s : State) (f : DmcSt → DmcSt) : (s.modDmc f).wear = s.wear := rfl
@[simp] theorem State.modDmc_ifc (s : State) (f : DmcSt → DmcSt) : (s.modDmc f).ifc = s.ifc := rfl
@[simp] theorem State.modDmc_tim (s : State) (f : DmcSt → DmcSt) : (s.modDmc f).tim = s.tim := rfl
@[simp] theorem State.modDmc_dbg (s : State) (f : DmcSt → DmcSt) : (s.modDmc f).dbg = s.dbg := rfl
@[simp] theorem State.modDmc_boot (s : State) (f : DmcSt → DmcSt) : (s.modDmc f).boot = s.boot := rfl
@[simp] theorem State.modDmc_fuse (s : State) (f : DmcSt → DmcSt) : (s.modDmc f).fuse = s.fuse := rfl
@[simp] theorem State.modDmc_free (s : State) (f : DmcSt → DmcSt) : (s.modDmc f).free = s.free := rfl
@[simp] theorem State.modDmc_pending (s : State) (f : DmcSt → DmcSt) : (s.modDmc f).pending = s.pending := rfl

/-! ### State.modInt -/

@[simp] theorem State.modInt_tiles (s : State) (f : IntSt → IntSt) : (s.modInt f).tiles = s.tiles := rfl
@[simp] theorem State.modInt_mp (s : State) (f : IntSt → IntSt) : (s.modInt f).mp = s.mp := rfl
@[simp] theorem State.modInt_deps (s : State) (f : IntSt → IntSt) : (s.modInt f).deps = s.deps := rfl
@[simp] theorem State.modInt_mem (s : State) (f : IntSt → IntSt) : (s.modInt f).mem = s.mem := rfl
@[simp] theorem State.modInt_ecc (s : State) (f : IntSt → IntSt) : (s.modInt f).ecc = s.ecc := rfl
@[simp] theorem State.modInt_mpDma (s : State) (f : IntSt → IntSt) : (s.modInt f).mpDma = s.mpDma := rfl
@[simp] theorem State.modInt_mpSram (s : State) (f : IntSt → IntSt) : (s.modInt f).mpSram = s.mpSram := rfl
@[simp] theorem State.modInt_mpEcc (s : State) (f : IntSt → IntSt) : (s.modInt f).mpEcc = s.mpEcc := rfl
@[simp] theorem State.modInt_mpCache (s : State) (f : IntSt → IntSt) : (s.modInt f).mpCache = s.mpCache := rfl
@[simp] theorem State.modInt_flash (s : State) (f : IntSt → IntSt) : (s.modInt f).flash = s.flash := rfl
@[simp] theorem State.modInt_hostMem (s : State) (f : IntSt → IntSt) : (s.modInt f).hostMem = s.hostMem := rfl
@[simp] theorem State.modInt_tly (s : State) (f : IntSt → IntSt) : (s.modInt f).tly = s.tly := rfl
@[simp] theorem State.modInt_fab (s : State) (f : IntSt → IntSt) : (s.modInt f).fab = s.fab := rfl
@[simp] theorem State.modInt_cmd (s : State) (f : IntSt → IntSt) : (s.modInt f).cmd = s.cmd := rfl
@[simp] theorem State.modInt_prog (s : State) (f : IntSt → IntSt) : (s.modInt f).prog = s.prog := rfl
@[simp] theorem State.modInt_snap (s : State) (f : IntSt → IntSt) : (s.modInt f).snap = s.snap := rfl
@[simp] theorem State.modInt_dmc (s : State) (f : IntSt → IntSt) : (s.modInt f).dmc = s.dmc := rfl
@[simp] theorem State.modInt_int (s : State) (f : IntSt → IntSt) : (s.modInt f).int = f s.int := rfl
@[simp] theorem State.modInt_fus (s : State) (f : IntSt → IntSt) : (s.modInt f).fus = s.fus := rfl
@[simp] theorem State.modInt_pln (s : State) (f : IntSt → IntSt) : (s.modInt f).pln = s.pln := rfl
@[simp] theorem State.modInt_saf (s : State) (f : IntSt → IntSt) : (s.modInt f).saf = s.saf := rfl
@[simp] theorem State.modInt_cvu (s : State) (f : IntSt → IntSt) : (s.modInt f).cvu = s.cvu := rfl
@[simp] theorem State.modInt_pwr (s : State) (f : IntSt → IntSt) : (s.modInt f).pwr = s.pwr := rfl
@[simp] theorem State.modInt_wear (s : State) (f : IntSt → IntSt) : (s.modInt f).wear = s.wear := rfl
@[simp] theorem State.modInt_ifc (s : State) (f : IntSt → IntSt) : (s.modInt f).ifc = s.ifc := rfl
@[simp] theorem State.modInt_tim (s : State) (f : IntSt → IntSt) : (s.modInt f).tim = s.tim := rfl
@[simp] theorem State.modInt_dbg (s : State) (f : IntSt → IntSt) : (s.modInt f).dbg = s.dbg := rfl
@[simp] theorem State.modInt_boot (s : State) (f : IntSt → IntSt) : (s.modInt f).boot = s.boot := rfl
@[simp] theorem State.modInt_fuse (s : State) (f : IntSt → IntSt) : (s.modInt f).fuse = s.fuse := rfl
@[simp] theorem State.modInt_free (s : State) (f : IntSt → IntSt) : (s.modInt f).free = s.free := rfl
@[simp] theorem State.modInt_pending (s : State) (f : IntSt → IntSt) : (s.modInt f).pending = s.pending := rfl

/-! ### State.modFus -/

@[simp] theorem State.modFus_tiles (s : State) (f : FusSt → FusSt) : (s.modFus f).tiles = s.tiles := rfl
@[simp] theorem State.modFus_mp (s : State) (f : FusSt → FusSt) : (s.modFus f).mp = s.mp := rfl
@[simp] theorem State.modFus_deps (s : State) (f : FusSt → FusSt) : (s.modFus f).deps = s.deps := rfl
@[simp] theorem State.modFus_mem (s : State) (f : FusSt → FusSt) : (s.modFus f).mem = s.mem := rfl
@[simp] theorem State.modFus_ecc (s : State) (f : FusSt → FusSt) : (s.modFus f).ecc = s.ecc := rfl
@[simp] theorem State.modFus_mpDma (s : State) (f : FusSt → FusSt) : (s.modFus f).mpDma = s.mpDma := rfl
@[simp] theorem State.modFus_mpSram (s : State) (f : FusSt → FusSt) : (s.modFus f).mpSram = s.mpSram := rfl
@[simp] theorem State.modFus_mpEcc (s : State) (f : FusSt → FusSt) : (s.modFus f).mpEcc = s.mpEcc := rfl
@[simp] theorem State.modFus_mpCache (s : State) (f : FusSt → FusSt) : (s.modFus f).mpCache = s.mpCache := rfl
@[simp] theorem State.modFus_flash (s : State) (f : FusSt → FusSt) : (s.modFus f).flash = s.flash := rfl
@[simp] theorem State.modFus_hostMem (s : State) (f : FusSt → FusSt) : (s.modFus f).hostMem = s.hostMem := rfl
@[simp] theorem State.modFus_tly (s : State) (f : FusSt → FusSt) : (s.modFus f).tly = s.tly := rfl
@[simp] theorem State.modFus_fab (s : State) (f : FusSt → FusSt) : (s.modFus f).fab = s.fab := rfl
@[simp] theorem State.modFus_cmd (s : State) (f : FusSt → FusSt) : (s.modFus f).cmd = s.cmd := rfl
@[simp] theorem State.modFus_prog (s : State) (f : FusSt → FusSt) : (s.modFus f).prog = s.prog := rfl
@[simp] theorem State.modFus_snap (s : State) (f : FusSt → FusSt) : (s.modFus f).snap = s.snap := rfl
@[simp] theorem State.modFus_dmc (s : State) (f : FusSt → FusSt) : (s.modFus f).dmc = s.dmc := rfl
@[simp] theorem State.modFus_int (s : State) (f : FusSt → FusSt) : (s.modFus f).int = s.int := rfl
@[simp] theorem State.modFus_fus (s : State) (f : FusSt → FusSt) : (s.modFus f).fus = f s.fus := rfl
@[simp] theorem State.modFus_pln (s : State) (f : FusSt → FusSt) : (s.modFus f).pln = s.pln := rfl
@[simp] theorem State.modFus_saf (s : State) (f : FusSt → FusSt) : (s.modFus f).saf = s.saf := rfl
@[simp] theorem State.modFus_cvu (s : State) (f : FusSt → FusSt) : (s.modFus f).cvu = s.cvu := rfl
@[simp] theorem State.modFus_pwr (s : State) (f : FusSt → FusSt) : (s.modFus f).pwr = s.pwr := rfl
@[simp] theorem State.modFus_wear (s : State) (f : FusSt → FusSt) : (s.modFus f).wear = s.wear := rfl
@[simp] theorem State.modFus_ifc (s : State) (f : FusSt → FusSt) : (s.modFus f).ifc = s.ifc := rfl
@[simp] theorem State.modFus_tim (s : State) (f : FusSt → FusSt) : (s.modFus f).tim = s.tim := rfl
@[simp] theorem State.modFus_dbg (s : State) (f : FusSt → FusSt) : (s.modFus f).dbg = s.dbg := rfl
@[simp] theorem State.modFus_boot (s : State) (f : FusSt → FusSt) : (s.modFus f).boot = s.boot := rfl
@[simp] theorem State.modFus_fuse (s : State) (f : FusSt → FusSt) : (s.modFus f).fuse = s.fuse := rfl
@[simp] theorem State.modFus_free (s : State) (f : FusSt → FusSt) : (s.modFus f).free = s.free := rfl
@[simp] theorem State.modFus_pending (s : State) (f : FusSt → FusSt) : (s.modFus f).pending = s.pending := rfl

/-! ### State.modPln -/

@[simp] theorem State.modPln_tiles (s : State) (f : PlnSt → PlnSt) : (s.modPln f).tiles = s.tiles := rfl
@[simp] theorem State.modPln_mp (s : State) (f : PlnSt → PlnSt) : (s.modPln f).mp = s.mp := rfl
@[simp] theorem State.modPln_deps (s : State) (f : PlnSt → PlnSt) : (s.modPln f).deps = s.deps := rfl
@[simp] theorem State.modPln_mem (s : State) (f : PlnSt → PlnSt) : (s.modPln f).mem = s.mem := rfl
@[simp] theorem State.modPln_ecc (s : State) (f : PlnSt → PlnSt) : (s.modPln f).ecc = s.ecc := rfl
@[simp] theorem State.modPln_mpDma (s : State) (f : PlnSt → PlnSt) : (s.modPln f).mpDma = s.mpDma := rfl
@[simp] theorem State.modPln_mpSram (s : State) (f : PlnSt → PlnSt) : (s.modPln f).mpSram = s.mpSram := rfl
@[simp] theorem State.modPln_mpEcc (s : State) (f : PlnSt → PlnSt) : (s.modPln f).mpEcc = s.mpEcc := rfl
@[simp] theorem State.modPln_mpCache (s : State) (f : PlnSt → PlnSt) : (s.modPln f).mpCache = s.mpCache := rfl
@[simp] theorem State.modPln_flash (s : State) (f : PlnSt → PlnSt) : (s.modPln f).flash = s.flash := rfl
@[simp] theorem State.modPln_hostMem (s : State) (f : PlnSt → PlnSt) : (s.modPln f).hostMem = s.hostMem := rfl
@[simp] theorem State.modPln_tly (s : State) (f : PlnSt → PlnSt) : (s.modPln f).tly = s.tly := rfl
@[simp] theorem State.modPln_fab (s : State) (f : PlnSt → PlnSt) : (s.modPln f).fab = s.fab := rfl
@[simp] theorem State.modPln_cmd (s : State) (f : PlnSt → PlnSt) : (s.modPln f).cmd = s.cmd := rfl
@[simp] theorem State.modPln_prog (s : State) (f : PlnSt → PlnSt) : (s.modPln f).prog = s.prog := rfl
@[simp] theorem State.modPln_snap (s : State) (f : PlnSt → PlnSt) : (s.modPln f).snap = s.snap := rfl
@[simp] theorem State.modPln_dmc (s : State) (f : PlnSt → PlnSt) : (s.modPln f).dmc = s.dmc := rfl
@[simp] theorem State.modPln_int (s : State) (f : PlnSt → PlnSt) : (s.modPln f).int = s.int := rfl
@[simp] theorem State.modPln_fus (s : State) (f : PlnSt → PlnSt) : (s.modPln f).fus = s.fus := rfl
@[simp] theorem State.modPln_pln (s : State) (f : PlnSt → PlnSt) : (s.modPln f).pln = f s.pln := rfl
@[simp] theorem State.modPln_saf (s : State) (f : PlnSt → PlnSt) : (s.modPln f).saf = s.saf := rfl
@[simp] theorem State.modPln_cvu (s : State) (f : PlnSt → PlnSt) : (s.modPln f).cvu = s.cvu := rfl
@[simp] theorem State.modPln_pwr (s : State) (f : PlnSt → PlnSt) : (s.modPln f).pwr = s.pwr := rfl
@[simp] theorem State.modPln_wear (s : State) (f : PlnSt → PlnSt) : (s.modPln f).wear = s.wear := rfl
@[simp] theorem State.modPln_ifc (s : State) (f : PlnSt → PlnSt) : (s.modPln f).ifc = s.ifc := rfl
@[simp] theorem State.modPln_tim (s : State) (f : PlnSt → PlnSt) : (s.modPln f).tim = s.tim := rfl
@[simp] theorem State.modPln_dbg (s : State) (f : PlnSt → PlnSt) : (s.modPln f).dbg = s.dbg := rfl
@[simp] theorem State.modPln_boot (s : State) (f : PlnSt → PlnSt) : (s.modPln f).boot = s.boot := rfl
@[simp] theorem State.modPln_fuse (s : State) (f : PlnSt → PlnSt) : (s.modPln f).fuse = s.fuse := rfl
@[simp] theorem State.modPln_free (s : State) (f : PlnSt → PlnSt) : (s.modPln f).free = s.free := rfl
@[simp] theorem State.modPln_pending (s : State) (f : PlnSt → PlnSt) : (s.modPln f).pending = s.pending := rfl

/-! ### State.modSaf -/

@[simp] theorem State.modSaf_tiles (s : State) (f : SafSt → SafSt) : (s.modSaf f).tiles = s.tiles := rfl
@[simp] theorem State.modSaf_mp (s : State) (f : SafSt → SafSt) : (s.modSaf f).mp = s.mp := rfl
@[simp] theorem State.modSaf_deps (s : State) (f : SafSt → SafSt) : (s.modSaf f).deps = s.deps := rfl
@[simp] theorem State.modSaf_mem (s : State) (f : SafSt → SafSt) : (s.modSaf f).mem = s.mem := rfl
@[simp] theorem State.modSaf_ecc (s : State) (f : SafSt → SafSt) : (s.modSaf f).ecc = s.ecc := rfl
@[simp] theorem State.modSaf_mpDma (s : State) (f : SafSt → SafSt) : (s.modSaf f).mpDma = s.mpDma := rfl
@[simp] theorem State.modSaf_mpSram (s : State) (f : SafSt → SafSt) : (s.modSaf f).mpSram = s.mpSram := rfl
@[simp] theorem State.modSaf_mpEcc (s : State) (f : SafSt → SafSt) : (s.modSaf f).mpEcc = s.mpEcc := rfl
@[simp] theorem State.modSaf_mpCache (s : State) (f : SafSt → SafSt) : (s.modSaf f).mpCache = s.mpCache := rfl
@[simp] theorem State.modSaf_flash (s : State) (f : SafSt → SafSt) : (s.modSaf f).flash = s.flash := rfl
@[simp] theorem State.modSaf_hostMem (s : State) (f : SafSt → SafSt) : (s.modSaf f).hostMem = s.hostMem := rfl
@[simp] theorem State.modSaf_tly (s : State) (f : SafSt → SafSt) : (s.modSaf f).tly = s.tly := rfl
@[simp] theorem State.modSaf_fab (s : State) (f : SafSt → SafSt) : (s.modSaf f).fab = s.fab := rfl
@[simp] theorem State.modSaf_cmd (s : State) (f : SafSt → SafSt) : (s.modSaf f).cmd = s.cmd := rfl
@[simp] theorem State.modSaf_prog (s : State) (f : SafSt → SafSt) : (s.modSaf f).prog = s.prog := rfl
@[simp] theorem State.modSaf_snap (s : State) (f : SafSt → SafSt) : (s.modSaf f).snap = s.snap := rfl
@[simp] theorem State.modSaf_dmc (s : State) (f : SafSt → SafSt) : (s.modSaf f).dmc = s.dmc := rfl
@[simp] theorem State.modSaf_int (s : State) (f : SafSt → SafSt) : (s.modSaf f).int = s.int := rfl
@[simp] theorem State.modSaf_fus (s : State) (f : SafSt → SafSt) : (s.modSaf f).fus = s.fus := rfl
@[simp] theorem State.modSaf_pln (s : State) (f : SafSt → SafSt) : (s.modSaf f).pln = s.pln := rfl
@[simp] theorem State.modSaf_saf (s : State) (f : SafSt → SafSt) : (s.modSaf f).saf = f s.saf := rfl
@[simp] theorem State.modSaf_cvu (s : State) (f : SafSt → SafSt) : (s.modSaf f).cvu = s.cvu := rfl
@[simp] theorem State.modSaf_pwr (s : State) (f : SafSt → SafSt) : (s.modSaf f).pwr = s.pwr := rfl
@[simp] theorem State.modSaf_wear (s : State) (f : SafSt → SafSt) : (s.modSaf f).wear = s.wear := rfl
@[simp] theorem State.modSaf_ifc (s : State) (f : SafSt → SafSt) : (s.modSaf f).ifc = s.ifc := rfl
@[simp] theorem State.modSaf_tim (s : State) (f : SafSt → SafSt) : (s.modSaf f).tim = s.tim := rfl
@[simp] theorem State.modSaf_dbg (s : State) (f : SafSt → SafSt) : (s.modSaf f).dbg = s.dbg := rfl
@[simp] theorem State.modSaf_boot (s : State) (f : SafSt → SafSt) : (s.modSaf f).boot = s.boot := rfl
@[simp] theorem State.modSaf_fuse (s : State) (f : SafSt → SafSt) : (s.modSaf f).fuse = s.fuse := rfl
@[simp] theorem State.modSaf_free (s : State) (f : SafSt → SafSt) : (s.modSaf f).free = s.free := rfl
@[simp] theorem State.modSaf_pending (s : State) (f : SafSt → SafSt) : (s.modSaf f).pending = s.pending := rfl

/-! ### State.modPwr -/

@[simp] theorem State.modPwr_tiles (s : State) (f : PwrSt → PwrSt) : (s.modPwr f).tiles = s.tiles := rfl
@[simp] theorem State.modPwr_mp (s : State) (f : PwrSt → PwrSt) : (s.modPwr f).mp = s.mp := rfl
@[simp] theorem State.modPwr_deps (s : State) (f : PwrSt → PwrSt) : (s.modPwr f).deps = s.deps := rfl
@[simp] theorem State.modPwr_mem (s : State) (f : PwrSt → PwrSt) : (s.modPwr f).mem = s.mem := rfl
@[simp] theorem State.modPwr_ecc (s : State) (f : PwrSt → PwrSt) : (s.modPwr f).ecc = s.ecc := rfl
@[simp] theorem State.modPwr_mpDma (s : State) (f : PwrSt → PwrSt) : (s.modPwr f).mpDma = s.mpDma := rfl
@[simp] theorem State.modPwr_mpSram (s : State) (f : PwrSt → PwrSt) : (s.modPwr f).mpSram = s.mpSram := rfl
@[simp] theorem State.modPwr_mpEcc (s : State) (f : PwrSt → PwrSt) : (s.modPwr f).mpEcc = s.mpEcc := rfl
@[simp] theorem State.modPwr_mpCache (s : State) (f : PwrSt → PwrSt) : (s.modPwr f).mpCache = s.mpCache := rfl
@[simp] theorem State.modPwr_flash (s : State) (f : PwrSt → PwrSt) : (s.modPwr f).flash = s.flash := rfl
@[simp] theorem State.modPwr_hostMem (s : State) (f : PwrSt → PwrSt) : (s.modPwr f).hostMem = s.hostMem := rfl
@[simp] theorem State.modPwr_tly (s : State) (f : PwrSt → PwrSt) : (s.modPwr f).tly = s.tly := rfl
@[simp] theorem State.modPwr_fab (s : State) (f : PwrSt → PwrSt) : (s.modPwr f).fab = s.fab := rfl
@[simp] theorem State.modPwr_cmd (s : State) (f : PwrSt → PwrSt) : (s.modPwr f).cmd = s.cmd := rfl
@[simp] theorem State.modPwr_prog (s : State) (f : PwrSt → PwrSt) : (s.modPwr f).prog = s.prog := rfl
@[simp] theorem State.modPwr_snap (s : State) (f : PwrSt → PwrSt) : (s.modPwr f).snap = s.snap := rfl
@[simp] theorem State.modPwr_dmc (s : State) (f : PwrSt → PwrSt) : (s.modPwr f).dmc = s.dmc := rfl
@[simp] theorem State.modPwr_int (s : State) (f : PwrSt → PwrSt) : (s.modPwr f).int = s.int := rfl
@[simp] theorem State.modPwr_fus (s : State) (f : PwrSt → PwrSt) : (s.modPwr f).fus = s.fus := rfl
@[simp] theorem State.modPwr_pln (s : State) (f : PwrSt → PwrSt) : (s.modPwr f).pln = s.pln := rfl
@[simp] theorem State.modPwr_saf (s : State) (f : PwrSt → PwrSt) : (s.modPwr f).saf = s.saf := rfl
@[simp] theorem State.modPwr_cvu (s : State) (f : PwrSt → PwrSt) : (s.modPwr f).cvu = s.cvu := rfl
@[simp] theorem State.modPwr_pwr (s : State) (f : PwrSt → PwrSt) : (s.modPwr f).pwr = f s.pwr := rfl
@[simp] theorem State.modPwr_wear (s : State) (f : PwrSt → PwrSt) : (s.modPwr f).wear = s.wear := rfl
@[simp] theorem State.modPwr_ifc (s : State) (f : PwrSt → PwrSt) : (s.modPwr f).ifc = s.ifc := rfl
@[simp] theorem State.modPwr_tim (s : State) (f : PwrSt → PwrSt) : (s.modPwr f).tim = s.tim := rfl
@[simp] theorem State.modPwr_dbg (s : State) (f : PwrSt → PwrSt) : (s.modPwr f).dbg = s.dbg := rfl
@[simp] theorem State.modPwr_boot (s : State) (f : PwrSt → PwrSt) : (s.modPwr f).boot = s.boot := rfl
@[simp] theorem State.modPwr_fuse (s : State) (f : PwrSt → PwrSt) : (s.modPwr f).fuse = s.fuse := rfl
@[simp] theorem State.modPwr_free (s : State) (f : PwrSt → PwrSt) : (s.modPwr f).free = s.free := rfl
@[simp] theorem State.modPwr_pending (s : State) (f : PwrSt → PwrSt) : (s.modPwr f).pending = s.pending := rfl

/-! ### State.modWear -/

@[simp] theorem State.modWear_tiles (s : State) (f : WearSt → WearSt) : (s.modWear f).tiles = s.tiles := rfl
@[simp] theorem State.modWear_mp (s : State) (f : WearSt → WearSt) : (s.modWear f).mp = s.mp := rfl
@[simp] theorem State.modWear_deps (s : State) (f : WearSt → WearSt) : (s.modWear f).deps = s.deps := rfl
@[simp] theorem State.modWear_mem (s : State) (f : WearSt → WearSt) : (s.modWear f).mem = s.mem := rfl
@[simp] theorem State.modWear_ecc (s : State) (f : WearSt → WearSt) : (s.modWear f).ecc = s.ecc := rfl
@[simp] theorem State.modWear_mpDma (s : State) (f : WearSt → WearSt) : (s.modWear f).mpDma = s.mpDma := rfl
@[simp] theorem State.modWear_mpSram (s : State) (f : WearSt → WearSt) : (s.modWear f).mpSram = s.mpSram := rfl
@[simp] theorem State.modWear_mpEcc (s : State) (f : WearSt → WearSt) : (s.modWear f).mpEcc = s.mpEcc := rfl
@[simp] theorem State.modWear_mpCache (s : State) (f : WearSt → WearSt) : (s.modWear f).mpCache = s.mpCache := rfl
@[simp] theorem State.modWear_flash (s : State) (f : WearSt → WearSt) : (s.modWear f).flash = s.flash := rfl
@[simp] theorem State.modWear_hostMem (s : State) (f : WearSt → WearSt) : (s.modWear f).hostMem = s.hostMem := rfl
@[simp] theorem State.modWear_tly (s : State) (f : WearSt → WearSt) : (s.modWear f).tly = s.tly := rfl
@[simp] theorem State.modWear_fab (s : State) (f : WearSt → WearSt) : (s.modWear f).fab = s.fab := rfl
@[simp] theorem State.modWear_cmd (s : State) (f : WearSt → WearSt) : (s.modWear f).cmd = s.cmd := rfl
@[simp] theorem State.modWear_prog (s : State) (f : WearSt → WearSt) : (s.modWear f).prog = s.prog := rfl
@[simp] theorem State.modWear_snap (s : State) (f : WearSt → WearSt) : (s.modWear f).snap = s.snap := rfl
@[simp] theorem State.modWear_dmc (s : State) (f : WearSt → WearSt) : (s.modWear f).dmc = s.dmc := rfl
@[simp] theorem State.modWear_int (s : State) (f : WearSt → WearSt) : (s.modWear f).int = s.int := rfl
@[simp] theorem State.modWear_fus (s : State) (f : WearSt → WearSt) : (s.modWear f).fus = s.fus := rfl
@[simp] theorem State.modWear_pln (s : State) (f : WearSt → WearSt) : (s.modWear f).pln = s.pln := rfl
@[simp] theorem State.modWear_saf (s : State) (f : WearSt → WearSt) : (s.modWear f).saf = s.saf := rfl
@[simp] theorem State.modWear_cvu (s : State) (f : WearSt → WearSt) : (s.modWear f).cvu = s.cvu := rfl
@[simp] theorem State.modWear_pwr (s : State) (f : WearSt → WearSt) : (s.modWear f).pwr = s.pwr := rfl
@[simp] theorem State.modWear_wear (s : State) (f : WearSt → WearSt) : (s.modWear f).wear = f s.wear := rfl
@[simp] theorem State.modWear_ifc (s : State) (f : WearSt → WearSt) : (s.modWear f).ifc = s.ifc := rfl
@[simp] theorem State.modWear_tim (s : State) (f : WearSt → WearSt) : (s.modWear f).tim = s.tim := rfl
@[simp] theorem State.modWear_dbg (s : State) (f : WearSt → WearSt) : (s.modWear f).dbg = s.dbg := rfl
@[simp] theorem State.modWear_boot (s : State) (f : WearSt → WearSt) : (s.modWear f).boot = s.boot := rfl
@[simp] theorem State.modWear_fuse (s : State) (f : WearSt → WearSt) : (s.modWear f).fuse = s.fuse := rfl
@[simp] theorem State.modWear_free (s : State) (f : WearSt → WearSt) : (s.modWear f).free = s.free := rfl
@[simp] theorem State.modWear_pending (s : State) (f : WearSt → WearSt) : (s.modWear f).pending = s.pending := rfl

/-! ### State.modIfc -/

@[simp] theorem State.modIfc_tiles (s : State) (f : IfcSt → IfcSt) : (s.modIfc f).tiles = s.tiles := rfl
@[simp] theorem State.modIfc_mp (s : State) (f : IfcSt → IfcSt) : (s.modIfc f).mp = s.mp := rfl
@[simp] theorem State.modIfc_deps (s : State) (f : IfcSt → IfcSt) : (s.modIfc f).deps = s.deps := rfl
@[simp] theorem State.modIfc_mem (s : State) (f : IfcSt → IfcSt) : (s.modIfc f).mem = s.mem := rfl
@[simp] theorem State.modIfc_ecc (s : State) (f : IfcSt → IfcSt) : (s.modIfc f).ecc = s.ecc := rfl
@[simp] theorem State.modIfc_mpDma (s : State) (f : IfcSt → IfcSt) : (s.modIfc f).mpDma = s.mpDma := rfl
@[simp] theorem State.modIfc_mpSram (s : State) (f : IfcSt → IfcSt) : (s.modIfc f).mpSram = s.mpSram := rfl
@[simp] theorem State.modIfc_mpEcc (s : State) (f : IfcSt → IfcSt) : (s.modIfc f).mpEcc = s.mpEcc := rfl
@[simp] theorem State.modIfc_mpCache (s : State) (f : IfcSt → IfcSt) : (s.modIfc f).mpCache = s.mpCache := rfl
@[simp] theorem State.modIfc_flash (s : State) (f : IfcSt → IfcSt) : (s.modIfc f).flash = s.flash := rfl
@[simp] theorem State.modIfc_hostMem (s : State) (f : IfcSt → IfcSt) : (s.modIfc f).hostMem = s.hostMem := rfl
@[simp] theorem State.modIfc_tly (s : State) (f : IfcSt → IfcSt) : (s.modIfc f).tly = s.tly := rfl
@[simp] theorem State.modIfc_fab (s : State) (f : IfcSt → IfcSt) : (s.modIfc f).fab = s.fab := rfl
@[simp] theorem State.modIfc_cmd (s : State) (f : IfcSt → IfcSt) : (s.modIfc f).cmd = s.cmd := rfl
@[simp] theorem State.modIfc_prog (s : State) (f : IfcSt → IfcSt) : (s.modIfc f).prog = s.prog := rfl
@[simp] theorem State.modIfc_snap (s : State) (f : IfcSt → IfcSt) : (s.modIfc f).snap = s.snap := rfl
@[simp] theorem State.modIfc_dmc (s : State) (f : IfcSt → IfcSt) : (s.modIfc f).dmc = s.dmc := rfl
@[simp] theorem State.modIfc_int (s : State) (f : IfcSt → IfcSt) : (s.modIfc f).int = s.int := rfl
@[simp] theorem State.modIfc_fus (s : State) (f : IfcSt → IfcSt) : (s.modIfc f).fus = s.fus := rfl
@[simp] theorem State.modIfc_pln (s : State) (f : IfcSt → IfcSt) : (s.modIfc f).pln = s.pln := rfl
@[simp] theorem State.modIfc_saf (s : State) (f : IfcSt → IfcSt) : (s.modIfc f).saf = s.saf := rfl
@[simp] theorem State.modIfc_cvu (s : State) (f : IfcSt → IfcSt) : (s.modIfc f).cvu = s.cvu := rfl
@[simp] theorem State.modIfc_pwr (s : State) (f : IfcSt → IfcSt) : (s.modIfc f).pwr = s.pwr := rfl
@[simp] theorem State.modIfc_wear (s : State) (f : IfcSt → IfcSt) : (s.modIfc f).wear = s.wear := rfl
@[simp] theorem State.modIfc_ifc (s : State) (f : IfcSt → IfcSt) : (s.modIfc f).ifc = f s.ifc := rfl
@[simp] theorem State.modIfc_tim (s : State) (f : IfcSt → IfcSt) : (s.modIfc f).tim = s.tim := rfl
@[simp] theorem State.modIfc_dbg (s : State) (f : IfcSt → IfcSt) : (s.modIfc f).dbg = s.dbg := rfl
@[simp] theorem State.modIfc_boot (s : State) (f : IfcSt → IfcSt) : (s.modIfc f).boot = s.boot := rfl
@[simp] theorem State.modIfc_fuse (s : State) (f : IfcSt → IfcSt) : (s.modIfc f).fuse = s.fuse := rfl
@[simp] theorem State.modIfc_free (s : State) (f : IfcSt → IfcSt) : (s.modIfc f).free = s.free := rfl
@[simp] theorem State.modIfc_pending (s : State) (f : IfcSt → IfcSt) : (s.modIfc f).pending = s.pending := rfl

/-! ### State.modTim -/

@[simp] theorem State.modTim_tiles (s : State) (f : TimSt → TimSt) : (s.modTim f).tiles = s.tiles := rfl
@[simp] theorem State.modTim_mp (s : State) (f : TimSt → TimSt) : (s.modTim f).mp = s.mp := rfl
@[simp] theorem State.modTim_deps (s : State) (f : TimSt → TimSt) : (s.modTim f).deps = s.deps := rfl
@[simp] theorem State.modTim_mem (s : State) (f : TimSt → TimSt) : (s.modTim f).mem = s.mem := rfl
@[simp] theorem State.modTim_ecc (s : State) (f : TimSt → TimSt) : (s.modTim f).ecc = s.ecc := rfl
@[simp] theorem State.modTim_mpDma (s : State) (f : TimSt → TimSt) : (s.modTim f).mpDma = s.mpDma := rfl
@[simp] theorem State.modTim_mpSram (s : State) (f : TimSt → TimSt) : (s.modTim f).mpSram = s.mpSram := rfl
@[simp] theorem State.modTim_mpEcc (s : State) (f : TimSt → TimSt) : (s.modTim f).mpEcc = s.mpEcc := rfl
@[simp] theorem State.modTim_mpCache (s : State) (f : TimSt → TimSt) : (s.modTim f).mpCache = s.mpCache := rfl
@[simp] theorem State.modTim_flash (s : State) (f : TimSt → TimSt) : (s.modTim f).flash = s.flash := rfl
@[simp] theorem State.modTim_hostMem (s : State) (f : TimSt → TimSt) : (s.modTim f).hostMem = s.hostMem := rfl
@[simp] theorem State.modTim_tly (s : State) (f : TimSt → TimSt) : (s.modTim f).tly = s.tly := rfl
@[simp] theorem State.modTim_fab (s : State) (f : TimSt → TimSt) : (s.modTim f).fab = s.fab := rfl
@[simp] theorem State.modTim_cmd (s : State) (f : TimSt → TimSt) : (s.modTim f).cmd = s.cmd := rfl
@[simp] theorem State.modTim_prog (s : State) (f : TimSt → TimSt) : (s.modTim f).prog = s.prog := rfl
@[simp] theorem State.modTim_snap (s : State) (f : TimSt → TimSt) : (s.modTim f).snap = s.snap := rfl
@[simp] theorem State.modTim_dmc (s : State) (f : TimSt → TimSt) : (s.modTim f).dmc = s.dmc := rfl
@[simp] theorem State.modTim_int (s : State) (f : TimSt → TimSt) : (s.modTim f).int = s.int := rfl
@[simp] theorem State.modTim_fus (s : State) (f : TimSt → TimSt) : (s.modTim f).fus = s.fus := rfl
@[simp] theorem State.modTim_pln (s : State) (f : TimSt → TimSt) : (s.modTim f).pln = s.pln := rfl
@[simp] theorem State.modTim_saf (s : State) (f : TimSt → TimSt) : (s.modTim f).saf = s.saf := rfl
@[simp] theorem State.modTim_cvu (s : State) (f : TimSt → TimSt) : (s.modTim f).cvu = s.cvu := rfl
@[simp] theorem State.modTim_pwr (s : State) (f : TimSt → TimSt) : (s.modTim f).pwr = s.pwr := rfl
@[simp] theorem State.modTim_wear (s : State) (f : TimSt → TimSt) : (s.modTim f).wear = s.wear := rfl
@[simp] theorem State.modTim_ifc (s : State) (f : TimSt → TimSt) : (s.modTim f).ifc = s.ifc := rfl
@[simp] theorem State.modTim_tim (s : State) (f : TimSt → TimSt) : (s.modTim f).tim = f s.tim := rfl
@[simp] theorem State.modTim_dbg (s : State) (f : TimSt → TimSt) : (s.modTim f).dbg = s.dbg := rfl
@[simp] theorem State.modTim_boot (s : State) (f : TimSt → TimSt) : (s.modTim f).boot = s.boot := rfl
@[simp] theorem State.modTim_fuse (s : State) (f : TimSt → TimSt) : (s.modTim f).fuse = s.fuse := rfl
@[simp] theorem State.modTim_free (s : State) (f : TimSt → TimSt) : (s.modTim f).free = s.free := rfl
@[simp] theorem State.modTim_pending (s : State) (f : TimSt → TimSt) : (s.modTim f).pending = s.pending := rfl

/-! ### State.modDbg -/

@[simp] theorem State.modDbg_tiles (s : State) (f : DbgSt → DbgSt) : (s.modDbg f).tiles = s.tiles := rfl
@[simp] theorem State.modDbg_mp (s : State) (f : DbgSt → DbgSt) : (s.modDbg f).mp = s.mp := rfl
@[simp] theorem State.modDbg_deps (s : State) (f : DbgSt → DbgSt) : (s.modDbg f).deps = s.deps := rfl
@[simp] theorem State.modDbg_mem (s : State) (f : DbgSt → DbgSt) : (s.modDbg f).mem = s.mem := rfl
@[simp] theorem State.modDbg_ecc (s : State) (f : DbgSt → DbgSt) : (s.modDbg f).ecc = s.ecc := rfl
@[simp] theorem State.modDbg_mpDma (s : State) (f : DbgSt → DbgSt) : (s.modDbg f).mpDma = s.mpDma := rfl
@[simp] theorem State.modDbg_mpSram (s : State) (f : DbgSt → DbgSt) : (s.modDbg f).mpSram = s.mpSram := rfl
@[simp] theorem State.modDbg_mpEcc (s : State) (f : DbgSt → DbgSt) : (s.modDbg f).mpEcc = s.mpEcc := rfl
@[simp] theorem State.modDbg_mpCache (s : State) (f : DbgSt → DbgSt) : (s.modDbg f).mpCache = s.mpCache := rfl
@[simp] theorem State.modDbg_flash (s : State) (f : DbgSt → DbgSt) : (s.modDbg f).flash = s.flash := rfl
@[simp] theorem State.modDbg_hostMem (s : State) (f : DbgSt → DbgSt) : (s.modDbg f).hostMem = s.hostMem := rfl
@[simp] theorem State.modDbg_tly (s : State) (f : DbgSt → DbgSt) : (s.modDbg f).tly = s.tly := rfl
@[simp] theorem State.modDbg_fab (s : State) (f : DbgSt → DbgSt) : (s.modDbg f).fab = s.fab := rfl
@[simp] theorem State.modDbg_cmd (s : State) (f : DbgSt → DbgSt) : (s.modDbg f).cmd = s.cmd := rfl
@[simp] theorem State.modDbg_prog (s : State) (f : DbgSt → DbgSt) : (s.modDbg f).prog = s.prog := rfl
@[simp] theorem State.modDbg_snap (s : State) (f : DbgSt → DbgSt) : (s.modDbg f).snap = s.snap := rfl
@[simp] theorem State.modDbg_dmc (s : State) (f : DbgSt → DbgSt) : (s.modDbg f).dmc = s.dmc := rfl
@[simp] theorem State.modDbg_int (s : State) (f : DbgSt → DbgSt) : (s.modDbg f).int = s.int := rfl
@[simp] theorem State.modDbg_fus (s : State) (f : DbgSt → DbgSt) : (s.modDbg f).fus = s.fus := rfl
@[simp] theorem State.modDbg_pln (s : State) (f : DbgSt → DbgSt) : (s.modDbg f).pln = s.pln := rfl
@[simp] theorem State.modDbg_saf (s : State) (f : DbgSt → DbgSt) : (s.modDbg f).saf = s.saf := rfl
@[simp] theorem State.modDbg_cvu (s : State) (f : DbgSt → DbgSt) : (s.modDbg f).cvu = s.cvu := rfl
@[simp] theorem State.modDbg_pwr (s : State) (f : DbgSt → DbgSt) : (s.modDbg f).pwr = s.pwr := rfl
@[simp] theorem State.modDbg_wear (s : State) (f : DbgSt → DbgSt) : (s.modDbg f).wear = s.wear := rfl
@[simp] theorem State.modDbg_ifc (s : State) (f : DbgSt → DbgSt) : (s.modDbg f).ifc = s.ifc := rfl
@[simp] theorem State.modDbg_tim (s : State) (f : DbgSt → DbgSt) : (s.modDbg f).tim = s.tim := rfl
@[simp] theorem State.modDbg_dbg (s : State) (f : DbgSt → DbgSt) : (s.modDbg f).dbg = f s.dbg := rfl
@[simp] theorem State.modDbg_boot (s : State) (f : DbgSt → DbgSt) : (s.modDbg f).boot = s.boot := rfl
@[simp] theorem State.modDbg_fuse (s : State) (f : DbgSt → DbgSt) : (s.modDbg f).fuse = s.fuse := rfl
@[simp] theorem State.modDbg_free (s : State) (f : DbgSt → DbgSt) : (s.modDbg f).free = s.free := rfl
@[simp] theorem State.modDbg_pending (s : State) (f : DbgSt → DbgSt) : (s.modDbg f).pending = s.pending := rfl

/-! ### State.modBoot -/

@[simp] theorem State.modBoot_tiles (s : State) (f : BootSt → BootSt) : (s.modBoot f).tiles = s.tiles := rfl
@[simp] theorem State.modBoot_mp (s : State) (f : BootSt → BootSt) : (s.modBoot f).mp = s.mp := rfl
@[simp] theorem State.modBoot_deps (s : State) (f : BootSt → BootSt) : (s.modBoot f).deps = s.deps := rfl
@[simp] theorem State.modBoot_mem (s : State) (f : BootSt → BootSt) : (s.modBoot f).mem = s.mem := rfl
@[simp] theorem State.modBoot_ecc (s : State) (f : BootSt → BootSt) : (s.modBoot f).ecc = s.ecc := rfl
@[simp] theorem State.modBoot_mpDma (s : State) (f : BootSt → BootSt) : (s.modBoot f).mpDma = s.mpDma := rfl
@[simp] theorem State.modBoot_mpSram (s : State) (f : BootSt → BootSt) : (s.modBoot f).mpSram = s.mpSram := rfl
@[simp] theorem State.modBoot_mpEcc (s : State) (f : BootSt → BootSt) : (s.modBoot f).mpEcc = s.mpEcc := rfl
@[simp] theorem State.modBoot_mpCache (s : State) (f : BootSt → BootSt) : (s.modBoot f).mpCache = s.mpCache := rfl
@[simp] theorem State.modBoot_flash (s : State) (f : BootSt → BootSt) : (s.modBoot f).flash = s.flash := rfl
@[simp] theorem State.modBoot_hostMem (s : State) (f : BootSt → BootSt) : (s.modBoot f).hostMem = s.hostMem := rfl
@[simp] theorem State.modBoot_tly (s : State) (f : BootSt → BootSt) : (s.modBoot f).tly = s.tly := rfl
@[simp] theorem State.modBoot_fab (s : State) (f : BootSt → BootSt) : (s.modBoot f).fab = s.fab := rfl
@[simp] theorem State.modBoot_cmd (s : State) (f : BootSt → BootSt) : (s.modBoot f).cmd = s.cmd := rfl
@[simp] theorem State.modBoot_prog (s : State) (f : BootSt → BootSt) : (s.modBoot f).prog = s.prog := rfl
@[simp] theorem State.modBoot_snap (s : State) (f : BootSt → BootSt) : (s.modBoot f).snap = s.snap := rfl
@[simp] theorem State.modBoot_dmc (s : State) (f : BootSt → BootSt) : (s.modBoot f).dmc = s.dmc := rfl
@[simp] theorem State.modBoot_int (s : State) (f : BootSt → BootSt) : (s.modBoot f).int = s.int := rfl
@[simp] theorem State.modBoot_fus (s : State) (f : BootSt → BootSt) : (s.modBoot f).fus = s.fus := rfl
@[simp] theorem State.modBoot_pln (s : State) (f : BootSt → BootSt) : (s.modBoot f).pln = s.pln := rfl
@[simp] theorem State.modBoot_saf (s : State) (f : BootSt → BootSt) : (s.modBoot f).saf = s.saf := rfl
@[simp] theorem State.modBoot_cvu (s : State) (f : BootSt → BootSt) : (s.modBoot f).cvu = s.cvu := rfl
@[simp] theorem State.modBoot_pwr (s : State) (f : BootSt → BootSt) : (s.modBoot f).pwr = s.pwr := rfl
@[simp] theorem State.modBoot_wear (s : State) (f : BootSt → BootSt) : (s.modBoot f).wear = s.wear := rfl
@[simp] theorem State.modBoot_ifc (s : State) (f : BootSt → BootSt) : (s.modBoot f).ifc = s.ifc := rfl
@[simp] theorem State.modBoot_tim (s : State) (f : BootSt → BootSt) : (s.modBoot f).tim = s.tim := rfl
@[simp] theorem State.modBoot_dbg (s : State) (f : BootSt → BootSt) : (s.modBoot f).dbg = s.dbg := rfl
@[simp] theorem State.modBoot_boot (s : State) (f : BootSt → BootSt) : (s.modBoot f).boot = f s.boot := rfl
@[simp] theorem State.modBoot_fuse (s : State) (f : BootSt → BootSt) : (s.modBoot f).fuse = s.fuse := rfl
@[simp] theorem State.modBoot_free (s : State) (f : BootSt → BootSt) : (s.modBoot f).free = s.free := rfl
@[simp] theorem State.modBoot_pending (s : State) (f : BootSt → BootSt) : (s.modBoot f).pending = s.pending := rfl

/-! ### State.modTile -/

@[simp] theorem State.modTile_tiles (s : State) (i : Fin 136) (f : Tile → Tile) : (s.modTile i f).tiles = vmod s.tiles i f := rfl
@[simp] theorem State.modTile_mp (s : State) (i : Fin 136) (f : Tile → Tile) : (s.modTile i f).mp = s.mp := rfl
@[simp] theorem State.modTile_deps (s : State) (i : Fin 136) (f : Tile → Tile) : (s.modTile i f).deps = s.deps := rfl
@[simp] theorem State.modTile_mem (s : State) (i : Fin 136) (f : Tile → Tile) : (s.modTile i f).mem = s.mem := rfl
@[simp] theorem State.modTile_ecc (s : State) (i : Fin 136) (f : Tile → Tile) : (s.modTile i f).ecc = s.ecc := rfl
@[simp] theorem State.modTile_mpDma (s : State) (i : Fin 136) (f : Tile → Tile) : (s.modTile i f).mpDma = s.mpDma := rfl
@[simp] theorem State.modTile_mpSram (s : State) (i : Fin 136) (f : Tile → Tile) : (s.modTile i f).mpSram = s.mpSram := rfl
@[simp] theorem State.modTile_mpEcc (s : State) (i : Fin 136) (f : Tile → Tile) : (s.modTile i f).mpEcc = s.mpEcc := rfl
@[simp] theorem State.modTile_mpCache (s : State) (i : Fin 136) (f : Tile → Tile) : (s.modTile i f).mpCache = s.mpCache := rfl
@[simp] theorem State.modTile_flash (s : State) (i : Fin 136) (f : Tile → Tile) : (s.modTile i f).flash = s.flash := rfl
@[simp] theorem State.modTile_hostMem (s : State) (i : Fin 136) (f : Tile → Tile) : (s.modTile i f).hostMem = s.hostMem := rfl
@[simp] theorem State.modTile_tly (s : State) (i : Fin 136) (f : Tile → Tile) : (s.modTile i f).tly = s.tly := rfl
@[simp] theorem State.modTile_fab (s : State) (i : Fin 136) (f : Tile → Tile) : (s.modTile i f).fab = s.fab := rfl
@[simp] theorem State.modTile_cmd (s : State) (i : Fin 136) (f : Tile → Tile) : (s.modTile i f).cmd = s.cmd := rfl
@[simp] theorem State.modTile_prog (s : State) (i : Fin 136) (f : Tile → Tile) : (s.modTile i f).prog = s.prog := rfl
@[simp] theorem State.modTile_snap (s : State) (i : Fin 136) (f : Tile → Tile) : (s.modTile i f).snap = s.snap := rfl
@[simp] theorem State.modTile_dmc (s : State) (i : Fin 136) (f : Tile → Tile) : (s.modTile i f).dmc = s.dmc := rfl
@[simp] theorem State.modTile_int (s : State) (i : Fin 136) (f : Tile → Tile) : (s.modTile i f).int = s.int := rfl
@[simp] theorem State.modTile_fus (s : State) (i : Fin 136) (f : Tile → Tile) : (s.modTile i f).fus = s.fus := rfl
@[simp] theorem State.modTile_pln (s : State) (i : Fin 136) (f : Tile → Tile) : (s.modTile i f).pln = s.pln := rfl
@[simp] theorem State.modTile_saf (s : State) (i : Fin 136) (f : Tile → Tile) : (s.modTile i f).saf = s.saf := rfl
@[simp] theorem State.modTile_cvu (s : State) (i : Fin 136) (f : Tile → Tile) : (s.modTile i f).cvu = s.cvu := rfl
@[simp] theorem State.modTile_pwr (s : State) (i : Fin 136) (f : Tile → Tile) : (s.modTile i f).pwr = s.pwr := rfl
@[simp] theorem State.modTile_wear (s : State) (i : Fin 136) (f : Tile → Tile) : (s.modTile i f).wear = s.wear := rfl
@[simp] theorem State.modTile_ifc (s : State) (i : Fin 136) (f : Tile → Tile) : (s.modTile i f).ifc = s.ifc := rfl
@[simp] theorem State.modTile_tim (s : State) (i : Fin 136) (f : Tile → Tile) : (s.modTile i f).tim = s.tim := rfl
@[simp] theorem State.modTile_dbg (s : State) (i : Fin 136) (f : Tile → Tile) : (s.modTile i f).dbg = s.dbg := rfl
@[simp] theorem State.modTile_boot (s : State) (i : Fin 136) (f : Tile → Tile) : (s.modTile i f).boot = s.boot := rfl
@[simp] theorem State.modTile_fuse (s : State) (i : Fin 136) (f : Tile → Tile) : (s.modTile i f).fuse = s.fuse := rfl
@[simp] theorem State.modTile_free (s : State) (i : Fin 136) (f : Tile → Tile) : (s.modTile i f).free = s.free := rfl
@[simp] theorem State.modTile_pending (s : State) (i : Fin 136) (f : Tile → Tile) : (s.modTile i f).pending = s.pending := rfl

/-! ### State.modDep -/

@[simp] theorem State.modDep_tiles (s : State) (i : Fin 2) (f : Deputy → Deputy) : (s.modDep i f).tiles = s.tiles := rfl
@[simp] theorem State.modDep_mp (s : State) (i : Fin 2) (f : Deputy → Deputy) : (s.modDep i f).mp = s.mp := rfl
@[simp] theorem State.modDep_deps (s : State) (i : Fin 2) (f : Deputy → Deputy) : (s.modDep i f).deps = vmod s.deps i f := rfl
@[simp] theorem State.modDep_mem (s : State) (i : Fin 2) (f : Deputy → Deputy) : (s.modDep i f).mem = s.mem := rfl
@[simp] theorem State.modDep_ecc (s : State) (i : Fin 2) (f : Deputy → Deputy) : (s.modDep i f).ecc = s.ecc := rfl
@[simp] theorem State.modDep_mpDma (s : State) (i : Fin 2) (f : Deputy → Deputy) : (s.modDep i f).mpDma = s.mpDma := rfl
@[simp] theorem State.modDep_mpSram (s : State) (i : Fin 2) (f : Deputy → Deputy) : (s.modDep i f).mpSram = s.mpSram := rfl
@[simp] theorem State.modDep_mpEcc (s : State) (i : Fin 2) (f : Deputy → Deputy) : (s.modDep i f).mpEcc = s.mpEcc := rfl
@[simp] theorem State.modDep_mpCache (s : State) (i : Fin 2) (f : Deputy → Deputy) : (s.modDep i f).mpCache = s.mpCache := rfl
@[simp] theorem State.modDep_flash (s : State) (i : Fin 2) (f : Deputy → Deputy) : (s.modDep i f).flash = s.flash := rfl
@[simp] theorem State.modDep_hostMem (s : State) (i : Fin 2) (f : Deputy → Deputy) : (s.modDep i f).hostMem = s.hostMem := rfl
@[simp] theorem State.modDep_tly (s : State) (i : Fin 2) (f : Deputy → Deputy) : (s.modDep i f).tly = s.tly := rfl
@[simp] theorem State.modDep_fab (s : State) (i : Fin 2) (f : Deputy → Deputy) : (s.modDep i f).fab = s.fab := rfl
@[simp] theorem State.modDep_cmd (s : State) (i : Fin 2) (f : Deputy → Deputy) : (s.modDep i f).cmd = s.cmd := rfl
@[simp] theorem State.modDep_prog (s : State) (i : Fin 2) (f : Deputy → Deputy) : (s.modDep i f).prog = s.prog := rfl
@[simp] theorem State.modDep_snap (s : State) (i : Fin 2) (f : Deputy → Deputy) : (s.modDep i f).snap = s.snap := rfl
@[simp] theorem State.modDep_dmc (s : State) (i : Fin 2) (f : Deputy → Deputy) : (s.modDep i f).dmc = s.dmc := rfl
@[simp] theorem State.modDep_int (s : State) (i : Fin 2) (f : Deputy → Deputy) : (s.modDep i f).int = s.int := rfl
@[simp] theorem State.modDep_fus (s : State) (i : Fin 2) (f : Deputy → Deputy) : (s.modDep i f).fus = s.fus := rfl
@[simp] theorem State.modDep_pln (s : State) (i : Fin 2) (f : Deputy → Deputy) : (s.modDep i f).pln = s.pln := rfl
@[simp] theorem State.modDep_saf (s : State) (i : Fin 2) (f : Deputy → Deputy) : (s.modDep i f).saf = s.saf := rfl
@[simp] theorem State.modDep_cvu (s : State) (i : Fin 2) (f : Deputy → Deputy) : (s.modDep i f).cvu = s.cvu := rfl
@[simp] theorem State.modDep_pwr (s : State) (i : Fin 2) (f : Deputy → Deputy) : (s.modDep i f).pwr = s.pwr := rfl
@[simp] theorem State.modDep_wear (s : State) (i : Fin 2) (f : Deputy → Deputy) : (s.modDep i f).wear = s.wear := rfl
@[simp] theorem State.modDep_ifc (s : State) (i : Fin 2) (f : Deputy → Deputy) : (s.modDep i f).ifc = s.ifc := rfl
@[simp] theorem State.modDep_tim (s : State) (i : Fin 2) (f : Deputy → Deputy) : (s.modDep i f).tim = s.tim := rfl
@[simp] theorem State.modDep_dbg (s : State) (i : Fin 2) (f : Deputy → Deputy) : (s.modDep i f).dbg = s.dbg := rfl
@[simp] theorem State.modDep_boot (s : State) (i : Fin 2) (f : Deputy → Deputy) : (s.modDep i f).boot = s.boot := rfl
@[simp] theorem State.modDep_fuse (s : State) (i : Fin 2) (f : Deputy → Deputy) : (s.modDep i f).fuse = s.fuse := rfl
@[simp] theorem State.modDep_free (s : State) (i : Fin 2) (f : Deputy → Deputy) : (s.modDep i f).free = s.free := rfl
@[simp] theorem State.modDep_pending (s : State) (i : Fin 2) (f : Deputy → Deputy) : (s.modDep i f).pending = s.pending := rfl

/-! ### State.modCvu -/

@[simp] theorem State.modCvu_tiles (s : State) (i : Fin 4) (f : Cvu → Cvu) : (s.modCvu i f).tiles = s.tiles := rfl
@[simp] theorem State.modCvu_mp (s : State) (i : Fin 4) (f : Cvu → Cvu) : (s.modCvu i f).mp = s.mp := rfl
@[simp] theorem State.modCvu_deps (s : State) (i : Fin 4) (f : Cvu → Cvu) : (s.modCvu i f).deps = s.deps := rfl
@[simp] theorem State.modCvu_mem (s : State) (i : Fin 4) (f : Cvu → Cvu) : (s.modCvu i f).mem = s.mem := rfl
@[simp] theorem State.modCvu_ecc (s : State) (i : Fin 4) (f : Cvu → Cvu) : (s.modCvu i f).ecc = s.ecc := rfl
@[simp] theorem State.modCvu_mpDma (s : State) (i : Fin 4) (f : Cvu → Cvu) : (s.modCvu i f).mpDma = s.mpDma := rfl
@[simp] theorem State.modCvu_mpSram (s : State) (i : Fin 4) (f : Cvu → Cvu) : (s.modCvu i f).mpSram = s.mpSram := rfl
@[simp] theorem State.modCvu_mpEcc (s : State) (i : Fin 4) (f : Cvu → Cvu) : (s.modCvu i f).mpEcc = s.mpEcc := rfl
@[simp] theorem State.modCvu_mpCache (s : State) (i : Fin 4) (f : Cvu → Cvu) : (s.modCvu i f).mpCache = s.mpCache := rfl
@[simp] theorem State.modCvu_flash (s : State) (i : Fin 4) (f : Cvu → Cvu) : (s.modCvu i f).flash = s.flash := rfl
@[simp] theorem State.modCvu_hostMem (s : State) (i : Fin 4) (f : Cvu → Cvu) : (s.modCvu i f).hostMem = s.hostMem := rfl
@[simp] theorem State.modCvu_tly (s : State) (i : Fin 4) (f : Cvu → Cvu) : (s.modCvu i f).tly = s.tly := rfl
@[simp] theorem State.modCvu_fab (s : State) (i : Fin 4) (f : Cvu → Cvu) : (s.modCvu i f).fab = s.fab := rfl
@[simp] theorem State.modCvu_cmd (s : State) (i : Fin 4) (f : Cvu → Cvu) : (s.modCvu i f).cmd = s.cmd := rfl
@[simp] theorem State.modCvu_prog (s : State) (i : Fin 4) (f : Cvu → Cvu) : (s.modCvu i f).prog = s.prog := rfl
@[simp] theorem State.modCvu_snap (s : State) (i : Fin 4) (f : Cvu → Cvu) : (s.modCvu i f).snap = s.snap := rfl
@[simp] theorem State.modCvu_dmc (s : State) (i : Fin 4) (f : Cvu → Cvu) : (s.modCvu i f).dmc = s.dmc := rfl
@[simp] theorem State.modCvu_int (s : State) (i : Fin 4) (f : Cvu → Cvu) : (s.modCvu i f).int = s.int := rfl
@[simp] theorem State.modCvu_fus (s : State) (i : Fin 4) (f : Cvu → Cvu) : (s.modCvu i f).fus = s.fus := rfl
@[simp] theorem State.modCvu_pln (s : State) (i : Fin 4) (f : Cvu → Cvu) : (s.modCvu i f).pln = s.pln := rfl
@[simp] theorem State.modCvu_saf (s : State) (i : Fin 4) (f : Cvu → Cvu) : (s.modCvu i f).saf = s.saf := rfl
@[simp] theorem State.modCvu_cvu (s : State) (i : Fin 4) (f : Cvu → Cvu) : (s.modCvu i f).cvu = vmod s.cvu i f := rfl
@[simp] theorem State.modCvu_pwr (s : State) (i : Fin 4) (f : Cvu → Cvu) : (s.modCvu i f).pwr = s.pwr := rfl
@[simp] theorem State.modCvu_wear (s : State) (i : Fin 4) (f : Cvu → Cvu) : (s.modCvu i f).wear = s.wear := rfl
@[simp] theorem State.modCvu_ifc (s : State) (i : Fin 4) (f : Cvu → Cvu) : (s.modCvu i f).ifc = s.ifc := rfl
@[simp] theorem State.modCvu_tim (s : State) (i : Fin 4) (f : Cvu → Cvu) : (s.modCvu i f).tim = s.tim := rfl
@[simp] theorem State.modCvu_dbg (s : State) (i : Fin 4) (f : Cvu → Cvu) : (s.modCvu i f).dbg = s.dbg := rfl
@[simp] theorem State.modCvu_boot (s : State) (i : Fin 4) (f : Cvu → Cvu) : (s.modCvu i f).boot = s.boot := rfl
@[simp] theorem State.modCvu_fuse (s : State) (i : Fin 4) (f : Cvu → Cvu) : (s.modCvu i f).fuse = s.fuse := rfl
@[simp] theorem State.modCvu_free (s : State) (i : Fin 4) (f : Cvu → Cvu) : (s.modCvu i f).free = s.free := rfl
@[simp] theorem State.modCvu_pending (s : State) (i : Fin 4) (f : Cvu → Cvu) : (s.modCvu i f).pending = s.pending := rfl

/-! ### State.modQ -/

@[simp] theorem State.modQ_tiles (s : State) (i : Fin 16) (f : QPair → QPair) : (s.modQ i f).tiles = s.tiles := rfl
@[simp] theorem State.modQ_mp (s : State) (i : Fin 16) (f : QPair → QPair) : (s.modQ i f).mp = s.mp := rfl
@[simp] theorem State.modQ_deps (s : State) (i : Fin 16) (f : QPair → QPair) : (s.modQ i f).deps = s.deps := rfl
@[simp] theorem State.modQ_mem (s : State) (i : Fin 16) (f : QPair → QPair) : (s.modQ i f).mem = s.mem := rfl
@[simp] theorem State.modQ_ecc (s : State) (i : Fin 16) (f : QPair → QPair) : (s.modQ i f).ecc = s.ecc := rfl
@[simp] theorem State.modQ_mpDma (s : State) (i : Fin 16) (f : QPair → QPair) : (s.modQ i f).mpDma = s.mpDma := rfl
@[simp] theorem State.modQ_mpSram (s : State) (i : Fin 16) (f : QPair → QPair) : (s.modQ i f).mpSram = s.mpSram := rfl
@[simp] theorem State.modQ_mpEcc (s : State) (i : Fin 16) (f : QPair → QPair) : (s.modQ i f).mpEcc = s.mpEcc := rfl
@[simp] theorem State.modQ_mpCache (s : State) (i : Fin 16) (f : QPair → QPair) : (s.modQ i f).mpCache = s.mpCache := rfl
@[simp] theorem State.modQ_flash (s : State) (i : Fin 16) (f : QPair → QPair) : (s.modQ i f).flash = s.flash := rfl
@[simp] theorem State.modQ_hostMem (s : State) (i : Fin 16) (f : QPair → QPair) : (s.modQ i f).hostMem = s.hostMem := rfl
@[simp] theorem State.modQ_tly (s : State) (i : Fin 16) (f : QPair → QPair) : (s.modQ i f).tly = s.tly := rfl
@[simp] theorem State.modQ_fab (s : State) (i : Fin 16) (f : QPair → QPair) : (s.modQ i f).fab = s.fab := rfl
@[simp] theorem State.modQ_prog (s : State) (i : Fin 16) (f : QPair → QPair) : (s.modQ i f).prog = s.prog := rfl
@[simp] theorem State.modQ_snap (s : State) (i : Fin 16) (f : QPair → QPair) : (s.modQ i f).snap = s.snap := rfl
@[simp] theorem State.modQ_dmc (s : State) (i : Fin 16) (f : QPair → QPair) : (s.modQ i f).dmc = s.dmc := rfl
@[simp] theorem State.modQ_int (s : State) (i : Fin 16) (f : QPair → QPair) : (s.modQ i f).int = s.int := rfl
@[simp] theorem State.modQ_fus (s : State) (i : Fin 16) (f : QPair → QPair) : (s.modQ i f).fus = s.fus := rfl
@[simp] theorem State.modQ_pln (s : State) (i : Fin 16) (f : QPair → QPair) : (s.modQ i f).pln = s.pln := rfl
@[simp] theorem State.modQ_saf (s : State) (i : Fin 16) (f : QPair → QPair) : (s.modQ i f).saf = s.saf := rfl
@[simp] theorem State.modQ_cvu (s : State) (i : Fin 16) (f : QPair → QPair) : (s.modQ i f).cvu = s.cvu := rfl
@[simp] theorem State.modQ_pwr (s : State) (i : Fin 16) (f : QPair → QPair) : (s.modQ i f).pwr = s.pwr := rfl
@[simp] theorem State.modQ_wear (s : State) (i : Fin 16) (f : QPair → QPair) : (s.modQ i f).wear = s.wear := rfl
@[simp] theorem State.modQ_ifc (s : State) (i : Fin 16) (f : QPair → QPair) : (s.modQ i f).ifc = s.ifc := rfl
@[simp] theorem State.modQ_tim (s : State) (i : Fin 16) (f : QPair → QPair) : (s.modQ i f).tim = s.tim := rfl
@[simp] theorem State.modQ_dbg (s : State) (i : Fin 16) (f : QPair → QPair) : (s.modQ i f).dbg = s.dbg := rfl
@[simp] theorem State.modQ_boot (s : State) (i : Fin 16) (f : QPair → QPair) : (s.modQ i f).boot = s.boot := rfl
@[simp] theorem State.modQ_fuse (s : State) (i : Fin 16) (f : QPair → QPair) : (s.modQ i f).fuse = s.fuse := rfl
@[simp] theorem State.modQ_free (s : State) (i : Fin 16) (f : QPair → QPair) : (s.modQ i f).free = s.free := rfl
@[simp] theorem State.modQ_pending (s : State) (i : Fin 16) (f : QPair → QPair) : (s.modQ i f).pending = s.pending := rfl

/-! ### State.modCh -/

@[simp] theorem State.modCh_tiles (s : State) (i : Fin 8) (f : Channel → Channel) : (s.modCh i f).tiles = s.tiles := rfl
@[simp] theorem State.modCh_mp (s : State) (i : Fin 8) (f : Channel → Channel) : (s.modCh i f).mp = s.mp := rfl
@[simp] theorem State.modCh_deps (s : State) (i : Fin 8) (f : Channel → Channel) : (s.modCh i f).deps = s.deps := rfl
@[simp] theorem State.modCh_mem (s : State) (i : Fin 8) (f : Channel → Channel) : (s.modCh i f).mem = s.mem := rfl
@[simp] theorem State.modCh_ecc (s : State) (i : Fin 8) (f : Channel → Channel) : (s.modCh i f).ecc = s.ecc := rfl
@[simp] theorem State.modCh_mpDma (s : State) (i : Fin 8) (f : Channel → Channel) : (s.modCh i f).mpDma = s.mpDma := rfl
@[simp] theorem State.modCh_mpSram (s : State) (i : Fin 8) (f : Channel → Channel) : (s.modCh i f).mpSram = s.mpSram := rfl
@[simp] theorem State.modCh_mpEcc (s : State) (i : Fin 8) (f : Channel → Channel) : (s.modCh i f).mpEcc = s.mpEcc := rfl
@[simp] theorem State.modCh_mpCache (s : State) (i : Fin 8) (f : Channel → Channel) : (s.modCh i f).mpCache = s.mpCache := rfl
@[simp] theorem State.modCh_flash (s : State) (i : Fin 8) (f : Channel → Channel) : (s.modCh i f).flash = s.flash := rfl
@[simp] theorem State.modCh_hostMem (s : State) (i : Fin 8) (f : Channel → Channel) : (s.modCh i f).hostMem = s.hostMem := rfl
@[simp] theorem State.modCh_tly (s : State) (i : Fin 8) (f : Channel → Channel) : (s.modCh i f).tly = s.tly := rfl
@[simp] theorem State.modCh_fab (s : State) (i : Fin 8) (f : Channel → Channel) : (s.modCh i f).fab = s.fab := rfl
@[simp] theorem State.modCh_cmd (s : State) (i : Fin 8) (f : Channel → Channel) : (s.modCh i f).cmd = s.cmd := rfl
@[simp] theorem State.modCh_prog (s : State) (i : Fin 8) (f : Channel → Channel) : (s.modCh i f).prog = s.prog := rfl
@[simp] theorem State.modCh_snap (s : State) (i : Fin 8) (f : Channel → Channel) : (s.modCh i f).snap = s.snap := rfl
@[simp] theorem State.modCh_int (s : State) (i : Fin 8) (f : Channel → Channel) : (s.modCh i f).int = s.int := rfl
@[simp] theorem State.modCh_fus (s : State) (i : Fin 8) (f : Channel → Channel) : (s.modCh i f).fus = s.fus := rfl
@[simp] theorem State.modCh_pln (s : State) (i : Fin 8) (f : Channel → Channel) : (s.modCh i f).pln = s.pln := rfl
@[simp] theorem State.modCh_saf (s : State) (i : Fin 8) (f : Channel → Channel) : (s.modCh i f).saf = s.saf := rfl
@[simp] theorem State.modCh_cvu (s : State) (i : Fin 8) (f : Channel → Channel) : (s.modCh i f).cvu = s.cvu := rfl
@[simp] theorem State.modCh_pwr (s : State) (i : Fin 8) (f : Channel → Channel) : (s.modCh i f).pwr = s.pwr := rfl
@[simp] theorem State.modCh_wear (s : State) (i : Fin 8) (f : Channel → Channel) : (s.modCh i f).wear = s.wear := rfl
@[simp] theorem State.modCh_ifc (s : State) (i : Fin 8) (f : Channel → Channel) : (s.modCh i f).ifc = s.ifc := rfl
@[simp] theorem State.modCh_tim (s : State) (i : Fin 8) (f : Channel → Channel) : (s.modCh i f).tim = s.tim := rfl
@[simp] theorem State.modCh_dbg (s : State) (i : Fin 8) (f : Channel → Channel) : (s.modCh i f).dbg = s.dbg := rfl
@[simp] theorem State.modCh_boot (s : State) (i : Fin 8) (f : Channel → Channel) : (s.modCh i f).boot = s.boot := rfl
@[simp] theorem State.modCh_fuse (s : State) (i : Fin 8) (f : Channel → Channel) : (s.modCh i f).fuse = s.fuse := rfl
@[simp] theorem State.modCh_free (s : State) (i : Fin 8) (f : Channel → Channel) : (s.modCh i f).free = s.free := rfl
@[simp] theorem State.modCh_pending (s : State) (i : Fin 8) (f : Channel → Channel) : (s.modCh i f).pending = s.pending := rfl

/-! ### State.modStr -/

@[simp] theorem State.modStr_tiles (s : State) (i : Fin 56) (f : Stream → Stream) : (s.modStr i f).tiles = s.tiles := rfl
@[simp] theorem State.modStr_mp (s : State) (i : Fin 56) (f : Stream → Stream) : (s.modStr i f).mp = s.mp := rfl
@[simp] theorem State.modStr_deps (s : State) (i : Fin 56) (f : Stream → Stream) : (s.modStr i f).deps = s.deps := rfl
@[simp] theorem State.modStr_mem (s : State) (i : Fin 56) (f : Stream → Stream) : (s.modStr i f).mem = s.mem := rfl
@[simp] theorem State.modStr_ecc (s : State) (i : Fin 56) (f : Stream → Stream) : (s.modStr i f).ecc = s.ecc := rfl
@[simp] theorem State.modStr_mpDma (s : State) (i : Fin 56) (f : Stream → Stream) : (s.modStr i f).mpDma = s.mpDma := rfl
@[simp] theorem State.modStr_mpSram (s : State) (i : Fin 56) (f : Stream → Stream) : (s.modStr i f).mpSram = s.mpSram := rfl
@[simp] theorem State.modStr_mpEcc (s : State) (i : Fin 56) (f : Stream → Stream) : (s.modStr i f).mpEcc = s.mpEcc := rfl
@[simp] theorem State.modStr_mpCache (s : State) (i : Fin 56) (f : Stream → Stream) : (s.modStr i f).mpCache = s.mpCache := rfl
@[simp] theorem State.modStr_flash (s : State) (i : Fin 56) (f : Stream → Stream) : (s.modStr i f).flash = s.flash := rfl
@[simp] theorem State.modStr_hostMem (s : State) (i : Fin 56) (f : Stream → Stream) : (s.modStr i f).hostMem = s.hostMem := rfl
@[simp] theorem State.modStr_tly (s : State) (i : Fin 56) (f : Stream → Stream) : (s.modStr i f).tly = s.tly := rfl
@[simp] theorem State.modStr_fab (s : State) (i : Fin 56) (f : Stream → Stream) : (s.modStr i f).fab = s.fab := rfl
@[simp] theorem State.modStr_cmd (s : State) (i : Fin 56) (f : Stream → Stream) : (s.modStr i f).cmd = s.cmd := rfl
@[simp] theorem State.modStr_prog (s : State) (i : Fin 56) (f : Stream → Stream) : (s.modStr i f).prog = s.prog := rfl
@[simp] theorem State.modStr_snap (s : State) (i : Fin 56) (f : Stream → Stream) : (s.modStr i f).snap = s.snap := rfl
@[simp] theorem State.modStr_dmc (s : State) (i : Fin 56) (f : Stream → Stream) : (s.modStr i f).dmc = s.dmc := rfl
@[simp] theorem State.modStr_fus (s : State) (i : Fin 56) (f : Stream → Stream) : (s.modStr i f).fus = s.fus := rfl
@[simp] theorem State.modStr_pln (s : State) (i : Fin 56) (f : Stream → Stream) : (s.modStr i f).pln = s.pln := rfl
@[simp] theorem State.modStr_saf (s : State) (i : Fin 56) (f : Stream → Stream) : (s.modStr i f).saf = s.saf := rfl
@[simp] theorem State.modStr_cvu (s : State) (i : Fin 56) (f : Stream → Stream) : (s.modStr i f).cvu = s.cvu := rfl
@[simp] theorem State.modStr_pwr (s : State) (i : Fin 56) (f : Stream → Stream) : (s.modStr i f).pwr = s.pwr := rfl
@[simp] theorem State.modStr_wear (s : State) (i : Fin 56) (f : Stream → Stream) : (s.modStr i f).wear = s.wear := rfl
@[simp] theorem State.modStr_ifc (s : State) (i : Fin 56) (f : Stream → Stream) : (s.modStr i f).ifc = s.ifc := rfl
@[simp] theorem State.modStr_tim (s : State) (i : Fin 56) (f : Stream → Stream) : (s.modStr i f).tim = s.tim := rfl
@[simp] theorem State.modStr_dbg (s : State) (i : Fin 56) (f : Stream → Stream) : (s.modStr i f).dbg = s.dbg := rfl
@[simp] theorem State.modStr_boot (s : State) (i : Fin 56) (f : Stream → Stream) : (s.modStr i f).boot = s.boot := rfl
@[simp] theorem State.modStr_fuse (s : State) (i : Fin 56) (f : Stream → Stream) : (s.modStr i f).fuse = s.fuse := rfl
@[simp] theorem State.modStr_free (s : State) (i : Fin 56) (f : Stream → Stream) : (s.modStr i f).free = s.free := rfl
@[simp] theorem State.modStr_pending (s : State) (i : Fin 56) (f : Stream → Stream) : (s.modStr i f).pending = s.pending := rfl

/-! ### State.modLink -/

@[simp] theorem State.modLink_tiles (s : State) (i : Fin 2) (f : Link → Link) : (s.modLink i f).tiles = s.tiles := rfl
@[simp] theorem State.modLink_mp (s : State) (i : Fin 2) (f : Link → Link) : (s.modLink i f).mp = s.mp := rfl
@[simp] theorem State.modLink_deps (s : State) (i : Fin 2) (f : Link → Link) : (s.modLink i f).deps = s.deps := rfl
@[simp] theorem State.modLink_mem (s : State) (i : Fin 2) (f : Link → Link) : (s.modLink i f).mem = s.mem := rfl
@[simp] theorem State.modLink_ecc (s : State) (i : Fin 2) (f : Link → Link) : (s.modLink i f).ecc = s.ecc := rfl
@[simp] theorem State.modLink_mpDma (s : State) (i : Fin 2) (f : Link → Link) : (s.modLink i f).mpDma = s.mpDma := rfl
@[simp] theorem State.modLink_mpSram (s : State) (i : Fin 2) (f : Link → Link) : (s.modLink i f).mpSram = s.mpSram := rfl
@[simp] theorem State.modLink_mpEcc (s : State) (i : Fin 2) (f : Link → Link) : (s.modLink i f).mpEcc = s.mpEcc := rfl
@[simp] theorem State.modLink_mpCache (s : State) (i : Fin 2) (f : Link → Link) : (s.modLink i f).mpCache = s.mpCache := rfl
@[simp] theorem State.modLink_flash (s : State) (i : Fin 2) (f : Link → Link) : (s.modLink i f).flash = s.flash := rfl
@[simp] theorem State.modLink_hostMem (s : State) (i : Fin 2) (f : Link → Link) : (s.modLink i f).hostMem = s.hostMem := rfl
@[simp] theorem State.modLink_tly (s : State) (i : Fin 2) (f : Link → Link) : (s.modLink i f).tly = s.tly := rfl
@[simp] theorem State.modLink_fab (s : State) (i : Fin 2) (f : Link → Link) : (s.modLink i f).fab = s.fab := rfl
@[simp] theorem State.modLink_cmd (s : State) (i : Fin 2) (f : Link → Link) : (s.modLink i f).cmd = s.cmd := rfl
@[simp] theorem State.modLink_prog (s : State) (i : Fin 2) (f : Link → Link) : (s.modLink i f).prog = s.prog := rfl
@[simp] theorem State.modLink_snap (s : State) (i : Fin 2) (f : Link → Link) : (s.modLink i f).snap = s.snap := rfl
@[simp] theorem State.modLink_dmc (s : State) (i : Fin 2) (f : Link → Link) : (s.modLink i f).dmc = s.dmc := rfl
@[simp] theorem State.modLink_int (s : State) (i : Fin 2) (f : Link → Link) : (s.modLink i f).int = s.int := rfl
@[simp] theorem State.modLink_fus (s : State) (i : Fin 2) (f : Link → Link) : (s.modLink i f).fus = s.fus := rfl
@[simp] theorem State.modLink_pln (s : State) (i : Fin 2) (f : Link → Link) : (s.modLink i f).pln = s.pln := rfl
@[simp] theorem State.modLink_saf (s : State) (i : Fin 2) (f : Link → Link) : (s.modLink i f).saf = s.saf := rfl
@[simp] theorem State.modLink_cvu (s : State) (i : Fin 2) (f : Link → Link) : (s.modLink i f).cvu = s.cvu := rfl
@[simp] theorem State.modLink_pwr (s : State) (i : Fin 2) (f : Link → Link) : (s.modLink i f).pwr = s.pwr := rfl
@[simp] theorem State.modLink_wear (s : State) (i : Fin 2) (f : Link → Link) : (s.modLink i f).wear = s.wear := rfl
@[simp] theorem State.modLink_tim (s : State) (i : Fin 2) (f : Link → Link) : (s.modLink i f).tim = s.tim := rfl
@[simp] theorem State.modLink_dbg (s : State) (i : Fin 2) (f : Link → Link) : (s.modLink i f).dbg = s.dbg := rfl
@[simp] theorem State.modLink_boot (s : State) (i : Fin 2) (f : Link → Link) : (s.modLink i f).boot = s.boot := rfl
@[simp] theorem State.modLink_fuse (s : State) (i : Fin 2) (f : Link → Link) : (s.modLink i f).fuse = s.fuse := rfl
@[simp] theorem State.modLink_free (s : State) (i : Fin 2) (f : Link → Link) : (s.modLink i f).free = s.free := rfl
@[simp] theorem State.modLink_pending (s : State) (i : Fin 2) (f : Link → Link) : (s.modLink i f).pending = s.pending := rfl

/-! ### The fields that State.modQ, modCh, modStr and modLink write -/

@[simp] theorem State.modQ_q (s : State) (i : Fin 16) (f : QPair → QPair) : (s.modQ i f).cmd.q = vmod s.cmd.q i f := rfl
@[simp] theorem State.modQ_ops (s : State) (i : Fin 16) (f : QPair → QPair) : (s.modQ i f).cmd.ops = s.cmd.ops := rfl
@[simp] theorem State.modQ_mpq (s : State) (i : Fin 16) (f : QPair → QPair) : (s.modQ i f).cmd.mpq = s.cmd.mpq := rfl
@[simp] theorem State.modCh_ch (s : State) (i : Fin 8) (f : Channel → Channel) : (s.modCh i f).dmc.ch = vmod s.dmc.ch i f := rfl
@[simp] theorem State.modStr_str (s : State) (i : Fin 56) (f : Stream → Stream) : (s.modStr i f).int.str = vmod s.int.str i f := rfl
@[simp] theorem State.modStr_ring (s : State) (i : Fin 56) (f : Stream → Stream) : (s.modStr i f).int.ring = s.int.ring := rfl
@[simp] theorem State.modStr_grp (s : State) (i : Fin 56) (f : Stream → Stream) : (s.modStr i f).int.grp = s.int.grp := rfl
@[simp] theorem State.modLink_link (s : State) (i : Fin 2) (f : Link → Link) : (s.modLink i f).ifc.link = vmod s.ifc.link i f := rfl

/-! ### State.modSeq -/

@[simp] theorem State.modSeq_mem (s : State) (p : Proc) (f : Seq → Seq) : (s.modSeq p f).mem = s.mem := by cases p <;> rfl
@[simp] theorem State.modSeq_ecc (s : State) (p : Proc) (f : Seq → Seq) : (s.modSeq p f).ecc = s.ecc := by cases p <;> rfl
@[simp] theorem State.modSeq_mpDma (s : State) (p : Proc) (f : Seq → Seq) : (s.modSeq p f).mpDma = s.mpDma := by cases p <;> rfl
@[simp] theorem State.modSeq_mpSram (s : State) (p : Proc) (f : Seq → Seq) : (s.modSeq p f).mpSram = s.mpSram := by cases p <;> rfl
@[simp] theorem State.modSeq_mpEcc (s : State) (p : Proc) (f : Seq → Seq) : (s.modSeq p f).mpEcc = s.mpEcc := by cases p <;> rfl
@[simp] theorem State.modSeq_mpCache (s : State) (p : Proc) (f : Seq → Seq) : (s.modSeq p f).mpCache = s.mpCache := by cases p <;> rfl
@[simp] theorem State.modSeq_flash (s : State) (p : Proc) (f : Seq → Seq) : (s.modSeq p f).flash = s.flash := by cases p <;> rfl
@[simp] theorem State.modSeq_hostMem (s : State) (p : Proc) (f : Seq → Seq) : (s.modSeq p f).hostMem = s.hostMem := by cases p <;> rfl
@[simp] theorem State.modSeq_tly (s : State) (p : Proc) (f : Seq → Seq) : (s.modSeq p f).tly = s.tly := by cases p <;> rfl
@[simp] theorem State.modSeq_fab (s : State) (p : Proc) (f : Seq → Seq) : (s.modSeq p f).fab = s.fab := by cases p <;> rfl
@[simp] theorem State.modSeq_cmd (s : State) (p : Proc) (f : Seq → Seq) : (s.modSeq p f).cmd = s.cmd := by cases p <;> rfl
@[simp] theorem State.modSeq_prog (s : State) (p : Proc) (f : Seq → Seq) : (s.modSeq p f).prog = s.prog := by cases p <;> rfl
@[simp] theorem State.modSeq_snap (s : State) (p : Proc) (f : Seq → Seq) : (s.modSeq p f).snap = s.snap := by cases p <;> rfl
@[simp] theorem State.modSeq_dmc (s : State) (p : Proc) (f : Seq → Seq) : (s.modSeq p f).dmc = s.dmc := by cases p <;> rfl
@[simp] theorem State.modSeq_int (s : State) (p : Proc) (f : Seq → Seq) : (s.modSeq p f).int = s.int := by cases p <;> rfl
@[simp] theorem State.modSeq_fus (s : State) (p : Proc) (f : Seq → Seq) : (s.modSeq p f).fus = s.fus := by cases p <;> rfl
@[simp] theorem State.modSeq_pln (s : State) (p : Proc) (f : Seq → Seq) : (s.modSeq p f).pln = s.pln := by cases p <;> rfl
@[simp] theorem State.modSeq_saf (s : State) (p : Proc) (f : Seq → Seq) : (s.modSeq p f).saf = s.saf := by cases p <;> rfl
@[simp] theorem State.modSeq_cvu (s : State) (p : Proc) (f : Seq → Seq) : (s.modSeq p f).cvu = s.cvu := by cases p <;> rfl
@[simp] theorem State.modSeq_pwr (s : State) (p : Proc) (f : Seq → Seq) : (s.modSeq p f).pwr = s.pwr := by cases p <;> rfl
@[simp] theorem State.modSeq_wear (s : State) (p : Proc) (f : Seq → Seq) : (s.modSeq p f).wear = s.wear := by cases p <;> rfl
@[simp] theorem State.modSeq_ifc (s : State) (p : Proc) (f : Seq → Seq) : (s.modSeq p f).ifc = s.ifc := by cases p <;> rfl
@[simp] theorem State.modSeq_tim (s : State) (p : Proc) (f : Seq → Seq) : (s.modSeq p f).tim = s.tim := by cases p <;> rfl
@[simp] theorem State.modSeq_dbg (s : State) (p : Proc) (f : Seq → Seq) : (s.modSeq p f).dbg = s.dbg := by cases p <;> rfl
@[simp] theorem State.modSeq_boot (s : State) (p : Proc) (f : Seq → Seq) : (s.modSeq p f).boot = s.boot := by cases p <;> rfl
@[simp] theorem State.modSeq_fuse (s : State) (p : Proc) (f : Seq → Seq) : (s.modSeq p f).fuse = s.fuse := by cases p <;> rfl
@[simp] theorem State.modSeq_free (s : State) (p : Proc) (f : Seq → Seq) : (s.modSeq p f).free = s.free := by cases p <;> rfl
@[simp] theorem State.modSeq_pending (s : State) (p : Proc) (f : Seq → Seq) : (s.modSeq p f).pending = s.pending := by cases p <;> rfl

@[simp] theorem State.modSeq_seq_self (s : State) (p : Proc) (f : Seq → Seq) : (s.modSeq p f).seq p = f (s.seq p) := by
  cases p <;> simp [State.modSeq, State.seq, State.modTile, State.modDep]

/-- The sequencer of another processor is as it was. -/
theorem State.modSeq_seq_ne (s : State) (p q : Proc) (f : Seq → Seq) (h : q ≠ p) : (s.modSeq p f).seq q = s.seq q := by
  cases p <;> cases q <;> simp_all [State.modSeq, State.seq, State.modTile, State.modDep, vmod_nat_ne]

/-- Two updates of one sequencer are one. -/
@[simp] theorem State.modSeq_modSeq (s : State) (p : Proc) (f g : Seq → Seq) :
    (s.modSeq p f).modSeq p g = s.modSeq p (fun q => g (f q)) := by
  cases p <;> simp [State.modSeq, State.modTile, State.modDep]

/-- Writing back what a sequencer holds changes nothing. -/
@[simp] theorem State.modSeq_self (s : State) (p : Proc) : s.modSeq p (fun _ => s.seq p) = s := by
  cases p with
  | core t => exact congrArg (fun v => { s with tiles := v }) (vmod_same s.tiles t (fun x => { x with seq := s.tiles[t].seq }) rfl)
  | mp => rfl
  | dep d => exact congrArg (fun v => { s with deps := v }) (vmod_same s.deps d (fun x => { x with seq := s.deps[d].seq }) rfl)

@[simp] theorem State.dt_modSeq (s : State) (p : Proc) (f : Seq → Seq) : (s.modSeq p f).dt = s.dt := by
  cases p <;> rfl

/-! ### Free values and the queue -/

@[simp] theorem State.useFree_tiles (s : State) (n : Nat) : (s.useFree n).tiles = s.tiles := rfl
@[simp] theorem State.useFree_mp (s : State) (n : Nat) : (s.useFree n).mp = s.mp := rfl
@[simp] theorem State.useFree_deps (s : State) (n : Nat) : (s.useFree n).deps = s.deps := rfl
@[simp] theorem State.useFree_mem (s : State) (n : Nat) : (s.useFree n).mem = s.mem := rfl
@[simp] theorem State.useFree_ecc (s : State) (n : Nat) : (s.useFree n).ecc = s.ecc := rfl
@[simp] theorem State.useFree_mpDma (s : State) (n : Nat) : (s.useFree n).mpDma = s.mpDma := rfl
@[simp] theorem State.useFree_mpSram (s : State) (n : Nat) : (s.useFree n).mpSram = s.mpSram := rfl
@[simp] theorem State.useFree_mpEcc (s : State) (n : Nat) : (s.useFree n).mpEcc = s.mpEcc := rfl
@[simp] theorem State.useFree_mpCache (s : State) (n : Nat) : (s.useFree n).mpCache = s.mpCache := rfl
@[simp] theorem State.useFree_flash (s : State) (n : Nat) : (s.useFree n).flash = s.flash := rfl
@[simp] theorem State.useFree_hostMem (s : State) (n : Nat) : (s.useFree n).hostMem = s.hostMem := rfl
@[simp] theorem State.useFree_tly (s : State) (n : Nat) : (s.useFree n).tly = s.tly := rfl
@[simp] theorem State.useFree_fab (s : State) (n : Nat) : (s.useFree n).fab = s.fab := rfl
@[simp] theorem State.useFree_cmd (s : State) (n : Nat) : (s.useFree n).cmd = s.cmd := rfl
@[simp] theorem State.useFree_prog (s : State) (n : Nat) : (s.useFree n).prog = s.prog := rfl
@[simp] theorem State.useFree_snap (s : State) (n : Nat) : (s.useFree n).snap = s.snap := rfl
@[simp] theorem State.useFree_dmc (s : State) (n : Nat) : (s.useFree n).dmc = s.dmc := rfl
@[simp] theorem State.useFree_int (s : State) (n : Nat) : (s.useFree n).int = s.int := rfl
@[simp] theorem State.useFree_fus (s : State) (n : Nat) : (s.useFree n).fus = s.fus := rfl
@[simp] theorem State.useFree_pln (s : State) (n : Nat) : (s.useFree n).pln = s.pln := rfl
@[simp] theorem State.useFree_saf (s : State) (n : Nat) : (s.useFree n).saf = s.saf := rfl
@[simp] theorem State.useFree_cvu (s : State) (n : Nat) : (s.useFree n).cvu = s.cvu := rfl
@[simp] theorem State.useFree_pwr (s : State) (n : Nat) : (s.useFree n).pwr = s.pwr := rfl
@[simp] theorem State.useFree_wear (s : State) (n : Nat) : (s.useFree n).wear = s.wear := rfl
@[simp] theorem State.useFree_ifc (s : State) (n : Nat) : (s.useFree n).ifc = s.ifc := rfl
@[simp] theorem State.useFree_tim (s : State) (n : Nat) : (s.useFree n).tim = s.tim := rfl
@[simp] theorem State.useFree_dbg (s : State) (n : Nat) : (s.useFree n).dbg = s.dbg := rfl
@[simp] theorem State.useFree_boot (s : State) (n : Nat) : (s.useFree n).boot = s.boot := rfl
@[simp] theorem State.useFree_fuse (s : State) (n : Nat) : (s.useFree n).fuse = s.fuse := rfl
@[simp] theorem State.useFree_free (s : State) (n : Nat) : (s.useFree n).free = s.free + n := rfl
@[simp] theorem State.useFree_pending (s : State) (n : Nat) : (s.useFree n).pending = s.pending := rfl

end Sys2Proof.Machine
end

