-- ==== Sys2Proof/Laws/Regs.lean ====
section
/-! SUPPORT. Scalar registers and predicates read after they are written, and what issuing an instruction comes to. -/

namespace Sys2Proof.Machine

theorem vgetN_vmodN_self {α : Type} {n : Nat} (v : Vector α n) (i : Nat) (f : α → α) (d : α) (h : i < n) :
    vgetN (vmodN v i f) i d = f (vgetN v i d) := by
  simp [vgetN, vmodN, vmod, h]

theorem vgetN_vmodN_ne {α : Type} {n : Nat} (v : Vector α n) (i j : Nat) (f : α → α) (d : α) (h : i ≠ j) :
    vgetN (vmodN v i f) j d = vgetN v j d := by
  by_cases hi : i < n <;> by_cases hj : j < n <;> simp [vgetN, vmodN, vmod, hi, hj, Vector.getElem_set_ne, h]

/-- A slot and the one before it are different. -/
theorem slot_ne_pred (k : BitVec 3) : (k - 1).toNat ≠ k.toNat := by
  revert k; decide

/-- A register of a ring slot read after it is written. -/
theorem ringGet_ringSet_self (q : Seq) (k : BitVec 3) (i : Fin 16) (v : BitVec 64) : ringGet (ringSet q k i v) k i = v := by
  unfold ringGet ringSet
  split <;> simp

theorem ringGet_hi (q : Seq) (k : BitVec 3) {i : Fin 16} (h : 4 ≤ i.val) :
    ringGet q k i = (q.ring[k.toNat])[i.val - 4]'(by omega) := by
  unfold ringGet; rw [dif_pos h]

theorem ringGet_lo (q : Seq) (k : BitVec 3) {i : Fin 16} (h : ¬ 4 ≤ i.val) :
    ringGet q k i = (q.ring[(k - 1).toNat])[i.val + 8]'(by omega) := by
  unfold ringGet; rw [dif_neg h]

theorem ringSet_hi (q : Seq) (k : BitVec 3) {i : Fin 16} (v : BitVec 64) (h : 4 ≤ i.val) :
    (ringSet q k i v).ring = q.ring.set k.toNat ((q.ring[k.toNat]).set (i.val - 4) v (by omega)) := by
  unfold ringSet; rw [dif_pos h]

theorem ringSet_lo (q : Seq) (k : BitVec 3) {i : Fin 16} (v : BitVec 64) (h : ¬ 4 ≤ i.val) :
    (ringSet q k i v).ring = q.ring.set (k - 1).toNat ((q.ring[(k - 1).toNat]).set (i.val + 8) v (by omega)) := by
  unfold ringSet; rw [dif_neg h]

/-- Another register of the same slot. -/
theorem ringGet_ringSet_ne (q : Seq) (k : BitVec 3) (i j : Fin 16) (v : BitVec 64) (h : j ≠ i) :
    ringGet (ringSet q k i v) k j = ringGet q k j := by
  have hs := slot_ne_pred k
  have hv : i.val ≠ j.val := fun e => h (Fin.ext e.symm)
  by_cases hi : 4 ≤ i.val <;> by_cases hj : 4 ≤ j.val
  · have hij : i.val - 4 ≠ j.val - 4 := by omega
    simp only [ringGet_hi _ _ hj, ringSet_hi q k v hi, Vector.getElem_set_self, Vector.getElem_set_ne _ _ hij]
  · simp only [ringGet_lo _ _ hj, ringSet_hi q k v hi, Vector.getElem_set_ne _ _ hs.symm]
  · simp only [ringGet_hi _ _ hj, ringSet_lo q k v hi, Vector.getElem_set_ne _ _ hs]
  · have hij : i.val + 8 ≠ j.val + 8 := by omega
    simp only [ringGet_lo _ _ hj, ringSet_lo q k v hi, Vector.getElem_set_self, Vector.getElem_set_ne _ _ hij]

theorem ringSet_inTrap (q : Seq) (k : BitVec 3) (i : Fin 16) (v : BitVec 64) : (ringSet q k i v).inTrap = q.inTrap := by
  unfold ringSet; split <;> rfl

theorem ringSet_depth (q : Seq) (k : BitVec 3) (i : Fin 16) (v : BitVec 64) : (ringSet q k i v).depth = q.depth := by
  unfold ringSet; split <;> rfl

theorem curSlot_ringSet (q : Seq) (k : BitVec 3) (i : Fin 16) (v : BitVec 64) : curSlot (ringSet q k i v) = curSlot q := by
  unfold curSlot; rw [ringSet_depth]

theorem ringSet_sel (q : Seq) (k : BitVec 3) (i : Fin 16) (v : BitVec 64) : (ringSet q k i v).sel = q.sel := by
  unfold ringSet; split <;> rfl

theorem ringSet_selen (q : Seq) (k : BitVec 3) (i : Fin 16) (v : BitVec 64) : (ringSet q k i v).selen = q.selen := by
  unfold ringSet; split <;> rfl

theorem ringSet_g (q : Seq) (k : BitVec 3) (i : Fin 16) (v : BitVec 64) : (ringSet q k i v).g = q.g := by
  unfold ringSet; split <;> rfl

/-- g0 reads 0 (R86). -/
@[simp] theorem readReg_zero (q : Seq) (m : Bool) : readReg q 0#5 m = 0 := rfl

/-- A write of g0 is discarded. -/
@[simp] theorem writeReg_zero (q : Seq) (m : Bool) (v : BitVec 64) : writeReg q 0#5 m v = q := rfl

/-- The window register that a code from 16 on names. -/
def winIdx (c : BitVec 5) : Fin 16 := (c.setWidth 4).toFin

theorem winIdx_ne {c x : BitVec 5} (hc : ¬ c.toNat < 16) (hx : ¬ x.toNat < 16) (h : x ≠ c) : winIdx x ≠ winIdx c := by
  revert c x; decide

theorem readReg_g {q : Seq} {c : BitVec 5} (m : Bool) (h : c.toNat < 16) (h0 : c ≠ 0#5) :
    readReg q c m = vgetN q.g c.toNat 0 := by
  unfold readReg; rw [if_pos h]; exact if_neg h0

theorem writeReg_g {q : Seq} {c : BitVec 5} (m : Bool) (v : BitVec 64) (h : c.toNat < 16) (h0 : c ≠ 0#5) :
    writeReg q c m v = { q with g := vmodN q.g c.toNat fun _ => v } := by
  unfold writeReg; rw [if_pos h]; exact if_neg h0

theorem readReg_ring {q : Seq} {c : BitVec 5} (m : Bool) (h : ¬ c.toNat < 16) (ht : q.inTrap = false) :
    readReg q c m = ringGet q (curSlot q) (winIdx c) := by
  unfold readReg winIdx; simp only [if_neg h, ht, Bool.false_eq_true, if_false]

theorem writeReg_ring {q : Seq} {c : BitVec 5} (m : Bool) (v : BitVec 64) (h : ¬ c.toNat < 16) (ht : q.inTrap = false) :
    writeReg q c m v = ringSet q (curSlot q) (winIdx c) v := by
  unfold writeReg winIdx; simp only [if_neg h, ht, Bool.false_eq_true, if_false]

theorem readReg_sel {q : Seq} {c : BitVec 5} {m : Bool} (h : ¬ c.toNat < 16) (ht : q.inTrap = true)
    (hm : (q.selen && m) = true) : readReg q c m = ringGet q q.sel (winIdx c) := by
  unfold readReg winIdx; simp only [if_neg h, ht, hm, if_true]

theorem writeReg_sel {q : Seq} {c : BitVec 5} {m : Bool} (v : BitVec 64) (h : ¬ c.toNat < 16) (ht : q.inTrap = true)
    (hm : (q.selen && m) = true) : writeReg q c m v = ringSet q q.sel (winIdx c) v := by
  unfold writeReg winIdx; simp only [if_neg h, ht, hm, if_true]

theorem readReg_tf {q : Seq} {c : BitVec 5} {m : Bool} (h : ¬ c.toNat < 16) (ht : q.inTrap = true)
    (hm : (q.selen && m) = false) : readReg q c m = q.tf[winIdx c] := by
  unfold readReg winIdx; simp only [if_neg h, ht, hm, if_true, Bool.false_eq_true, if_false]

theorem writeReg_tf {q : Seq} {c : BitVec 5} {m : Bool} (v : BitVec 64) (h : ¬ c.toNat < 16) (ht : q.inTrap = true)
    (hm : (q.selen && m) = false) : writeReg q c m v = { q with tf := q.tf.set (winIdx c) v } := by
  unfold writeReg winIdx; simp only [if_neg h, ht, hm, if_true, Bool.false_eq_true, if_false]

/-- A scalar register read after it is written. -/
theorem readReg_writeReg_self (q : Seq) (c : BitVec 5) (m : Bool) (v : BitVec 64) (h : c ≠ 0#5) :
    readReg (writeReg q c m v) c m = v := by
  by_cases hc : c.toNat < 16
  · rw [writeReg_g m v hc h, readReg_g m hc h]
    exact vgetN_vmodN_self q.g _ _ _ hc
  · cases ht : q.inTrap with
    | false => rw [writeReg_ring m v hc ht, readReg_ring m hc (by rw [ringSet_inTrap, ht]), curSlot_ringSet]
               exact ringGet_ringSet_self q _ _ v
    | true =>
      cases hm : (q.selen && m) with
      | true => rw [writeReg_sel v hc ht hm, readReg_sel hc (by rw [ringSet_inTrap, ht]) (by rw [ringSet_selen, hm]), ringSet_sel]
                exact ringGet_ringSet_self q _ _ v
      | false => rw [writeReg_tf v hc ht hm, readReg_tf (q := { q with tf := q.tf.set (winIdx c) v }) hc ht hm]
                 exact Vector.getElem_set_self _

/-- Every other scalar register keeps its value. -/
theorem readReg_writeReg_ne (q : Seq) (c x : BitVec 5) (m : Bool) (v : BitVec 64) (h : x ≠ c) :
    readReg (writeReg q c m v) x m = readReg q x m := by
  have hn : c.toNat ≠ x.toNat := fun e => h (BitVec.eq_of_toNat_eq e.symm)
  by_cases h0 : c = 0#5
  · subst h0; rfl
  by_cases hx0 : x = 0#5
  · subst hx0; rfl
  by_cases hc : c.toNat < 16
  · rw [writeReg_g m v hc h0]
    by_cases hx : x.toNat < 16
    · rw [readReg_g m hx hx0, readReg_g m hx hx0]
      exact vgetN_vmodN_ne q.g _ _ _ _ hn
    · unfold readReg
      simp only [if_neg hx]
      rfl
  · by_cases hx : x.toNat < 16
    · rw [readReg_g m hx hx0, readReg_g m hx hx0]
      cases ht : q.inTrap with
      | false => rw [writeReg_ring m v hc ht, ringSet_g]
      | true =>
        cases hm : (q.selen && m) with
        | true => rw [writeReg_sel v hc ht hm, ringSet_g]
        | false => rw [writeReg_tf v hc ht hm]
    · have hf := winIdx_ne hc hx h
      cases ht : q.inTrap with
      | false => rw [writeReg_ring m v hc ht, readReg_ring m hx (by rw [ringSet_inTrap, ht]), readReg_ring m hx ht,
                   curSlot_ringSet]
                 exact ringGet_ringSet_ne q _ _ _ v hf
      | true =>
        cases hm : (q.selen && m) with
        | true => rw [writeReg_sel v hc ht hm, readReg_sel hx (by rw [ringSet_inTrap, ht]) (by rw [ringSet_selen, hm]),
                    readReg_sel hx ht hm, ringSet_sel]
                  exact ringGet_ringSet_ne q _ _ _ v hf
        | false => rw [writeReg_tf v hc ht hm, readReg_tf (q := { q with tf := q.tf.set (winIdx c) v }) hx ht hm, readReg_tf hx ht hm]
                   exact Vector.getElem_set_ne (winIdx c).isLt (winIdx x).isLt (fun e => hf (Fin.ext e.symm))

/-- A write of a scalar register changes the scalar registers alone. -/
theorem writeReg_form (q : Seq) (c : BitVec 5) (m : Bool) (v : BitVec 64) :
    ∃ g r tf, writeReg q c m v = { q with g := g, ring := r, tf := tf } := by
  unfold writeReg
  simp only
  split
  · split
    · exact ⟨_, _, _, rfl⟩
    · exact ⟨_, _, _, rfl⟩
  · split
    · split
      · unfold ringSet; split <;> exact ⟨_, _, _, rfl⟩
      · exact ⟨_, _, _, rfl⟩
    · unfold ringSet; split <;> exact ⟨_, _, _, rfl⟩

/-- p0 reads 1 (R86). -/
@[simp] theorem readPred_zero (q : Seq) : readPred q 0#3 = true := rfl

/-- A write of p0 is discarded. -/
@[simp] theorem writePred_zero (q : Seq) (b : Bool) : writePred q 0#3 b = q := rfl

/-- The bits of the predicate file after one is set or cleared. -/
theorem pred_bits (p x : BitVec 3) (w : BitVec 8) :
    (w ||| (1#8 <<< p.toNat)).getLsbD x.toNat = (w.getLsbD x.toNat || x == p) ∧
    (w &&& ~~~(1#8 <<< p.toNat)).getLsbD x.toNat = (w.getLsbD x.toNat && x != p) := by
  have hp := p.isLt
  have hx := x.isLt
  have e : ∀ p x : BitVec 3, (1#8 <<< p.toNat).getLsbD x.toNat = (x == p) := by decide
  constructor
  · rw [BitVec.getLsbD_or, e]
  · rw [BitVec.getLsbD_and, BitVec.getLsbD_not, e]
    have : decide (x.toNat < 8) = true := by simp; omega
    rw [this]
    rfl

/-- A predicate read after it is written. -/
theorem readPred_writePred_self (q : Seq) (p : BitVec 3) (b : Bool) (h : p ≠ 0#3) : readPred (writePred q p b) p = b := by
  have h' : ¬ p = 0 := h
  unfold writePred readPred
  rw [if_neg h']
  cases b
  · simp only [Bool.false_eq_true, if_false, (pred_bits p p q.preds).2]
    simp [h]
  · simp only [if_true, (pred_bits p p q.preds).1]
    simp

/-- Every other predicate keeps its value. -/
theorem readPred_writePred_ne (q : Seq) (p x : BitVec 3) (b : Bool) (h : x ≠ p) :
    readPred (writePred q p b) x = readPred q x := by
  have hb : (x == p) = false := beq_eq_false_iff_ne.mpr h
  unfold writePred readPred
  split
  · rfl
  · cases b
    · simp only [Bool.false_eq_true, if_false, (pred_bits p x q.preds).2, bne, hb, Bool.not_false, Bool.and_true]
    · simp only [if_true, (pred_bits p x q.preds).1, hb, Bool.or_false]

/-! ## Issue -/

/-- Reads of core storage that meet no error have no effect. -/
theorem withCoreCheck_none (p : Proc) (reads : List CoreUpset) (s : State) (body : State → State) : withCoreCheck p .none reads s body = body s := by
  cases p <;> rfl

@[simp] theorem encMeeting_none (e : Enc) : encMeeting e .none = e := by
  unfold encMeeting
  split
  · rename_i h; rw [← h]
  · rfl

theorem fetchBad_none {s : State} {p : Proc} (h : s.fetchErr p = none) : s.fetchBad p = false := by simp [State.fetchBad, h]

theorem fetchMend_none {s : State} {p : Proc} (h : s.fetchErr p = none) : s.fetchMend p = s := by simp [State.fetchMend, h]

/-- An instruction that executes has its effect. -/
theorem issue_executes {s : State} {p : Proc} {e : Enc} (h : Executes s p e) (preads : List (BitVec 3)) (reads : List CoreUpset)
    (hp : preads.any (predBusy (s.seq p)) = false) (body : State → State) :
    issue p e true preads reads s body = body (s.stepDone p) := by
  have h1 := h.inSpace
  simp [issue, h.issues, Nat.not_le.mpr h1, fetchBad_none h.fetched, fetchMend_none h.fetched, h.sound, withCoreCheck_none, h.owned, hp, h.holds]

/-- An instruction that its predicate holds back only advances the PC (R106). -/
theorem issue_passedOver {s : State} {p : Proc} {e : Enc} (h : PassedOver s p e) (preads : List (BitVec 3)) (reads : List CoreUpset)
    (hp : preads.any (predBusy (s.seq p)) = false) (body : State → State) :
    issue p e true preads reads s body = (s.stepDone p).advance p := by
  have h1 := h.inSpace
  simp [issue, h.issues, Nat.not_le.mpr h1, fetchBad_none h.fetched, fetchMend_none h.fetched, h.sound, withCoreCheck_none, h.owned, hp, h.holds]

@[simp] theorem stepDone_reg (s : State) (p : Proc) (c : BitVec 5) : (s.stepDone p).reg p c = s.reg p c := by
  simp [State.reg, State.stepDone, readReg, ringGet, curSlot]

@[simp] theorem stepDone_pc (s : State) (p : Proc) : ((s.stepDone p).seq p).pc = (s.seq p).pc := by
  simp [State.stepDone]

end Sys2Proof.Machine
end

