-- ==== Sys2Proof/Laws/Shared.lean ====
section
/-! SUPPORT. What the operations that the commands share leave: traps, tally messages, error records, completions. -/

namespace Sys2Proof.Machine

/-- A sequencer that has been changed. -/
theorem seq_modSeq (s : State) (p : Proc) (f : Seq → Seq) : (s.modSeq p f).seq p = f (s.seq p) := by
  cases p <;> simp [State.modSeq, State.seq, State.modTile, State.modDep, vmod]

/-- Putting a sequencer back as it was undoes a change of it. -/
theorem onlySeq_modSeq (s : State) (p : Proc) (f : Seq → Seq) : OnlySeq p s (s.modSeq p f) := by
  cases p with
  | core t =>
    simp only [OnlySeq, State.modSeq, State.seq, State.modTile, vmod, Fin.getElem_fin, Vector.getElem_set_self, Vector.set_set]
    exact congrArg (fun v => { s with tiles := v }) (Vector.set_getElem_self ..)
  | mp => rfl
  | dep d =>
    simp only [OnlySeq, State.modSeq, State.seq, State.modDep, vmod, Fin.getElem_fin, Vector.getElem_set_self, Vector.set_set]
    exact congrArg (fun v => { s with deps := v }) (Vector.set_getElem_self ..)

/-- Outside the trap frame a trap condition waits to be taken, and changes nothing else. -/
theorem trap_waits {s : State} {p : Proc} (h : (s.seq p).inTrap = false) (c : BitVec 8) (a : BitVec 64) :
    TrapWaits p s (s.trap p c a) c a (s.seq p).pc := by
  have e : s.trap p c a = s.modSeq p fun q => { q with pend := some { cause := c, deferred := false, eaddr := a, epc := (s.seq p).pc, ord := s.nowOrd } } := by
    simp [State.trap, State.trapAt, h]
  rw [e]
  exact ⟨by rw [seq_modSeq], by rw [seq_modSeq], onlySeq_modSeq s p _⟩

/-- An instruction that only ends continues at the next one. -/
theorem advance_continues (s : State) (p : Proc) : Continues p s (s.advance p) ((s.seq p).pc + 8) :=
  ⟨by rw [State.advance, seq_modSeq], by rw [State.advance, seq_modSeq]; rfl, onlySeq_modSeq s p _⟩

/-- A tally message reaches the end of its island's queue. -/
theorem sendTally_queued (s : State) (home : Nat) (op : TallyOp) : Queued s (s.sendTally home op) home op := by
  refine ⟨by simp [State.sendTally, State.modTly, vmod], fun i hi => ?_, rfl⟩
  simp only [State.sendTally, State.modTly, vmod]
  rw [Fin.getElem_fin, Vector.getElem_set_ne _ _ (fun e => hi (Fin.ext e.symm))]
  rfl

/-- A hub error enters the aggregated error state once. -/
theorem raise_raises (s : State) (cat : BitVec 8) (src : Src) (part : BitVec 4) (info : Nat) : Raises s (s.raise cat src part info) cat src info :=
  ⟨_, rfl, rfl, rfl, rfl, by simp only [bits, State.dt]; rfl⟩

/-- A choice between two states that leave a sequencer as it is. -/
theorem seq_ite {c : Prop} [Decidable c] {s x y : State} {q : Proc} (hx : x.seq q = s.seq q) (hy : y.seq q = s.seq q) :
    (if c then x else y).seq q = s.seq q := by
  split <;> assumption

/-- A change of a deputy that leaves its sequencer leaves every sequencer. -/
theorem seq_modDep (s : State) (d : Fin 2) {f : Deputy → Deputy} (h : ∀ x, (f x).seq = x.seq) (q : Proc) :
    (s.modDep d f).seq q = s.seq q := by
  cases q with
  | core t => rfl
  | mp => rfl
  | dep e =>
    simp only [State.seq, State.modDep, vmod, Fin.getElem_fin]
    by_cases c : d.val = e.val
    · simp [c, h]
    · rw [Vector.getElem_set_ne _ _ c]

theorem seq_modSaf (s : State) (f : SafSt → SafSt) (q : Proc) : (s.modSaf f).seq q = s.seq q := by cases q <;> rfl
theorem seq_modPln (s : State) (f : PlnSt → PlnSt) (q : Proc) : (s.modPln f).seq q = s.seq q := by cases q <;> rfl

theorem seq_setRel (s : State) (d : Fin 2) (b : Bool) (q : Proc) : (s.setRel d b).seq q = s.seq q := by
  rw [State.setRel]
  refine seq_ite rfl (seq_ite (seq_modDep s d (by intro; rfl) q) ?_)
  rw [seq_modPln, State.syncSaf, seq_modSaf]
  exact seq_modDep s d (by intro; rfl) q

theorem seq_depReact (s : State) (d : Fin 2) (r : ErrRec) (q : Proc) : (s.depReact d r).seq q = s.seq q := by
  rw [State.depReact]
  refine seq_ite rfl (seq_ite rfl (seq_ite rfl (seq_ite ?_ ?_)))
  · rw [seq_setRel]
    exact (seq_modDep _ d (by intro; rfl) q).trans (seq_modDep s d (by intro; rfl) q)
  · exact (seq_modDep _ d (by intro; rfl) q).trans (seq_modDep s d (by intro; rfl) q)

/-- Entering a decode error of the local space leaves every sequencer as it is. -/
theorem seq_localDecode (s : State) (p q : Proc) (a : BitVec 64) : (s.localDecode p a).seq q = s.seq q := by
  cases p with
  | core t => exact seq_modSaf s _ q
  | mp => exact seq_modSaf s _ q
  | dep d =>
    have en : ∀ r, ((s.depEnter d r).depReact d r).seq q = s.seq q := fun r =>
      (seq_depReact _ d r q).trans (seq_modDep s d (by intro; rfl) q)
    rw [State.localDecode, State.raiseDep]
    refine seq_ite (en _) ?_
    rw [State.syncSaf, seq_modSaf, seq_modSaf]
    exact en _

end Sys2Proof.Machine
end

