-- ==== Sys2Proof/Laws/Stores.lean ====
section
/-! SUPPORT. What the shared reads and writes of local stores do, what a precise trap leaves, and that a copied range keeps a
store canonical. -/

namespace Sys2Proof.Machine

/-! ## Local stores (R81, R82) -/

/-- Words without an error are read and nothing changes. -/
theorem lsCheck_clean (s : State) (t : Fin 136) (src : Src) : ∀ ws : List Nat, (∀ w ∈ ws, eccAt s.ecc w = none) → lsCheck s t src ws = (s, none)
  | [], _ => rfl
  | w :: ws, h => by
    simp only [lsCheck, h w List.mem_cons_self]
    exact lsCheck_clean s t src ws fun x hx => h x (List.mem_cons_of_mem _ hx)

/-- A store that holds no error is read and nothing changes. -/
theorem readLocal_clean {s : State} (h : s.ecc = []) (t : Fin 136) (a n : Nat) (src : Src) :
    readLocal s t a n src = (s, .ok (memGetN s.mem (localBase t + a) n)) := by
  simp only [readLocal, lsCheck_clean s t src _ (fun w _ => by rw [h]; rfl)]

/-- A write into a store that holds no error changes exactly its bytes. -/
theorem writeLocal_clean {s : State} (h : s.ecc = []) (t : Fin 136) (a : Nat) (bs : List Byte) (src : Src) :
    writeLocal s t a bs src = ({ s with mem := memPutN s.mem (localBase t + a) bs }, none) := by
  simp only [writeLocal, lsCheck_clean s t src _ (fun w _ => by rw [h]; rfl), h, List.filter_nil]

/-- A descriptor register and its shape record, read from a store that holds no error (R144). -/
theorem readDesc_clean {s : State} (h : s.ecc = []) (t : Fin 136) (k : Nat) (hs : descShape (vgetN (s.tiles[t]).td k 0) + 32 ≤ localSize) :
    readDesc s t k = (s, mkDesc (vgetN (s.tiles[t]).td k 0) (memGetN s.mem (localBase t + descShape (vgetN (s.tiles[t]).td k 0)) 32), none) := by
  simp only [readDesc, if_neg (show ¬ localSize < descShape (vgetN (s.tiles[t]).td k 0) + 32 by omega), readLocal_clean h]

/-! ## A range of a store copied over another (R465) -/

/-- Cells moved up keep their order above a bound. -/
theorem moveCells_wfFrom (src dst n : Nat) : ∀ (m : Mem) (l : Nat), tabWfFrom (0 : Byte) (some l) m = true → src ≤ l →
    tabWfFrom (0 : Byte) (some (l - src + dst)) (moveCells m src dst n) = true
  | [], _, _, _ => rfl
  | (a, b) :: m, l, w, hl => by
    simp only [tabWfFrom, Bool.and_eq_true, decide_eq_true_eq] at w
    have ih := moveCells_wfFrom src dst n m a w.2 (by omega)
    simp only [moveCells, List.filter_cons] at ih ⊢
    split
    · simp only [List.map_cons, tabWfFrom, Bool.and_eq_true, decide_eq_true_eq]
      exact ⟨⟨by omega, w.1.2⟩, ih⟩
    · exact tabWfFrom_mono (0 : Byte) _ (a - src + dst) (l - src + dst) (by omega) ih

/-- Every cell moved lies in the destination. -/
theorem moveCells_bounds (m : Mem) (src dst n : Nat) : ∀ c ∈ moveCells m src dst n, dst ≤ c.1 ∧ c.1 < dst + n := by
  intro c h
  simp only [moveCells, List.mem_map, List.mem_filter, Bool.and_eq_true, decide_eq_true_eq] at h
  obtain ⟨x, ⟨_, hx⟩, rfl⟩ := h
  exact ⟨by simp, by simp; omega⟩

/-- Cells moved into a destination are canonical above every address below it. -/
theorem moveCells_wf (src dst n : Nat) : ∀ (m : Mem) (l : Nat), Memory.wf m = true → l < dst →
    tabWfFrom (0 : Byte) (some l) (moveCells m src dst n) = true
  | [], _, _, _ => rfl
  | (a, b) :: m, l, w, hl => by
    simp only [Memory.wf, tabWf, tabWfFrom, Bool.and_eq_true, decide_eq_true_eq, true_and] at w
    by_cases h : src ≤ a ∧ a < src + n
    · have t := moveCells_wfFrom src dst n m a w.2 h.1
      simp only [moveCells, List.filter_cons, decide_eq_true h.1, decide_eq_true h.2, Bool.and_self, if_true, List.map_cons, tabWfFrom,
        Bool.and_eq_true, decide_eq_true_eq] at t ⊢
      exact ⟨⟨by omega, w.1⟩, t⟩
    · have t := moveCells_wf src dst n m l (tabWf_of_from (0 : Byte) m a w.2) hl
      have e : moveCells ((a, b) :: m) src dst n = moveCells m src dst n := by
        simp only [moveCells, List.filter_cons]
        rw [if_neg (by simpa only [Bool.and_eq_true, decide_eq_true_eq] using h)]
      rw [e]; exact t

/-- The same from address 0 on. -/
theorem moveCells_wf0 (src n : Nat) : ∀ m : Mem, Memory.wf m = true → Memory.wf (moveCells m src 0 n) = true
  | [], _ => rfl
  | (a, b) :: m, w => by
    simp only [Memory.wf, tabWf, tabWfFrom, Bool.and_eq_true, decide_eq_true_eq, true_and] at w
    by_cases h : src ≤ a ∧ a < src + n
    · have t := moveCells_wfFrom src 0 n m a w.2 h.1
      simp only [moveCells, List.filter_cons, decide_eq_true h.1, decide_eq_true h.2, Bool.and_self, if_true, List.map_cons, Memory.wf, tabWf,
        tabWfFrom, Bool.and_eq_true, decide_eq_true_eq, true_and] at t ⊢
      exact ⟨w.1, t⟩
    · have t := moveCells_wf0 src n m (tabWf_of_from (0 : Byte) m a w.2)
      have e : moveCells ((a, b) :: m) src 0 n = moveCells m src 0 n := by
        simp only [moveCells, List.filter_cons]
        rw [if_neg (by simpa only [Bool.and_eq_true, decide_eq_true_eq] using h)]
      rw [e]; exact t

/-- Cells at or above a bound are canonical above every address below it. -/
theorem filter_from (k : Nat) : ∀ (m : Mem) (l : Nat), Memory.wf m = true → l < k →
    tabWfFrom (0 : Byte) (some l) (m.filter fun c => k ≤ c.1) = true
  | [], _, _, _ => rfl
  | (a, b) :: m, l, w, hl => by
    simp only [Memory.wf, tabWf, tabWfFrom, Bool.and_eq_true, decide_eq_true_eq, true_and] at w
    by_cases h : k ≤ a
    · simp only [List.filter_cons, decide_eq_true h, if_true, tabWfFrom, Bool.and_eq_true, decide_eq_true_eq]
      exact ⟨⟨by omega, w.1⟩, filter_wfFrom (0 : Byte) _ m a w.2⟩
    · simp only [List.filter_cons, decide_eq_false h]
      exact filter_from k m l (tabWf_of_from (0 : Byte) m a w.2) hl

/-- A store of which one range has been copied over another stays canonical. -/
theorem copyRange_wf (m : Mem) (src dst n : Nat) (w : Memory.wf m = true) : Memory.wf (copyRange m src dst n) = true := by
  have up : ∀ l, l < dst + n → tabWfFrom (0 : Byte) (some l) (m.filter fun c => dst + n ≤ c.1) = true := fun l hl => filter_from _ m l w hl
  have mid : ∀ l, l < dst → tabWfFrom (0 : Byte) (some l) (moveCells m src dst n ++ m.filter fun c => dst + n ≤ c.1) = true := fun l hl =>
    append_wfFrom (0 : Byte) (dst + n) _ _ l (moveCells_wf src dst n m l w hl) (fun c hc => (moveCells_bounds m src dst n c hc).2) (by omega) up
  have lo : ∀ c ∈ m.filter (fun c => c.1 < dst), c.1 < dst := fun c hc => by simpa using (List.mem_filter.1 hc).2
  have wl : Memory.wf (m.filter fun c => c.1 < dst) = true := filter_wf (0 : Byte) _ m w
  simp only [copyRange, List.append_assoc]
  cases h : m.filter (fun c => c.1 < dst) with
  | nil =>
    cases dst with
    | succ d => exact tabWf_of_from (0 : Byte) _ d (mid d (by omega))
    | zero =>
      simp only [List.nil_append]
      cases hm : moveCells m src 0 n with
      | nil => exact filter_wf (0 : Byte) _ m w
      | cons c cs =>
        obtain ⟨a, b⟩ := c
        have wc : Memory.wf ((a, b) :: cs) = true := hm ▸ (moveCells_wf0 src n m w)
        simp only [Memory.wf, tabWf, tabWfFrom, Bool.and_eq_true, decide_eq_true_eq, true_and] at wc
        have bd : ∀ x ∈ (a, b) :: cs, x.1 < 0 + n := fun x hx => (moveCells_bounds m src 0 n x (hm ▸ hx)).2
        simp only [List.cons_append, Memory.wf, tabWf, tabWfFrom, Bool.and_eq_true, decide_eq_true_eq, true_and]
        exact ⟨wc.1, append_wfFrom (0 : Byte) (0 + n) cs _ a wc.2 (fun x hx => bd x (List.mem_cons_of_mem _ hx)) (bd (a, b) List.mem_cons_self) up⟩
  | cons c cs =>
    obtain ⟨a, b⟩ := c
    rw [h] at wl lo
    simp only [Memory.wf, tabWf, tabWfFrom, Bool.and_eq_true, decide_eq_true_eq, true_and] at wl
    simp only [List.cons_append, Memory.wf, tabWf, tabWfFrom, Bool.and_eq_true, decide_eq_true_eq, true_and]
    exact ⟨wl.1, append_wfFrom (0 : Byte) dst cs _ a wl.2 (fun x hx => lo x (List.mem_cons_of_mem _ hx)) (lo (a, b) List.mem_cons_self) mid⟩

end Sys2Proof.Machine
end

