-- ==== Sys2Proof/Tests/Slice0.lean ====
section
/-! SUPPORT. Tests of the model, and for every statement with hypotheses a witness that they can hold. -/

namespace Sys2Proof.Tests

/- The theorems below are checked one after another, so that their stacks do not add up. -/
set_option Elab.async false

open Sys2Proof Sys2Proof.Machine

/-! ## States and operands of the tests -/

/-- An instruction's fields without a predicate. -/
def enc (w : BitVec 48) : Enc := { pred := 0, pneg := false, ops := w }

/-- The device after reset, with the MP running at 0x100. -/
def mpRuns (f : Seq → Seq) : State := { State.reset with mp := f (Seq.reset .running 0x100) }

/-- The device after reset, with the core of tile 0 running at 0x100. -/
def coreRuns (f : Seq → Seq) : State := State.reset.modTile 0 fun x => { x with seq := f (Seq.reset .running 0x100) }

/-- The state that a command leaves. -/
def after (c : Instr) (s : State) : State :=
  match exec c s with
  | .next t => t
  | .fault _ => s
  | .refused _ => s

/-! ## The block; Bunov-C control -/

theorem test_step_front : step { State.reset with pending := [.gpioEdge 0 true] } = exec (.gpioEdge 0 true) State.reset := rfl

/-- StepRunsFrontCommand and IdleStepIsOneNanosecond: an empty queue at reset. -/
theorem witness_idle : State.reset.pending = [] ∧ State.reset.dtRuns = true := by decide

/-- The words that R139 and R141 write out. -/
theorem test_word_waitt : decodeBunov .mp 0x6022C03000C4A800 = some (.waitt .mp { pred := 1, pneg := false, ops := 0xC03000C4A800 }) := by decide
theorem test_word_tmul : decodeBunov (.core 0) 0x88000101DF018000 = some (.tmul (.core 0) (enc 0x0101DF018000) .none) := by decide
theorem test_word_ld : decodeBunov .mp 0x4000000000000000 = some (.ld .mp (enc 0) [] .none) := by decide
theorem test_word_vadd : decodeBunov (.core 3) 0xC000000000000000 = some (.vectorLaneOp (.core 3) .add (enc 0)) := by decide
theorem test_word_kvtrim : decodeBunov (.core 3) 0xEC10000000000000 = some (.kvtrim (.core 3) (enc 0)) := by decide
theorem test_word_reserved : decodeBunov .mp 0x0130000000000000 = none := by decide
theorem witness_words : bunovWord (.nop .mp (enc 0)) = some 0x1C20000000000000 ∧ bunovProc (.nop .mp (enc 0)) = some .mp ∧
    decodeBunov .mp 0x1C20000000000000 = some (.nop .mp (enc 0)) := by decide

/-- An instruction of the MP, of a core and of a deputy executes. -/
theorem witness_executes_mp (f : BitVec 48) : Executes (mpRuns id) .mp (enc f) := by constructor <;> first | decide | rfl
theorem witness_executes_core : Executes (coreRuns id) (.core 0) (enc 0) := by constructor <;> decide
theorem witness_passed_over : PassedOver (mpRuns id) .mp { pred := 0, pneg := true, ops := 0 } := by constructor <;> decide

/-- IntegerOperations: the corners of a division, and every form of the instructions. -/
theorem witness_integer : (0x8000000000000000 : BitVec 64).toInt = -2 ^ 63 ∧ (0xFFFFFFFFFFFFFFFF : BitVec 64).toInt = -1 ∧
    crOk (enc 0x084600000000) = true ∧ aluImmOk .shl (enc 0x08400000003F) = true ∧ aluImmOk .add (enc 0x0840FFFFFFFF) = true ∧
    moviOk (enc 0x080080000000) = true ∧ 64 ≤ (opImm (enc 0x40)).toNat ∧ (mpRuns id).mp.inTrap = false := by decide

theorem test_div_corner : aluVal .div 0x8000000000000000 0xFFFFFFFFFFFFFFFF = 0x8000000000000000 ∧ aluVal .div 7 0 = 0xFFFFFFFFFFFFFFFF ∧
    aluVal .rem 0xFFFFFFFFFFFFFFF9 2 = 0xFFFFFFFFFFFFFFFF ∧ aluVal .mulh 0xFFFFFFFFFFFFFFFF 2 = 0xFFFFFFFFFFFFFFFF ∧
    aluVal .sra 0x8000000000000000 65 = 0xC000000000000000 := by decide

/-- ADDI g1 = g0 - 1, and ORI g1 = g0 | 0xFFFFFFFF (R113). -/
theorem test_addi : (after (.aluImmOp .mp .add (enc 0x0800FFFFFFFF)) (mpRuns id)).reg .mp 1 = 0xFFFFFFFFFFFFFFFF ∧
    (after (.aluImmOp .mp .or (enc 0x0800FFFFFFFF)) (mpRuns id)).reg .mp 1 = 0xFFFFFFFF ∧
    (after (.aluImmOp .mp .or (enc 0x0800FFFFFFFF)) (mpRuns id)).mp.pc = 0x108 := by decide

theorem witness_compare : compareOk false (enc 0x200000000000) = true ∧ compareOk true (enc 0x200080000000) = true ∧
    cpOk (enc 0xE00000000000) = true ∧ predBusy (mpRuns id).mp 7 = false := by decide

/-- PredicationAndReservedBits. -/
theorem witness_reserved : crOk (enc 1) = false ∧ crOk (enc 0) = true ∧ (mpRuns id).canIssue .mp = true ∧
    (mpRuns id).mp.pc.toNat < localSpace .mp ∧ (mpRuns id).fetchBad .mp = false := by decide

/-- BranchesAndTheirTargets: a target in the local space, one not aligned, and the first address beyond. -/
theorem witness_branches : cbOffOk (enc 0xFFFFFF) = true ∧ GoodTarget .mp ((mpRuns id).mp.pc + 8 * (opOff24 (enc 0xFFFFFF)).signExtend 64) ∧
    cbRegOk (enc 0x080000000000) = true ∧ GoodTarget .mp ((mpRuns id).reg .mp (opRaB (enc 0x080000000000))) ∧
    (mpRuns fun q => { q with g := q.g.set 1 4 }).reg .mp (opRaB (enc 0x080000000000)) &&& 7 ≠ 0 ∧
    localSpace .mp ≤ ((mpRuns fun q => { q with g := q.g.set 1 0x200000 }).reg .mp (opRaB (enc 0x080000000000))).toNat := by
  unfold GoodTarget; decide

/-- CallsReturnsAndTheWindow: a call with one frame resident and one with seven; a return from depth 1, 0, and with the caller spilled. -/
theorem witness_calls : (mpRuns id).mp.depth - (mpRuns id).mp.floor ≠ 6 ∧ allZero (enc 0) = true ∧
    (mpRuns fun q => { q with depth := 6 }).mp.depth - (mpRuns fun q => { q with depth := 6 }).mp.floor = 6 ∧
    (mpRuns fun q => { q with depth := 1 }).mp.depth ≠ (mpRuns fun q => { q with depth := 1 }).mp.floor ∧
    GoodTarget .mp ((mpRuns fun q => { q with depth := 1 }).reg .mp 20) ∧ (mpRuns fun q => { q with depth := 3, floor := 3 }).mp.depth ≠ 0 := by
  unfold GoodTarget; decide

theorem test_call_w4 : (after (.call .mp (enc 2)) (mpRuns id)).reg .mp 20 = 0x108 ∧ (after (.call .mp (enc 2)) (mpRuns id)).mp.pc = 0x110 ∧
    (after (.call .mp (enc 2)) (mpRuns id)).mp.depth = 1 := by decide

/-- SystemRegisterAccess: each number of its clauses. -/
theorem witness_system : mfsrOk (enc 0x080000000008) = true ∧ srImplemented .mp (srNum (enc 8)) = true ∧ mtsrOk (enc 2) = true ∧ srNum (enc 2) = 2 ∧
    srImplemented .mp 2 = true ∧ srImplemented .mp 3 = true ∧ srImplemented .mp 7 = true ∧ srImplemented (.core 0) (srNum (enc 0)) = true ∧
    ∀ n ∈ [1, 4, 5, 6, 8], srImplemented .mp n = true := by decide

theorem test_mtsr_trapbase : (after (.mtsr .mp (enc 0x004000000003)) (mpRuns fun q => { q with g := q.g.set 1 0x407 })).mp.trapBase = 0x400 := by decide

/-- TrapsEnterAndReturn. -/
theorem witness_traps : Executes (mpRuns fun q => { q with inTrap := true }) .mp (enc 0) ∧
    (mpRuns fun q => { q with pend := some { cause := 0x0D, deferred := false, eaddr := 1, epc := 0x108, ord := 0 } }).mp.postedSt = 0 ∧
    (mpRuns fun q => { q with deferred := some { cause := 0x0B, deferred := true, eaddr := 1, epc := 0, ord := 0 } }).mp.inTrap = false :=
  ⟨by constructor <;> decide, by decide, by decide⟩

/-- TRAP 1, then its entry (R120). -/
theorem test_trap_entry :
    (after (.trapEntry .mp) (after (.trap .mp (enc 1)) (mpRuns id))).mp.ecause = 0x0D ∧
    (after (.trapEntry .mp) (after (.trap .mp (enc 1)) (mpRuns id))).mp.epc = 0x108 ∧
    (after (.trapEntry .mp) (after (.trap .mp (enc 1)) (mpRuns id))).mp.eaddr = 1 ∧
    (after (.trapEntry .mp) (after (.trap .mp (enc 1)) (mpRuns id))).mp.inTrap = true := by decide

/-! ## Loads, stores, DMA, tally instructions -/

/-- Core 0 with 0x1C00000000 (the hub store) in g1. -/
def coreHub : State := coreRuns fun q => { q with g := q.g.set 1 0x1C00000000 }

/-- LD and ST of the local space at its last byte (SIZE 0), and of eight bytes. -/
theorem witness_local : ldOk (enc 0x086000000000) = true ∧ stOk (enc 0x083800000100) = true ∧ opL (enc 0x086000000000) = true ∧
    (effAddr (mpRuns fun q => { q with g := q.g.set 1 0x1FFFFF }).mp (enc 0x086000000000)).toNat + 2 ^ (opSize (enc 0x086000000000)).toNat ≤ localSpace .mp ∧
    Memory.wf (State.reset.spaceStore .mp) = true := by decide

theorem witness_clean : SpaceClean (mpRuns id) .mp 0x1FFFFF 1 := by
  intro c h
  have n : c ∈ ([] : List (Nat × EccKind)) := h
  cases n

/-- ST of 8 bytes, then LD of the signed byte 1 (R127). -/
theorem test_store_load :
    let s := after (.st .mp (enc 0x083800000100)) (mpRuns fun q => { q with g := q.g.set 1 0x8081 })
    (after (.ld .mp (enc 0x102000000101) [] .none) s).reg .mp 2 = 0xFFFFFFFFFFFFFF80 ∧ memGet s.mpSram 0x100 = 0x81 := by decide

/-- BadAndDeviceAccesses: an odd address of a 2-byte access, an aligned one past the end, and the hub store. -/
theorem witness_bad_access : (effAddr (mpRuns id).mp (enc 0x082800000001)).toNat % 2 ^ (opSize (enc 0x082800000001)).toNat ≠ 0 ∧
    localSpace .mp < (effAddr (mpRuns id).mp (enc 0x083800200000)).toNat + 8 ∧ (effAddr (mpRuns id).mp (enc 0x083800200000)).toNat % 8 = 0 ∧
    ldOk (enc 0x082800000001) = true ∧ stOk (enc 0x083800200000) = true := by decide

theorem witness_device : Executes coreHub (.core 0) (enc 0x105800000000) ∧ opL (enc 0x105800000000) = false ∧ ldOk (enc 0x105800000000) = true ∧
    stOk (enc 0x105800000000) = true ∧ (effAddr (coreHub.seq (.core 0)) (enc 0x105800000000)).toNat = 0x1C00000000 ∧
    portCheck coreHub 0x1C00000000 8 = .ok (.hubStore 0) :=
  ⟨by constructor <;> decide, by decide, by decide, by decide, by decide, by rfl⟩

def ldw : LdWait := { rd := 1, size := 3, zext := true, addr := 0, resp := some (.data 5) }

theorem witness_responses : ((coreRuns fun q => { q with ldWait := some ldw }).seq (.core 0)).ldWait = some ldw ∧ ldw.resp = some (.data 5) ∧
    ((coreRuns fun q => { q with ldWait := some { ldw with resp := some (.error 7 8) } }).seq (.core 0)).inTrap = false ∧
    ((coreRuns fun q => { q with stErr := [(7, 8, 0)], postedSt := 1 }).seq (.core 0)).ldWait = none ∧
    ((coreRuns fun q => { q with stAck := 1, postedSt := 1 }).seq (.core 0)).stAck ≠ 0 := by decide

def desc0 : DmaSlot := descSlot false false 0 (List.replicate 64 0)

theorem witness_dma : dOk (enc 0x080000000000) = true ∧ (mpRuns id).freeDma .mp = some 0 ∧ isDep .mp = false ∧
    ({ desc0 with bad := true } : DmaSlot).finished = true ∧ desc0.statusEn = false ∧ (mpRuns id).procClocked .mp = true := by decide

/-- SIGNAL N = 1 of home 16383, of home 16384 by register, and with a posted store outstanding. -/
theorem witness_signal : sOk false true false (enc 0xFFFC00100000) = true ∧ (sHome (mpRuns id).mp (enc 0xFFFC00100000)).toNat = 16383 ∧
    (mpRuns id).released .mp false = true ∧ (mpRuns fun q => { q with postedSt := 1 }).released .mp false = false ∧
    sOk false true false (enc 0x000030100000) = true ∧
    16383 < (sHome (mpRuns fun q => { q with g := q.g.set 1 16384 }).mp (enc 0x000030100000)).toNat ∧ (mpRuns id).snap = none := by decide

/-- A SIGNAL of 1 to home 16383 reaches the hub's island (R199). -/
theorem test_signal_queue : (after (.signal .mp (enc 0xFFFC00100000)) (mpRuns id)).tly.queue[(4 : Fin 5)] =
    [.sig 16383 0x100 ((mpRuns id).partOf 0x100) 1 false none] := by decide

def linkUp : State := (mpRuns id).modLink 0 fun k => { k with state := .up }

theorem witness_waits : sOk false false false (enc 0xFFFC00100000) = true ∧ sOk true false true (enc 0xFFFC00120800) = true ∧
    (mpRuns id).holdsForMigration .mp = false ∧ sOk true true false (enc 0xFFFC00130000) = true ∧ linkUp.linkFor (linkUp.srcOf .mp) = some 0 ∧
    (mpRuns id).linkFor 0x100 = none ∧ linkUp.released .mp true = true := by decide

theorem witness_sigr : (mpRuns fun q => { q with sigrs := [{ pd := 3, home := 0, n := 1, link := 0, epoch := 0, tag := 0, result := some true }] }).mp.sigrs =
    [{ pd := 3, home := 0, n := 1, link := 0, epoch := 0, tag := 0, result := some true }] := by decide

/-! ## Bunov-T, attention -/

/-- Core 0 with five descriptors over one element each (t2 over 32) and a KV slot record at 0x400, which g1 names. -/
def coreT : State :=
  let s := coreRuns fun q => { q with g := q.g.set 1 0x400 }
  let s := s.modTile 0 fun x => { x with
    td := ((((x.td.set 0 0x800100200).set 1 0x802100200).set 2 0x902100200).set 3 0x802A00200).set 4 0x800200200
    planes := x.planes.set 0 { Plane.cleared with loaded := true, fmt := 1, rows := 64 } }
  { s with mem := [(0x1000000100, 1), (0x1000000102, 1), (0x1000000104, 1), (0x1000000106, 1), (0x1000000120, 32), (0x1000000122, 1),
    (0x1000000124, 1), (0x1000000126, 1), (0x1000000408, 16), (0x100000040A, 1), (0x100000040C, 1), (0x100000040D, 1), (0x100000040F, 1),
    (0x1000000410, 32), (0x1000000412, 1)] }

def ext1 (w : BitVec 64) : Desc := mkDesc w ([1, 0, 1, 0, 1, 0, 1, 0] ++ List.replicate 24 0)
def ext32 : Desc := mkDesc 0x902100200 ([32, 0, 1, 0, 1, 0, 1, 0] ++ List.replicate 24 0)

theorem witness_executes_tensor (f : BitVec 48) : Executes coreT (.core 0) (enc f) := by constructor <;> first | decide | rfl

/-- The words of the five descriptors, and what their shape records hold. -/
theorem witness_desc_words : coreT.ecc = [] ∧ vgetN (coreT.tiles[(0 : Fin 136)]).td 0 0 = 0x800100200 ∧
    vgetN (coreT.tiles[(0 : Fin 136)]).td 2 0 = 0x902100200 ∧ memGetN coreT.mem (localBase 0 + 0x100) 32 = [1, 0, 1, 0, 1, 0, 1, 0] ++ List.replicate 24 0 ∧
    memGetN coreT.mem (localBase 0 + 0x120) 32 = [32, 0, 1, 0, 1, 0, 1, 0] ++ List.replicate 24 0 := by decide

theorem witness_descs : readDesc coreT 0 0 = (coreT, ext1 0x800100200, none) ∧ readDesc coreT 0 2 = (coreT, ext32, none) := by
  obtain ⟨e, w0, w2, m0, m2⟩ := witness_desc_words
  constructor
  · rw [readDesc_clean e 0 0 (by rw [w0]; decide), w0, show descShape 0x800100200 = 0x100 by decide, m0]; rfl
  · rw [readDesc_clean e 0 2 (by rw [w2]; decide), w2, show descShape 0x902100200 = 0x120 by decide, m2]; rfl

theorem witness_tdset : tOk (.core 0) 0x0FF07FFFFFFF#48 (enc 0xF00000000000) = true ∧ tOk (.core 0) 0xF0F07FFFFFFF#48 (enc 0x0F0000000000) = true ∧
    tOk (.core 0) 0xFFFF8000FFFF#48 (enc 0x7EFE0000) = true ∧ tFld (enc 0x7E020000) 17 7 + (tFld (enc 0x7E020000) 24 7 + 1) = 128 ∧
    tabWf AccEntry.cleared (coreT.tiles[(0 : Fin 136)]).acc = true ∧ coreT.ecc = [] ∧ Memory.wf coreT.mem = true := by decide

theorem witness_tldw : tOk (.core 0) 0xF0F00FFFFFFF#48 (enc 0) = true ∧ tFld (enc 0) 28 2 ≠ 3 ∧
    descChecks [({ reg := 0, fmts := tensorFmts, kvOk := false, align := 32, bsOk := true }, ext1 0x800100200)] = none ∧
    (ext1 0x800100200).bs = false ∧ spansBad (boxSpans (ext1 0x800100200) ((0, 0, 0, 0), (127, 63, 0, 0))) = none := by decide

theorem witness_tmul : tOk (.core 0) 0xF0F000001FFF#48 (enc 0) = true ∧
    (vgetN (coreT.tiles[(0 : Fin 136)]).planes (tFld (enc 0) 15 1) Plane.cleared).loaded = true ∧
    pairRows (ext1 0x800100200).fmt 1 = some 64 ∧
    descChecks [({ reg := 0, fmts := tensorFmts, kvOk := true, align := 32, bsOk := true }, ext1 0x800100200)] = none ∧
    spansBad (boxSpans (ext1 0x800100200) (actBox (ext1 0x800100200) (0, 0, 0, 0) 1 1 64)) = none ∧
    (coreT.tiles[(0 : Fin 136)]).array ≠ .on ∧ tmulFrame (ext1 0x800100200) (vgetN (coreT.tiles[(0 : Fin 136)]).planes 0 Plane.cleared) = .f0 := by
  decide

theorem witness_tout : tOk (.core 0) 0x0FF00000001F#48 (enc 0) = true ∧ rmOk (tFld (enc 0) 12 3) = true ∧
    descChecks [({ reg := 0, fmts := anyFmts, kvOk := true, align := 32, bsOk := true }, ext1 0x800100200)] = none ∧
    tOk (.core 0) 0xFFF000007FFF#48 (enc 0) = true ∧ tOk (.core 0) 0xFFF00000FFFF#48 (enc 0) = true ∧
    spansBad (boxSpans (ext1 0x800100200) ((0, 0, 0, 0), outIdx (ext1 0x800100200) (0, 0, 0, 0) 0 63)) = none := by decide

theorem witness_accxa : accxScan (coreRuns id).tiles[(0 : Fin 136)] (coreRuns id).mem (localBase 0) 0 0 1 = none := by decide

theorem witness_records : AccEntry.cleared.a = 0 ∧ AccEntry.cleared.special = .none ∧ [(1 : Nat), 2].Perm [2, 1] := by decide

/-- INT8 lanes: 127 + 1 saturates with OVERFLOW and ROUNDED (R50), and wraps to -128 with OVF = 1 (R157). -/
theorem test_lane_saturates : laneOp .add 1 0 false 127 1 0 = (127, flOverflow ||| flRounded) ∧ (laneOp .add 1 0 true 127 1 0).1 % 256 = 128 := by decide

theorem witness_vector : vOk (.core 0) (laneMask .shl) (enc 0x01000000) = true ∧ laneFmtOk .shl (vFmt (enc 0x01000000)) = true ∧
    vOk (.core 0) 0x1F001FFFF#48 (enc 0x010C0000) = true ∧ tFld (enc 0x010C0000) 17 3 ≠ 7 ∧ vOk (.core 0) 0xFFFFF#48 (enc 0x0A000000) = true := by
  decide

theorem witness_convert : vOk (.core 0) 0x3FF0003FFF#48 (enc 0x01030000) = true ∧ vectorFmts.contains (tFld (enc 0x01030000) 16 4) = true ∧
    partOk 1 3 (tFld (enc 0x0103C000) 14 2) = true ∧ vFmt (enc 0x08000000) ∈ [8, 9, 10] ∧ vOk (.core 0) 0x3FF00FFFFF#48 (enc 0x08000000) = true ∧
    vOk (.core 0) 0x7FFF0007FFF#48 (enc 0x01000000) = true := by decide

theorem witness_vld : vOk (.core 0) 0x7FFF0000000#48 (enc 0x01000000) = true ∧ (vAddr ((coreRuns fun q => { q with g := q.g.set 1 0xBFF00 }).seq (.core 0)) (enc 0x01008000)).toNat + 256 = localSize ∧
    (vAddr ((coreRuns fun q => { q with g := q.g.set 1 4 }).seq (.core 0)) (enc 0x01008000)).toNat % 32 ≠ 0 := by decide

theorem witness_image : segLen 1 (ext1 0x800100200) 0 = 1 ∧ spansBad (boxSpans (ext1 0x800100200) (segBox (0, 0, 0, 0) 1)) = none ∧
    descChecks [(imgUse vectorFmts, ext1 0x800100200), (imgUse vectorFmts, ext1 0x800100200), (imgUse [1], ext1 0x800100200)] = none ∧
    tOk (.core 0) 0x7F#48 (enc 0) = true ∧ 1 ≤ windowRow 1 ∧ tOk (.core 0) 0x00F0000000FF#48 (enc 0) = true ∧
    tOk (.core 0) 0x3FFFFFF#48 (enc 0x400000000000) = true ∧
    descChecks [(imgUse [2], ext1 0x800200200), (imgUse vectorFmts, ext1 0x800100200), (imgUse [1], ext1 0x800100200)] = none := by decide

theorem witness_attention : tOk (.core 0) 0xF00000000FFF#48 (enc 0x011000000000) = true ∧
    descChecks [(kvUse, ext1 0x802100200), (kvUse, ext1 0x802100200)] = none ∧ (ext1 0x802100200).kv = true ∧
    spansBad (boxSpans (ext1 0x802100200) ((0, 0, 0, 0), (0, 63, 0, 0))) = none ∧
    tOk (.core 0) 0x003E001007FF#48 (enc 0x08000A000000) = true ∧ vFmt (enc 0x08000A000000) = 10 ∧ vVd (enc 0x08000A000000) ≠ vVc (enc 0x08000A000000) ∧
    tOk (.core 0) 0x0F000000000F#48 (enc 0x301000000000) = true ∧
    descChecks [({ kvUse with fmts := [10] }, ext1 0x802A00200), (kvUse, ext1 0x802100200)] = none := by decide

theorem witness_merge : vreg coreT 0 0 = 0 := rfl

theorem witness_merge_fields : tOk (.core 0) 0x00000010FFFF#48 (enc 0x08000A010000) = true ∧ (fmtVal 10 0).isNan = false ∧
    fmtVal 10 (minMaxLane 10 true 0 0).1 ≠ .inf true ∧ tOk (.core 0) 0x0001F0F00FFF#48 (enc 0x0800030E0000) = true ∧
    vFmt (enc 0x0800030E0000) = 3 := by decide

/-- KvRecordsGrowAndShrink: the slot record of `coreT` is right; a trim of LEN, one of more; an append of one row. -/
theorem witness_kv : kvRecBad (memGetN coreT.mem (localBase 0 + 0x400) 64) = false ∧ (kvRec (memGetN coreT.mem (localBase 0 + 0x400) 64)).len = 1 ∧
    tOk (.core 0) 0xFFF003FFFFFF#48 (enc 0x80000000) = true ∧ tOk (.core 0) 0xF0F0001FFFFF#48 (enc 0x020080200000) = true ∧
    descChecks [({ kvUse with fmts := anyFmts }, ext32)] = none ∧ ext32.ext.1 = 32 ∧ ext32.fmt = 1 ∧
    spansBad (boxSpans ext32 ((0, 0, 0, 0), (31, 0, 0, 0))) = none := by decide

theorem test_kvtrim : memGet (after (.kvtrim (.core 0) (enc 0x84000000)) { coreT with mem := memPut coreT.mem 0x100000040A 0 }).mem 0x100000040A = 0 ∧
    (((after (.kvtrim (.core 0) (enc 0x84000000)) coreT).tiles[(0 : Fin 136)]).seq.deferred.map
      fun (x : TrapReq) => (x.cause, x.eaddr)) = some (0x0B, 0x400) := by decide

theorem witness_kv_ports : ∀ x ∈ kvRows ext32 (kvRec (memGetN coreT.mem (localBase 0 + 0x400) 64)) 0 0 1,
    ∃ tg, portCheck coreT x.2.1 x.2.2 = .ok tg := by
  intro x h
  have n : x = (0x200, 32, 32) := by
    have m : kvRows ext32 (kvRec (memGetN coreT.mem (localBase 0 + 0x400) 64)) 0 0 1 = [(0x200, 32, 32)] := by decide
    rw [m] at h; simpa using h
  exact ⟨.dram 32, by subst n; rfl⟩

/-! ## Tiles, tallies, CSR space -/

def r0 : State := State.reset

def tile0 (f : Tile → Tile) : State := State.reset.modTile 0 f

theorem witness_core_control : r0.prog.stopQ = none ∧ ((tile0 fun x => { x with seq := Seq.reset .reset 0x100 }).tiles[(0 : Fin 136)]).seq.run = .reset ∧
    ((tile0 fun x => { x with seq := Seq.reset .halted 0x100 }).tiles[(0 : Fin 136)]).seq.dbgHalt = false ∧
    atBoundary ((tile0 fun x => { x with haltReq := true, seq := Seq.reset .running 0x100 }).tiles[(0 : Fin 136)]) = true ∧
    ((tile0 fun x => { x with array := .rising }).tiles[(0 : Fin 136)]).tmulWait = none ∧
    ((tile0 fun x => { x with arrayHold := true }).tiles[(0 : Fin 136)]).arrayHold = true := by decide

/-- 256 cycles of 1.2 GHz are 213.3 ns (R70). -/
theorem witness_array_off : 2560 ≤ ((({ r0 with tim := { r0.tim with dt := 214 } }).dt - 0).toNat) * tierFreq (r0.pwr.die[tileDie 0]).tier ∧
    ¬ 2560 ≤ 213 * tierFreq (r0.pwr.die[tileDie 0]).tier := by decide

theorem test_run : ((after (.run 0x100 0) (tile0 fun x => { x with seq := { Seq.reset .reset 0 with trapBase := 0x400 } })).tiles[(0 : Fin 136)]).seq.pc = 0x500 := by
  decide

theorem witness_scrub : r0.hubAlive = true ∧ ({ r0 with ecc := [(localBase 0 + 32 * 24575 + 24, .single)] }).ecc =
    [(localBase 0 + 32 * (24575 : Fin 24576).val + 8 * 3, .single)] := by decide

/-- A counting tally of `n` at home 5, and one in event mode at home 6. -/
def tal (n : BitVec 16) (ws : List Waiter) : State :=
  { r0 with tly := { r0.tly with tab := [(5, { Tally.off with mode := .counting, count := n, waiters := ws }), (6, { Tally.off with mode := .event, count := 1 })] } }

def queued (s : State) (op : TallyOp) : State := s.modTly fun y => { y with queue := y.queue.set 0 [op] }

theorem witness_signals : ((queued (tal 65535 []) (.sig 5 0 0 2 false none)).tly.queue)[(0 : Fin 5)] = [.sig 5 0 0 2 false none] ∧
    (tal 65535 []).grantDue 0 = false ∧ tabWf Tally.off (tal 65535 []).tly.tab = true ∧ (tal 0 []).prog.state ≠ .running ∧
    (tal 0 []).homeAllowed ((tal 0 []).tally 5) 5 0 0 true = true ∧ ((tal 0 []).tally 5).barrier = none ∧ ((tal 0 []).tally 6).mode = .event ∧
    ((tal 0 []).tally 7).mode = .disabled := by decide

theorem test_signal_saturates : ((after (.tallySignalApply 0) (queued (tal 65534 []) (.sig 5 0 0 2 false none))).tally 5).count = 65535 ∧
    ((after (.tallySignalApply 0) (queued (tal 65534 []) (.sig 5 0 0 2 false none))).tally 5).ovf = true := by decide

theorem test_event_lost : ((after (.tallySignalApply 0) (queued (tal 0 []) (.sig 6 0 0 3 false none))).tally 6).lost = 3 := by decide

theorem witness_wait : ((tal 3 []).tally 5).waiters = [] ∧ (3 : BitVec 8).toNat ≤ ((tal 3 []).tally 5).count.toNat ∧
    (tal 3 []).homeAllowed ((tal 3 []).tally 5) 5 0x100 0 false = true ∧
    ((tal 0 [{ src := 0x102, tag := 3, n := 1, deadline := none }]).tally 5).waiters ≠ [] ∧ (tal 0 [{ src := 0x102, tag := 3, n := 1, deadline := none }]).grantDue 0 = false ∧
    (tal 0 []).procOf 0x100 = some .mp ∧ ((tal 0 []).tally 6).mode = .event ∧ ((tal 0 []).tally 6).count = 1 ∧ ((tal 0 []).tally 6).waiters = [] ∧
    (tal 0 []).homeAllowed ((tal 0 []).tally 6) 6 0x100 0 false = true := by decide

theorem test_event_wait : ((after (.tallyWaitApply 0) (queued (tal 0 []) (.wait 6 0x100 0 3 200 none false false))).tally 6).count = 0 := by decide

theorem test_wait_takes : ((after (.tallyWaitApply 0) (queued (tal 3 []) (.wait 5 0x100 0 3 3 none false false))).tally 5).count = 0 := by decide

def expiring : State := tal 0 [{ src := 0x100, tag := 3, n := 1, deadline := some 0 }]

theorem witness_leave : ((tal 2 [{ src := 0x100, tag := 3, n := 2, deadline := none }]).tally (5 : Fin 16384).val).waiters = [{ src := 0x100, tag := 3, n := 2, deadline := none }] ∧
    earliest (expiring.expired 0) = some (5, { src := 0x100, tag := 3, n := 1, deadline := some 0 }, 0) ∧ expiring.grantDue 0 = false ∧
    (expiring.tly.queue)[(0 : Fin 5)] = [] ∧ ((queued expiring (.withdraw 5 0x100 3)).tly.queue)[(0 : Fin 5)] = [.withdraw 5 0x100 3] := by decide

def waking (k : Nat) : State :=
  let s := coreRuns fun q => { q with run := .waiting, wait := some { tag := 3, home := 5, n := 1, deadline := some 9, pd := 2, outcome := .granted, withdrawn := false } }
  s.modTly fun y => { y with wake := y.wake.set 0 [0], wakeLog := y.wakeLog.set 0 (List.replicate k 0) }

theorem witness_wake : ((waking 7).tly.wake)[(0 : Fin 4)] = [0] ∧ (((waking 7).tly.wakeLog)[(0 : Fin 4)].filter fun x => decide (((waking 7).dt - x).toNat < 100)).length < 8 ∧
    8 ≤ (((waking 8).tly.wakeLog)[(0 : Fin 4)].filter fun x => decide (((waking 8).dt - x).toNat < 100)).length := by decide

theorem test_wake_goes_on : ((after (.tileWake 0) (waking 7)).tiles[(0 : Fin 136)]).seq.pc = 0x108 ∧ ((after (.tileWake 0) (waking 8)).tiles[(0 : Fin 136)]).seq.pc = 0x100 := by decide

/-- Register accesses: DT, a register the host may not write, and one no register stands at. -/
theorem witness_registers : hiOf 0x1100000 = some 0x1100004 ∧ isSystem 0x100 = true ∧ mayWriteCsr r0 0x130 0x1100000 = false ∧
    mayWriteCsr r0 0x00 0x300004 = false ∧ r0.fab.lock = false ∧ (0x10001 : BitVec 32).setWidth 16 ≠ 0#16 := by decide

theorem test_dbg_sel : (after (.tlyDbgSel 0x108 0x10005) (tal 9 [])).tly.dbgCap = some ((tal 9 []).tally 5) := by decide

theorem test_lock : (after (.registerWrite 0x130 0x300004 1) r0).fab.lock = true ∧ (after (.registerWrite 0x130 0x300010 5) (after (.registerWrite 0x130 0x300004 1) r0)).fab.age[(0 : Fin 4)] = 0x9C4 := by
  decide

/-- RegistersReadTheirResetValues: a few of its rows. -/
theorem test_reset_values : csrLive r0 0x200000 = some 0 ∧ csrLive r0 0x20000C = some 180000 ∧ csrLive r0 0x300020 = some 0x400FA ∧
    csrLive r0 0x1618 = some 0xFF00 ∧ csrLive r0 0xD0000C = some 0x7D0 := by decide

theorem witness_stores : Memory.wf r0.mem = true ∧ Memory.wf r0.flash = true ∧ ∀ d : Fin 2, Memory.wf (r0.deps[d]).sram = true := by decide

/-! ## Commands -/

def cmdE (op : BitVec 8) (p : Vector (BitVec 64) 7) : CmdEntry := { opcode := op, irq := false, hostmem := true, rsv := false, cid := 1, p := p }

/-- Command `e` is in hand of pair 0 and heads the MP's queue. -/
def inHand (e : CmdEntry) (s : State) : State :=
  (s.modQ 0 fun x => { x with cur := some e, enable := true, order := 7 }).modCmd fun c => { c with mpq := [0] }

def par (a b c : BitVec 64) : Vector (BitVec 64) 7 := #v[a, b, c, 0, 0, 0, 0]

def inState (st : PState) : State := State.reset.modProg fun p => { p with state := st }

def anOp (op : BitVec 8) (st : OpState) (p : Vector (BitVec 64) 7) : LongOp :=
  { seq := 5, opcode := op, state := st, started := false, q := 1, cid := 2, irq := false, hostmem := true, p := p, progress := 0, permille := 0,
    result := none, order := 3, sqhead := 0, unposted := false, internal := false, desc := [], lost := false }

def withOp (o : LongOp) (s : State) : State := s.modCmd fun c => { c with ops := c.ops.set 63 (some o) }

/-- A command is served: of the MP's queue, and of those that need no MP. -/
theorem witness_served (e : CmdEntry) : Served (inHand e State.reset) 0 e := ⟨rfl, Or.inr ⟨rfl, rfl⟩⟩
theorem witness_served_op (e : CmdEntry) (o : LongOp) : Served (inHand e (withOp o State.reset)) 0 e := ⟨rfl, Or.inr ⟨rfl, rfl⟩⟩
theorem witness_served_in (e : CmdEntry) (st : PState) : Served (inHand e (inState st)) 0 e := ⟨rfl, Or.inr ⟨rfl, rfl⟩⟩

/-- Rings of 16 entries: the last index, the first outside, a head between, beyond; a configuration with a size out of range. -/
theorem witness_rings : (15 : BitVec 32).toNat < 2 ^ (State.reset.cmd.q[(0 : Fin 16)]).sqSize.toNat ∧ 2 ^ (State.reset.cmd.q[(0 : Fin 16)]).sqSize.toNat ≤ (16 : BitVec 32).toNat ∧
    ((0 : BitVec 32).toNat + 16 - (State.reset.cmd.q[(0 : Fin 16)]).cqHead.toNat) % 16 ≤ ((State.reset.cmd.q[(0 : Fin 16)]).cqTail.toNat + 16 - (State.reset.cmd.q[(0 : Fin 16)]).cqHead.toNat) % 16 ∧
    ((State.reset.cmd.q[(0 : Fin 16)]).cqTail.toNat + 16 - (State.reset.cmd.q[(0 : Fin 16)]).cqHead.toNat) % 16 < ((1 : BitVec 32).toNat + 16 - (State.reset.cmd.q[(0 : Fin 16)]).cqHead.toNat) % 16 ∧
    (State.reset.cmd.q[(0 : Fin 16)]).enable = false ∧ ((inHand (cmdE 0 (par 0 0 0)) State.reset).cmd.q[(0 : Fin 16)]).enable = true := by decide

theorem test_bad_tail : ((after (.cmdSqTail 0x130 2 16 []) State.reset).cmd.q[(2 : Fin 16)]).sqTail = 0 ∧
    (after (.cmdSqTail 0x130 2 16 []) State.reset).saf.raised.map (·.cat) = [0x24] := by decide

/-- A NOP with CID 0x0102 waits at index 15 of pair 3's ring, and a LOAD. -/
def ringed (op : BitVec 8) : State :=
  let s := State.reset.modBoot fun b => { b with stage := .ready }
  let s := s.modQ 3 fun x => { x with enable := true, sqHead := 15, sqBase := 0x5000 }
  { s with hostMem := [(0x53C0, op), (0x53C1, 2), (0x53C2, 2), (0x53C3, 1)].filter fun c => c.2 ≠ 0 }

theorem witness_fetch : (ringed 1).boot.stage = .ready ∧ ((ringed 1).cmd.q[(ringed 1).cmd.rr + (3 : Fin 16)]).enable = true ∧
    ((ringed 1).cmd.q[(3 : Fin 16)]).sqHead ≠ ((ringed 1).cmd.q[(3 : Fin 16)]).sqTail ∧ (∀ j : Fin 16, j < 3 → ((ringed 1).cmd.q[(ringed 1).cmd.rr + j]).ready = false) ∧
    memGet (ringed 1).hostMem 0x53C1 &&& 0xFC = 0 ∧ (ringed 1).cmd.mpq.length < 32 := by decide

theorem test_fetch : ((after .commandFetch (ringed 1)).cmd.q[(3 : Fin 16)]).sqHead = 0 ∧ (after .commandFetch (ringed 1)).cmd.mpq = [3] ∧
    (((after .commandFetch (ringed 1)).cmd.q[(3 : Fin 16)]).cur.map (·.cid)) = some 0x0102 := by decide

def aCompl : ComplEnt := { cid := 3, sqhead := 4, status := 9, long := false, final := true, info0 := 0, info1 := 0, irq := true }

def posting (tail head : BitVec 32) : State :=
  State.reset.modQ 0 fun x => { x with enable := true, held := [aCompl], cqTail := tail, cqHead := head, cqBase := 0x8000 }

theorem witness_post : ((posting 15 5).cmd.q[(0 : Fin 16)]).held = [aCompl] ∧ ((posting 15 5).cmd.q[(0 : Fin 16)]).cqHead.toNat ≠ (15 + 1) % 16 ∧
    ((posting 15 0).cmd.q[(0 : Fin 16)]).cqHead.toNat = (15 + 1) % 16 ∧ Memory.wf (posting 15 5).hostMem = true := by decide

/-- The entry of R219 at the ring's last index; PHASE inverts behind it. -/
theorem test_post : memGetN (after (.completionPost 0) (posting 15 5)).hostMem 0x80F0 8 = [3, 0, 4, 0, 9, 5, 0, 0] ∧
    ((after (.completionPost 0) (posting 15 5)).cmd.q[(0 : Fin 16)]).phase = false ∧ (after (.completionPost 0) (posting 15 5)).cmd.msix = [0] := by decide

theorem witness_query : ((withOp (anOp 0x12 .running (par 0 0 0)) State.reset).cmd.ops[(63 : Fin 64)]).isSome = true ∧ (anOp 0x12 .running (par 0 0 0)).seq ≠ 0 ∧
    (cmdE 0x0B (par ((handleOf 0x12 5 63).setWidth 64) 0 0)).p[0] = (handleOf 0x12 5 63).setWidth 64 := by decide

theorem test_query : ((after (.queryOp 0) (inHand (cmdE 0x0B (par ((handleOf 0x12 5 63).setWidth 64) 0 0)) (withOp (anOp 0x12 .suspended (par 0 0 0)) State.reset))).cmd.q[(0 : Fin 16)]).held.map
    (fun c => (c.status, c.info0)) = [(0, 3)] := by decide

/-- FENCE: allowed at once, of a reserved bit, and behind an operation that still runs. -/
theorem witness_fence : 3 < (4 : BitVec 64).toNat ∧ (∀ r : Fin 16, ¬ (r ≠ 0 ∧ ((inHand (cmdE 0x1F (par 1 0 0)) State.reset).cmd.q[r]).cur ≠ none)) ∧
    (anOp 0x12 .running (par 0 0 0)).state.terminal = false ∧ (anOp 0x12 .running (par 0 0 0)).order ≤ ((inHand (cmdE 0x1F (par 3 0 0)) State.reset).cmd.q[(0 : Fin 16)]).order := by decide

theorem test_fence_waits : ((after (.fence 0) (inHand (cmdE 0x1F (par 3 0 0)) (withOp (anOp 0x12 .running (par 0 0 0)) State.reset))).cmd.q[(0 : Fin 16)]).cur.isSome = true ∧
    ((after (.fence 0) (inHand (cmdE 0x1F (par 3 0 0)) (withOp (anOp 0x12 .done (par 0 0 0)) State.reset))).cmd.q[(0 : Fin 16)]).held.map (·.status) = [0] := by decide

theorem test_suspend_queued : ((after (.suspend 0) (inHand (cmdE 0x08 (par ((handleOf 0x12 5 63).setWidth 64) 0 0)) (withOp (anOp 0x12 .queued (par 0 0 0)) State.reset))).cmd.ops[(63 : Fin 64)]).map (·.state) = some .suspended := by
  decide

/-- CalibrationTimeAndBudget: the bounds of its ranges. -/
theorem witness_time : ((inState .none).tim.dt.toNat ≤ (7 : BitVec 64).toNat) ∧ (inState .loaded).prog.state ≠ .none ∧ (0xF2 : BitVec 64).toNat % 4 ≤ 2 ∧
    (0xF2 : BitVec 64).toNat / 4 % 4 = 0 ∧ (59999 : BitVec 64).toNat < 60000 ∧ (180001 : BitVec 64).toNat > 180000 := by decide

/-- A limit below 180,000 mW lowers a die at burst. -/
theorem witness_budget : let s := (inHand (cmdE 0x1C (par 60000 0 0)) State.reset).modPwr fun p => { p with die := p.die.set 0 { p.die[(0 : Fin 4)] with tier := 1 } }
    (s.pwr.die[(0 : Fin 4)]).tier ≠ 0 ∧ (s.pwr.die[(0 : Fin 4)]).change = none ∧
    ((after (.powerBudget 0) s).pwr.die[(0 : Fin 4)]).change = some (0, .lowering false) := by decide

theorem test_budget : (after (.powerBudget 0) (inHand (cmdE 0x1C (par 60000 0 0)) State.reset)).prog.budget = 60000 ∧
    ((after (.powerBudget 0) (inHand (cmdE 0x1C (par 59999 0 0)) State.reset)).cmd.q[(0 : Fin 16)]).held.map (·.status) = [9] := by decide

theorem witness_long : State.reset.freeSlot = some 0 ∧ (0x1000 : Nat) % 4096 = 0 ∧ 0x1000 + 0x1000 ≤ State.reset.fuse.dramBytes ∧
    ({ State.reset with cmd := { State.reset.cmd with ops := Vector.replicate 64 (some (anOp 0x12 .running (par 0 0 0))) } }.freeSlot) = none := by decide

def spareState : State :=
  let s := inState .loaded
  s.modWear fun w => { w with map := w.map.set 0 { mapped := true, epoch := 1, tile := 0 }, tile := (w.tile.set 0 { WearTile.reset with state := .active, lc := 0 }).set 32 { WearTile.reset with state := .spare } }

theorem witness_migrate : spareState.tileOf 0 = some 0 ∧ (spareState.wear.tile[(32 : Fin 136)]).state = .spare ∧ tileDie 32 = tileDie 0 := by decide

theorem test_load_accepted : ((after (.load 0) (inHand (cmdE 0x01 (par 0 64 0)) State.reset)).cmd.ops[(0 : Fin 64)]).map (·.opcode) = some 0x01 ∧
    (after (.load 0) (inHand (cmdE 0x01 (par 0 64 0)) State.reset)).prog.state = .loading := by decide

/-- ProgramsAndTheirTasks: a program of core 0 that is loaded, runs, or has halted. -/
def prog1 (st : PState) (r : RunState) : State :=
  let s := spareState.modTile 0 fun x => { x with seq := Seq.reset r 0x100 }
  s.modProg fun p => { p with state := st, img := { p.img with lcMask := 1 } }

theorem witness_programs : (prog1 .loaded .reset).progTiles = [0] ∧ (prog1 .loaded .reset).prog.epoch = (prog1 .loaded .reset).prog.checkedEpoch ∧
    (prog1 .loaded .reset).tim.dt.toNat < (1 : BitVec 64).toNat ∧ (∀ i ∈ (prog1 .running .halted).progTiles, ((prog1 .running .halted).tiles[i]).seq.run = .halted) ∧
    (∃ i ∈ (prog1 .running .running).progTiles, ((prog1 .running .running).tiles[i]).seq.run = .running) := by decide +kernel

theorem test_start : ((after (.start 0) (inHand (cmdE 0x02 (par 0 0 0)) (prog1 .loaded .reset))).tiles[(0 : Fin 136)]).seq.run = .running := by decide

def task1 : Task :=
  { agent := 0, cls := 1, overlap := false, part := 0, crit := 0, shed := 0, pred := 0, period := 1000, deadline := 500, offset := 10, wcc := 0, release := 8, releaseN := 1,
    tb := true, done := 5, migpts := 0, energy := 0, nrdDram := 0, nrdHub := 0, nrdDie := 0, nwait := 0, wdist := 0, wisland := 0, bytesDram := 0, bytesHub := 0,
    rateDram := 0, rateHub := 0 }

def tasked (dt : BitVec 64) (n : BitVec 16) : State :=
  let s := (tal n []).modProg fun p => { p with state := .running, img := { p.img with tasks := [task1] }, deadlines := [(0, 400)] }
  s.modTim fun t => { t with dt := dt }

theorem witness_tasks : (tasked 10 0).prog.img.tasks[0]? = some task1 ∧ (tasked 10 0).prog.startDt.toNat ≤ (tasked 10 0).tim.dt.toNat ∧
    (tasked 10 0).prog.startDt.toNat + task1.offset + 0 * task1.period ≤ (tasked 10 0).tim.dt.toNat ∧ (tasked 9 0).tim.dt.toNat < 10 ∧
    (tasked 400 0).dueDeadline 0 = some (0, 400) ∧ ((tasked 400 0).tally 5).count = 0 ∧ ((tasked 400 1).tally 5).count ≠ 0 ∧
    (tasked 400 0).homeAllowed ((tasked 400 0).tally 5) 5 0x105 ((tasked 400 0).partOf 0x105) false = true := by decide

theorem witness_plan : (plan (inState .readmitting) (inState .readmitting).prog.budget.toNat).2.isOk = true := by decide +kernel

theorem witness_ops : (withOp (anOp 0x12 .queued (par 0 0 0)) State.reset).opBlocked 63 = false ∧
    (withOp (anOp 0x12 .queued (par 0 0 0)) (State.reset.modCmd fun c => { c with ops := c.ops.set 0 (some { anOp 0x12 .running (par 0 0 0) with order := 2 }) })).opBlocked 63 = true ∧
    (State.reset.scrubRange (anOp 0x12 .suspending (par 0 0x1000 0))).2 = 1 ∧ State.reset.pwr.mpAbsent = false := by decide

def aSnap : Snap :=
  { slot := 63, out := 0, outLen := 0, hostmem := true, dram := false, eng := false, dt := 0, cut := [], cutEng := [], tiles := [], stores := [], shadow := [], log := [],
    fus := none, pln := none, pos := 0, bytes := 0 }

theorem witness_snap : ({ State.reset with snap := some aSnap }).snapReady aSnap = true := by decide

/-! ## Fabric and DRAM -/

/-- An access of 8 bytes at `a` by source `src` for the MP, with class `c`. -/
def aReq (src : Src) (w : Bool) (a : Nat) (c : BitVec 3) : Req :=
  { id := 7, src := src, part := 0, cls := c, dl := 0, addr := a, len := 8, write := w, data := if w then [1, 2, 3, 4, 5, 6, 7, 8] else [],
    org := if w then .st .mp else .ld .mp, hops := [], since := 0, arr := 0, promoted := none, marked := false, iss := 0, tile := none, hold := false }

/-- The MP waits for a load of register 9. -/
def loading : State := mpRuns fun q => { q with ldWait := some { rd := 9, size := 3, zext := true, addr := 0x40, resp := none } }

def ported (r : Req) : State := loading.modFab fun f => { f with ports := [r] }
def landed (r : Req) : State := loading.modFab fun f => { f with arrived := [r] }

/-- An address at no target (R35). -/
def holeAddr : Nat := 0x0FFFFFFFFFFF

theorem witness_port : (ported (aReq 0x130 false holeAddr 0)).fab.ports.find? (fun x => x.src == 0x130 && x.ofSlot 0) = some (aReq 0x130 false holeAddr 0) ∧
    loading.dmaProc 0x130 = none ∧ (match portCheck loading holeAddr 8 with | .error .decode => true | _ => false) = true ∧
    (match portCheck loading hubBase 8 with | .ok (.hubStore 0) => true | _ => false) = true ∧
    (match portCheck loading (hubBase + 0x1FFFFF8) 8, portCheck loading (hubBase + 0x1FFFFFC) 8 with | .ok _, .error .decode => true | _, _ => false) = true ∧
    (ported (aReq 0x130 false hubBase 0)).regulated (aReq 0x130 false hubBase 0) = false ∧ isPartAgent 0x130 = false := by decide

/-- A program whose core 0 has a task of class 1 with 2/256 B a cycle of DRAM; its bucket holds 7 bytes. -/
def regState : State :=
  let s := (prog1 .running .running).modFab fun f => { f with loaded := true, ports := [aReq 0 true 0x40 1], buckets := [((0, 1, true), { level := 256 * 7, dt := 0 })] }
  s.modProg fun p => { p with img := { p.img with tasks := [task1], lcMask := 1 } }

theorem witness_regulated : isPartAgent 0 = true ∧ regState.groupOf 0 (.dram 0x40) = some true ∧ (1 : BitVec 3) ∈ regState.classesOf 0 ∧
    (2 : BitVec 3) ∉ regState.classesOf 0 ∧ ((regState.modFab fun f => { f with buckets := [] }).issueBuckets (aReq 0 true 0x40 2) (.dram 0x40) true).isSome = true ∧
    regState.chargeD 0x40 8 true = 8 ∧ bucketFind regState.fab.buckets (0, 1, true) = some { level := 256 * 7, dt := 0 } ∧
    (Bucket.mk (256 * 7) 0).now (regState.bucketRate 0 1 true).1 1 (regState.bucketRate 0 1 true).2 0 < 256 * 8 := by decide

/-- A link-free route ends at the target at once; another waits at its first arbiter. -/
theorem test_issue : (after (.requestIssue 0x130 0) (ported (aReq 0x130 true hubBase 0))).fab.ports = [] ∧
    ((after (.requestIssue 0x130 0) (ported (aReq 0x130 true hubBase 0))).fab.flight ++ (after (.requestIssue 0x130 0) (ported (aReq 0x130 true hubBase 0))).fab.arrived).length = 1 := by
  decide

/-- Two requests of class 5 at one arbiter: DT is 8 × 0x10, deadlines 0x12 and 0x11. -/
def arbState : State :=
  { r0 with
    tim := { r0.tim with dt := 0x80 }
    fab := { r0.fab with flight := [{ aReq 0x100 false 0x40 5 with id := 1, dl := 0x12, hops := [.hubBank 0] },
      { aReq 0x101 false 0x80 5 with id := 2, dl := 0x11, hops := [.hubBank 0] }] } }

theorem witness_promotion : State.reset.fab.modeP = false ∧ 0 < State.reset.tokens 0x100 ∧ 8 * (State.reset.fab.age[(3 : Fin 4)]).toNat = 2000 ∧
    ({ State.reset with fab := { State.reset.fab with promo := [(0x100, 3)] } }).tokens 0x100 < State.reset.fab.promoDepth.toNat := by decide

theorem witness_arbiter : arbState.waitingAt (.hubBank 0) = arbState.fab.flight ∧ arbState.fab.modeP = false ∧
    (arbState.waitingAt (.hubBank 0)).Pairwise (fun x y => x.src ≠ y.src ∧ x.id ≠ y.id) ∧
    ((0x11 : BitVec 24) - (arbState.tim.dt >>> 3).setWidth 24).toInt < ((0x12 : BitVec 24) - (arbState.tim.dt >>> 3).setWidth 24).toInt := by decide

theorem test_arbiter : (after (.arbiterGrant (.hubBank 0)) arbState).fab.arrived.map (fun (r : Req) => r.id) = [2] := by decide

/-- Requests that have arrived: at DRAM, at the hub store, at a register of CSR space that the host may not reach, at no target. -/
theorem witness_target : (landed (aReq 0x100 true hubBase 0)).firstAtTarget (aReq 0x100 true hubBase 0) = true ∧
    (landed (aReq 0x100 true hubBase 0)).allowed 0x100 0 (.hubStore 0) 8 true = true ∧ loading.allowed 0x100 0 (.dram 0x40) 8 false = true ∧
    (match portCheck loading 0x40 8 with | .ok (.dram 0x40) => true | _ => false) = true ∧
    (loading.seq .mp).ldWait = some { rd := 9, size := 3, zext := true, addr := 0x40, resp := none } := by decide

theorem test_target_write : memGet (after (.fabricRequest 7 []) (landed (aReq 0x100 true hubBase 0))).mem (hubBase + 7) = 8 ∧
    memGet (after (.fabricRequest 7 []) (landed (aReq 0x100 true hubBase 0))).mem (hubBase + 8) = 0 := by decide

/-- A program is loaded that gives no partition the hub store: its agents may not write there. -/
theorem witness_refused : (regState.allowed 0 1 (.dram 0x40) 8 true) = false ∧ regState.fab.violValid = false := by decide

theorem witness_crosscut : r0.hubAlive = true ∧ (r0.fab.xcuts[(11 : Fin 12)]).failed = false ∧ (67 : Fin 68) ∉ (r0.fab.xcuts[(11 : Fin 12)]).toHigh.badLanes ∧
    (r0.fab.xcuts[(11 : Fin 12)]).toHigh.half = false ∧ (r0.fab.xcuts[(11 : Fin 12)]).toLow.badLanes.length ≤ 4 := by decide

theorem test_lane_lost : ((after (.laneRepair 0 true [(3, 17)]) r0).fab.xcuts[(0 : Fin 12)]).toHigh.badLanes = [3] ∧
    ((after (.laneRepair 0 true [(3, 16)]) r0).fab.xcuts[(0 : Fin 12)]).toHigh.badLanes = [] := by decide

/-- A request heads the DRAM queues; every channel is active. -/
def dramAt (r : Req) : State :=
  let s := (loading.modFab fun f => { f with dramQ := [r] }).modBoot fun b => { b with dinit := true }
  s.modDmc fun d => { d with inserv := 0xFFFF, ch := Vector.replicate 8 { Channel.reset with state := .active, bin := 4 } }

theorem witness_dram : (dramAt (aReq 0x100 false 0x38 0)).fab.dramQ.head? = some (aReq 0x100 false 0x38 0) ∧ r0.boot.dinit = false ∧
    (dramAt (aReq 0x100 false 0x38 0)).dramHeld (aReq 0x100 false 0x38 0) = false ∧ (0x38 : Nat) / 64 = (0x38 + 8 - 1) / 64 ∧
    ((dramAt (aReq 0x100 false 0x38 0)).dmc.ch[(dramAt (aReq 0x100 false 0x38 0)).chanOf 0x38]).state = .active ∧
    (dramAt (aReq 0x100 false 0x38 0)).classAt 0 = .u ∧ (dramAt (aReq 0x100 true 0x38 0)).ecc = [] := by decide

/-- Region 0 of class M covers the line. -/
def dramM (r : Req) : State :=
  ((dramAt r).modFab fun f => { f with loaded := true }).modProg fun p =>
    { p with state := .running, img := { p.img with regions := [{ base := 0, size := 0x10000, cls := .m, owner := 0, rd := 1, wr := 1, dataLost := 0, segs := [] }] } }

theorem witness_dram_m : (dramM (aReq 0x100 false 0x38 0)).classAt 0 ≠ .u := by decide

theorem test_dram_held : (after (.dramRead 7 []) ((dramAt (aReq 0x100 false 0x38 0)).modBoot fun b => { b with dinit := false })).fab.dramQ.length = 1 := by decide

theorem test_dram_poison : (after (.dramRead 7 []) { dramAt (aReq 0x100 false 0x38 0) with ecc := [(0, .hard)] }).ecc = [(0, .poison)] ∧
    (after (.dramRead 7 []) { dramM (aReq 0x100 false 0x38 0) with ecc := [(0, .hard)] }).ecc = [] := by decide

def chan (f : Channel → Channel) : State := (dramAt (aReq 0x100 false 0x38 0)).modDmc fun d => { d with ch := d.ch.set 7 (f { Channel.reset with state := .active, bin := 4 }) }

theorem witness_channel : ((chan id).dmc.ch[(7 : Fin 8)]).state = .active ∧ ((chan id).dmc.ch[(7 : Fin 8)]).window = none ∧ (chan id).pwr.mpAbsent = false ∧
    ((chan fun c => { c with alerts := 1 }).dmc.ch[(7 : Fin 8)]).alerts < 2 ∧ 2 ≤ ((chan fun c => { c with alerts := 2 }).dmc.ch[(7 : Fin 8)]).alerts ∧
    (0x10 : BitVec 5).getLsbD ((chan fun c => { c with retrainDue := true }).dmc.ch[(7 : Fin 8)]).bin.toNat = true ∧
    (chan id).marginOk ((chan id).dmc.ch[(7 : Fin 8)]) = false := by decide

theorem test_alert : ((after (.alertN 7 true) (chan fun c => { c with alerts := 2 })).dmc.ch[(7 : Fin 8)]).state = .error ∧
    ((after (.alertN 7 true) (chan fun c => { c with alerts := 1 })).dmc.ch[(7 : Fin 8)]).state = .active := by decide

theorem witness_window : (∀ d : Fin 8, ((chan id).dmc.ch[d]).window = none) ∧ (4 : Fin 5).val ≤ ((chan id).dmc.ch[(7 : Fin 8)]).maxbin.toNat ∧
    ((chan fun c => { c with window := some (.freq, false, 4), bin := 3 }).dmc.ch[(7 : Fin 8)]).window = some (.freq, false, 4) ∧
    ((chan fun c => { c with noBin := 0x1F }).dmc.ch[(7 : Fin 8)]).noBin = 0x1F ∧ (chan fun c => { c with cands := [0x123] }).ecc = [] := by decide

theorem test_window_end : (after (.maintWindowEnd 7) (chan fun c => { c with state := .maint, window := some (.freq, false, 4), bin := 3 })).prog.epoch = 1 ∧
    (after (.maintWindowEnd 7) (chan fun c => { c with state := .maint, window := some (.freq, false, 4), bin := 4 })).prog.epoch = 0 := by decide

/-- A re-placement runs over one region of class M whose bytes still lie in the layout of all 16 subchannels. -/
def moving : State :=
  let s := withOp (anOp 0x15 .running (par 4 0 0)) (dramM (aReq 0x100 false 0x38 0))
  let s := s.modDmc fun d => { d with inserv := 0x3FFF }
  s.modProg fun p => { p with img := { p.img with regions := p.img.regions.map fun r => { r with segs := [(0, 0xFFFF)] } } }

theorem witness_copier : moving.replaceRun.map (·.1) = some 63 ∧ (nextMove moving.width 0 moving.replaceOrder).map (fun x => x.1) = some 0 ∧
    moving.prog.img.regions.all (classPossible moving.width) = true ∧ (nextMove moving.width 0 moving.replaceOrder).all (fun x => decide (x.2.2 ≤ rawCapacity moving)) = true := by
  decide

theorem test_copier : (after .copierMove moving).prog.img.regions.map (fun (r : Region) => r.segs) = [[(256, 0xFFFF)]] := by decide

theorem witness_patrol : ((chan id).nextLine 7 256 ((chan id).dmc.ch[(7 : Fin 8)]).scrubPos).isSome = true ∧ (chan id).boot.dinit = true := by decide

/-! ## Engines -/

/-- `n` bytes of a table: `l` gives those that are not 0. -/
def table (n : Nat) (l : List (Nat × Byte)) : List Byte := (List.range n).map fun i => ((l.find? fun x => x.1 == i).map (·.2)).getD 0

/-- A table of pre-processing: port 0 (latency 100 ns, loss time 1 µs, retry time 1 ms), a camera stream 0 on its virtual channel 3 (RAW
pictures of one pixel, a canary every second frame, stale after 100 µs), and a bitstream 16 with its access units counted by tally 5. -/
def preTab : List Byte :=
  table 16 [] ++ table 128 [(0, 1), (4, 100), (8, 1), (12, 1)] ++ table 256 [] ++ table 144 [(0, 1), (2, 3), (3, 0x2A), (4, 1), (6, 1), (8, 1), (12, 0x20)] ++
  List.replicate (144 * 15) 0 ++ table 144 [(0, 2), (135, 0x70), (136, 5), (138, 4)]

def intake (f : IntSt → IntSt) : State :=
  ((tal 1 []).modProg fun p => { p with state := .running, img := { p.img with pre := preTab } }).modInt f

def port0 (st : StrState) (f : Stream → Stream) : State :=
  intake fun i =>
    { i with port := i.port.set 0 { state := st, lastValid := 0, retryAt := none }, str := i.str.set 0 (f { Stream.reset with state := st }) }

def aSample : Sample :=
  { frameno := 1, capture := 0, complete := none, tsFallback := false, corrupt := false, stepped := false, emit := false, lines := [], pkts := [] }

def aTake : SlotTake :=
  { variant := 0, slot := 0, session := 0, dropped := 0, frameno := 1, flip := false, dx := 0, dy := 0, scale := 0, gain := 0, bias := 0, paramMiss := false,
    ready := none, capture := 0, complete := 0, srcframe := 0 }

theorem witness_intake : (port0 .active id).intakeOn = true ∧ (port0 .active id).csiStreams 0 = [0] ∧ ((port0 .active id).int.port[(0 : Fin 4)]).state ≠ .off ∧
    u8 ((port0 .active id).strR (0 : Fin 56).val) 2 = (3 : Fin 32).val ∧ u8 ((port0 .active id).strR (0 : Fin 56).val) 3 = (0x2A : BitVec 6).toNat ∧
    srGroup ((port0 .active id).strR (0 : Fin 56).val) < 8 := by decide +kernel

/-- A frame start of virtual channel 3 begins a sample; one of channel 2 does not. -/
theorem test_frame_start :
    (((after (.csi2Packet 0 { vc := 3, dt := 0, ecc := .ok, body := .frameStart }) (port0 .active id)).int.str[(0 : Fin 56)]).sample.map (·.capture)) = some (0 - 100) ∧
    ((after (.csi2Packet 0 { vc := 2, dt := 0, ecc := .ok, body := .frameStart }) (port0 .active id)).int.str[(0 : Fin 56)]).sample = none := by
  decide +kernel

theorem test_bad_header : (((after (.csi2Packet 0 { vc := 3, dt := 1, ecc := .bad, body := .frameEnd })
    (port0 .active fun x => { x with sample := some aSample })).int.str[(0 : Fin 56)]).sample.map (·.corrupt)) = some true := by decide +kernel

theorem test_session : ((after (.csi2Packet 0 { vc := 3, dt := 1, ecc := .ok, body := .frameEnd }) (port0 .down id)).int.str[(0 : Fin 56)]).session = 1 ∧
    ((after (.csi2Packet 0 { vc := 3, dt := 1, ecc := .ok, body := .frameEnd }) (port0 .down id)).int.port[(0 : Fin 4)]).retryAt = some 1000000 := by decide +kernel

/-- Samples that a stream has completed: at the limit of staleness, beyond it, with a line too many, with a take open. -/
theorem witness_samples : stale ((intake id).strR 0) 0 100000 = false ∧ stale ((intake id).strR 0) 0 100001 = true ∧
    Sample.bad { aSample with lines := [[9]] } ((intake id).strR 0) = false ∧ Sample.bad { aSample with lines := [[9], [9]] } ((intake id).strR 0) = true ∧
    (port0 .active fun x => { x with takes := [aTake] }).openTakes 0 = [0] ∧ (port0 .active id).openTakes 0 = [] := by decide +kernel

theorem test_stale : ((after (.sampleComplete 0) (port0 .active fun x => { x with sample := some { aSample with complete := some 100001, lines := [[9]] } })).int.str[(0 : Fin 56)]).stale = 1 := by
  decide +kernel

theorem test_eth_drop : ((after (.ethFrameRx 2 { gptp := false, udp := true, dstPort := 9, checksumOk := true, payload := [] }) (intake id)).ifc.ethDrop[(2 : Fin 4)]) = 1 := by
  decide +kernel

/-- IntakeFillsSlots: a frame-set that closes at 10, a bitstream with an access unit, a take that is written, a port that is silent. -/
def framed : State :=
  (intake fun i => { i with grp := i.grp.set 7 { nextF := 4, closeAt := some 10, joined := [] } }).modProg fun p => { p with img := { p.img with pre := [0] } }

def stream16 (f : Stream → Stream) : State := intake fun i => { i with str := i.str.set 16 (f { Stream.reset with state := .active }) }

theorem witness_slots : (framed.int.grp[(7 : Fin 8)]).closeAt = some 10 ∧ srKind ((stream16 id).strR (16 : Fin 56).val) = 2 ∧
    ((stream16 id).int.str[(16 : Fin 56)]).state = .active ∧ tabWf Tally.off (stream16 id).tly.tab = true ∧
    ((stream16 id).tally (u16 ((stream16 id).strR (16 : Fin 56).val) 136)).count = 1 ∧
    (stream16 id).homeAllowed ((stream16 id).tally 5) 5 0x111 ((stream16 id).partOf 0x111) false = true ∧
    ((port0 .active fun x => { x with takes := [{ aTake with ready := some (true, false, false) }] }).int.str[(0 : Fin 56)]).takes = [{ aTake with ready := some (true, false, false) }] ∧
    u32 ((intake id).ringR (srRing ((intake id).strR 0))) 16 + 64 * aTake.slot + 64 ≤ 0x2000000 ∧ (intake id).fab.loaded = false ∧
    srCanInt ((intake id).strR (0 : Fin 56).val) = 2 ∧ 2 ≤ (2 : Nat) := by decide +kernel

theorem test_frameset : ((after (.framesetClose 7) (framed.modTim fun t => { t with dt := 10 })).int.grp[(7 : Fin 8)]).nextF = 5 ∧
    ((after (.framesetClose 7) (framed.modTim fun t => { t with dt := 9 })).int.grp[(7 : Fin 8)]).nextF = 4 := by decide +kernel

theorem test_decode : (after (.bitstreamDescriptor 16) (stream16 fun x => { x with bsNext := 3 })).int.str[(16 : Fin 56)].bsNext = 0 ∧
    ((after (.decodeDone 16 { unit := 0, ok := false, lines := [[1, 2]] }) (stream16 fun x => { x with decoding := [{ capture := 7, stepped := false, readable := true }] })).int.str[(16 : Fin 56)].sample.map
      fun (x : Sample) => (x.capture, x.corrupt)) = some (7, true) := by decide +kernel

theorem test_loss : (after (.portLossTimeout (.csi 0)) ((port0 .active id).modTim fun t => { t with dt := 1000 })).int.port[(0 : Fin 4)].state = .lost ∧
    (after (.portLossTimeout (.csi 0)) ((port0 .active id).modTim fun t => { t with dt := 999 })).int.port[(0 : Fin 4)].state = .active := by decide +kernel

theorem test_slot_header : (memGetN (after (.slotReady 0 0) (port0 .active fun x => { x with takes := [{ aTake with frameno := 0x102, ready := some (true, false, false) }] })).mem
    hubBase 16) = [0, 0, 0, 1, 0, 0, 0, 0, 2, 1, 0, 0, 0, 0, 0, 0] := by decide +kernel

theorem test_canary : ((after (.canary 0) (port0 .active fun x => { x with sinceCanary := 1 })).int.str[(0 : Fin 56)]).sinceCanary = 1 := by decide +kernel

/-- A fusion table (wheel frames of identifier 0x123 on bus 1, valid for 1 ms; an IMU read of 4 bytes every 100 µs) and a release. -/
def fusing (f : FusSt → FusSt) : State :=
  ((tal 1 []).modProg fun p =>
    { p with state := .running,
             img := { p.img with fus := table 64 [(16, 100), (20, 1), (22, 1), (24, 0x23), (25, 1), (36, 1), (39, 4)], tasks := [{ task1 with agent := 0x102, release := 5 }] } }).modFus f

theorem witness_fusion : (fusing id).fusionOn = true ∧ (1 : Fin 4).val = u8 (fusing id).fusT 20 ∧ u32 (fusing id).fusT 24 = 0x123 ∧ u8 (fusing id).fusT 39 = [1, 2, 3, 4].length ∧
    0 < u16 (fusing id).fusT 36 ∧ (fusing id).fus.imuNext.toNat ≤ (fusing id).tim.dt.toNat ∧ (fusing id).inShare 1 ((fusing id).partOf 0x120) = true ∧
    ((fusing id).modFab fun f => { f with modeP := true }).inShare 1 ((fusing id).partOf 0x120) = false ∧
    1000000 * u16 (fusing id).fusT 22 < ((1000001 : BitVec 64) - 0).toNat := by decide +kernel

theorem test_wheel_other : (after (.wheelFrame 1 { id := 0x124, ext := false, data := [0, 0, 0, 0, 0, 0, 0, 0] }) (fusing id)).fus.wheel = [] := by decide +kernel

theorem test_ego_timeout : (after .egoTimeout ((fusing fun x => { x with egoValid := true, wheel := [(0, 0)] }).modTim fun t => { t with dt := 1000001 })).fus.egoValid = false ∧
    (after .egoTimeout ((fusing fun x => { x with egoValid := true, wheel := [(0, 0)], imuDt := some 1000000 }).modTim fun t => { t with dt := 1000000 })).fus.egoValid = true := by
  decide +kernel

/-- An ego step is due at 0; the wheel frame before it says that the vehicle stands. -/
def stepping : State := (fusing fun x => { x with egoNext := 5, hist := [EgoEntry.mk 0 0 0 0 0 0], wheel := [(4, 0)] }).modTim fun t => { t with dt := 5 }

theorem test_ego_step : (after .egoStep stepping).fus.egoNext = 500005 ∧ (after .egoStep stepping).fus.hist.map (fun (e : EgoEntry) => (e.x, e.y)) = [(0, 0), (0, 0)] := by
  decide +kernel

/-- A planner table and a state of the planner. -/
def planning (f : PlnSt → PlnSt) : State :=
  ((tal 1 []).modProg fun p => { p with state := .running, img := { p.img with pln := table 64 [(26, 5), (30, 4)] } }).modPln f

/-- A query to node areas x 0 to 255, y 0 to 255, of any heading, speed 0 to 31, budget 1000 ns, result at 0, done home 5. -/
def aQuery : List Byte := table 64 [(5, 255), (7, 255), (8, 0xFF), (9, 0xFF), (11, 31), (12, 0xE8), (13, 3), (16, 1), (20, 5)]

theorem witness_planner : (planning id).plannerOn = true ∧ queryOk aQuery = true ∧ queryOk [] = false ∧ (planning id).inShare 2 ((planning id).partOf 0x121) = true ∧
    isGoal aQuery (startNode (planning id).pln) = true ∧ u32 aQuery 12 = 1000 ∧
    (planning fun p => { p with running := true, idle := some 0 }).inLoop = true ∧
    ((planning id).tally (u16 (planning id).plnT 26)).count = 1 ∧ (planning id).homeAllowed ((planning id).tally 5) 5 0x121 ((planning id).partOf 0x121) false = true := by
  decide +kernel

theorem test_budget_end : (after .queryBudgetExpiry ((planning fun p => { p with query := some (Query.mk aQuery 0 true 3 false) }).modTim fun t => { t with dt := 999 })).pln.query.isSome = true ∧
    (after .queryBudgetExpiry ((planning fun p => { p with query := some (Query.mk aQuery 0 true 3 false) }).modTim fun t => { t with dt := 1000 })).pln.query = none := by decide +kernel

theorem test_poll : (after .plannerIdlePoll ((planning fun p => { p with running := true, idle := some 0, qNext := 3 }).modTim fun t => { t with dt := 250 })).pln.qNext = 0 := by
  decide +kernel

/-- A scan descriptor: CRC-8 with polynomial 7 over 16 bytes at the hub store, compared with 0 (mode 1). -/
def aScan : List Byte := table 64 [(4, 0x1C), (8, 16), (16, 7), (56, 7), (57, 1)]

theorem witness_checkscan : scanOk r0 (r0.hostGet 0 64) = false ∧ scanOk r0 aScan = true ∧ scanMode aScan = 1 := by decide +kernel

/-- A job of unit 0 with that descriptor, START 5 and DONE 5. -/
def jobbing (f : Cvu → Cvu) : State :=
  let s := (tal 1 []).modProg fun p => { p with state := .running, img := { p.img with chk := table 16 [(2, 1)] ++ aScan ++ table 16 [(2, 5), (4, 5)] } }
  { s with cvu := s.cvu.set 0 (f Cvu.reset) }

theorem witness_job : (jobbing id).prog.img.chk ≠ [] ∧ (0 : Fin 256).val < chkNjob (jobbing id).prog.img.chk ∧ (jobbing id).progOn = true ∧
    u8 (chkJob (jobbing id).prog.img.chk 0) 64 = 0 ∧ u16 (chkJob (jobbing id).prog.img.chk 0) 66 = 5 ∧
    (jobbing id).homeAllowed ((jobbing id).tally 5) 5 (cvuSrc 0) ((jobbing id).scanPart 0 (.job 0)) false = true := by decide +kernel

theorem test_job_start : ((after (.checkJobStart 0 0) (jobbing id)).cvu[(0 : Fin 4)]).cur = some (jobScan (jobbing id).prog.img.chk 0) := by decide +kernel

theorem test_scan_end : ((after (.scanEnd 0 .clean .clean) (jobbing fun u => { u with cur := some (jobScan (jobbing id).prog.img.chk 0) })).cvu[(0 : Fin 4)]).lastst = 0 ∧
    ((after (.scanEnd 0 .clean .clean) (({ jobbing (fun u => { u with cur := some (jobScan (jobbing id).prog.img.chk 0) }) with mem := [(hubBase, 1)] }))).cvu[(0 : Fin 4)]).mism = 1 := by
  decide +kernel

/-- A host scan of 128 KB, one byte before its first 64 KB boundary. -/
def hostScan : Scan :=
  { kind := .host 63, desc := table 64 [(4, 0x1C), (10, 2), (16, 7), (56, 7), (57, 1)], result := 0, hostmem := true, pos := 65535, crc := 0 }

def suspending (st : OpState) : State :=
  let s := withOp (anOp 0x11 st (par 0 0 0)) r0
  { s with cvu := s.cvu.set 3 { Cvu.reset with cur := some hostScan } }

theorem witness_suspend_point : 65536 - hostScan.pos % 65536 < scanLen hostScan.desc - hostScan.pos ∧
    ((hostScan.fold 3 1 (suspending .cancelling)).2.toOption.map (·.pos)) = some 65536 ∧ (hostScan.fold 3 1 (suspending .cancelling)).1.ecc = [] ∧
    ((suspending .cancelling).cmd.ops[(63 : Fin 64)]).map (·.state) = some .cancelling := by decide +kernel

theorem test_suspend_point : ((after (.checkscanSuspendPoint 3) (suspending .cancelling)).cmd.ops[(63 : Fin 64)]).map (·.state) = some .cancelled ∧
    ((after (.checkscanSuspendPoint 3) (suspending .suspending)).cmd.ops[(63 : Fin 64)]).map (·.state) = some .suspended := by decide +kernel

/-! ## Deputies -/

/-- An image of deputy A: LENGTH 136, ENTRY 128, watchdog 10,000 us, report period 10 ms, its CRC-32C values worked out apart. -/
def imgHead : List (Nat × Byte) :=
  [(0, 68), (1, 80), (2, 84), (3, 89), (4, 136), (8, 138), (9, 178), (10, 40), (11, 140), (12, 128), (16, 16), (17, 39), (26, 10), (60, 70), (61, 5), (62, 224), (63, 146)]

def dep (f : Deputy → Deputy) : State :=
  { r0 with flash := imgHead.map fun c => (0x200000 + c.1, c.2), deps := r0.deps.set 0 (f (Deputy.reset true false)) }

/-- A deputy that runs its program. -/
def depRuns (f : Deputy → Deputy) : State :=
  dep fun x => f { x with state := .ready, operational := true, loaded := true, ready := true, pinHigh := true, safeLow := false, wdtRun := true, seq := Seq.reset .running 128 }

/-- The register of a CRC-32C after some bytes, each value of it worked out before the next byte. -/
def forceFold : List Byte → Nat → Nat
  | [], a => a
  | b :: l, a => if a = 0 then forceFold l (crcByte crc32cParam 0 b) else forceFold l (crcByte crc32cParam a b)

theorem forceFold_is_fold (l : List Byte) (a : Nat) : forceFold l a = crcFold crc32cParam a l := by
  induction l generalizing a with
  | nil => rfl
  | cons b l ih => by_cases h : a = 0 <;> simp [forceFold, h, ih, crcFold]

theorem crc32c_forced (l : List Byte) : crc32c l = crcOut crc32cParam (forceFold l 0xFFFFFFFF) := by
  rw [forceFold_is_fold]; rfl

theorem witness_dep_image : depImageOk (memGetN (dep id).flash (depImageBase 0) 128) (memGetN (dep id).flash (depImageBase 0 + 128) 8) = true := by
  simp only [depImageOk, crc32c_forced]; decide +kernel

theorem witness_dep_image_length : min (u32 (memGetN (dep id).flash (depImageBase 0) 128) 4) 1048576 - 128 = 8 ∧
    (u32 (memGetN r0.flash (depImageBase 0) 128) 0 == 0x59545044) = false := by decide +kernel

theorem witness_deputy : ((dep id).deps[(0 : Fin 2)]).state = .starting ∧ ((dep id).deps[(0 : Fin 2)]).operational = false ∧ (dep id).hubAlive = true ∧
    ((depRuns id).deps[(0 : Fin 2)]).runs = true ∧ ((depRuns id).deps[(0 : Fin 2)]).hubLost = false ∧ (mpRuns id).mpGone = false ∧
    ((dep fun x => { x with operational := true, imgBad := true, ownDt := 100000000 }).deps[(0 : Fin 2)]).alive = true := by decide

/-- An empty flash holds no image. -/
theorem test_deputy_starts : (after (.deputyStart 1 true) { r0 with deps := r0.deps.set 1 (Deputy.reset true false) }).deps[(1 : Fin 2)].imgBad = true ∧
    (after (.deputyStart 1 false) { r0 with deps := r0.deps.set 1 (Deputy.reset true false) }).deps[(1 : Fin 2)].state = .faulted := by decide +kernel

theorem test_watchdog : (after (.deputyWatchdogExpiry 0) (depRuns fun x => { x with ownDt := 10000000 })).deps[(0 : Fin 2)].state = .faulted ∧
    (after (.deputyWatchdogExpiry 0) (depRuns fun x => { x with ownDt := 9999999 })).deps[(0 : Fin 2)].state = .ready := by decide

theorem test_hub_lost : (after (.hubLost 0) (depRuns fun x => { x with ownDt := 100000 })).deps[(0 : Fin 2)].rel = true ∧
    (after (.hubLost 0) (depRuns fun x => { x with ownDt := 99999 })).deps[(0 : Fin 2)].rel = false := by decide +kernel

/-- DWDT: the right key, with a time of 100 us, and a wrong one. -/
theorem witness_programs_control : ((0x5A000064 : BitVec 64) >>> 24).setWidth 8 = ((depRuns id).deps[(0 : Fin 2)]).wdtKey ∧
    ((0x5B000064 : BitVec 64) >>> 24).setWidth 8 ≠ ((depRuns id).deps[(0 : Fin 2)]).wdtKey ∧ ((depRuns id).deps[(0 : Fin 2)]).dfBusy = false ∧
    (0x4000100000 : BitVec 64).toNat / 2 ^ 32 % 2 ^ 21 = 64 ∧ (0x4000100000 : BitVec 64).toNat / 2 ^ 21 % 2 ^ 11 = 0 ∧ ((depRuns id).deps[(0 : Fin 2)]).imgLen ≤ 0x100000 ∧
    ((depRuns id).deps[(0 : Fin 2)]).rel ≠ true ∧ ((depRuns id).deps[(0 : Fin 2)]).dbgEn = false ∧ ((depRuns id).deps[(0 : Fin 2)]).pinTest = none := by decide

theorem test_dwdt : (after (.dwdt 0 0x5A000064) (depRuns id)).deps[(0 : Fin 2)].wdtKey = 0xA5 ∧ (after (.dwdt 0 0x5A000064) (depRuns id)).deps[(0 : Fin 2)].wdtTimeout = 100 ∧
    (after (.dwdt 0 0x5A000063) (depRuns id)).deps[(0 : Fin 2)].wdtTimeout = 10000 := by decide

theorem test_report : (after (.dreport 0 0x6F00000000000005) (depRuns id)).saf.raised.map (fun (r : ErrRec) => (r.cat, r.info)) = [(0x7F, 5)] := by decide +kernel

def fetching : State := { depRuns (fun x => { x with dfBusy := true, fetch := some (hubBase, 64, 0x100000) }) with mem := [(hubBase + 1, 0x55)] }

theorem test_fetch_done : memGet ((after (.observerFetchDone 0) fetching).deps[(0 : Fin 2)]).sram 0x100001 = 0x55 ∧
    ((after (.observerFetchDone 0) fetching).deps[(0 : Fin 2)]).dfBusy = false := by decide +kernel

theorem test_pintest : (after (.dctrlPintest 0) (depRuns fun x => { x with ownDt := 7 })).deps[(0 : Fin 2)].pinTest = some 20007 := by decide

theorem witness_transmission : ((depRuns fun x => { x with rel := true, nextTx := some 0 }).deps[(0 : Fin 2)]).nextTx = some 0 ∧ (0 : BitVec 64).toNat ≤ 0 + 2000 := by decide

/-- Errors: one record raised; one in a deputy's inbox. -/
def aRec (c : BitVec 8) : ErrRec := { dt := 0, cat := c, origin := 0, src := 0, part := 0, info := 0 }

theorem witness_errors : ({ r0 with saf := { r0.saf with raised := [aRec 0x10] } }).saf.raised = [aRec 0x10] ∧ r0.hubAlive = true ∧
    ((depRuns fun x => { x with inbox := [aRec 0x43] }).deps[(0 : Fin 2)]).inbox = [aRec 0x43] ∧ ((depRuns id).deps[(0 : Fin 2)]).alive = true ∧
    ((depRuns id).deps[(0 : Fin 2)]).hbSeq ≠ r0.saf.hbSeq + 1 := by decide

theorem test_reaction : (after (.deputyErrorReaction 0) (depRuns fun x => { x with inbox := [aRec 0x43] })).deps[(0 : Fin 2)].rel = true ∧
    (after (.deputyErrorReaction 0) (depRuns fun x => { x with inbox := [aRec 0x44] })).deps[(0 : Fin 2)].rel = false ∧
    (after (.deputyErrorReaction 0) (depRuns fun x => { x with inbox := [aRec 0x44] })).deps[(0 : Fin 2)].pinHigh = false := by decide +kernel

theorem test_deputy_lost : (after (.deputyLost 1) { r0 with saf := { r0.saf with depHb := #v[none, some 0] }, tim := { r0.tim with dt := 100000 } }).saf.raised.map (fun (r : ErrRec) => r.cat) = [0x08] ∧
    (after (.deputyLost 1) { r0 with saf := { r0.saf with depHb := #v[none, some 0] }, tim := { r0.tim with dt := 99999 } }).saf.raised.map (fun (r : ErrRec) => r.cat) = [] := by decide

theorem witness_replay : ({ r0 with dbg := { r0.dbg with replay := [.halt] } }).dbg.replay = [RunAction.halt] := by decide

/-! ## Power, monitors, thermal management, the MP, wear -/

/-- The device after reset with the MP running, its dies cool and measured. -/
def powered (f : DiePwr → DiePwr) : State :=
  let s := (mpRuns id).modPwr fun p => { p with die := p.die.set 0 (f p.die[(0 : Fin 4)]), therm := Vector.replicate 5 { step := 0, hot := 0, unit := 0, temp := 40, readings := [40] } }
  s.modPwr fun p => { p with inlet := 300, coolFault := false }

theorem witness_tiers : (powered id).mayRaise 0 = true ∧ (powered fun x => { x with change := some (1, .raising false false) }).mayRaise 0 = false ∧
    ((powered fun x => { x with tier := 1 }).pwr.die[(0 : Fin 4)]).change = none ∧ (powered id).hubAlive = true ∧ (powered id).pwr.samples = [] ∧
    (26 : Nat) + 8 = 34 ∧ (0 : Nat) < (powered fun x => { x with tier := 1 }).pwr.die[(0 : Fin 4)].tier.toNat := by decide

theorem test_raise : (after (.tierRaise 0x100 0) (powered id)).pwr.die[(0 : Fin 4)].change = some (1, .raising false false) ∧
    (after (.tierRaise 0x100 0) (powered fun x => { x with tier := 2 })).pwr.denied = 1 := by decide

/-- The first 32 tiles of a die switch eight at a time; the fifth switch takes the last two and ends the change. -/
theorem test_switch : (after (.tierSwitch 0) (powered fun x => { x with change := some (1, .raising true true), switched := 24 })).pwr.die[(0 : Fin 4)].tier = 0 ∧
    (after (.tierSwitch 0) (powered fun x => { x with change := some (1, .raising true true), switched := 32 })).pwr.die[(0 : Fin 4)].tier = 1 := by decide

theorem witness_peak : ((powered fun x => { x with tier := 2, allowUs := 0 }).pwr.die[(0 : Fin 4)]).allowUs = 0 ∧
    200000 ≤ ((powered id).modPwr fun p => { p with peakUs := 200000 }).pwr.peakUs ∧ ((powered id).modPwr fun p => { p with creditUs := 0 }).pwr.creditUs = 0 ∧
    ((powered id).modPwr fun p => { p with peakLock := true, lockoutUs := 0 }).pwr.lockoutUs = 0 := by decide

theorem test_peak : (after .peakPeriodLimit ((powered fun x => { x with tier := 2 }).modPwr fun p => { p with peakUs := 200000 })).pwr.die[(0 : Fin 4)].change = some (1, .lowering false) ∧
    (after .peakPeriodLimit ((powered fun x => { x with tier := 2 }).modPwr fun p => { p with peakUs := 199999 })).pwr.die[(0 : Fin 4)].change = none := by decide

theorem witness_monitors : ((powered id).pwr.die[tileDie 33]).tier = 0 ∧ ((powered fun x => { x with tier := 1 }).pwr.die[tileDie 33]).tier ≠ 0 ∧
    713 * 100 ≥ 95 * 750 ∧ 712 * 100 < 95 * 750 ∧ 788 * 100 > 105 * 750 ∧ 787 * 100 ≤ 105 * 750 ∧
    ((powered id).pwr.tj.toNat : Int) = 115 ∧ (List.replicate 64 (40 : Int)).length = 64 ∧ ((powered id).pwr.therm[(0 : Fin 5)]).readings ≠ [] ∧
    (Island.mp, true) ∈ ((powered id).modPwr fun p => { p with badWindow := [(.mp, true)] }).pwr.badWindow ∧ (powered id).pwr.thermtrip = false := by decide

theorem test_voltage : (after (.voltageMonitorFault .hub 712) (powered id)).saf.raised.map (fun (r : ErrRec) => r.cat) = [0x31] ∧
    (after (.voltageMonitorFault .hub 713) (powered id)).saf.raised.map (fun (r : ErrRec) => r.cat) = [] := by decide

theorem test_clock : (after (.clockMonitorWindow .mp 1005001 false) (powered id)).pwr.badWindow = [(.mp, true)] ∧
    (after (.clockMonitorWindow .mp 1005000 false) (powered id)).pwr.badWindow = [] := by decide

/-- A hot die steps down; its sensor is the one of its unit. -/
def hotDie (t : Int) (k : BitVec 4) : State :=
  (powered id).modPwr fun p => { p with therm := p.therm.set 0 { step := k, hot := 0, unit := Config.sensorUnit 0 0, temp := t, readings := [t] } }

theorem witness_throttle : (((hotDie 115 1).pwr.tj.toNat : Int) ≤ ((hotDie 115 1).pwr.therm[(0 : Fin 5)]).temp) ∧ ((hotDie 112 2).pwr.therm[(0 : Fin 5)]).temp < 115 ∧
    1 < ((hotDie 112 2).pwr.therm[(0 : Fin 5)]).step.toNat := by decide

theorem witness_unit : unitTemp 0 (hotDie 112 2).pwr.therm[(0 : Fin 5)].readings (hotDie 112 2).pwr.therm[(0 : Fin 5)].unit = some 112 := by
  rw [show (hotDie 112 2).pwr.therm[(0 : Fin 5)].readings = [112] from rfl, show (hotDie 112 2).pwr.therm[(0 : Fin 5)].unit = Config.sensorUnit 0 0 from rfl]
  simp [unitTemp]

/-- 0x32 is entered when a die becomes too hot, and not again while it stays so. -/
theorem witness_overTemp : (powered id).overTemp 0 115 = true ∧ (powered id).overTemp 0 114 = false ∧
    (powered fun x => { x with tier := 1 }).overTemp 0 115 = false ∧ (powered fun x => { x with tier := 1 }).overTemp 0 125 = true ∧
    ((powered id).pwr.therm[(0 : Fin 5)]).tooHot = false ∧ readingsOf (List.replicate 64 130) 0 ≠ [] := by decide

theorem test_overTemp : (after (.thermalSample [115]) (powered id)).saf.raised.map (fun (r : ErrRec) => r.cat) = [0x32] ∧
    (after (.thermalSample [116]) (after (.thermalSample [115]) (powered id))).saf.raised.map (fun (r : ErrRec) => r.cat) = [0x32] := by decide

theorem test_inlet : (after (.coolantRead (.temp 650)) (powered id)).pwr.coolFault = false ∧ (after (.coolantRead (.temp 651)) (powered id)).pwr.coolFault = true := by decide

theorem test_thermtrip : ((after .thermtrip (powered id)).tiles[(135 : Fin 136)]).clocked = false ∧ (after .thermtrip (powered id)).saf.raised.map (fun (r : ErrRec) => r.cat) = [0x33] := by
  decide +kernel

theorem witness_mp : (powered id).mpGone = false ∧ (powered id).mp.run ≠ .faulted ∧ 2000000 ≤ ((2000000 : BitVec 64) - (powered id).pwr.mpKick).toNat ∧
    ((powered id).modPwr fun p => { p with mpAbsent := true }).pwr.mpAbsent = true ∧ Memory.wf (powered id).flash = true ∧
    (∀ (j : Fin 64), (withOp (anOp 0x12 .running (par 0 0 0)) r0).cmd.ops[j].all fun p => !p.internal) := by decide

theorem test_frame : (after (.mpMajorFrame 850 3) (powered id)).pwr.telemetry = 3 ∧ (after (.mpMajorFrame 851 3) (powered id)).pwr.telemetry = 0 ∧
    (after (.mpMajorFrame 851 3) (powered id)).pwr.skipped = 1 := by decide +kernel

theorem test_mp_restart : (after .mpRestartDone ((powered id).modPwr fun p => { p with mpAbsent := true })).mp.pc = 0x100 := by decide +kernel

def testing (st : TileState) : State := r0.modWear fun w => { w with tile := w.tile.set 5 { WearTile.reset with state := st, testing := true } }

theorem witness_tests : ((testing .untested).wear.tile[(5 : Fin 136)]).testing = true ∧ (testing .untested).lcOf 5 = none := by decide

theorem test_self_test : (after (.tileSelfTestDone 5 true) (testing .untested)).wear.tile[(5 : Fin 136)].state = .spare ∧
    (after (.tileSelfTestDone 5 false) (testing .untested)).wear.tile[(5 : Fin 136)].state = .retired := by decide

/-- Logical core 0 is to move from tile 0 to the spare tile 32; its program is loaded, and the core halted. -/
def migrating : State := (prog1 .loaded .halted).modWear fun w => { w with armed := [(0, some 32, none)] }

theorem witness_migration : migrating.tileOf 0 = some 0 ∧ migrating.wear.armed = [(0, some 32, none)] ∧ migrating.atStop 0 0 = true ∧
    (migrating.wear.tile[(32 : Fin 136)]).state = .spare ∧ migrating.prog.stopQ = none := by decide

theorem test_migration : (after (.migrationStop 0) { migrating with mem := [(localBase 0 + 5, 9)] }).tileOf 0 = some 32 ∧
    memGet (after (.migrationStop 0) { migrating with mem := [(localBase 0 + 5, 9)] }).mem (localBase 32 + 5) = 9 := by decide +kernel

theorem witness_die_loss : (r0.wear.die[(3 : Fin 4)]).lost = false ∧ r0.wear.armed = [] ∧ (∀ i : Fin 136, (r0.tiles[i]).seq.inTrap = false) := by decide +kernel

theorem test_die_lost : (after (.dieLost 3 .rail) r0).prog.epoch = 1 ∧ ((after (.dieLost 3 .rail) r0).wear.die[(3 : Fin 4)]).losses = 1 := by decide +kernel

theorem witness_ledger : (r0.wear.die[(0 : Fin 4)]).residue = [] ∧ ((powered id).pwr.therm[(0 : Fin 5)]).readings ≠ [] := by decide

theorem test_ledger : ((after .ledgerAoUpdate (powered id)).wear.ao.map (·.valid)) = some true ∧ (after .ledgerFlashWrite (powered id)).wear.flash.length = 1 := by decide +kernel

/-! ## Host, time, pins, calendar, gallery links -/

def timed (f : TimSt → TimSt) : State := r0.modTim f

/-- A CAN FD controller with a receive ring of four entries; it is enabled and has no filter. -/
def canOn : State :=
  r0.modIfc fun i => { i with can := i.can.set 3 { i.can[(3 : Fin 4)] with enabled := true, rxSize := 4, txSize := 1 } }

theorem witness_host : r0.hubAlive = true ∧ 0 < 4 ∧ (0x2FFFFFC : Nat) + 4 ≤ 0x3000000 ∧ (0x3000000 : Nat) + 4 ≤ 0x4000000 ∧
    (timed fun t => { t with src := 1 }).tim.src = 1 ∧ (999 : Int).natAbs < 1000 ∧ 1000000 < (-1000001 : Int).natAbs ∧
    ((timed fun t => { t with src := 2, dt := 1000001 }).tim.dt + 0).toInt.emod 1000000000 = 1000001 ∧
    (canOn.ifc.can[(3 : Fin 4)]).enabled = true ∧ canOn.fusionTakes 3 { id := 1, ext := false, data := [] } = false ∧ 0 < (canOn.ifc.can[(3 : Fin 4)]).txSize ∧
    r0.ifc.gpio.getLsbD (15 : Fin 16).val ≠ true := by decide +kernel

theorem test_host_read : (after (.hostRequest .bar0 0x300000 4 false []) r0).fab.ports.map (fun (r : Req) => (r.src, r.addr, r.len)) = [(0x130, 0x1F00300000, 4)] ∧
    (after (.hostRequest .bar0 0x3000000 4 false []) r0).ifc.hostResp = some ([0, 0, 0, 0], 0) := by decide +kernel

/-- Ten good seconds lock the servo (R490). -/
theorem test_servo : (after (.servoAdjust 999) (timed fun t => { t with src := 1, goodSec := 9 })).tim.locked = true ∧
    (after (.servoAdjust 999) (timed fun t => { t with src := 1, goodSec := 8 })).tim.locked = false ∧
    (after (.servoAdjust 1000001) (timed fun t => { t with src := 1, goodSec := 9 })).tim.ptpOffset = 1000001 := by decide +kernel

theorem test_pps : (after .ppsIn (timed fun t => { t with src := 2, dt := 5001000000 })).tim.ptpOffset = 0 ∧
    (after .ppsIn (timed fun t => { t with src := 2, dt := 5001000001 })).tim.ptpOffset = 0 - 1000001 ∧ (after .ppsOut (timed fun t => { t with dt := 99999999 })).ifc.ppsOut = true ∧
    (after .ppsOut (timed fun t => { t with dt := 100000000 })).ifc.ppsOut = false := by decide +kernel

theorem test_gpio : (after (.gpioEdge 15 true) (timed fun t => { t with dt := 77 })).ifc.gpioDt[(15 : Fin 16)] = 77 ∧
    (after (.gpioEdge 15 false) (timed fun t => { t with dt := 77 })).ifc.gpioDt[(15 : Fin 16)] = 0 := by decide +kernel

theorem test_pcie_reset : ((after .pcieReset (inHand (cmdE 1 (par 0 0 0)) r0)).cmd.q[(0 : Fin 16)]).enable = false := by decide +kernel

/-- The example of R509: 2100 is no leap year. -/
def calendar (c : CalTime) : State := (timed fun t => { t with live := c }).modBoot fun b => { b with valid := [.ao] }

theorem test_calendar : (after .calendarSecond (calendar { year := 100, month := 2, day := 28, hour := 23, minute := 59, second := 59, sub := 0 })).tim.live =
      { year := 100, month := 3, day := 1, hour := 0, minute := 0, second := 0, sub := 0 } ∧
    (after .calendarSecond (calendar { year := 199, month := 12, day := 31, hour := 23, minute := 59, second := 59, sub := 0 })).tim.calWrap = true := by decide +kernel

theorem witness_calendar : (calendar { CalTime.epoch with second := 58 }).boot.valid.contains .ao = true ∧ (58 : BitVec 6).toNat < 59 ∧
    r0.tim.stage.possible = true ∧ (timed fun t => { t with stage := { CalTime.epoch with month := 13 } }).tim.stage.possible = false := by decide +kernel

theorem test_commit : (after (.calCommit 0x100) (timed fun t => { t with stage := { CalTime.epoch with month := 2, day := 30 } })).tim.calErr = true ∧
    (after (.calCommit 0x100) (timed fun t => { t with stage := { CalTime.epoch with month := 2, day := 29 } })).tim.calValid = true := by decide +kernel

theorem witness_run_control : ((tile0 fun x => { x with seq := { Seq.reset .halted 8 with dbgHalt := true } }).tiles[(0 : Fin 136)]).seq.dbgHalt = true ∧
    r0.dbg.replay.length < 64 ∧ (r0.deps[(0 : Fin 2)]).dbgEn = false ∧ ((depRuns id).deps[(0 : Fin 2)]).state = .ready := by decide +kernel

theorem test_extest : (after (.jtagInstruction .extest) (depRuns id)).dbg.refused = true ∧ (after (.jtagInstruction .extest) r0).dbg.tap = .extest := by decide +kernel

/-- A link that is UP, with bytes received. -/
def linked (f : Link → Link) : State := r0.modLink 1 fun k => f { k with state := .up, locked := true, epoch := 3 }

/-- A read request with tag 0x1234 for two words at 0x40 of partition 2, class 5, and one byte of the next message. -/
def readMsg : List Byte := [1, 3, 0x34, 0x12, 9, 0, 0, 0x15, 0, 0, 0x40, 0, 0, 0, 0, 1, 0]

theorem witness_message : ((linked fun k => { k with stream := readMsg }).ifc.link[(1 : Fin 2)]).message.map (fun x => (x.1.typ, x.1.epoch, x.1.tag, x.2)) = some (1, 3, 0x1234, [0]) ∧
    (linked id).hubAlive = true ∧ ((linked id).ifc.link[(1 : Fin 2)]).epoch = 3 := by decide +kernel

theorem test_read_request : (after (.galleryReadRequest 1) (linked fun k => { k with stream := readMsg })).fab.ports.map
    (fun (r : Req) => (r.src, r.addr, r.len)) = [(0x139, 0x40, 16)] ∧
    (after (.galleryReadRequest 1) (linked fun k => { k with stream := readMsg })).fab.ports.map (fun (r : Req) => (r.part, r.cls, r.dl)) = [(2, 5, 9)] := by decide +kernel

theorem test_stale_message : (after (.gallerySignal 1) (linked fun k => { k with epoch := 4, stream := 5 :: readMsg.tail })).saf.raised.map (fun (r : ErrRec) => r.cat) = [0x53] := by decide +kernel

/-- An answer for a load of the MP that is out under tag 0x1234, and a signal's acknowledgement. -/
def answered (typ : Byte) (w : Bool) : State :=
  (loading.modSeq .mp fun q => { q with sigrs := [{ pd := 1, home := 4, n := 1, link := 1, tag := 0x1234, epoch := 3, result := none }] }).modLink 1 fun k =>
    { k with state := .up, locked := true, epoch := 3, out := [(0x1234, aReq 0x100 w 0x40 0)], stream := [typ, 3, 0x34, 0x12, 0, 0, 0, 0, 0, 0, 0, 0, 0, 0, 0, 0, 7, 0, 0, 0, 0, 0, 0, 0] }

theorem witness_answers : ((answered 3 false).ifc.link[(1 : Fin 2)]).out = [(0x1234, aReq 0x100 false 0x40 0)] ∧
    ((answered 3 false).seq .mp).ldWait.isSome = true ∧ (answered 6 false).mp.sigrs.map (·.tag) = [0x1234] ∧ (answered 4 true).hubAlive = true := by decide +kernel

theorem test_answers : (after (.galleryReadResponse 1) (answered 3 false)).mp.ldWait.map (·.resp) = some (some (.data 7)) ∧
    (after (.galleryWriteAck 1) (answered 4 true)).mp.stAck = 1 ∧ (after (.gallerySignalAck 1) (answered 6 false)).mp.sigrs.map (·.result) = [some true] := by decide +kernel

/-- A frame of SEQ 0 whose payload is 244 bytes of 0, from a descrambler at rest; both check values worked out apart. -/
def frame0 : List Byte := [0xE4, 0xD7, 0x1B, 0x28, 0, 0, 0x60, 0xF9] ++ (List.replicate 244 0 ++ [0xCD, 0x31, 0x9D, 0x13])

theorem descr_append (r : BitVec 58) (a b : List Byte) : descrBytes r (a ++ b) =
    ((descrBytes (descrBytes r a).1 b).1, (descrBytes r a).2 ++ (descrBytes (descrBytes r a).1 b).2) := by
  induction a generalizing r with
  | nil => rfl
  | cons x a ih => simp [descrBytes, ih]

theorem descr_zeros (n : Nat) : descrBytes 0 (List.replicate n 0) = (0, List.replicate n 0) := by
  induction n with
  | zero => rfl
  | succ n ih =>
    rw [List.replicate_succ, descrBytes, show descrByte 0 0 = (0, 0) from by decide]
    simp only [ih]

theorem witness_frame : frame0.length = 256 ∧ galHit (frame0.take 8) = true ∧
    (descrBytes (linked id).ifc.link[(1 : Fin 2)].descr (frame0.drop 8)).2 = List.replicate 244 0 ++ [0xCD, 0x31, 0x9D, 0x13] := by
  refine ⟨by decide +kernel, by decide +kernel, ?_⟩
  rw [show (linked id).ifc.link[(1 : Fin 2)].descr = 0 from rfl, show frame0.drop 8 = List.replicate 244 0 ++ [0xCD, 0x31, 0x9D, 0x13] from rfl, descr_append, descr_zeros]
  show List.replicate 244 (0 : Byte) ++ (descrBytes 0 [0xCD, 0x31, 0x9D, 0x13]).2 = _
  rw [show (descrBytes 0 [0xCD, 0x31, 0x9D, 0x13]).2 = [0xCD, 0x31, 0x9D, 0x13] from by decide +kernel]

theorem witness_frame_check : leAt (List.replicate 244 (0 : Byte) ++ [0xCD, 0x31, 0x9D, 0x13]) 244 4 = crc32c ((List.replicate 244 (0 : Byte) ++ [0xCD, 0x31, 0x9D, 0x13]).take 244) ∧
    BitVec.ofNat 16 (leAt frame0 4 2) = ((linked id).ifc.link[(1 : Fin 2)]).rxSeq ∧
    BitVec.ofNat 16 (leAt frame0 4 2) = ((linked fun k => { k with rxSeq := 1 }).ifc.link[(1 : Fin 2)]).rxSeq - 1 := by
  rw [crc32c_forced]; decide +kernel

theorem witness_links : galHit [] = false ∧ ((linked fun k => { k with badHdr := 3 }).ifc.link[(1 : Fin 2)]).badHdr = 3 ∧ (r0.modBoot fun b => { b with stage := .ready }).galleryOn = true ∧
    (r0.ifc.link[otherLink 1]).state = .down ∧ ((linked fun k => { k with state := .lost, retryAt := some 9 }).ifc.link[(1 : Fin 2)]).retryAt = some 9 ∧
    (∀ i : Fin 136, (r0.tiles[i]).seq.sigrs = []) ∧ loading.mp.sigrs = [] ∧
    (∀ j, j < 4 → galHit (((List.replicate 4 (frame0.take 8 ++ List.replicate 248 0)).flatten.drop (0 + 256 * j)).take 8) = true) := by decide +kernel

theorem test_link_times : ((after (.linkRetryTimeout 1) ((linked fun k => { k with state := .lost, retryAt := some 9 }).modTim fun t => { t with dt := 9 })).ifc.link[(1 : Fin 2)]).state = .down ∧
    ((after (.linkRetryTimeout 1) ((linked fun k => { k with state := .lost, retryAt := some 9 }).modTim fun t => { t with dt := 8 })).ifc.link[(1 : Fin 2)]).state = .lost := by decide +kernel

/-! ## Rails, resets, stages -/

/-- Every rail but the hub's is valid. -/
def railed (f : BootSt → BootSt) : State := r0.modBoot fun b => f { b with valid := [.ao, .phy, .vddq, .io18, .cd 0, .cd 1, .cd 2, .cd 3], started := false }

theorem witness_rails : (railed id).boot.started = false ∧ (railed id).boot.porstLow = false ∧ (∀ r, r ∈ hubRails → r ≠ .hub → r ∈ (railed id).boot.valid) ∧
    Rail.hub ∉ (railed id).boot.valid ∧ ((railed fun b => { b with porstLow := true, valid := b.valid ++ [.hub] }).boot.porstLow) = true ∧
    (∀ r ∈ hubRails, r ∈ (railed fun b => { b with porstLow := true, valid := b.valid ++ [.hub] }).boot.valid) ∧ r0.boot.wrstLow = false ∧ r0.hubAlive = true ∧
    r0.boot.started = true := by decide +kernel

theorem test_last_rail : (after (.railValid .hub) (railed id)).boot.started = true ∧ (after (.railValid .hub) (railed fun b => { b with valid := b.valid.tail })).boot.started = false := by
  decide +kernel

def obs : StageObs :=
  { lanes := [], fwOk := true, fwMaj := 1, fwMin := 2, lampOk := true, tilesBad := [], diesBad := [], chBad := [7], bins := [(0, 4)], patBad := [1] }

def staged (g : Stage) : State := r0.modBoot fun b => { b with stage := g }

theorem witness_stages : (staged .crosscuts).hubAlive = true ∧ (staged .failed).boot.stage = .failed ∧ obs.lampOk = true ∧ { obs with fwOk := false }.fwOk = false := by decide

theorem test_dram_stage : (after (.startupStage obs) (staged .map)).boot.stage = .dram ∧ (after (.startupStage obs) (staged .map)).dmc.inserv = 0x3FFF := by decide +kernel

theorem test_firmware_stage : (after (.startupStage { obs with fwOk := false }) (staged .crosscuts)).boot.stage = .failed ∧
    (after (.mpFirmwareRetry true) (staged .failed)).mp.pc = 0x100 := by decide +kernel

theorem test_warm_reset : (after (.wrstN true) (timed fun t => { t with dt := 99 })).tim.dt = 99 ∧ (after (.porstN true) (timed fun t => { t with dt := 99 })).tim.dt = 0 := by decide +kernel

theorem witness_deputy_pins : (r0.deps[(0 : Fin 2)]).rstLow ≠ !(r0.deps[(0 : Fin 2)]).rstLow ∧ ((dep id).deps[(0 : Fin 2)]).railOk = true := by decide +kernel

/-! ## The generator of R332 -/

/-- The values were worked out from the rule apart from this model. -/
theorem test_generator : gen 0 0 0 = 0x56F9F977C16E2439 ∧ gen 0 0 1 = 0x48F6FE76DE722522 := by decide +kernel

/-- CRC-32C and CRC-16 of the nine bytes "123456789", as the catalogues of these codes give them. -/
theorem test_crc : crc32c [0x31, 0x32, 0x33, 0x34, 0x35, 0x36, 0x37, 0x38, 0x39] = 0xE3069283 ∧
    crcValue hcrcParam [0x31, 0x32, 0x33, 0x34, 0x35, 0x36, 0x37, 0x38, 0x39] = 0x29B1 := by decide +kernel

/-! ## Well-formed commands: for each check a command that it refuses, beside one at its bound that it takes -/

theorem wf_upset : (Instr.patrolScrub 0 []).wf = true ∧ okUps 0 [] = true := by decide

theorem wf_csr : (Instr.loReadCapture 0x100 0x2FFFFFC).wf = true ∧ (Instr.loReadCapture 0x100 0x3000000).wf = false ∧ (Instr.registerWrite 0x100 0x102 0).wf = false := by decide

theorem wf_host_writes : (Instr.cmdSqTail 0x130 0 0 [(2 ^ 64 - 1, 0)]).wf = true ∧ (Instr.cmdSqTail 0x130 0 0 [(2 ^ 64, 0)]).wf = false := by decide

theorem wf_lanes : (Instr.laneRepair 0 true [(1, 2), (67, 3)]).wf = true ∧ (Instr.laneRepair 0 true [(1, 2), (1, 3)]).wf = false := by decide

theorem wf_csi : (Instr.csi2Packet 0 { vc := 0, dt := 0x10, ecc := .ok, body := .line [] true false }).wf = true ∧
    (Instr.csi2Packet 0 { vc := 0, dt := 0x0F, ecc := .ok, body := .line [] true false }).wf = false ∧ (Instr.csi2Packet 0 { vc := 0, dt := 0x10, ecc := .ok, body := .frameEnd }).wf = false := by decide

theorem wf_eth : (Instr.ethFrameRx 0 { gptp := false, udp := true, dstPort := 0xFFFF, checksumOk := true, payload := [] }).wf = true ∧
    (Instr.ethFrameRx 0 { gptp := false, udp := true, dstPort := 0x10000, checksumOk := true, payload := [] }).wf = false := by decide

theorem wf_can : (Instr.canFrameRx 0 { id := 0x7FF, ext := false, data := List.replicate 12 0 }).wf = true ∧
    (Instr.canFrameRx 0 { id := 0x800, ext := false, data := [] }).wf = false ∧ (Instr.wheelFrame 0 { id := 1, ext := true, data := List.replicate 9 0 }).wf = false := by decide

theorem wf_host : (Instr.hostRequest .bar0 0x3FFFFFC 4 true [1, 2, 3, 4]).wf = true ∧ (Instr.hostRequest .bar0 0x3FFFFFD 4 true [1, 2, 3, 4]).wf = false ∧
    (Instr.hostRequest .bar0 0 4 true [1]).wf = false := by decide

theorem wf_frame : (Instr.galleryFrameRx 0 frame0).wf = true ∧ (Instr.galleryFrameRx 0 []).wf = false := by decide +kernel

theorem wf_run : (Instr.runControl .mp (.breakpoint 0 (some 8))).wf = true ∧ (Instr.runControl .mp (.breakpoint 0 (some 4))).wf = false := by decide

theorem wf_obs : (Instr.startupStage obs).wf = true ∧ (Instr.startupStage { obs with bins := [(7, 4)] }).wf = false := by decide

/-! ## The worked examples of the spec -/

/-- The FP8 E4M3 dot product (04's worked example): two cores' partials, and their sum. -/
def e4m3 (l : List (Nat × Nat)) : AccEntry := (tmulEntry .f0 AccEntry.cleared (l.map fun x => fmtVal 6 x.1) (l.map fun x => fmtVal 6 x.2) [] []).1

theorem example_e4m3_sum : (accMerge (e4m3 [(0x7E, 0x7E), (0x01, 0x01)]) (e4m3 [(0xFE, 0x7E), (0x01, 0x01)])).1.a = 0x800000000000 ∧
    (e4m3 [(0x7E, 0x7E), (0x01, 0x01), (0xFE, 0x7E), (0x01, 0x01)]).a = 0x800000000000 := by decide +kernel

/-- Its output in FP32, FP16 and FP8 E4M3, round to nearest even. -/
theorem example_e4m3_out : toFmt 10 0 false (.fin false 1 (-17)) = (0x37000000, 0) ∧ toFmt 8 0 false (.fin false 1 (-17)) = (0x0080, 0) ∧
    (toFmt 6 0 false (.fin false 1 (-17))).1 = 0 ∧ (toFmt 6 0 false (.fin false 1 (-17))).2 = flUnderflow ||| flRounded := by decide +kernel

/-- The block-scaled FP4 reduction, in both orders of its blocks. -/
def fp4 (l : List (Nat × Nat × Nat × Nat)) : AccEntry × Bool :=
  l.foldl (fun r x => let y := blockFS r.1 x.1 x.2.1 [((fmtVal 4 x.2.2.1).mul (fmtVal 4 x.2.2.2)).1]; (y.1, r.2 || y.2)) (AccEntry.cleared, false)

theorem example_fp4 : (fp4 [(0x7F, 0x81, 0x7, 0xB), (0x6A, 0x7F, 0x1, 0x1)]).1.a = 0xFFFFFFFFFFFFFFFFF700000080000000 ∧
    (fp4 [(0x6A, 0x7F, 0x1, 0x1), (0x7F, 0x81, 0x7, 0xB)]).1.a = 0xFFFFFFFFFFFFFFFFF700000080000000 ∧
    (fp4 [(0x6A, 0x7F, 0x1, 0x1), (0x7F, 0x81, 0x7, 0xB)]).2 = false := by decide +kernel

theorem example_fp4_out : (toFmt 10 0 false (accVal (fp4 [(0x7F, 0x81, 0x7, 0xB), (0x6A, 0x7F, 0x1, 0x1)]).1)) = (0xC2100000, flRounded) ∧
    (toFmt 10 2 false (accVal (fp4 [(0x7F, 0x81, 0x7, 0xB), (0x6A, 0x7F, 0x1, 0x1)]).1)) = (0xC20FFFFF, flRounded) := by decide +kernel

/-- ATT.ACCEPT of the example takes three drafts. -/
theorem example_accept : acceptK [17, 902, 44, 44, 5, 61, 8, 3] [902, 44, 44, 7, 5, 0, 1, 2] 7 0 = 3 := by decide +kernel

/-- The merge of two attention states, and VRCP and VMUL of its result. -/
theorem example_merge : exp2Diff 0 0x40400000 0x40A00000 = (0x3E800000, 0) ∧ (funcVal .rcp 10 0 false 0x3FD00000).1 = 0x3F1D89D9 ∧
    (laneOp .mul 10 0 false 0x3F200000 0x3F1D89D9 0).1 = 0x3EC4EC4F ∧ (laneOp .mul 10 0 false 0x3FE00000 0x3F1D89D9 0).1 = 0x3F89D89E := by decide +kernel

/-- The draws of the generator's two vectors, as a variant's parameters. -/
theorem example_draws : genParam (table 144 [(100, 16), (101, 8), (103, 0x80), (104, 0x9A), (105, 3), (106, 0x66), (107, 4), (108, 0x33), (109, 3), (110, 0xCD), (111, 4), (112, 51)]) 0 0 =
    { flip := true, dx := 8, dy := 8, scale := 991, gain := 878, bias := 38 } := by decide +kernel

/-! ## A calibration set -/

/-- MAGIC, VERSION 1 and a WCOUNT that brings the CRC register to 0; all bytes behind it are 0, so that the CRC is 0xFFFFFFFF. -/
def calHead : List Byte := [0x56, 0x43, 0x41, 0x4C, 1, 0, 0, 0, 0x37, 0xC0, 0x74, 0xB2] ++ List.replicate 48 0

def calBytes : List Byte := (calHead ++ [0xFF, 0xFF, 0xFF, 0xFF]) ++ List.replicate 9216 0

theorem zeros_keep_register (n : Nat) : crcFold crc32cParam 0 (List.replicate n 0) = 0 := by
  induction n with
  | zero => rfl
  | succ n ih => rw [List.replicate_succ, crcFold, List.foldl_cons, show crcByte crc32cParam 0 0 = 0 from by decide +kernel]; exact ih

theorem crcFold_append (c : CrcParam) (r : Nat) (a b : List Byte) : crcFold c r (a ++ b) = crcFold c (crcFold c r a) b := List.foldl_append

theorem cal_crc : calCrc calBytes = 0xFFFFFFFF := by
  have h1 : sub calBytes 0 0x3C = calHead := by
    rw [sub, calBytes, List.append_assoc]
    exact List.take_left' (by decide)
  have h2 : sub calBytes 0x40 0x2400 = List.replicate 9216 0 := by
    rw [sub, calBytes, List.drop_left' (by decide)]
    exact List.take_of_length_le (Nat.le_of_eq List.length_replicate)
  have h3 : crcFold crc32cParam crc32cParam.init calHead = 0 := by rw [← forceFold_is_fold]; decide +kernel
  rw [calCrc, h1, h2, crc32c, crcValue, crcFold_append, h3, zeros_keep_register]
  decide +kernel

theorem witness_cal : calOk calBytes = true := by
  have h : calBytes.length = 9280 := by
    have h0 : (calHead ++ ([0xFF, 0xFF, 0xFF, 0xFF] : List Byte)).length = 64 := by decide
    rw [calBytes, List.length_append, List.length_replicate, h0]
  have h3 : u32 calBytes 0x3C = 0xFFFFFFFF := by decide +kernel
  have h4 : (u32 calBytes 0 == 0x4C414356 && u16 calBytes 4 == 1 && zeros calBytes 6 2 && zeros calBytes 0xC 0x30) = true := by decide +kernel
  simp only [calOk, calCrcOk, h, h3, cal_crc]
  simpa only [calSize, BEq.rfl, Bool.and_true, Bool.true_and] using h4

/-- The host's memory with that set at 0. -/
def calHost : Mem :=
  [(0, 0x56), (1, 0x43), (2, 0x41), (3, 0x4C), (4, 1), (8, 0x37), (9, 0xC0), (10, 0x74), (11, 0xB2), (60, 0xFF), (61, 0xFF), (62, 0xFF), (63, 0xFF)]

theorem memGet_above (m : Mem) (x : Nat) (h : ∀ c ∈ m, c.1 < x) : memGet m x = 0 := by
  induction m with
  | nil => rfl
  | cons c m ih =>
    have hc : c.1 < x := h c List.mem_cons_self
    have hm : memGet m x = 0 := ih fun d hd => h d (List.mem_cons_of_mem c hd)
    simp only [memGet, tabGet]
    rw [if_neg (by omega), if_neg (by omega)]
    exact hm

theorem calHost_beyond (i : Nat) : memGet calHost (64 + i) = 0 :=
  memGet_above _ _ fun c hc => Nat.lt_of_lt_of_le ((by decide : ∀ c ∈ calHost, c.1 < 64) c hc) (Nat.le_add_right 64 i)

/-- CAL_WRITE of that set, which lies in both areas of the boot flash. -/
def calState : State :=
  let areas := calHost.map (fun c => (0x700000 + c.1, c.2)) ++ calHost.map fun c => (0x704000 + c.1, c.2)
  inHand (cmdE 0x19 (par 0 9280 0)) { r0 with hostMem := calHost, flash := areas }

theorem witness_cal_host : calState.hostGet 0 9280 = calBytes := by
  have h0 : List.range 9280 = List.range 64 ++ (List.range 9216).map (64 + ·) := List.range_add (n := 64) (m := 9216)
  have h1 : ((List.range 9216).map fun i => memGet calHost (0 + (64 + i))) = List.replicate 9216 0 := by
    rw [List.eq_replicate_iff]
    refine ⟨by rw [List.length_map, List.length_range], fun b hb => ?_⟩
    obtain ⟨i, -, rfl⟩ := List.mem_map.1 hb
    rw [Nat.zero_add]
    exact calHost_beyond i
  have h2 : ((List.range 64).map fun i => memGet calHost (0 + i)) = calHead ++ [0xFF, 0xFF, 0xFF, 0xFF] := by decide +kernel
  show ((List.range 9280).map fun i => memGet calHost (0 + i)) = _
  rw [h0, List.map_append, List.map_map, h2]
  exact congrArg _ h1

theorem cal_counts : calWcountOf (calAt calState 0x700000) = calWcountOf calBytes ∧ calWcountOf (calAt calState 0x704000) = calWcountOf calBytes ∧
    calWcountOf (calAt r0 0x700000) = 0 ∧ calWcountOf (calAt r0 0x704000) = 0 ∧ calWcountOf calBytes ≠ 0 ∧ calOk [] = false := by decide +kernel

theorem witness_cal_area : calWcountOf calState.calSet = calWcountOf calBytes ∧ calWcountOf calBytes ≠ calWcountOf r0.calSet ∧ calOk [] = false := by
  obtain ⟨a, b, c, d, e, f⟩ := cal_counts
  refine ⟨?_, ?_, f⟩
  · unfold State.calSet State.calArea; dsimp only; split
    · exact b
    · exact a
  · unfold State.calSet State.calArea; dsimp only; split
    · rw [d]; exact e
    · rw [c]; exact e

/-! ## Witnesses of further clauses: processors -/

/-- Executes and SpaceClean need a fetch and stores without errors. -/
theorem witness_fetch_clean : (mpRuns id).fetchErr .mp = none ∧ (coreRuns id).fetchErr (.core 0) = none ∧ (mpRuns id).mp.inTrap = false := by decide

def pendAt (k : Nat) (c : BitVec 8) : TrapReq := { cause := c, deferred := true, eaddr := 1, epc := 0, ord := k }

/-- TrapsEnterAndReturn: a deferred error before and behind the deferred trap that waits. -/
theorem witness_deferred : (∀ x, (mpRuns fun q => { q with deferred := some (pendAt 2 0x0B), pend := some (pendAt 5 0x07) }).mp.pend = some x →
      x.deferred = false ∨ (pendAt 2 0x0B).ord < x.ord) ∧ (pendAt 5 0x07).ord ≤ (pendAt 5 0x0B).ord ∧
    (mpRuns id).tmulPending .mp = false ∧ (coreRuns id).tmulPending (.core 0) = false :=
  ⟨fun x h => Or.inr (by injection h with h; subst h; decide), by decide, by decide, by decide⟩

/-- Of two deferred errors the one that comes first in program order is kept, whichever waits (R124). -/
theorem test_deferred_order :
    ((after (.deferredTrap .mp) (mpRuns fun q => { q with deferred := some (pendAt 2 0x0B), pend := some (pendAt 5 0x07) })).mp.pend.map
      fun (x : TrapReq) => (x.cause, x.ord)) = some (0x0B, 2) ∧
    ((after (.deferredTrap .mp) (mpRuns fun q => { q with deferred := some (pendAt 5 0x0B), pend := some (pendAt 2 0x07) })).mp.pend.map
      fun (x : TrapReq) => (x.cause, x.ord)) = some (0x07, 2) := by decide

/-- ResponsesComplete: an error response of a store that comes before, and one that comes after, the deferred trap that waits. -/
theorem witness_st_errors : let q := (mpRuns fun q => { q with stErr := [(7, 8, 3)], postedSt := 1, pend := some (pendAt 5 0x0B) }).mp
    q.stErr = [(7, 8, 3)] ∧ q.ldWait = none ∧ q.wait = none ∧ q.inTrap = false ∧ 3 < (pendAt 5 0x0B).ord ∧ (pendAt 5 0x0B).ord ≤ 9 := by decide

theorem test_st_error_order :
    ((after (.stErrorResponse .mp) (mpRuns fun q => { q with stErr := [(7, 8, 3)], postedSt := 1, pend := some (pendAt 5 0x0B) })).mp.pend.map
      fun (x : TrapReq) => (x.cause, x.eaddr)) = some (7, 8) ∧
    ((after (.stErrorResponse .mp) (mpRuns fun q => { q with stErr := [(7, 8, 9)], postedSt := 1, pend := some (pendAt 5 0x0B) })).mp.pend.map
      fun (x : TrapReq) => (x.cause, x.eaddr)) = some (0x0B, 1) := by decide

/-- DmaDescriptorsIssueAndComplete: a finished descriptor at 0x40 that asks for its status word. -/
def descStatus : DmaSlot := { desc0 with addr := 0x40, bad := true, statusEn := true, tally := 5 }

theorem witness_dma_status : descStatus.finished = true ∧ descStatus.statusEn = true ∧ descStatus.addr % 64 = 0 ∧
    descStatus.addr + 64 ≤ localSpace .mp ∧ Memory.wf ((mpRuns id).spaceStore .mp) = true ∧ (mpRuns id).spaceErrs .mp = [] := by decide

theorem test_dma_status :
    let s := (mpRuns id).setDma .mp 0 (some descStatus)
    (after (.dmaDescriptorComplete .mp 0) s).spaceByte .mp 0x78 = BitVec.ofNat 8 descStatus.status ∧
    descStatus.status ≠ 0 ∧ (after (.dmaDescriptorComplete .mp 0) s).dmaOf .mp 0 = none := by decide

/-- WaitsAndRemoteSignals: fewer than four SIGR outstanding. -/
theorem witness_sigr_room : (mpRuns id).mp.sigrs.length < 4 ∧ linkUp.mp.sigrs.length < 4 := by decide

/-! ## Witnesses of further clauses: tensor and vector instructions -/

/-- TmulAccumulates: a TMUL that waits while the columns come up, and an entry in another frame. -/
def tmulRising : State := coreT.modTile 0 fun x =>
  { x with array := .rising, tmulWait := some { enc := enc 0, desc := ext1 0x800100200, at_ := (0, 0, 0, 0) } }

theorem witness_tmul_wait : let x := tmulRising.tiles[(0 : Fin 136)]
    x.array = .rising ∧ x.tmulWait.isSome = true ∧ x.seq.run = .running ∧ x.seq.pend = none ∧ x.seq.deferred = none ∧
    (accGet x 0 0 0).frame = .empty ∧ ¬ (Frame.fb = .empty ∨ Frame.fb = .f0) ∧ tFld (enc 0) 17 7 + (tFld (enc 0) 24 7 + 1) ≤ 128 := by decide

theorem test_tmul_wait : ((after (.arrayPowerUpDone 0) tmulRising).tiles[(0 : Fin 136)]).tmulWait = none ∧
    ((after (.arrayPowerUpDone 0) tmulRising).tiles[(0 : Fin 136)]).seq.pc = 0x108 := by decide +kernel

/-- The sum of a product count past 2^28 sets RANGE even where it wraps (R51, R57). -/
theorem test_count_wraps :
    let x := addCount { (coreT.tiles[(0 : Fin 136)]) with rowCount := [(0, 0x3FFFFFC0)] } 0 0 64
    x.aflags = flRange ∧ tabGet 0 x.rowCount 0 = 0 := by decide

/-- ImageOperatorsWriteSegments: imgFmts for ta, a segment without outputs, and the window that a VDW leaves. -/
theorem witness_segments : segLen 1 (ext1 0x800100200) 1 = 0 ∧ segLen 1 (ext1 0x800100200) 0 ≠ 0 ∧
    descChecks [(imgUse vectorFmts, ext1 0x800100200), (imgUse imgFmts, ext1 0x800100200), (imgUse [1], ext1 0x800100200)] = none ∧
    imgFmts.contains 3 = false ∧ vectorFmts.contains 3 = true := by decide

/-- Row 1 of the window is kept by a VDW one row further down of the same register, and by no other (R167). -/
theorem test_kept_rows : let w : DwWin := { ta := 3, at_ := (0, 4, 2, 0), g := 1, rows := [(4, [7]), (5, [9])], kernel := [1] }
    (keptRows (some w) 3 (0, 5, 2, 0) 1 1).length = 2 ∧ keptRows (some w) 3 (0, 6, 2, 0) 1 1 = [] ∧ keptRows (some w) 4 (0, 5, 2, 0) 1 1 = [] ∧
    keptRows none 3 (0, 5, 2, 0) 1 1 = [] := by decide

/-- MergeAndAccept: a NaN for a maximum. -/
theorem witness_merge_nan : (fmtVal 10 (fmtNan 10)).isNan = true := by decide

/-- KvRecordsGrowAndShrink: a record out of line, and one that is not valid. -/
theorem witness_kv_bad : (0x401 : BitVec 64).toNat % 64 ≠ 0 ∧ localSize < (0xBFFFF : BitVec 64).toNat + 64 ∧
    kvRecBad (List.replicate 64 0) = true := by decide

theorem test_kvtrim_bad : ((after (.kvtrim (.core 0) (enc 0)) coreT).tiles[(0 : Fin 136)]).seq.deferred.map
    (fun (x : TrapReq) => (x.cause, x.eaddr, x.epc)) = some (0x0B, 0, 0x108) := by decide

/-! ## Witnesses of further clauses: tallies and commands -/

/-- SignalsAreApplied: a barrier tally of two at home 9, one core of which has arrived. -/
def barTally (k : BitVec 8) : State :=
  { r0 with tly := { r0.tly with tab := [(9, { Tally.off with mode := .counting, barrier := some { k := k, threshold := 0, arrived := 1, lastLc := 0, lag := 0, lastDt := 4, cores := [0] } })] } }

theorem witness_barrier : ((barTally 2).tally 9).mode = .counting ∧ ((barTally 2).tally 9).barrier.isSome = true ∧
    (barTally 2).homeAllowed ((barTally 2).tally 9) 9 0x02 0 true = true ∧ (0x02 : Src).toNat % 2 = 0 ∧ tabWf Tally.off (barTally 2).tly.tab = true := by decide

/-- The second arrival completes a round of two, and not one of three (R211). -/
theorem test_barrier :
    (((after (.tallySignalApply 0) (queued (barTally 2) (.sig 9 0x02 0 1 false none))).tally 9).barrier.map fun b => (b.arrived, b.lastLc)) = some (0, 1) ∧
    (((after (.tallySignalApply 0) (queued (barTally 3) (.sig 9 0x02 0 1 false none))).tally 9).barrier.map fun b => b.arrived) = some 2 := by decide

/-- WaitsAreGrantedInOrder: what a home does not cover, what it refuses, and a core that waits with the tag. -/
def waitingCore : State :=
  let w : WaitSt := { tag := 3, home := 5, n := 1, deadline := none, pd := 2, outcome := .pending, withdrawn := false }
  let s := spareState.modTile 0 fun x => { x with seq := { Seq.reset .waiting 0x100 with wait := some w } }
  s.modTly fun y => { y with tab := [(5, { Tally.off with mode := .counting })], queue := y.queue.set 0 [.wait 5 0 0 3 1 none true false] }

theorem witness_waits_core : waitingCore.procOf 0 = some (.core 0) ∧ ((waitingCore.tiles[(0 : Fin 136)]).seq.wait.map (·.tag)) = some 3 ∧
    (waitingCore.tally 5).count.toNat < (1 : BitVec 8).toNat ∧ waitingCore.homeAllowed (waitingCore.tally 5) 5 0 0 false = true ∧
    (waitingCore.tally 7).mode = .disabled ∧ waitingCore.grantDue 0 = false ∧ isCore (.core 0) = true := by decide

/-- A poll that is not covered times out, and its core joins its die's release (R138, R210). -/
theorem test_wait_poll : (((after (.tallyWaitApply 0) waitingCore).tiles[(0 : Fin 136)]).seq.wait.map (·.outcome)) = some .timedOut ∧
    ((after (.tallyWaitApply 0) waitingCore).tly.wake)[(0 : Fin 4)] = [0] ∧ ((after (.tallyWaitApply 0) waitingCore).tally 5).waiters = [] := by decide

/-- A wait on a disabled tally is refused and entered (R200). -/
theorem test_wait_refused :
    let s := waitingCore.modTly fun y => { y with queue := y.queue.set 0 [.wait 7 0 0 3 1 none false false] }
    (((after (.tallyWaitApply 0) s).tiles[(0 : Fin 136)]).seq.wait.map (·.outcome)) = some .refused ∧
    (after (.tallyWaitApply 0) s).saf.raised.map (fun (r : ErrRec) => (r.cat, r.src)) = [(0x23, 0)] := by decide

/-- WaitersLeaveAndTilesWake: a withdrawal of a wait that is in the list, and of one that is not; a refused wait. -/
theorem witness_withdrawn : (∃ w ∈ (expiring.tally 5).waiters, w.tag = 3) ∧ (∀ w ∈ (expiring.tally 5).waiters, w.tag ≠ 4) :=
  ⟨⟨_, List.mem_singleton.mpr rfl, rfl⟩, fun w h => by
    have : w = { src := 0x100, tag := 3, n := 1, deadline := some 0 } := List.mem_singleton.mp h
    subst this; decide⟩

def wakingTo (o : WaitOutcome) : State := (waking 0).modTile 0 fun x => { x with seq := { x.seq with wait := x.seq.wait.map fun w => { w with outcome := o } } }

theorem test_wake_outcomes :
    readPred ((after (.tileWake 0) (wakingTo .timedOut)).tiles[(0 : Fin 136)]).seq 2 = false ∧
    readPred ((after (.tileWake 0) (wakingTo .granted)).tiles[(0 : Fin 136)]).seq 2 = true ∧
    (((after (.tileWake 0) (wakingTo .refused)).tiles[(0 : Fin 136)]).seq.pend.map (·.cause)) = some 0x08 := by decide

/-- LongCommandsAreAccepted: the rows' conditions hold and fail. -/
theorem witness_rows : ¬ ((0x1001 : Nat) % 4096 = 0) ∧ (0 : Nat) < 256 ∧ ¬ (256 < 256) ∧ (11 : Nat) < 12 ∧ ¬ (12 < 12) ∧
    (inState .running).prog.img.snapRate = 0 ∧ (inState .loaded).prog.state = .loaded ∧ (3 : BitVec 64).toNat ≤ 3 := by decide

def fullOps : State := State.reset.modCmd fun c => { c with ops := Vector.replicate 64 (some (anOp 0x12 .running (par 0 0 0))) }

/-- With every slot in use a long command is answered BUSY; a retraining of a channel beyond 255 is ILLEGAL_STATE (R228). -/
theorem test_busy :
    ((after (.retrain 0) (inHand (cmdE 0x13 (par 255 0 0)) fullOps)).cmd.q[(0 : Fin 16)]).held.map (·.status) = [8] ∧
    ((after (.retrain 0) (inHand (cmdE 0x13 (par 256 0 0)) fullOps)).cmd.q[(0 : Fin 16)]).held.map (·.status) = [9] := by decide +kernel

theorem test_migrate_rows :
    ((after (.migrate 0) (inHand (cmdE 0x14 (par 0 32 0)) spareState)).cmd.q[(0 : Fin 16)]).held.map (·.status) = [0] ∧
    ((after (.migrate 0) (inHand (cmdE 0x14 (par 0 33 0)) spareState)).cmd.q[(0 : Fin 16)]).held.map (·.status) = [9] := by decide +kernel
/-- ProgramsAndTheirTasks: a START after the epoch has changed makes the checks again; they pass for an empty image. -/
def rechecked : State := (prog1 .loaded .reset).modProg fun p => { p with epoch := p.checkedEpoch + 1 }

theorem witness_recheck : rechecked.prog.epoch ≠ rechecked.prog.checkedEpoch ∧ (resourceChecks rechecked rechecked.prog.img rechecked.prog.shed).isOk = true ∧
    PState.loading ∈ [PState.none, PState.loading, PState.loaded] := by decide +kernel

theorem test_recheck : (after (.start 0) (inHand (cmdE 0x02 (par 9 0 0)) rechecked)).prog.state = .running ∧
    ((after (.stop 0) (inHand (cmdE 0x03 (par 0 0 0)) (inState .loaded))).cmd.q[(0 : Fin 16)]).held.map (·.status) = [9] := by decide +kernel


/-- LongOperationsEnd: a snapshot with no record left, and one whose buffer does not hold its header. -/
def snapping (pos out : Nat) : State :=
  { withOp (anOp 0x10 .running (par 0 0 0)) State.reset with snap := some { aSnap with pos := pos, outLen := out } }

theorem snap_first (s : State) (k : Snap) : ∃ rest, (s.snapItems k).drop 0 = .header :: rest := by
  simp only [List.drop_zero, State.snapItems, List.cons_append, List.nil_append]
  exact ⟨_, rfl⟩

theorem snap_lines (s : State) (k : Snap) (c : s.progCores = []) (t : s.prog.img.tallies = []) (e : k.eng = false) (g : k.dram = false) :
    (s.snapItems k).length ≤ 1572865 := by
  have d : (([0, 1, 2, 3] : List (Fin 4)).filter s.dieOk).length ≤ 4 := List.length_filter_le _ _
  simp only [State.snapItems, State.snapLines, c, t, e, g, Bool.false_and, Bool.false_eq_true, if_false, List.flatMap_nil,
    List.map_nil, List.length_append, List.length_map, List.length_range, List.length_nil, List.length_cons, List.append_nil, List.nil_append, List.length_flatMap]
  generalize ([0, 1, 2, 3] : List (Fin 4)).filter s.dieOk = l at d ⊢
  have m : (l.map fun _ => 0x1000000 / 64).sum = l.length * (0x1000000 / 64) := by
    induction l with
    | nil => rfl
    | cons a l ih => simp only [List.map_cons, List.sum_cons, List.length_cons, ih (by simp only [List.length_cons] at d; omega)]; omega
  omega

theorem witness_snap_end : (snapping 0 0).snapReady { aSnap with pos := 0, outLen := 0 } = true ∧ (anOp 0x10 .running (par 0 0 0)).lost = false ∧
    (snapping 0 0).progCores = [] ∧ (snapping 0 0).prog.img.tallies = [] := by decide

theorem witness_snap_last : ((snapping 1572865 0).snapItems aSnap).drop 1572865 = [] :=
  List.drop_eq_nil_of_le (snap_lines _ _ (by decide) rfl rfl rfl)

theorem test_snap_full : ((((after .snapshotDone (snapping 0 0)).cmd.ops[(63 : Fin 64)]).bind (·.result)).map (·.1)) = some 0x01 ∧
    (after .snapshotDone (snapping 0 0)).snap = none := by decide +kernel

/-! ## Witnesses of further clauses: fabric and DRAM -/

/-- RequestsCrossTheFabric: every crosscut is down, so that die 0 is out of reach. -/
def downCuts : Vector Crosscut 12 := Vector.replicate 12 { r0.fab.xcuts[(0 : Fin 12)] with failed := true }

def cutOff : State := (ported (aReq 0x130 true (dieBase 0) 0)).modFab fun f => { f with xcuts := downCuts }

theorem witness_way : (ported (aReq 0x130 true hubBase 0)).wayOk 0x130 ((ported (aReq 0x130 true hubBase 0)).srcLoc 0x130) (targetLoc none (.hubStore 0)) = true ∧
    cutOff.wayOk 0x130 (cutOff.srcLoc 0x130) (targetLoc none (.dieStore 0 0)) = false ∧
    arbState.servable (.hubBank 0) (aReq 0x101 false 0x80 5) = true := by decide

theorem test_cut_off : (after (.requestIssue 0x130 0) cutOff).fab.ports.length = 1 := by decide

/-- A response with one arbiter ahead of it, and with two. -/
def respAt (h : List Arb) : State :=
  loading.modFab fun f => { f with resps := [{ req := aReq 0x100 false 0x40 0, data := [7, 0, 0, 0, 0, 0, 0, 0], err := none, hops := h, arr := 0 }] }

theorem witness_response : ((respAt [.crosscut 0 false]).fab.xcuts[(0 : Fin 12)]).failed = false ∧ (respAt [.crosscut 0 false]).waitingAt (.crosscut 0 false) = [] ∧
    ((respAt []).seq .mp).ldWait = some { rd := 9, size := 3, zext := true, addr := 0x40, resp := none } := by decide

theorem test_response : ((after (.arbiterGrant (.crosscut 0 false)) (respAt [.crosscut 0 false])).mp.ldWait.bind (·.resp)) = some (.data 7) ∧
    (after (.arbiterGrant (.crosscut 0 false)) (respAt [.crosscut 0 false, .hubBank 0])).fab.resps.map (·.hops) = [[.hubBank 0]] ∧
    (after (.arbiterGrant (.crosscut 0 false)) ((respAt [.crosscut 0 false]).modFab fun f => { f with xcuts := downCuts })).fab.resps.length = 1 := by
  decide

/-- TargetsAndCrosscuts: a request for a tile that a migration copies into is held; one for another is not. -/
def copying (m : List Moving) : State :=
  (landed { aReq 0x100 true 0x1400000000 0 with tile := some 32 }).modWear fun w => { w with moving := m }

theorem witness_moving (m : Moving) (h : m.dst = 32) : (copying [m]).portHolds { aReq 0x100 true 0x1400000000 0 with tile := some 32 } = true := by
  simp [State.portHolds, copying, State.modWear, h]

theorem witness_still : (copying []).portHolds { aReq 0x100 true 0x1400000000 0 with tile := some 32 } = false ∧
    (landed (aReq 0x100 true hubBase 0)).portHolds (aReq 0x100 true hubBase 0) = false ∧
    (match spareState.reqTarget { aReq 0x100 true 0x1400000000 0 with tile := some 0 } with | .ok (.localLog 0 0) => true | _ => false) = true ∧
    (landed (aReq 0x100 true hubBase 0)).routeBack 0x100 none (.hubStore 0) = [] ∧ r0.routeBack 0x100 none (.dieStore 0 0) ≠ [] := by decide

/-- A request for die 0 over its crosscut a takes the way over b when a fails (R22). -/
def crossing : State := { r0 with fab := { r0.fab with flight := [{ aReq 0x100 true (dieBase 0) 0 with hops := r0.route 0x100 none (.dieStore 0 0) }] } }

theorem test_reroute : ((crossing.fab.flight.map (fun (r : Req) => overCrosscut 0 r.hops)) = [true] ∨ (crossing.fab.flight.map (fun (r : Req) => overCrosscut 1 r.hops)) = [true]) ∧
    (after (.crosscutFailure 0) crossing).fab.flight.map (fun (r : Req) => overCrosscut 0 r.hops) = [false] := by decide

/-- A request on its way up crosscut a of die 0 takes crosscut b while a lane of a is swapped (R471). -/
def climbing : State := { r0 with fab := { r0.fab with flight := [{ aReq 0x100 true (dieBase 0) 0 with hops := [.crosscut 0 true] }] } }

theorem witness_swap : (∀ r ∈ climbing.fab.flight, overDirection 0 true r.hops = true ∧
    (match (climbing.setFailed 0 true).reqTarget r with
     | .ok g => (climbing.setFailed 0 true).wayOk r.src ((climbing.setFailed 0 true).srcLoc r.src) (targetLoc r.tile g)
     | .error _ => false) = true) ∧ overDirection 0 true (r0.route 0x100 none (.dieStore 0 0)) = false := by decide

theorem test_swap : (after (.laneRepair 0 true [(3, 17)]) climbing).fab.flight.map (fun (r : Req) => overDirection 0 true r.hops) = [false] ∧
    (after (.laneRepair 0 false [(3, 17)]) climbing).fab.flight = climbing.fab.flight ∧
    ((after (.laneRepair 0 true [(3, 17)]) climbing).fab.xcuts[(0 : Fin 12)]).failed = false := by decide

/-- DramServesReadsAndWrites: a load of a line of a region 0 of class M, E or U. -/
def dramIn (k : RClass) (a : Nat) : State :=
  (dramM (aReq 0x100 false a 0)).modProg fun p => { p with img := { p.img with regions := p.img.regions.map fun g => { g with cls := k, segs := [(0, 0xFFFF)] } } }

/-- The channel of subchannels 0 and 1 is in ERROR. -/
def chan0Down (s : State) : State := s.modCh 0 fun x => { x with state := .error }

theorem witness_up : (∀ i ∈ List.range 16, (dramIn .e 0x38).subDown i = false) ∧ (dramIn .e 0x38).classAt 0 = .e ∧
    (0 : Nat) ∈ ((dramIn .e 0x38).placeOf 0).chunks 0 := by decide +kernel

/-- A mirrored line with its primary down; the first chunk of stripe 1 (0x380) with its own channel and the one of Q down. -/
theorem witness_copies : (chan0Down (dramIn .m 0x38)).subDown ((chan0Down (dramIn .m 0x38)).subOf 0) = true ∧
    (chan0Down (dramIn .m 0x38)).subDown ((chan0Down (dramIn .m 0x38)).subOfKey (mirrorKey 0)) = false ∧
    (let s := chan0Down (dramIn .e 0x3B8)
     s.subDown (s.subOf 0x380) = true ∧ s.subDown ((s.placeOf 0x380).parity false 0x380) = false ∧ s.classAt 0x380 = .e ∧
     0x380 ∈ (s.placeOf 0x380).chunks 0x380 ∧ ∀ c ∈ (s.placeOf 0x380).chunks 0x380, c ≠ 0x380 → s.subDown ((s.placeOf 0x380).primary c) = false) := by
  decide +kernel

theorem witness_retired : ((dramIn .u 0x38).modDmc fun d => { d with inserv := 0xFFFE }).dmc.inserv.getLsbD 0 = false ∧
    (dramIn .u 0x38).classAt 0 = .u ∧ (chan0Down (dramIn .m 0x838)).subDown ((chan0Down (dramIn .m 0x838)).subOfKey (mirrorKey 0x800)) = true ∧
    (chan0Down (dramIn .m 0x838)).subDown ((chan0Down (dramIn .m 0x838)).subOf 0x800) = false := by decide +kernel

/-- A mirrored line is read from its mirror, an E line from the rest of its stripe, and a line of a retired channel is lost (R302, R281, R291). -/
theorem test_copies : ((after (.dramRead 7 []) (chan0Down (dramIn .m 0x38))).mp.ldWait.bind (·.resp)) = some (.data 0) ∧
    ((after (.dramRead 7 []) { chan0Down (dramIn .e 0x3B8) with mem := [(0x3B8, 9)] }).mp.ldWait.bind (·.resp)) = some (.data 9) ∧
    ((after (.dramRead 7 []) ((dramIn .u 0x38).modDmc fun d => { d with inserv := 0xFFFE })).mp.ldWait.bind (·.resp)) = some (.error 0x0A 0x38) := by
  decide +kernel

/-- A single symbol of a line is corrected, and two symbols of one line are not (R289, R290). -/
theorem test_symbols : (after (.dramRead 7 []) { dramIn .u 0x38 with ecc := [(0, .symbol 3)] }).ecc = [] ∧
    (after (.dramRead 7 []) { dramIn .u 0x38 with ecc := [(0, .poison)] }).ecc = [(0, .poison)] ∧
    (after (.dramRead 7 []) { dramIn .u 0x38 with ecc := [(0, .hard)] }).saf.raised.map (fun (r : ErrRec) => (r.cat, r.info)) = [(0x13, 0), (0x14, 0)] := by
  decide +kernel

/-- A write to a mirrored line whose mirror is down goes to the primary alone (R302). -/
theorem test_write_one_copy : (after (.dramWrite 7) (chan0Down ((dramIn .m 0x838).modFab fun f => { f with dramQ := [aReq 0x100 true 0x838 0] }))).ecc =
    [(mirrorKey 0x800, .hard)] := by decide +kernel

/-- DramChannelsAreKeptUp. -/
def chan7 (f : Channel → Channel) : Channel := f ((chan id).dmc.ch[(7 : Fin 8)])

theorem witness_mayopen : (chan id).mayOpen 7 = true ∧ (chan fun c => { c with window := some (.freq, false, 4) }).mayOpen 7 = false ∧
    bestBin 0x0A 4 = some 3 ∧ bestBin 0x10 4 = some 4 ∧ bestBin 0 4 = none ∧ (chan7 fun c => { c with noBin := 0x1F }).noneLeft = true ∧
    (chan7 fun c => { c with noBin := 0x0F }).noneLeft = false ∧ (chan id).marginOk (chan7 fun c => { c with mRd := 255, mWr := 255, mCa := 255 }) = true ∧
    (chan id).freeSlot = some 0 ∧ (chan7 fun c => { c with steps := 62 }).steps + 1 < 64 ∧ 64 ≤ (chan7 fun c => { c with steps := 63 }).steps + 1 := by decide +kernel

/-- An alert closes the window, and the candidate row is a candidate again (R294). -/
theorem test_alert_window :
    let x := (after (.alertN 7 false) (chan fun c => { c with state := .maint, window := some (.repair 5, true, 4), soft := [5], bin := 4 })).dmc.ch[(7 : Fin 8)]
    x.state = .active ∧ x.window = none ∧ x.set = true ∧ x.cands = [5] ∧ x.soft = [] := by decide +kernel

/-- A channel in ERROR goes on at the highest bin that trains; with none, none is left (R301). -/
theorem test_error_retrain :
    ((after (.channelRetrain 7 0x0A) (chan fun c => { c with state := .error })).dmc.ch[(7 : Fin 8)]).bin = 3 ∧
    ((after (.channelRetrain 7 0) (chan fun c => { c with state := .error })).dmc.ch[(7 : Fin 8)]).noneLeft = true ∧
    (after (.channelRetire 7) (chan fun c => { c with noBin := 0x1F })).dmc.inserv = 0x3FFF := by decide +kernel

/-- The 64th step without a setting keeps the channel at its last good one while the margins allow, and a later margin does not (R301). -/
theorem test_keeps :
    let s := chan fun c => { c with retrainDue := true, steps := 63, mRd := 255, mWr := 255, mCa := 255 }
    ((after (.channelRetrain 7 0) s).dmc.ch[(7 : Fin 8)]).keeps = true ∧
    ((after (.marginMeasure 7 0 0 0 0) (chan fun c => { c with keeps := true })).dmc.ch[(7 : Fin 8)]).noBin = 0x10 := by decide +kernel

/-- P of a stripe is the sum of its chunks and Q weighs them with powers of 2 in GF(2^8) (R278). -/
theorem test_gf : gfMul 0x80 2 = 0x1D ∧ gfMul 3 7 = 9 := by decide +kernel

/-! ## Witnesses of further clauses: engines -/

/-- A table whose stream 48 takes the datagrams of port 9 of Ethernet port 0: samples of two packets of up to 4 bytes, no timestamp. -/
def ethTab : List Byte :=
  table 400 [] ++ List.replicate (144 * 48) 0 ++ table 144 [(0, 3), (20, 9), (22, 0xFF), (23, 0xFF), (24, 2), (26, 4)]

def ethernet (f : Stream → Stream) : State :=
  ((tal 1 []).modProg fun p => { p with state := .running, img := { p.img with pre := ethTab } }).modInt fun i =>
    { i with str := i.str.set 48 (f { Stream.reset with state := .active }) }

def aDatagram (n : Nat) : EthFrame := { gptp := false, udp := true, dstPort := 9, checksumOk := true, payload := List.replicate n 7 }

theorem witness_datagram : (ethernet id).intakeOn = true ∧ srKind ((ethernet id).strR 48) = 3 ∧ srPort ((ethernet id).strR 48) = 0 ∧
    u16 ((ethernet id).strR 48) 20 = 9 ∧ srGroup ((ethernet id).strR 48) < 8 ∧ (streams56.find? fun n => 48 ≤ n.val &&
      srKind ((ethernet id).strR n.val) = 3 && srPort ((ethernet id).strR n.val) = 0 && u16 ((ethernet id).strR n.val) 20 = 9 &&
      ((ethernet id).int.str[n]).state ≠ .off) = some 48 := by decide +kernel

/-- Two packets make a sample; one of more than its bytes makes it corrupt; its capture DT is the arrival's (R314, R315). -/
theorem test_datagram :
    (((after (.ethFrameRx 0 (aDatagram 4)) (ethernet id)).int.str[(48 : Fin 56)]).sample.map fun (x : Sample) => (x.complete.isSome, x.corrupt, x.tsFallback)) =
      some (false, false, true) ∧
    (((after (.ethFrameRx 0 (aDatagram 5)) (ethernet fun x => { x with sample := some { aSample with pkts := [[7]] } })).int.str[(48 : Fin 56)]).sample.map
      fun (x : Sample) => (x.complete.isSome, x.corrupt, x.pkts.length)) = some (true, true, 2) := by decide +kernel

/-- IntakeReceivesAndFillsSlots: a line that the buffer takes, and one that it does not (R313). -/
theorem test_line : let s := port0 .active fun x => { x with sample := some { aSample with lines := [[1]] } }
    (((after (.csi2Packet 0 { vc := 3, dt := 0x2A, ecc := .corrected, body := .line [9] true false }) s).int.str[(0 : Fin 56)]).sample.map
      fun (x : Sample) => (x.lines, x.corrupt)) = some ([[1], [9]], false) ∧
    (((after (.csi2Packet 0 { vc := 3, dt := 0x2A, ecc := .corrected, body := .line [9] true true }) s).int.str[(0 : Fin 56)]).sample.map
      fun (x : Sample) => (x.lines, x.corrupt)) = some ([[1]], true) := by decide +kernel

/-- A stale sample, a corrupt one without a last good output, and one with it: ABSENT, ABSENT and SUBSTITUTE (R329). -/
def judged (x : Sample) (l : List LastGood) : State := port0 .active fun z => { z with sample := some x, takes := [aTake], good := l }

/-- The same stream with one variant, and a good sample. -/
def oneVariant : State :=
  (judged { aSample with complete := some 9, lines := [[9]] } []).modProg fun p => { p with img := { p.img with pre := preTab.set 412 0x21 } }

theorem test_good : (((after (.sampleComplete 0) oneVariant).int.str[(0 : Fin 56)]).takes.map fun (k : SlotTake) => (k.ready, k.complete)) =
      [(some (false, false, false), 9)] ∧
    ((after (.sampleComplete 0) oneVariant).int.str[(0 : Fin 56)]).good.map (·.variant) = [0] := by decide +kernel

theorem witness_judged : (judged { aSample with complete := some 9 } []).inShare 0 ((judged aSample []).partOf (strSrc 0)) = true ∧
    ((judged aSample []).modFab fun f => { f with modeP := true }).inShare 0 ((judged aSample []).partOf (strSrc 0)) = false ∧
    stale ((judged aSample []).strR 0) 0 9 = false ∧ Sample.bad { aSample with corrupt := true } ((judged aSample []).strR 0) = true ∧
    aTake.ready = none ∧ aTake.variant < srVariants (oneVariant.strR (0 : Fin 56).val) := by decide +kernel

theorem test_judged :
    (((after (.sampleComplete 0) (judged { aSample with complete := some 100001 } [])).int.str[(0 : Fin 56)]).takes.map (·.ready)) = [some (false, true, false)] ∧
    (((after (.sampleComplete 0) (judged { aSample with complete := some 9, corrupt := true } [])).int.str[(0 : Fin 56)]).takes.map (·.ready)) =
      [some (false, true, false)] ∧
    (((after (.sampleComplete 0) (judged { aSample with complete := some 9, corrupt := true } [LastGood.mk 0 1 2 3 true])).int.str[(0 : Fin 56)]).takes.map (·.ready)) =
      [some (true, false, true)] := by decide +kernel

/-- An open slot of a stopped stream ends ABSENT. -/
theorem witness_stopped : ((port0 .off fun x => { x with takes := [aTake] }).int.str[(0 : Fin 56)]).state = .off ∧ aTake.ready = none := by decide

theorem test_stopped : (memGetN (after (.slotReady 0 0) (port0 .off fun x => { x with takes := [aTake] })).mem hubBase 4).length = 4 ∧
    ((after (.slotReady 0 0) (port0 .off fun x => { x with takes := [aTake] })).int.str[(0 : Fin 56)]).takes = [] := by decide +kernel

/-- FusionFollowsMotion: a wheel frame in time, and none; a grant in the slots of its partition. -/
theorem witness_ego : (fusing fun x => { x with egoValid := true }).pwr.thermtrip = false ∧ (fusing fun x => { x with egoValid := true }).fus.wheel = [] ∧
    ¬ 1000000 * u16 (fusing id).fusT 22 < ((5 : BitVec 64) - 4).toNat := by decide +kernel

theorem test_no_wheel : (after .egoTimeout (fusing fun x => { x with egoValid := true })).fus.egoValid = false := by decide +kernel

/-- PlannerServesQueries: queries that are answered at once, and one that was released while it was served. -/
def querying (q : Query) (f : PlnSt → PlnSt) : State := planning fun p => f { p with running := true, query := some q, idle := some 0 }

theorem witness_queries : queryOk (List.replicate 64 0) = false ∧ (querying (Query.mk aQuery 0 false 0 false) id).pln.grid = none ∧
    (querying (Query.mk aQuery 0 true 3 true) id).pln.relSince = false ∧ homeOk (u16 aQuery 20) = true ∧
    ((planning fun p => { p with running := true, idle := some 0, relSince := true }).modPln fun p => { p with task := p.task + 1 }).pln.query = none := by
  decide +kernel

/-- Without a grid the refuge answers, with STATUS 3, and with STATUS 4 when it is released (R376, R377). -/
theorem test_refuge : memGet (after (.queryServe 5) (querying (Query.mk aQuery 0 false 0 false) id)).mem (hubBase + 4) = 3 ∧
    memGet (after (.queryServe 5) (querying (Query.mk aQuery 0 false 0 false) fun p => { p with released := true })).mem (hubBase + 4) = 4 ∧
    memGet (after .queryBudgetExpiry (querying (Query.mk aQuery 0 true 3 true) id)).mem (hubBase + 4) = 4 ∧
    (after (.queryServe 5) (querying (Query.mk (List.replicate 64 0) 0 false 0 false) id)).saf.raised.map (fun (r : ErrRec) => r.cat) = [0x62] := by decide +kernel

/-- CheckUnitsScan: modes 2 and 3 read their references; a host scan of one step. -/
theorem witness_scan_modes : scanMode (table 64 [(57, 2)]) = 2 ∧ scanMode (table 64 [(57, 3)]) = 3 ∧
    ((readRef (suspending .running) 3 0 (hubBase + 64) .clean).2.1) = some 0 ∧ scanLen aScan - 0 ≤ { hostScan with desc := aScan, pos := 0 }.step := by decide +kernel

theorem test_host_scan :
    let s := withOp (anOp 0x11 .running (par 0 0 0)) r0
    let t := after (.scanEnd 3 .clean .clean) { s with cvu := s.cvu.set 3 { Cvu.reset with cur := some { hostScan with desc := aScan, pos := 0, result := 64 } } }
    ((t.cmd.ops[(63 : Fin 64)]).bind (·.result)) = some (0, 0, 0) ∧ ((t.cmd.ops[(63 : Fin 64)]).map (·.state)) = some .done := by decide +kernel

/-! ## Witnesses of further clauses: deputies, power, interfaces, start-up -/

/-- DeputiesStartAndFault: the tests of the deputies and of the aggregator. -/
theorem test_latent : (after (.latentFaultTest .aggregator true) (mpRuns id)).saf.raised.map (fun (r : ErrRec) => r.cat) = [0xFE] ∧
    (after (.latentFaultTest (.lampDep 0) false) (depRuns id)).deps[(0 : Fin 2)].state = .faulted ∧
    (after (.latentFaultTest (.pinReadback 0) false) (depRuns id)).deps[(0 : Fin 2)].pinHigh = false ∧
    (after (.latentFaultTest .lampMp false) (mpRuns id)).saf.mpUnprot = true := by decide +kernel

/-- ErrorsReachTheDeputies: of two records of one cycle the lower category is taken first. -/
theorem test_next_record : (nextRaised [aRec 0x40, aRec 0x10]).map (fun x => (x.1, x.2.cat)) = some (1, 0x10) ∧
    nextRaised [] = none := by decide

/-- TiersMonitorsAndThermalLimits: forecasts below and at the limit of the request; a rail out of its thresholds. -/
theorem witness_forecast : (powered id).pwr.forecastT[(0 : Fin 4)] < (powered id).forecastLimit ∧
    (powered id).forecastLimit ≤ ((powered id).modPwr fun p => { p with forecastT := Vector.replicate 4 115000 }).pwr.forecastT[(0 : Fin 4)] ∧
    85 * 4 ≤ 340 ∧ (List.foldl (· + ·) 0 [1, 2]) / 2 = 1 ∧ ((powered id).pwr.die[(0 : Fin 4)]).change = none ∧ railMv .hub = 750 ∧
    (∀ d : Fin 4, Rail.hub ≠ .cd d) ∧ depRail 0 = .sa := by decide

theorem test_forecast_gate : (after (.tierRaise 0x100 0) ((powered id).modPwr fun p => { p with forecastT := Vector.replicate 4 115000 })).pwr.die[(0 : Fin 4)].change = none ∧
    ((after (.voltageMonitorFault (.cd 0) 1) (powered fun x => { x with target := 600 })).pwr.die[(0 : Fin 4)]).fmax = true ∧
    (after (.voltageMonitorFault (.cd 0) 600) (powered fun x => { x with target := 600 })).saf.raised.length = 0 := by decide +kernel

/-- ManagementProcessorRestarts: a forecast above the limit lowers a die above the sustained tier (R450). -/
def hotForecast (t : Int) : State :=
  (powered fun x => { x with tier := 1 }).modPwr fun p => { p with inlet := 65000, therm := Vector.replicate 5 { step := 0, hot := 0, unit := 0, temp := t, readings := [t] } }

theorem witness_frame_forecast : ((powered id).pwr.die[(0 : Fin 4)]).high = false ∧ ((powered fun x => { x with tier := 1 }).pwr.die[(0 : Fin 4)]).high = true := by decide +kernel

theorem witness_migration_two : let s := (prog1 .running .running).modWear fun w => { w with moving := [{ lc := 0, src := 0, dst := 32, slot := none }] }
    s.outstanding = [] ∧ s.prog.stopQ = none ∧ Memory.wf s.mem = true ∧ (prog1 .running .running).spareOk 32 = true := by decide +kernel

/-- Core 0 of a running program is armed, with the word of a WAIT at its PC. -/
def atWait : State :=
  let s := (prog1 .running .running).modWear fun w => { w with armed := [(0, some 32, none)] }
  { s with mem := ([0, 0, 0x10, 0, 0xFC, 0xFF, 0x10, 0x60].zipIdx.map fun x => (localBase 0 + 0x100 + x.2, x.1)).filter fun c => c.2 ≠ 0 }

/-- A core of a running program at its stop: both tiles are MIGRATING, then the copy is made (R31, R465). -/
theorem test_two_phases :
    let t := after (.migrationStop 0) atWait
    atWait.atStop 0 0 = true ∧ (t.wear.tile[(0 : Fin 136)]).state = .migrating ∧ (t.wear.tile[(32 : Fin 136)]).state = .migrating ∧
    ((after (.migrationStop 0) t).wear.tile[(32 : Fin 136)]).state = .active ∧ (after (.migrationStop 0) t).wear.moving = [] := by decide +kernel

/-- HostTimePinsAndDebug: BAR2, a write, and the roll-overs of the calendar. -/
theorem test_bar2 : (after (.hostRequest .bar2 8 4 true [1, 2, 3, 4]) (r0.modIfc fun i => { i with bar2 := 7 })).fab.ports.map
    (fun (r : Req) => (r.addr, r.write, r.data)) = [(7 * 2 ^ 32 + 8, true, [1, 2, 3, 4])] := by decide +kernel

theorem test_calendar_carries :
    (after .calendarSecond (calendar { year := 1, month := 4, day := 30, hour := 23, minute := 59, second := 59, sub := 0 })).tim.live =
      { year := 1, month := 5, day := 1, hour := 0, minute := 0, second := 0, sub := 0 } ∧
    (after .calendarSecond (calendar { year := 1, month := 4, day := 29, hour := 22, minute := 59, second := 59, sub := 0 })).tim.live =
      { year := 1, month := 4, day := 29, hour := 23, minute := 0, second := 0, sub := 0 } := by decide +kernel

theorem test_breakpoint : ((after (.runControl (.core 0) (.breakpoint 1 (some 0x40))) r0).tiles[(0 : Fin 136)]).seq.bps[(1 : Fin 4)] = some 0x40 ∧
    (after (.jtagInstruction .bypass) r0).dbg.tap = .bypass := by decide +kernel

/-- GalleryLinks: an answer to a requester beyond arbiters, and to one at the hub. -/
theorem witness_back : r0.routeBack 0x100 none (.partner 0) = [] ∧ (prog1 .running .running).routeBack 0 none (.partner 0) ≠ [] := by decide +kernel

/-- RailsResetsAndStages: the last bin in service, a stored result that reads good, and one that does not. -/
def trainedState : State := (staged .map).modDmc fun d =>
  { d with ch := d.ch.set 0 { d.ch[(0 : Fin 8)] with lastBin := some 2, stored := [{ bin := 2, train := 0, crc := BitVec.ofNat 32 (crc32c (natLe 8 0)) }] } }

theorem witness_trained : ((trainedState.dmc.ch[(0 : Fin 8)]).storedAt 2).isSome = true ∧ (2 : BitVec 3).toNat ≤ trainedState.fuse.maxbin.toNat := by decide +kernel

theorem test_last_bin : ((after (.startupStage obs) trainedState).dmc.ch[(0 : Fin 8)]).bin = 2 ∧
    (after (.startupStage { obs with patBad := [0] }) trainedState).boot.fullTrain = true := by decide +kernel

end Sys2Proof.Tests
end

section
/-! Calls and returns (R115 to R117): what pushing and popping a frame of the register window changes, and when each traps. -/

namespace Sys2Proof.Machine

/-! ### An instruction that has begun to execute (R512) -/

@[simp] theorem stepDone_seq (s : State) (p : Proc) : (s.stepDone p).seq p = { s.seq p with dbgStep := false, bpArmed := true } := by
  rw [State.stepDone, seq_modSeq]

theorem onlySeq_trans {p : Proc} {s u t : State} (hsu : OnlySeq p s u) (hut : OnlySeq p u t) : OnlySeq p s t :=
  calc t.modSeq p (fun _ => s.seq p)
      = (t.modSeq p fun _ => u.seq p).modSeq p (fun _ => s.seq p) := by rw [State.modSeq_modSeq]
    _ = u.modSeq p (fun _ => s.seq p) := by rw [show (t.modSeq p fun _ => u.seq p) = u from hut]
    _ = s := hsu

theorem onlySeq_stepDone (s : State) (p : Proc) : OnlySeq p s (s.stepDone p) := onlySeq_modSeq s p _

/-- A change of the sequencer by an instruction that has begun to execute changes that sequencer only. -/
theorem onlySeq_stepDone_modSeq (s : State) (p : Proc) (f : Seq → Seq) : OnlySeq p s ((s.stepDone p).modSeq p f) :=
  onlySeq_trans (onlySeq_stepDone s p) (onlySeq_modSeq _ p f)

/-- A trap raised by an instruction that has begun to execute outside the trap frame waits to be taken. -/
theorem stepDone_trap_waits {s : State} {p : Proc} (h : (s.seq p).inTrap = false) (c : BitVec 8) (a : BitVec 64) :
    TrapWaits p s ((s.stepDone p).trap p c a) c a (s.seq p).pc := by
  obtain ⟨hpend, hseq, hrest⟩ := trap_waits (s := s.stepDone p) (p := p) (by simpa using h) c a
  refine ⟨?_, ?_, onlySeq_trans (onlySeq_stepDone s p) hrest⟩
  · simpa [State.nowOrd, State.stepDone] using hpend
  · rw [stepDone_seq] at hseq
    exact congrArg (fun q : Seq => { q with dbgStep := (s.seq p).dbgStep, bpArmed := (s.seq p).bpArmed }) hseq

/-! ### Targets and w4 -/

theorem targetTrap_goodTarget {p : Proc} {a : BitVec 64} (h : GoodTarget p a) : targetTrap p a = none := by
  obtain ⟨haligned, hlocal⟩ := h
  rw [targetTrap, if_neg (fun h => h haligned), if_neg (Nat.not_le.mpr hlocal)]

/-- Outside the trap frame code 20 names w4 of the current frame (R108). -/
theorem readReg_w4 {q : Seq} (h : q.inTrap = false) : readReg q 20 false = ringGet q (curSlot q) 4 :=
  readReg_ring false (by decide) h

/-! ### Calls (R116) -/

/-- The slot of the frame that a call enters. -/
def nextSlot (q : Seq) : BitVec 3 := (q.depth + 1).setWidth 3

theorem nextSlot_toNat (q : Seq) : (nextSlot q).toNat = (q.depth.toNat + 1) % 8 := by
  simp only [nextSlot, BitVec.toNat_setWidth, BitVec.toNat_add, BitVec.reduceToNat]
  omega

/-- A new frame whose w4 is the address after the call; execution goes on at `a`. -/
def pushFrame (q : Seq) (a : BitVec 64) : Seq :=
  ringSet { q with depth := q.depth + 1, pc := a } (nextSlot q) 4 (q.pc + 8)

/-- A push changes DEPTH, PC and the ring alone. -/
theorem pushFrame_form (q : Seq) (a : BitVec 64) :
    pushFrame q a = { q with depth := q.depth + 1, pc := a, ring := (pushFrame q a).ring } := by
  unfold pushFrame ringSet
  split <;> rfl

theorem readReg_w4_pushFrame {q : Seq} (a : BitVec 64) (h : q.inTrap = false) : readReg (pushFrame q a) 20 false = q.pc + 8 := by
  rw [readReg_w4 (by rw [pushFrame_form, h]), pushFrame, curSlot_ringSet]
  exact ringGet_ringSet_self ..

/-- Of the ring a push writes the first register of the new frame's slot only. -/
theorem ring_pushFrame_ne (q : Seq) (a : BitVec 64) {k : Fin 8} {j : Fin 12}
    (h : k.val ≠ (q.depth.toNat + 1) % 8 ∨ j.val ≠ 0) : ((pushFrame q a).ring[k])[j] = (q.ring[k])[j] := by
  rw [← nextSlot_toNat] at h
  have hring : (pushFrame q a).ring = q.ring.set (nextSlot q).toNat ((q.ring[(nextSlot q).toNat]).set 0 (q.pc + 8)) :=
    ringSet_hi _ _ _ (by decide)
  simp only [hring, Fin.getElem_fin]
  by_cases hk : (nextSlot q).toNat = k.val
  · have hj : 0 ≠ j.val := (h.resolve_left (Ne.symm · hk)).symm
    simp only [← hk, Vector.getElem_set_self, Vector.getElem_set_ne _ _ hj]
  · simp only [Vector.getElem_set_ne _ _ hk]

/-- What a call from `s` that continues at `a` leaves: the words of R116 and its frame. -/
def CallsTo (p : Proc) (s t : State) (a : BitVec 64) : Prop :=
  let q := s.seq p
  (t.seq p).depth = q.depth + 1 ∧ t.reg p 20 = q.pc + 8 ∧ (t.seq p).pc = a ∧ (t.seq p).floor = q.floor ∧
  (t.seq p).g = q.g ∧ (t.seq p).tf = q.tf ∧ (t.seq p).preds = q.preds ∧ (t.seq p).pend = q.pend ∧ OnlySeq p s t ∧
  ∀ (k : Fin 8) (j : Fin 12), k.val ≠ (q.depth.toNat + 1) % 8 ∨ j.val ≠ 0 → ((t.seq p).ring[k])[j] = (q.ring[k])[j]

theorem doCall_pushes {s : State} {p : Proc} {a : BitVec 64} (hin : (s.seq p).inTrap = false)
    (hroom : (s.seq p).depth - (s.seq p).floor ≠ 6) (hgood : GoodTarget p a) :
    s.doCall p a = s.modSeq p (pushFrame · a) := by
  simp only [State.doCall, hin, hroom, targetTrap_goodTarget hgood, Bool.false_eq_true, if_false]
  rfl

theorem doCall_full {s : State} {p : Proc} {a : BitVec 64} (hin : (s.seq p).inTrap = false)
    (hfull : (s.seq p).depth - (s.seq p).floor = 6) : s.doCall p a = s.trap p 0x02 0 := by
  simp only [State.doCall, hin, hfull, Bool.false_eq_true, if_false, if_true]

theorem stepDone_doCall_callsTo {s : State} {p : Proc} {a : BitVec 64} (hin : (s.seq p).inTrap = false)
    (hroom : (s.seq p).depth - (s.seq p).floor ≠ 6) (hgood : GoodTarget p a) :
    CallsTo p s ((s.stepDone p).doCall p a) a := by
  rw [doCall_pushes (by simpa using hin) (by simpa using hroom) hgood]
  simp only [CallsTo, State.reg, seq_modSeq]
  refine ⟨?depth, ?w4, ?pc, ?floor, ?g, ?tf, ?preds, ?pend, onlySeq_stepDone_modSeq s p _, fun k j h => ?ring⟩
  case w4 => rw [readReg_w4_pushFrame a (by simpa using hin), stepDone_pc]
  case ring => rw [ring_pushFrame_ne _ a (by simpa using h), stepDone_seq]
  all_goals rw [pushFrame_form, stepDone_seq]

theorem stepDone_doCall_overflows {s : State} {p : Proc} (a : BitVec 64) (hin : (s.seq p).inTrap = false)
    (hfull : (s.seq p).depth - (s.seq p).floor = 6) :
    TrapWaits p s ((s.stepDone p).doCall p a) 0x02 0 (s.seq p).pc := by
  rw [doCall_full (by simpa using hin) (by simpa using hfull)]
  exact stepDone_trap_waits hin 0x02 0

theorem exec_call_executes {s : State} {p : Proc} {e : Enc} (h : Executes s p e) (hok : cbOffOk e = true) :
    exec (.call p e) s = .next ((s.stepDone p).doCall p ((s.seq p).pc + 8 * (opOff24 e).signExtend 64)) := by
  change execCall p e s = _
  rw [execCall, hok, issue_executes h _ _ rfl, brTarget, stepDone_pc]

theorem exec_callr_executes {s : State} {p : Proc} {e : Enc} (h : Executes s p e) (hok : cbRegOk e = true) :
    exec (.callr p e) s = .next ((s.stepDone p).doCall p (s.reg p (opRaB e))) := by
  change execCallr p e s = _
  rw [execCallr, hok, issue_executes h _ _ rfl, stepDone_reg]

/-! ### Returns (R117) -/

/-- The effect of a RET that executes. -/
def doRet (s : State) (p : Proc) : State :=
  let q := s.seq p
  if q.inTrap then s.doubleFault p
  else if q.depth = 0 then s.trap p 0x04 0
  else if q.depth = q.floor then s.trap p 0x03 0
  else
    let a := ringGet q (curSlot q) 4
    match targetTrap p a with
    | some c => s.trap p c a
    | none => s.modSeq p fun q => { q with depth := q.depth - 1, pc := a }

theorem exec_ret_executes {s : State} {p : Proc} {e : Enc} (h : Executes s p e) (hok : allZero e = true) :
    exec (.ret p e) s = .next (doRet (s.stepDone p) p) := by
  change Host.Outcome.next (issue p e (allZero e) [] [.regParity] s (doRet · p)) = _
  rw [hok, issue_executes h _ _ rfl]

theorem doRet_pops {s : State} {p : Proc} (hin : (s.seq p).inTrap = false) (hdepth : (s.seq p).depth ≠ 0)
    (hres : (s.seq p).depth ≠ (s.seq p).floor) (hgood : GoodTarget p (s.reg p 20)) :
    doRet s p = s.modSeq p fun q => { q with depth := q.depth - 1, pc := s.reg p 20 } := by
  rw [State.reg, readReg_w4 hin] at hgood ⊢
  simp only [doRet, hin, hdepth, hres, targetTrap_goodTarget hgood, Bool.false_eq_true, if_false]

theorem doRet_empty {s : State} {p : Proc} (hin : (s.seq p).inTrap = false) (hdepth : (s.seq p).depth = 0) :
    doRet s p = s.trap p 0x04 0 := by
  simp only [doRet, hin, hdepth, Bool.false_eq_true, if_false, if_true]

theorem doRet_spilled {s : State} {p : Proc} (hin : (s.seq p).inTrap = false) (hdepth : (s.seq p).depth ≠ 0)
    (hres : (s.seq p).depth = (s.seq p).floor) : doRet s p = s.trap p 0x03 0 := by
  simp only [doRet, hin, if_neg hdepth, if_pos hres, Bool.false_eq_true, if_false]

/-- Settles O8: a call pushes a frame and a return pops one, or the trap of R116 or R117 waits. -/
theorem callsReturnsAndTheWindow : Obligations.CallsReturnsAndTheWindow := by
  refine ⟨fun s p e hx hin => ⟨fun hok hroom hgood => ?_, fun hok hroom hgood => ?_, fun hok hdepth hres hgood => ?_⟩,
    fun s p e hx hin => ⟨fun hok hfull => ?_, fun hok hfull => ?_, fun hok hdepth => ?_, fun hok hdepth hres => ?_⟩⟩
  · exact ⟨_, exec_call_executes hx hok, stepDone_doCall_callsTo hin hroom hgood⟩
  · exact ⟨_, exec_callr_executes hx hok, stepDone_doCall_callsTo hin hroom hgood⟩
  · refine ⟨_, exec_ret_executes hx hok, ?_⟩
    rw [doRet_pops (by simpa using hin) (by simpa using hdepth) (by simpa using hres) (by simpa using hgood)]
    simp [onlySeq_stepDone_modSeq]
  · exact ⟨_, exec_call_executes hx hok, stepDone_doCall_overflows _ hin hfull⟩
  · exact ⟨_, exec_callr_executes hx hok, stepDone_doCall_overflows _ hin hfull⟩
  · refine ⟨_, exec_ret_executes hx hok, ?_⟩
    rw [doRet_empty (by simpa using hin) (by simpa using hdepth)]
    exact stepDone_trap_waits hin 0x04 0
  · refine ⟨_, exec_ret_executes hx hok, ?_⟩
    rw [doRet_spilled (by simpa using hin) (by simpa using hdepth) (by simpa using hres)]
    exact stepDone_trap_waits hin 0x03 0

end Sys2Proof.Machine
end

section
/-! Descriptor moves and TCLR (R143, R153): what an instruction that ends leaves of its tile and of the scalar registers, and what a
table reads after a range of its keys has been erased. -/

namespace Sys2Proof.Machine

/-! ### Tables of which some keys have been left out -/

theorem tabGet_filter_key {α : Type} [DecidableEq α] (d : α) (g : Nat → Bool) (x : Nat) : ∀ m : List (Nat × α), tabWf d m = true →
    tabGet d (m.filter fun c => g c.1) x = if g x then tabGet d m x else d
  | [], _ => (ite_self d).symm
  | (a, b) :: m, w => by
    simp only [tabWf, tabWfFrom, Bool.and_eq_true, decide_eq_true_eq, true_and] at w
    obtain ⟨-, hfrom⟩ := w
    have ih := tabGet_filter_key d g x m (tabWf_of_from d m a hfrom)
    by_cases hg : g a = true
    · rw [List.filter_cons, if_pos hg, tabGet, tabGet, ih]
      by_cases hxa : x = a
      · simp [hxa, hg]
      · by_cases hlt : x < a <;> simp [hlt, hxa]
    · rw [List.filter_cons, if_neg hg, ih, tabGet]
      by_cases hxa : x = a
      · simp [hxa, hg]
      · by_cases hlt : x < a
        · simp [hlt, tabGet_below d m a x hfrom (Nat.le_of_lt hlt)]
        · simp [hlt, hxa]

theorem tabGet_tabErase {α : Type} [DecidableEq α] {d : α} {m : List (Nat × α)} (w : tabWf d m = true) (a n x : Nat) :
    tabGet d (tabErase m a n) x = if a ≤ x ∧ x < a + n then d else tabGet d m x := by
  rw [tabErase, tabGet_filter_key d (fun k => k < a || a + n ≤ k) x m w, ← ite_not]
  refine ite_congr (propext ?_) (fun _ => rfl) (fun _ => rfl)
  simp only [Bool.or_eq_true, decide_eq_true_eq]
  omega

/-- The keys of the rows that a TCLR names are consecutive, and no entry of another row or bank has one of them. -/
theorem accGet_accClear {x : Tile} {bank row n : Nat} (w : tabWf AccEntry.cleared x.acc = true) (hn : row + n ≤ 128) {b r c : Nat}
    (hc : c < 64) (hr : r < 128) :
    accGet (accClear x bank row n) b r c = if b = bank ∧ row ≤ r ∧ r < row + n then AccEntry.cleared else accGet x b r c := by
  rw [accGet, accClear, tabGet_tabErase w]
  refine ite_congr (propext ?_) (fun _ => rfl) (fun _ => rfl)
  unfold accKey
  omega

theorem rowCount_accClear {x : Tile} {bank row n : Nat} (w : tabWf 0 x.rowCount = true) (hn : row + n ≤ 128) {b r : Nat} (hr : r < 128) :
    tabGet 0 (accClear x bank row n).rowCount (rowKey b r) =
      if b = bank ∧ row ≤ r ∧ r < row + n then 0 else tabGet 0 x.rowCount (rowKey b r) := by
  rw [accClear, tabGet_tabErase w]
  refine ite_congr (propext ?_) (fun _ => rfl) (fun _ => rfl)
  unfold rowKey
  omega

/-! ### Instructions that write a scalar register and end -/

theorem setReg_stepDone (s : State) (p : Proc) (c : BitVec 5) (v : BitVec 64) :
    (s.stepDone p).setReg p c v =
      s.modSeq p fun q => { writeReg { q with dbgStep := false, bpArmed := true } c false v with pc := q.pc + 8 } := by
  simp only [State.setReg, State.advance, State.stepDone, State.modSeq_modSeq]
  congr 1
  funext q
  obtain ⟨g, r, tf, hw⟩ := writeReg_form { q with dbgStep := false, bpArmed := true } c false v
  rw [hw]

theorem setReg_stepDone_writesReg (s : State) (p : Proc) (c : BitVec 5) (v : BitVec 64) :
    WritesReg p s ((s.stepDone p).setReg p c v) c v := by
  rw [setReg_stepDone]
  refine ⟨?value, fun x hx => ?others, ?pc, ?seq, onlySeq_modSeq s p _⟩
  case value =>
    rw [State.reg, seq_modSeq]
    by_cases h0 : c = 0
    · rw [if_pos h0, h0]; rfl
    · rw [if_neg h0]; exact readReg_writeReg_self _ c false v h0
  case others =>
    rw [State.reg, seq_modSeq]
    exact readReg_writeReg_ne { s.seq p with dbgStep := false, bpArmed := true } c x false v hx
  case pc => rw [seq_modSeq]
  case seq =>
    rw [seq_modSeq]
    obtain ⟨g, r, tf, hw⟩ := writeReg_form { s.seq p with dbgStep := false, bpArmed := true } c false v
    rw [hw, RegsOnly]

/-! ### Instructions that change their tile and end -/

/-- The state after an instruction of core `i` that changes its tile by `f` and ends. -/
def endsTile (i : Fin 136) (f : Tile → Tile) (s : State) : State := ((s.stepDone (.core i)).modTile i f).advance (.core i)

/-- The sequencer after an instruction that has begun to execute and ends. -/
def endSeq (q : Seq) : Seq := { q with pc := q.pc + 8, dbgStep := false, bpArmed := true }

/-- A change of a tile that neither writes its sequencer nor depends on it. -/
def IgnoresSeq (f : Tile → Tile) : Prop := ∀ x q, f { x with seq := q } = { f x with seq := q }

theorem endsTile_form (s : State) (i : Fin 136) {f : Tile → Tile} (hf : IgnoresSeq f) :
    endsTile i f s = s.modTile i fun x => { f x with seq := endSeq x.seq } := by
  simp only [endsTile, State.advance, State.stepDone, State.modSeq, State.modTile, vmod_vmod]
  congr 2
  funext x
  rw [hf]
  rfl

theorem endsTile_tile (s : State) (i : Fin 136) {f : Tile → Tile} (hf : IgnoresSeq f) :
    (endsTile i f s).tiles[i] = { f s.tiles[i] with seq := endSeq (s.tiles[i]).seq } := by
  rw [endsTile_form s i hf, State.modTile_tiles, vmod_self]

theorem onlyTile_modTile (s : State) (i : Fin 136) (f : Tile → Tile) : OnlyTile i s (s.modTile i f) := by
  simp only [OnlyTile, State.modTile, vmod_vmod, vmod_id]

theorem onlyTile_endsTile (s : State) (i : Fin 136) {f : Tile → Tile} (hf : IgnoresSeq f) : OnlyTile i s (endsTile i f s) := by
  rw [endsTile_form s i hf]
  exact onlyTile_modTile s i _

/-- A core that executes runs, and no trap of its waits. -/
theorem executes_core_idle {s : State} {i : Fin 136} {e : Enc} (h : Executes s (.core i) e) :
    (s.tiles[i]).seq.run = .running ∧ (s.tiles[i]).seq.pend = none ∧ (s.tiles[i]).seq.deferred = none := by
  have hissue := h.issues
  simp only [State.canIssue, State.seq, Bool.and_eq_true, beq_iff_eq, Option.isNone_iff_eq_none, and_assoc] at hissue
  obtain ⟨hrun, hpend, hdeferred, -⟩ := hissue
  exact ⟨hrun, hpend, hdeferred⟩

theorem endsTile_ends {s : State} {i : Fin 136} {e : Enc} (h : Executes s (.core i) e) {f : Tile → Tile} (hf : IgnoresSeq f) :
    Ends i s (endsTile i f s) := by
  obtain ⟨hrun, hpend, hdeferred⟩ := executes_core_idle h
  rw [Ends, endsTile_tile s i hf]
  exact ⟨rfl, hpend, hdeferred, hrun⟩

/-! ### TDSET, TDGET and TCLR -/

/-- TDSET's change of its tile (R143): descriptor register `k` takes the bits of `v` that are not reserved. -/
def setTd (k : Nat) (v : BitVec 64) (x : Tile) : Tile := { x with td := vmodN x.td k fun _ => v &&& tdMask }

theorem setTd_ignoresSeq (k : Nat) (v : BitVec 64) : IgnoresSeq (setTd k v) := fun _ _ => rfl

theorem accClear_ignoresSeq (bank row n : Nat) : IgnoresSeq (accClear · bank row n) := fun _ _ => rfl

theorem exec_tdset_executes {s : State} {i : Fin 136} {e : Enc} (h : Executes s (.core i) e)
    (hok : tOk (.core i) 0x0FF07FFFFFFF#48 e = true) :
    exec (.tdset (.core i) e) s = .next (endsTile i (setTd (tTd e) (s.reg (.core i) (tReg e 31))) s) := by
  change execTdset (.core i) e s = _
  rw [execTdset, hok, issue_executes h _ _ rfl, ← stepDone_reg s (.core i)]
  rfl

theorem exec_tdget_executes {s : State} {i : Fin 136} {e : Enc} (h : Executes s (.core i) e)
    (hok : tOk (.core i) 0xF0F07FFFFFFF#48 e = true) :
    exec (.tdget (.core i) e) s =
      .next ((s.stepDone (.core i)).setReg (.core i) (tReg e 31) (vgetN (s.tiles[i]).td (tTa e) 0)) := by
  have htd : ((s.stepDone (.core i)).tiles[i]).td = (s.tiles[i]).td := by
    rw [State.stepDone, State.modSeq, State.modTile_tiles, vmod_self]
  change execTdget (.core i) e s = _
  rw [execTdget, hok, issue_executes h _ _ rfl, ← htd]
  rfl

theorem exec_tclr_executes {s : State} {i : Fin 136} {e : Enc} (h : Executes s (.core i) e)
    (hok : tOk (.core i) 0xFFFF8000FFFF#48 e = true) (hn : tFld e 17 7 + (tFld e 24 7 + 1) ≤ 128) :
    exec (.tclr (.core i) e) s = .next (endsTile i (accClear · (tFld e 16 1) (tFld e 17 7) (tFld e 24 7 + 1)) s) := by
  change execTclr (.core i) e s = _
  rw [execTclr, hok, issue_executes h _ _ rfl]
  simp only [onCore, withChecks, if_neg (Nat.not_lt.mpr hn)]
  rfl

/-- Settles O17: a TDSET writes one descriptor register, a TDGET reads one, and a TCLR clears its rows alone. -/
theorem descriptorsAndClearedRows : Obligations.DescriptorsAndClearedRows := by
  intro s i e h
  refine ⟨fun hok => ?tdset, fun hok => ?tdget, fun hok => ?tclr⟩
  case tdset =>
    have hf := setTd_ignoresSeq (tTd e) (s.reg (.core i) (tReg e 31))
    refine ⟨_, exec_tdset_executes h hok, ?_, fun k hk => ?_, endsTile_ends h hf, ?_, ?_, onlyTile_endsTile s i hf⟩ <;>
      rw [endsTile_tile s i hf]
    · exact vgetN_vmodN_self _ _ _ _ (BitVec.isLt _)
    · exact vgetN_vmodN_ne _ _ _ _ _ (Ne.symm hk)
    · rfl
    · rfl
  case tdget => exact ⟨_, exec_tdget_executes h hok, setReg_stepDone_writesReg s _ _ _⟩
  case tclr =>
    intro n row bank hn hacc hcount
    have hf := accClear_ignoresSeq bank row n
    refine ⟨_, exec_tclr_executes h hok hn, endsTile_ends h hf, onlyTile_endsTile s i hf, ?_, fun b r c hc hr => ?_, fun b r hr => ?_⟩ <;>
      rw [endsTile_tile s i hf]
    · rfl
    · exact accGet_accClear hacc hn hc hr
    · exact rowCount_accClear hcount hn hr

end Sys2Proof.Machine
end

section
/-! Waits at their homes (R138, R200, R203, R204): what a tally answers to a wait, and what the delivery of the answer changes. -/

namespace Sys2Proof.Machine

/-! ### What a tally answers to a wait -/

/-- A wait of `n` is not granted at once: others wait at the tally, or its count does not cover `n` (R203, R204). -/
def Tally.Uncovered (y : Tally) (n : BitVec 8) : Prop :=
  y.waiters ≠ [] ∨ (y.mode = .counting ∧ y.count.toNat < n.toNat) ∨ (y.mode = .event ∧ y.count ≠ 1)

theorem Tally.wait_covered {y : Tally} {w : Waiter} (hempty : y.waiters = []) (hcovers : y.covers w.n = true) (poll : Bool) :
    y.wait w poll = (y.consume w.n, true) := by
  simp [Tally.wait, hempty, hcovers]

theorem Tally.wait_uncovered {y : Tally} {w : Waiter} (h : y.Uncovered w.n) (poll : Bool) :
    y.wait w poll = (if poll then y else { y with waiters := y.waiters ++ [w] }, false) := by
  have hnot : (y.waiters.isEmpty && y.covers w.n) = false := by
    obtain hwaiters | ⟨hmode, hcount⟩ | ⟨hmode, hcount⟩ := h
    · simp [hwaiters]
    · simp [Tally.covers, hmode, hcount]
    · simp only [Tally.covers, hmode, decide_eq_false hcount, Bool.and_false]
  cases poll <;> simp [Tally.wait, hnot]

theorem Tally.covers_counting {y : Tally} {n : BitVec 8} (hmode : y.mode = .counting) (h : n.toNat ≤ y.count.toNat) :
    y.covers n = true := by
  simp [Tally.covers, hmode, h]

theorem Tally.covers_event {y : Tally} (n : BitVec 8) (hmode : y.mode = .event) (h : y.count = 1) : y.covers n = true := by
  simp [Tally.covers, hmode, h]

@[simp] theorem Tally.consume_waiters (y : Tally) (n : BitVec 8) : (y.consume n).waiters = y.waiters := by
  unfold Tally.consume; split <;> rfl

theorem Tally.consume_counting {y : Tally} {n : BitVec 8} (hmode : y.mode = .counting) (h : n.toNat ≤ y.count.toNat) :
    (y.consume n).count.toNat = y.count.toNat - n.toNat := by
  have hn : (n.setWidth 16).toNat = n.toNat := BitVec.toNat_setWidth_of_le (by decide)
  simp only [Tally.consume, hmode]
  rw [BitVec.toNat_sub_of_le (BitVec.le_def.mpr (hn.symm ▸ h)), hn]

theorem Tally.consume_event {y : Tally} (n : BitVec 8) (hmode : y.mode = .event) : (y.consume n).count = 0 := by
  simp only [Tally.consume, hmode]

/-! ### The delivery of an outcome -/

/-- The tallies, the queues of their islands and the errors entered are as they were. -/
structure KeepsHomes (s t : State) : Prop where
  tab : t.tly.tab = s.tly.tab
  queue : t.tly.queue = s.tly.queue
  saf : t.saf = s.saf

theorem KeepsHomes.tally {s t : State} (h : KeepsHomes s t) (home : Nat) : t.tally home = s.tally home :=
  congrArg (tabGet Tally.off · home) h.tab

theorem keepsHomes_refl (s : State) : KeepsHomes s s := ⟨rfl, rfl, rfl⟩

theorem keepsHomes_of_onlySeq {p : Proc} {s t : State} (h : OnlySeq p s t) : KeepsHomes s t := by
  have htly : t.tly = s.tly := by simpa using congrArg State.tly h
  have hsaf : t.saf = s.saf := by simpa using congrArg State.saf h
  exact ⟨congrArg TallySt.tab htly, congrArg TallySt.queue htly, hsaf⟩

theorem settleEngine_keepsHomes (s : State) (src : Src) (tag : Nat) (o : WaitOutcome) : KeepsHomes s (s.settleEngine src tag o) := by
  unfold State.settleEngine
  split
  · split
    · split <;> exact ⟨rfl, rfl, rfl⟩
    · exact keepsHomes_refl s
  · split
    · split
      · split <;> exact ⟨rfl, rfl, rfl⟩
      · exact keepsHomes_refl s
    · exact keepsHomes_refl s

theorem resumeWait_keepsHomes (s : State) (p : Proc) (granted : Bool) : KeepsHomes s (s.resumeWait p granted) := by
  unfold State.resumeWait
  split
  · exact keepsHomes_refl s
  · dsimp only
    split <;> exact ⟨by simp, by simp, by simp⟩

/-- Outside the trap frame a refusal leaves a trap that waits; inside it, it would be a double fault (R110, R122). -/
theorem refuseWait_keepsHomes {s : State} {p : Proc} (hin : (s.seq p).inTrap = false) : KeepsHomes s (s.refuseWait p) := by
  unfold State.refuseWait
  split
  · exact keepsHomes_refl s
  · obtain ⟨-, -, htrap⟩ := trap_waits (s := s.modSeq p fun q => { q with wait := none, run := .running }) (p := p)
      (by simpa using hin) 0x08 _
    exact keepsHomes_of_onlySeq (onlySeq_trans (onlySeq_modSeq s p _) htrap)

theorem settleWait_keepsHomes {s : State} {p : Proc} {o : WaitOutcome} (hin : o = .refused → (s.seq p).inTrap = false) :
    KeepsHomes s (s.settleWait p o) := by
  cases o with
  | pending => exact keepsHomes_refl s
  | granted => exact resumeWait_keepsHomes s p true
  | timedOut => exact resumeWait_keepsHomes s p false
  | refused => exact refuseWait_keepsHomes (hin rfl)

/-- The source's processor is a core, whose trap comes after its release (R210), or outside its trap frame. -/
def RefusalTraps (s : State) (src : Src) : Prop := ∀ p, s.procOf src = some p → isCore p = true ∨ (s.seq p).inTrap = false

theorem deliverWait_keepsHomes {s : State} {src : Src} {o : WaitOutcome} (tag : Nat) (htrap : o = .refused → RefusalTraps s src) :
    KeepsHomes s (s.deliverWait src tag o) := by
  unfold State.deliverWait
  split
  · exact settleEngine_keepsHomes s src tag o
  · next p hp =>
    split
    · exact keepsHomes_refl s
    · split
      · exact keepsHomes_refl s
      · split
        · exact ⟨by simp, by simp, by simp⟩
        · next hnotcore =>
          refine settleWait_keepsHomes fun ho => (htrap ho p hp).resolve_left fun hcore => ?_
          cases p with
          | core i => exact hnotcore i rfl
          | mp => cases hcore
          | dep d => cases hcore

/-- The outcome `o` has reached the core of `src`, if it waits with `tag`, and the core waits for its release (R207, R210). -/
def ReachesCore (s t : State) (src : Src) (tag : Nat) (o : WaitOutcome) : Prop :=
  ∀ i w, s.procOf src = some (.core i) → (s.tiles[i]).seq.wait = some w → w.tag = tag →
    (t.tiles[i]).seq.wait = some { w with outcome := o } ∧ (t.tly.wake)[tileDie i] = (s.tly.wake)[tileDie i] ++ [i]

theorem deliverWait_reachesCore (s : State) (src : Src) (tag : Nat) (o : WaitOutcome) :
    ReachesCore s (s.deliverWait src tag o) src tag o := by
  intro i w hproc hwait htag
  have hseq : (s.seq (.core i)).wait = some w := hwait
  simp only [State.deliverWait, hproc, hseq, htag, ne_eq, not_true_eq_false, if_false, State.modTly_tiles, State.modTly_tly,
    State.modSeq_tly, vmod_self, and_true]
  exact congrArg Seq.wait (seq_modSeq s (.core i) _)

/-- The processors, the map from sources to them and the cores that wait for their release are alike. -/
def WaitsAlike (s u : State) : Prop :=
  (∀ p, u.seq p = s.seq p) ∧ (∀ src, u.procOf src = s.procOf src) ∧ u.tly.wake = s.tly.wake

/-- The wait at the front of an island's queue has ended with `o`: it has left the queue, no tally but its home has changed, and the
outcome has reached its core. -/
def EndsWait (isl : Fin 5) (home : Nat) (src : Src) (tag : Nat) (rest : List TallyOp) (s t : State) (o : WaitOutcome) : Prop :=
  (t.tly.queue)[isl] = rest ∧ (∀ h, h ≠ home → t.tally h = s.tally h) ∧ ReachesCore s t src tag o

theorem deliverWait_endsWait {s u : State} {isl : Fin 5} {home : Nat} {src : Src} {rest : List TallyOp} {o : WaitOutcome} (tag : Nat)
    (halike : WaitsAlike s u) (hqueue : (u.tly.queue)[isl] = rest) (htally : ∀ h, h ≠ home → u.tally h = s.tally h)
    (htrap : o = .refused → RefusalTraps s src) :
    EndsWait isl home src tag rest s (u.deliverWait src tag o) o ∧ KeepsHomes u (u.deliverWait src tag o) := by
  obtain ⟨hseq, hproc, hwake⟩ := halike
  have hkeeps : KeepsHomes u (u.deliverWait src tag o) :=
    deliverWait_keepsHomes tag fun ho p hp => hseq p ▸ htrap ho p (hproc src ▸ hp)
  refine ⟨⟨?queue, fun h hne => ?tally, fun i w hp hwait htag => ?core⟩, hkeeps⟩
  case queue => rw [hkeeps.queue, hqueue]
  case tally => rw [hkeeps.tally h, htally h hne]
  case core =>
    rw [← hwake]
    exact deliverWait_reachesCore u src tag o i w ((hproc src).trans hp) ((congrArg Seq.wait (hseq (.core i))).trans hwait) htag

/-! ### The wait at the front of its island's queue -/

theorem popOp_queue {s : State} {isl : Fin 5} {op : TallyOp} {rest : List TallyOp} (h : (s.tly.queue)[isl] = op :: rest) :
    ((s.popOp isl).tly.queue)[isl] = rest := by
  rw [State.popOp, State.modTly_tly, vmod_self, h, List.drop_one, List.tail_cons]

theorem nextOp_head {s : State} {isl : Fin 5} {op : TallyOp} {rest : List TallyOp} (hq : (s.tly.queue)[isl] = op :: rest)
    (hdue : s.grantDue isl = false) : s.nextOp isl = some op := by
  rw [State.nextOp, hdue, hq]; rfl

/-- With no snapshot in progress an operation changes its home alone (R247). -/
theorem applyHome_noSnap {s : State} (hsnap : s.snap = none) (home : Nat) (marked : Bool) (f : Tally → Tally) :
    s.applyHome home marked f = s.setTally home (f (s.tally home)) := by
  have hsnap' : (s.setTally home (f (s.tally home))).snap = none := hsnap
  simp only [State.applyHome, hsnap']

theorem cutOnGrant_noSnap {s : State} (hsnap : s.snap = none) (home : Nat) (src : Src) : s.cutOnGrant home src = s := by
  simp only [State.cutOnGrant, hsnap]

/-- The front operation of an island has left its queue and made the tally `y` of its home. -/
def State.homeTakes (s : State) (isl : Fin 5) (home : Nat) (y : Tally) : State := (s.popOp isl).setTally home y

theorem homeTakes_alike (s : State) (isl : Fin 5) (home : Nat) (y : Tally) : WaitsAlike s (s.homeTakes isl home y) :=
  ⟨fun p => by cases p <;> rfl, fun _ => rfl, rfl⟩

theorem raise_alike (s : State) (isl : Fin 5) (cat : BitVec 8) (src : Src) (part : BitVec 4) (info : Nat) :
    WaitsAlike s ((s.popOp isl).raise cat src part info) :=
  ⟨fun p => by cases p <;> rfl, fun _ => rfl, rfl⟩

theorem raiseViolation_alike (s : State) (isl : Fin 5) (src : Src) (part : BitVec 4) (info : Nat) :
    WaitsAlike s ((s.popOp isl).raiseViolation src part info false) :=
  ⟨fun p => by cases p <;> rfl, fun _ => rfl, rfl⟩

theorem homeTakes_tally_self {s : State} (hwf : tabWf Tally.off s.tly.tab = true) (isl : Fin 5) (home : Nat) (y : Tally) :
    (s.homeTakes isl home y).tally home = y :=
  tabGet_tabPut _ _ _ _ hwf

theorem homeTakes_tally_ne {s : State} (hwf : tabWf Tally.off s.tly.tab = true) (isl : Fin 5) {home h : Nat} (hne : h ≠ home)
    (y : Tally) : (s.homeTakes isl home y).tally h = s.tally h :=
  tabGet_tabPut_ne _ _ _ _ _ hwf hne

section Arrival
variable {s : State} {isl : Fin 5} {home : Nat} {src : Src} {part : BitVec 4} {tag : Nat} {n : BitVec 8} {dl : Option (BitVec 64)}
  {poll m : Bool} {rest : List TallyOp}
  (hq : (s.tly.queue)[isl] = .wait home src part tag n dl poll m :: rest)
include hq

theorem homeTakes_queue (y : Tally) : ((s.homeTakes isl home y).tly.queue)[isl] = rest := popOp_queue hq

/-- What a refusal leaves: `u` differs from `s` in the queue and the errors entered alone. -/
theorem refused_ends {u : State} {cat : BitVec 8}
    (hexec : exec (.tallyWaitApply isl) s = .next (u.deliverWait src tag .refused)) (htly : u.tly = (s.popOp isl).tly)
    (halike : WaitsAlike s u) (hraises : Raises s u cat src home) (htrap : RefusalTraps s src) :
    ∃ t, exec (.tallyWaitApply isl) s = .next t ∧ EndsWait isl home src tag rest s t .refused ∧ t.tly.tab = s.tly.tab ∧
      Raises s t cat src home := by
  have hqueue : (u.tly.queue)[isl] = rest := by rw [htly, popOp_queue hq]
  have htab : u.tly.tab = s.tly.tab := by rw [htly]; rfl
  obtain ⟨hends, hkeeps⟩ := deliverWait_endsWait tag halike hqueue (fun h _ => congrArg (tabGet Tally.off · h) htab) fun _ => htrap
  exact ⟨_, hexec, hends, hkeeps.tab.trans htab, by rwa [Raises, hkeeps.saf]⟩

/-- What an answer that ends the wait leaves: its home has taken the tally `y`, and the outcome is no refusal. -/
theorem answered_ends {y : Tally} {o : WaitOutcome} (hwf : tabWf Tally.off s.tly.tab = true) (ho : o ≠ .refused)
    (hexec : exec (.tallyWaitApply isl) s = .next ((s.homeTakes isl home y).deliverWait src tag o)) :
    ∃ t, exec (.tallyWaitApply isl) s = .next t ∧ EndsWait isl home src tag rest s t o ∧ t.tally home = y := by
  obtain ⟨hends, hkeeps⟩ := deliverWait_endsWait tag (homeTakes_alike s isl home y) (homeTakes_queue hq y)
    (fun h hne => homeTakes_tally_ne hwf isl hne y) (absurd · ho)
  exact ⟨_, hexec, hends, (hkeeps.tally home).trans (homeTakes_tally_self hwf isl home y)⟩

variable (hdue : s.grantDue isl = false)
include hdue

theorem exec_wait_disabled (hmode : (s.tally home).mode = .disabled) :
    exec (.tallyWaitApply isl) s = .next (((s.popOp isl).raise 0x23 src part home).deliverWait src tag .refused) := by
  have hrefuses : (s.popOp isl).homeRefuses home src part false = ((s.popOp isl).raise 0x23 src part home, true) := if_pos hmode
  change execTallyWaitApply isl s = _
  simp only [execTallyWaitApply, nextOp_head hq hdue, hrefuses]

theorem exec_wait_denied (hmode : (s.tally home).mode ≠ .disabled) (hdenied : s.homeAllowed (s.tally home) home src part false = false) :
    exec (.tallyWaitApply isl) s = .next (((s.popOp isl).raiseViolation src part home false).deliverWait src tag .refused) := by
  have hrefuses : (s.popOp isl).homeRefuses home src part false = ((s.popOp isl).raiseViolation src part home false, true) :=
    (if_neg hmode).trans (if_neg (ne_true_of_eq_false hdenied))
  change execTallyWaitApply isl s = _
  simp only [execTallyWaitApply, nextOp_head hq hdue, hrefuses]

variable (hsnap : s.snap = none) (hmode : (s.tally home).mode ≠ .disabled)
  (hallowed : s.homeAllowed (s.tally home) home src part false = true)
include hsnap hmode hallowed

/-- A wait that passes both checks of R200: the tally answers it. -/
theorem exec_wait_allowed :
    exec (.tallyWaitApply isl) s = .next (
      let answer := (s.tally home).wait { src := src, tag := tag, n := n, deadline := dl } poll
      let u := s.homeTakes isl home answer.1
      if answer.2 then u.deliverWait src tag .granted else if poll then u.deliverWait src tag .timedOut else u) := by
  have hrefuses : (s.popOp isl).homeRefuses home src part false = (s.popOp isl, false) := (if_neg hmode).trans (if_pos hallowed)
  have happly : ∀ f, (s.popOp isl).applyHome home m f = s.homeTakes isl home (f (s.tally home)) := fun f =>
    applyHome_noSnap (s := s.popOp isl) hsnap home m f
  have hcut : ∀ y, (s.homeTakes isl home y).cutOnGrant home src = s.homeTakes isl home y := fun y =>
    cutOnGrant_noSnap (s := s.homeTakes isl home y) hsnap home src
  change execTallyWaitApply isl s = _
  simp only [execTallyWaitApply, nextOp_head hq hdue, hrefuses, happly, hcut]
  rfl

theorem uncovered_wait_joins (h : (s.tally home).Uncovered n) (hpoll : poll = false) :
    exec (.tallyWaitApply isl) s = .next (s.homeTakes isl home { s.tally home with
      waiters := (s.tally home).waiters ++ [{ src := src, tag := tag, n := n, deadline := dl }] }) := by
  rw [exec_wait_allowed hq hdue hsnap hmode hallowed, Tally.wait_uncovered h, hpoll]
  rfl

variable (hwf : tabWf Tally.off s.tly.tab = true)
include hwf

theorem covered_wait_granted (hempty : (s.tally home).waiters = []) (hcovers : (s.tally home).covers n = true) :
    ∃ t, exec (.tallyWaitApply isl) s = .next t ∧ EndsWait isl home src tag rest s t .granted ∧
      t.tally home = (s.tally home).consume n := by
  refine answered_ends hq hwf (by decide) ?_
  rw [exec_wait_allowed hq hdue hsnap hmode hallowed, Tally.wait_covered hempty hcovers]
  rfl

theorem uncovered_poll_timesOut (h : (s.tally home).Uncovered n) (hpoll : poll = true) :
    ∃ t, exec (.tallyWaitApply isl) s = .next t ∧ EndsWait isl home src tag rest s t .timedOut ∧ t.tally home = s.tally home := by
  refine answered_ends hq hwf (by decide) ?_
  rw [exec_wait_allowed hq hdue hsnap hmode hallowed, Tally.wait_uncovered h, hpoll]
  rfl

end Arrival

/-- Settles O32: each outcome of a wait at its home is one application of the tally's answer and, where the wait ends, its delivery. -/
theorem waitsAreGrantedInOrder : Obligations.WaitsAreGrantedInOrder := by
  intro s isl home src part tag n dl poll m rest hq hdue hsnap hwf
  refine ⟨fun hallowed => ⟨fun hmode hempty hcount => ?counting, fun hmode hempty hcount => ?event,
    fun huncovered hmode hpoll => ?joins, fun huncovered hmode hpoll => ?poll⟩,
    fun htrap => ⟨fun hmode => ?disabled, fun hmode hdenied => ?denied⟩⟩
  case counting =>
    obtain ⟨t, hexec, hends, hhome⟩ := covered_wait_granted hq hdue hsnap (by simp [hmode]) hallowed hwf hempty
      (Tally.covers_counting hmode hcount)
    exact ⟨t, hexec, hends, by rw [hhome, Tally.consume_counting hmode hcount], by rw [hhome, Tally.consume_waiters, hempty]⟩
  case event =>
    obtain ⟨t, hexec, hends, hhome⟩ := covered_wait_granted hq hdue hsnap (by simp [hmode]) hallowed hwf hempty
      (Tally.covers_event n hmode hcount)
    exact ⟨t, hexec, hends, by rw [hhome, Tally.consume_event n hmode], by rw [hhome, Tally.consume_waiters, hempty]⟩
  case joins =>
    refine ⟨_, uncovered_wait_joins hq hdue hsnap hmode hallowed huncovered hpoll, homeTakes_queue hq _, ?_, ?_,
      fun h hne => homeTakes_tally_ne hwf isl hne _, rfl⟩ <;> rw [homeTakes_tally_self hwf]
  case poll => exact uncovered_poll_timesOut hq hdue hsnap hmode hallowed hwf huncovered hpoll
  case disabled =>
    exact refused_ends hq (exec_wait_disabled hq hdue hmode) rfl (raise_alike s isl 0x23 src part home)
      (raise_raises (s.popOp isl) 0x23 src part home) htrap
  case denied =>
    exact refused_ends hq (exec_wait_denied hq hdue hmode hdenied) rfl (raiseViolation_alike s isl src part home)
      (raise_raises (s.popOp isl) 0x20 src part home) htrap

end Sys2Proof.Machine
end

section
/-! Host commands that complete at once (R219, R220, R222): a served command and its one completion, then NOP, QUERY_OP and FENCE,
the commands on long operations, calibration, time and the power budget. -/

namespace Sys2Proof.Machine

/-! ### A command that is served, and its completion -/

section Completions

variable {s t u : State} {q : Fin 16} {e : CmdEntry}

/-- The row of a served command finds it in hand and due. -/
theorem Served.due (h : Served s q e) (op : Nat) (hop : e.opcode.toNat = op) : s.cmdDue q op = some e := by
  obtain ⟨hcur, hserved⟩ := h
  have hturn : (!opIsMp op || (s.cmd.mpq.head? == some q && !s.pwr.mpAbsent)) = true := by
    rcases hserved with hown | ⟨hhead, hpresent⟩
    · have hnotMp : opIsMp op = false := by
        simp only [List.mem_cons, List.not_mem_nil, or_false] at hown
        rcases hown with h | h | h | h <;> rw [← hop, h] <;> rfl
      rw [hnotMp]; rfl
    · simp [hhead, hpresent]
  simp only [State.cmdDue, hcur, hop, decide_true, hturn, Bool.and_self, if_true]

theorem Served.cmdRow (h : Served s q e) (op : Nat) (hop : e.opcode.toNat = op) (body : CmdEntry → State → State) :
    cmdRow q op s body = .next (body e s) := by
  rw [Machine.cmdRow, h.due _ hop]

theorem Served.timeRow (h : Served s q e) (hop : e.opcode.toNat = 0x1A) {mode : Nat} (hmode : (e.p[0]).toNat = mode)
    (body : CmdEntry → State → State) : timeRow q mode s body = .next (body e s) := by
  rw [Machine.timeRow, h.due _ hop]
  exact congrArg Host.Outcome.next (if_neg (not_not_intro hmode))

theorem OnlyCmd.trans (hsu : OnlyCmd s u) (hut : OnlyCmd u t) : OnlyCmd s t := by
  unfold OnlyCmd at *
  calc { t with cmd := s.cmd }
    _ = { u with cmd := s.cmd } := congrArg (fun x : State => { x with cmd := s.cmd }) hut
    _ = s := hsu

/-- A part of the state that does not depend on the queues and the operations is as it was. -/
theorem OnlyCmd.frame {α : Type} (h : OnlyCmd s t) (f : State → α) (hf : ∀ x c, f { x with cmd := c } = f x) : f t = f s :=
  (hf t s.cmd).symm.trans (congrArg f h)

theorem post_onlyCmd (s : State) (q : Fin 16) (c : ComplEnt) : OnlyCmd s (s.post q c) := by
  unfold State.post
  split <;> rfl

@[simp] theorem post_ops (s : State) (q : Fin 16) (c : ComplEnt) : (s.post q c).cmd.ops = s.cmd.ops := by
  unfold State.post
  split <;> rfl

@[simp] theorem post_mpq (s : State) (q : Fin 16) (c : ComplEnt) : (s.post q c).cmd.mpq = s.cmd.mpq := by
  unfold State.post
  split <;> rfl

theorem post_pair (s : State) (q : Fin 16) (c : ComplEnt) : (s.post q c).cmd.q[q] =
    if (s.cmd.q[q]).enable then { s.cmd.q[q] with held := (s.cmd.q[q]).held ++ [c] } else s.cmd.q[q] := by
  unfold State.post
  split
  · exact vmod_self ..
  · rfl

theorem dropCmd_onlyCmd (s : State) (q : Fin 16) : OnlyCmd s (s.dropCmd q) := rfl

@[simp] theorem dropCmd_pair (s : State) (q : Fin 16) : (s.dropCmd q).cmd.q[q] = { s.cmd.q[q] with cur := none } := by
  rw [State.dropCmd, State.modCmd_cmd, State.modQ_q, vmod_self]

/-- The final entry of a command that completes at once (R219). -/
def endEntry (e : CmdEntry) (x : QPair) (st : BitVec 8) (i0 i1 : BitVec 32) : ComplEnt :=
  { cid := e.cid, sqhead := x.sqHead.setWidth 16, status := st, long := false, final := true, info0 := i0, info1 := i1, irq := e.irq }

variable (st : BitVec 8) (i0 i1 : BitVec 32)

/-- With no command in hand there is nothing to complete. -/
theorem finish_none (hcur : (s.cmd.q[q]).cur = none) : s.finish q st i0 i1 = s := by
  simp only [State.finish, hcur]

theorem finish_some (hcur : (s.cmd.q[q]).cur = some e) :
    s.finish q st i0 i1 = (s.dropCmd q).post q (endEntry e (s.cmd.q[q]) st i0 i1) := by
  simp only [State.finish, hcur, endEntry]

variable (s q)

theorem finish_onlyCmd : OnlyCmd s (s.finish q st i0 i1) := by
  cases hcur : (s.cmd.q[q]).cur with
  | none => rw [finish_none st i0 i1 hcur]; rfl
  | some e => rw [finish_some st i0 i1 hcur]; exact (dropCmd_onlyCmd s q).trans (post_onlyCmd ..)

@[simp] theorem finish_ops : (s.finish q st i0 i1).cmd.ops = s.cmd.ops := by
  cases hcur : (s.cmd.q[q]).cur with
  | none => rw [finish_none st i0 i1 hcur]
  | some e => rw [finish_some st i0 i1 hcur, post_ops]; rfl

@[simp] theorem finish_prog : (s.finish q st i0 i1).prog = s.prog := (finish_onlyCmd s q st i0 i1).frame State.prog fun _ _ => rfl
@[simp] theorem finish_pwr : (s.finish q st i0 i1).pwr = s.pwr := (finish_onlyCmd s q st i0 i1).frame State.pwr fun _ _ => rfl
@[simp] theorem finish_tim : (s.finish q st i0 i1).tim = s.tim := (finish_onlyCmd s q st i0 i1).frame State.tim fun _ _ => rfl
@[simp] theorem finish_ifc : (s.finish q st i0 i1).ifc = s.ifc := (finish_onlyCmd s q st i0 i1).frame State.ifc fun _ _ => rfl
@[simp] theorem finish_mem : (s.finish q st i0 i1).mem = s.mem := (finish_onlyCmd s q st i0 i1).frame State.mem fun _ _ => rfl
@[simp] theorem finish_flash : (s.finish q st i0 i1).flash = s.flash := (finish_onlyCmd s q st i0 i1).frame State.flash fun _ _ => rfl
@[simp] theorem finish_hostMem : (s.finish q st i0 i1).hostMem = s.hostMem :=
  (finish_onlyCmd s q st i0 i1).frame State.hostMem fun _ _ => rfl

variable {s q}

/-- A command completes from any state on the way that has left its queue pair alone (R220). -/
theorem Served.completes (h : Served s q e) (hpair : u.cmd.q[q] = s.cmd.q[q]) :
    Completes s (u.finish q st i0 i1) q e st i0 i1 := by
  have hcur : (u.cmd.q[q]).cur = some e := hpair ▸ h.1
  have hafter := post_pair (u.dropCmd q) q (endEntry e (u.cmd.q[q]) st i0 i1)
  rw [dropCmd_pair, hpair] at hafter
  rw [finish_some st i0 i1 hcur, hpair]
  refine ⟨?_, ?_, fun hon => ?_⟩
  · rw [hafter]; split <;> rfl
  · rw [post_mpq]; simp [State.dropCmd]
  · rw [if_pos hon] at hafter
    rw [hafter]; simp [endEntry]

end Completions

/-! ### NOP, QUERY_OP and FENCE (R222, R225, R227, R230) -/

section Queries

variable {s : State} {q : Fin 16} {e : CmdEntry} {k : Fin 64} {o : LongOp}

theorem exec_nopCommand (q : Fin 16) (s : State) : exec (.nopCommand q) s = execNopCommand q s := rfl
theorem exec_queryOp (q : Fin 16) (s : State) : exec (.queryOp q) s = execQueryOp q s := rfl

theorem nopCommand_completes (h : Served s q e) (hop : e.opcode = 0x00) :
    ∃ t, exec (.nopCommand q) s = .next t ∧ Completes s t q e 0x00 0 0 ∧ OnlyCmd s t ∧ t.cmd.ops = s.cmd.ops :=
  ⟨_, (exec_nopCommand q s).trans (h.cmdRow 0x00 (congrArg BitVec.toNat hop) _), h.completes _ _ _ rfl,
    finish_onlyCmd .., finish_ops ..⟩

theorem handleOf_toNat (op : BitVec 8) (w : BitVec 18) (k : Fin 64) :
    (handleOf op w k).toNat = (op.toNat * 2 ^ 18 + w.toNat) * 2 ^ 6 + k.val := by
  have hk : (BitVec.ofNat 6 k.val).toNat = k.val := by rw [BitVec.toNat_ofNat]; omega
  rw [handleOf, BitVec.toNat_append, BitVec.toNat_append, hk, ← Nat.shiftLeft_add_eq_or_of_lt k.isLt,
    ← Nat.shiftLeft_add_eq_or_of_lt w.isLt, Nat.shiftLeft_eq, Nat.shiftLeft_eq]

/-- A handle of slot `k` names the slot's operation when it carries its sequence number, and none otherwise (R227). -/
theorem opOf_handleOf (hk : s.cmd.ops[k] = some o) (hseq : o.seq ≠ 0) (w : BitVec 18) :
    s.opOf ((handleOf o.opcode w k).setWidth 64) = if w = o.seq then some (k, o) else none := by
  have hwide : ((handleOf o.opcode w k).setWidth 64).toNat = (handleOf o.opcode w k).toNat :=
    BitVec.toNat_setWidth_of_le (by decide)
  have hslot : finOf 64 (nbits (handleOf o.opcode w k).toNat 0 6) = some k := by
    have hbits : nbits (handleOf o.opcode w k).toNat 0 6 = k.val := by
      rw [nbits, handleOf_toNat]; omega
    rw [hbits, finOf, dif_pos k.isLt]
  have hsame : (handleOf o.opcode w k).toNat = (handleOf o.opcode o.seq k).toNat ↔ w = o.seq := by
    rw [handleOf_toNat, handleOf_toNat, ← BitVec.toNat_inj]; omega
  have hnonzero : o.seq.toNat ≠ 0 := fun hz => hseq (BitVec.eq_of_toNat_eq hz)
  simp only [State.opOf, hwide, hslot, hk, (handleOf o.opcode w k).isLt, hnonzero, hsame, ne_eq, not_false_eq_true, decide_true,
    Bool.and_true, Bool.true_and, decide_eq_true_eq]

/-- The served command `e` carries the handle of the operation `o` in slot `k`. -/
structure NamesOp (s : State) (e : CmdEntry) (k : Fin 64) (o : LongOp) : Prop where
  slot : s.cmd.ops[k] = some o
  seq : o.seq ≠ 0
  handle : e.p[0] = (handleOf o.opcode o.seq k).setWidth 64

/-- The row of a command on an operation acts on the operation that it names. -/
theorem Served.opRow (h : Served s q e) (hn : NamesOp s e k o) (op : Nat) (hop : e.opcode.toNat = op)
    (body : CmdEntry → Fin 64 → LongOp → State → State) :
    Machine.cmdRow q op s (fun e s => withOp q e s (body e)) = .next (body e k o s) := by
  rw [h.cmdRow op hop, withOp, hn.handle, opOf_handleOf hn.slot hn.seq, if_pos rfl]

/-- The state code and the progress that QUERY_OP reports (R230). -/
theorem queryOp_reports (h : Served s q e) (hop : e.opcode = 0x0B) (hn : NamesOp s e k o) :
    ∃ t, exec (.queryOp q) s = .next t ∧ OnlyCmd s t ∧ t.cmd.ops = s.cmd.ops ∧
      ∃ c, (o.state, c) ∈ [(OpState.queued, 0), (.running, 1), (.suspending, 2), (.suspended, 3), (.cancelling, 4), (.done, 5),
        (.cancelled, 6), (.failed, 7)] ∧ Completes s t q e 0x00 c (BitVec.ofNat 32 o.permille) := by
  refine ⟨_, h.opRow hn 0x0B (congrArg BitVec.toNat hop) _, finish_onlyCmd .., finish_ops .., BitVec.ofNat 32 o.state.code, ?_,
    h.completes _ _ _ rfl⟩
  cases o.state <;> decide

/-- The slot of the handle holds another sequence number (R230). -/
theorem queryOp_stale (h : Served s q e) (hop : e.opcode = 0x0B) (hk : s.cmd.ops[k] = some o) (hseq : o.seq ≠ 0) {w : BitVec 18}
    (hw : w ≠ o.seq) (hp : e.p[0] = (handleOf o.opcode w k).setWidth 64) :
    ∃ t, exec (.queryOp q) s = .next t ∧ OnlyCmd s t ∧ t.cmd.ops = s.cmd.ops ∧ Completes s t q e 0x09 0 0 := by
  have hexec : exec (.queryOp q) s = .next (s.finish q csIllegal 0 0) := by
    refine ((exec_queryOp q s).trans (h.cmdRow 0x0B (congrArg BitVec.toNat hop) _)).trans ?_
    rw [withOp, hp, opOf_handleOf hk hseq, if_neg hw]
  exact ⟨_, hexec, finish_onlyCmd .., finish_ops .., h.completes _ _ _ rfl⟩

/-! #### What a FENCE waits for -/

/-- A command of another pair, fetched no later than that of pair `q`, is in hand. -/
def EarlierCmd (s : State) (q r : Fin 16) : Prop := r ≠ q ∧ (s.cmd.q[r]).cur ≠ none ∧ (s.cmd.q[r]).order ≤ (s.cmd.q[q]).order

/-- An operation of a command fetched no later than that of pair `q` has not ended. -/
def EarlierOp (s : State) (q : Fin 16) (o : LongOp) : Prop :=
  o.state.terminal = false ∧ o.internal = false ∧ o.order ≤ (s.cmd.q[q]).order

theorem mem_range_finOf {n : Nat} (i : Fin n) : i ∈ (List.range n).filterMap (finOf n) :=
  List.mem_filterMap.mpr ⟨i.val, List.mem_range.mpr i.isLt, dif_pos i.isLt⟩

theorem mem_liveOps : (k, o) ∈ s.liveOps ↔ s.cmd.ops[k] = some o ∧ o.state.terminal = false := by
  simp only [State.liveOps, List.mem_filterMap]
  constructor
  · rintro ⟨j, -, hj⟩
    split at hj
    · next o' ho' =>
      split at hj
      · cases hj
      · next hlive => cases hj; exact ⟨ho', by simpa using hlive⟩
    · cases hj
  · rintro ⟨hk, hlive⟩
    exact ⟨k, mem_range_finOf k, by simp [hk, hlive]⟩

theorem noEarlierCmd_iff : ((List.range 16).filterMap (finOf 16)).all (fun r =>
      r == q || (s.cmd.q[r]).cur.isNone || (s.cmd.q[q]).order < (s.cmd.q[r]).order) = true ↔ ∀ r, ¬ EarlierCmd s q r := by
  have hone : ∀ r, (r == q || (s.cmd.q[r]).cur.isNone || (s.cmd.q[q]).order < (s.cmd.q[r]).order) = true ↔ ¬ EarlierCmd s q r := by
    intro r
    simp only [EarlierCmd, Bool.or_eq_true, beq_iff_eq, Option.isNone_iff_eq_none, decide_eq_true_eq, ne_eq,
      Decidable.not_and_iff_not_or_not, Decidable.not_not, Nat.not_le, or_assoc]
  rw [List.all_eq_true]
  exact ⟨fun hall r => (hone r).mp (hall r (mem_range_finOf r)), fun hall r _ => (hone r).mpr (hall r)⟩

theorem noEarlierOp_iff (allq : Bool) :
    s.liveOps.all (fun x => x.2.internal || (s.cmd.q[q]).order < x.2.order || (!allq && x.2.q != q)) = true ↔
      ∀ (k : Fin 64) (o : LongOp), s.cmd.ops[k] = some o → ¬ (EarlierOp s q o ∧ (allq = true ∨ o.q = q)) := by
  have hone : ∀ o : LongOp, o.state.terminal = false →
      ((o.internal || (s.cmd.q[q]).order < o.order || (!allq && o.q != q)) = true ↔
        ¬ (EarlierOp s q o ∧ (allq = true ∨ o.q = q))) := by
    intro o hlive
    simp only [EarlierOp, hlive, Bool.or_eq_true, decide_eq_true_eq, Bool.and_eq_true, Bool.not_eq_true', bne_iff_ne, ne_eq, true_and,
      Decidable.not_and_iff_not_or_not, Nat.not_le, not_or, Bool.not_eq_false, Bool.not_eq_true]
  rw [List.all_eq_true]
  refine ⟨fun hall k o hk hwaits => ?_, fun hall x hx => ?_⟩
  · obtain ⟨⟨hlive, -, -⟩, -⟩ := id hwaits
    exact (hone o hlive).mp (hall (k, o) (mem_liveOps.mpr ⟨hk, hlive⟩)) hwaits
  · obtain ⟨hk, hlive⟩ := mem_liveOps.mp hx
    exact (hone x.2 hlive).mpr (hall x.1 x.2 hk)

theorem fenceClear_iff (allq long : Bool) : s.fenceClear q allq long = true ↔
    (allq = true → ∀ r, ¬ EarlierCmd s q r) ∧
    (long = true → ∀ (k : Fin 64) (o : LongOp), s.cmd.ops[k] = some o → ¬ (EarlierOp s q o ∧ (allq = true ∨ o.q = q))) := by
  simp only [State.fenceClear, Bool.and_eq_true, Bool.or_eq_true, noEarlierCmd_iff, noEarlierOp_iff, Bool.not_eq_true']
  cases allq <;> cases long <;> simp

theorem exec_fence (h : Served s q e) (hop : e.opcode = 0x1F) : exec (.fence q) s = .next
    (if 3 < (e.p[0]).toNat then s.finish q csIllegal 0 0
     else if s.fenceClear q ((e.p[0]).getLsbD 0) ((e.p[0]).getLsbD 1) then s.finish q csOk 0 0 else s) :=
  show execFence q s = _ from h.cmdRow 0x1F (congrArg BitVec.toNat hop) _

theorem fence_illegal (h : Served s q e) (hop : e.opcode = 0x1F) (hp : 3 < (e.p[0]).toNat) :
    ∃ t, exec (.fence q) s = .next t ∧ Completes s t q e 0x09 0 0 :=
  ⟨_, (exec_fence h hop).trans (congrArg Host.Outcome.next (if_pos hp)), h.completes _ _ _ rfl⟩

theorem fence_completes (h : Served s q e) (hop : e.opcode = 0x1F) (hp : (e.p[0]).toNat ≤ 3)
    (hclear : s.fenceClear q ((e.p[0]).getLsbD 0) ((e.p[0]).getLsbD 1) = true) :
    ∃ t, exec (.fence q) s = .next t ∧ Completes s t q e 0x00 0 0 ∧ OnlyCmd s t :=
  ⟨_, (exec_fence h hop).trans (congrArg Host.Outcome.next ((if_neg (by omega)).trans (if_pos hclear))),
    h.completes _ _ _ rfl, finish_onlyCmd ..⟩

theorem fence_waits (h : Served s q e) (hop : e.opcode = 0x1F) (hp : (e.p[0]).toNat ≤ 3)
    (hclear : s.fenceClear q ((e.p[0]).getLsbD 0) ((e.p[0]).getLsbD 1) ≠ true) : exec (.fence q) s = .next s :=
  (exec_fence h hop).trans (congrArg Host.Outcome.next ((if_neg (by omega)).trans (if_neg hclear)))

end Queries

/-! ### SUSPEND, RESUME and CANCEL (R232, R233) -/

section Operations

/-- The command completes OK with its operation in state `st`. -/
def OpMoves (s t : State) (q : Fin 16) (e : CmdEntry) (k : Fin 64) (o : LongOp) (st : OpState) : Prop :=
  t.cmd.ops[k] = some { o with state := st } ∧ Completes s t q e 0x00 0 0

/-- The command completes ILLEGAL_STATE with every operation as it was. -/
def OpStays (c : Instr) (s : State) (q : Fin 16) (e : CmdEntry) : Prop :=
  ∃ t, exec c s = .next t ∧ t.cmd.ops = s.cmd.ops ∧ Completes s t q e 0x09 0 0 ∧ OnlyCmd s t

variable {s t u : State} {q : Fin 16} {e : CmdEntry} {k : Fin 64} {o : LongOp}

@[simp] theorem modOp_self (s : State) (k : Fin 64) (f : LongOp → LongOp) : (s.modOp k f).cmd.ops[k] = (s.cmd.ops[k]).map f :=
  vmod_self ..

theorem modOp_onlyCmd (s : State) (k : Fin 64) (f : LongOp → LongOp) : OnlyCmd s (s.modOp k f) := rfl

theorem opTo_onlyCmd (s : State) (q : Fin 16) (k : Fin 64) (st : OpState) : OnlyCmd s (s.opTo q k st) :=
  (modOp_onlyCmd ..).trans (finish_onlyCmd ..)

/-- An operation takes a state, on a path that has left the queues and the operations alone. -/
theorem Served.moves (h : Served s q e) (hk : s.cmd.ops[k] = some o) (hcmd : u.cmd = s.cmd) (st : OpState) :
    OpMoves s (u.opTo q k st) q e k o st := by
  have hpair : (u.modOp k fun o => { o with state := st }).cmd.q[q] = s.cmd.q[q] := by
    rw [show (u.modOp k _).cmd.q = u.cmd.q from rfl, hcmd]
  refine ⟨?_, h.completes _ _ _ hpair⟩
  rw [State.opTo, finish_ops, modOp_self, hcmd, hk]; rfl

theorem Served.stays {c : Instr} (h : Served s q e) (hexec : exec c s = .next (s.finish q csIllegal 0 0)) : OpStays c s q e :=
  ⟨_, hexec, finish_ops .., h.completes _ _ _ rfl, finish_onlyCmd ..⟩

/-- What a command leaves in the queues and the operations does not depend on the rest of the state. -/
theorem OpMoves.of_cmd {st : OpState} (h : OpMoves s t q e k o st) (hcmd : u.cmd = t.cmd) : OpMoves s u q e k o st := by
  obtain ⟨hslot, hcur, hmpq, hentry⟩ := h
  exact ⟨hcmd ▸ hslot, hcmd ▸ hcur, hcmd ▸ hmpq, hcmd ▸ hentry⟩

section Rows

variable (h : Served s q e) (hn : NamesOp s e k o)
include h hn

theorem exec_suspend_waiting (hop : e.opcode = 0x08) (hst : o.state = .queued ∨ o.state = .suspended) :
    exec (.suspend q) s = .next (s.opTo q k .suspended) := by
  refine (h.opRow hn 0x08 (congrArg BitVec.toNat hop) _).trans ?_
  rcases hst with hst | hst <;> rw [hst]

theorem exec_suspend_running (hop : e.opcode = 0x08) (hst : o.state = .running ∨ o.state = .suspending) :
    exec (.suspend q) s = .next (s.opTo q k .suspending) := by
  refine (h.opRow hn 0x08 (congrArg BitVec.toNat hop) _).trans ?_
  rcases hst with hst | hst <;> rw [hst]

theorem exec_suspend_ending (hop : e.opcode = 0x08) (hst : o.state = .cancelling ∨ o.state.terminal = true) :
    exec (.suspend q) s = .next (s.finish q csIllegal 0 0) := by
  refine (h.opRow hn 0x08 (congrArg BitVec.toNat hop) _).trans ?_
  cases hs : o.state <;> simp [hs, OpState.terminal] at hst ⊢

theorem exec_resume_waiting (hop : e.opcode = 0x09) (hst : o.state = .queued ∨ (o.state = .suspended ∧ o.started = false)) :
    exec (.resume q) s = .next (s.opTo q k .queued) := by
  refine (h.opRow hn 0x09 (congrArg BitVec.toNat hop) _).trans ?_
  rcases hst with hst | ⟨hst, hnew⟩
  · rw [hst]
  · simp only [hst, hnew, Bool.false_eq_true, if_false]

theorem exec_resume_running (hop : e.opcode = 0x09) (hst : o.state = .running ∨ o.state = .suspending) :
    exec (.resume q) s = .next (s.opTo q k .running) := by
  refine (h.opRow hn 0x09 (congrArg BitVec.toNat hop) _).trans ?_
  rcases hst with hst | hst <;> rw [hst]

theorem exec_resume_suspended (hop : e.opcode = 0x09) (hst : o.state = .suspended) (hold : o.started = true) :
    exec (.resume q) s = .next ((s.opTo q k .running).resumeScan o) := by
  refine (h.opRow hn 0x09 (congrArg BitVec.toNat hop) _).trans ?_
  simp only [hst, hold, if_true]

theorem exec_resume_ending (hop : e.opcode = 0x09) (hst : o.state = .cancelling ∨ o.state.terminal = true) :
    exec (.resume q) s = .next (s.finish q csIllegal 0 0) := by
  refine (h.opRow hn 0x09 (congrArg BitVec.toNat hop) _).trans ?_
  cases hs : o.state <;> simp [hs, OpState.terminal] at hst ⊢

theorem exec_cancel_started (hop : e.opcode = 0x0A) (hst : o.state = .running ∨ o.state = .suspending ∨ o.state = .cancelling ∨
      (o.state = .suspended ∧ o.started = true)) :
    exec (.cancel q) s =
      .next ((s.modWear fun w => { w with armed := w.armed.filter fun a => a.2.2 ≠ some k }).opTo q k .cancelling) := by
  refine (h.opRow hn 0x0A (congrArg BitVec.toNat hop) _).trans ?_
  rcases hst with hst | hst | hst | ⟨hst, hold⟩
  · rw [hst]
  · rw [hst]
  · rw [hst]
  · simp only [hst, hold, if_true]

theorem exec_cancel_waiting (hop : e.opcode = 0x0A) (hst : o.state = .queued ∨ (o.state = .suspended ∧ o.started = false)) :
    exec (.cancel q) s = .next ((s.cancelNow k o).finish q csOk 0 0) := by
  refine (h.opRow hn 0x0A (congrArg BitVec.toNat hop) _).trans ?_
  rcases hst with hst | ⟨hst, hnew⟩
  · rw [hst]
  · simp only [hst, hnew, Bool.false_eq_true, if_false]

theorem exec_cancel_ended (hop : e.opcode = 0x0A) (hst : o.state.terminal = true) :
    exec (.cancel q) s = .next (s.finish q csIllegal 0 0) := by
  refine (h.opRow hn 0x0A (congrArg BitVec.toNat hop) _).trans ?_
  cases hs : o.state <;> simp [hs, OpState.terminal] at hst ⊢

end Rows

theorem cvuNext_cmd (s : State) (u : Fin 4) : (s.cvuNext u).cmd = s.cmd := by
  unfold State.cvuNext
  dsimp only
  split
  · rfl
  · split
    · rfl
    · split
      · rfl
      · split
        · split <;> rfl
        · rfl

theorem resumeScan_cmd (s : State) (o : LongOp) : (s.resumeScan o).cmd = s.cmd := by
  unfold State.resumeScan
  split
  · split
    · exact cvuNext_cmd ..
    · rfl
  · rfl

/-! #### An operation that ends (R231, R233) -/

theorem postFinal_onlyCmd (s : State) (k : Fin 64) : OnlyCmd s (s.postFinal k) := by
  unfold State.postFinal
  split
  · rfl
  · split
    · rfl
    · split
      · rfl
      · exact (modOp_onlyCmd ..).trans (post_onlyCmd ..)

/-- The final entry leaves the operation its state and its result. -/
theorem postFinal_slot (hk : s.cmd.ops[k] = some o) :
    ∃ p, (s.postFinal k).cmd.ops[k] = some p ∧ p.state = o.state ∧ p.result = o.result := by
  cases hresult : o.result with
  | none => exact ⟨o, by simp only [State.postFinal, hk, hresult], rfl, hresult⟩
  | some r =>
    by_cases hinternal : o.internal = true
    · exact ⟨o, by simp only [State.postFinal, hk, hresult, hinternal, if_true], rfl, hresult⟩
    · refine ⟨{ o with unposted := false }, ?_, rfl, hresult⟩
      simp only [State.postFinal, hk, hresult, if_neg hinternal, post_ops, modOp_self, Option.map_some]

/-- What an operation that has not ended becomes when it ends: it has its last state and its result. -/
def LongOp.ended (o : LongOp) (st : OpState) (r : BitVec 8 × BitVec 32 × BitVec 32) (late : Bool) : LongOp :=
  { o with state := st, result := some r, unposted := late }

theorem endOp_cancelled (hk : s.cmd.ops[k] = some o) (hlive : o.state.terminal = false) (cs : BitVec 8) (i0 i1 : BitVec 32) :
    ∃ late : Bool, s.endOp k .cancelled cs i0 i1 =
      if late then s.modOp k fun o => o.ended .cancelled (cs, i0, i1) late
      else (s.modOp k fun o => o.ended .cancelled (cs, i0, i1) late).postFinal k := by
  refine ⟨o.opcode = 0x11 && s.pwr.mpAbsent, ?_⟩
  simp only [State.endOp, hk, hlive, Bool.false_eq_true, if_false, reduceCtorEq, decide_false, Bool.and_false, LongOp.ended]

/-- An operation that has not ended ends CANCELLED, with its handle in INFO0 (R219). -/
theorem endH_cancelled (hk : s.cmd.ops[k] = some o) (hlive : o.state.terminal = false) (cs : BitVec 8) :
    OnlyCmd s (s.endH k .cancelled cs) ∧ ∃ p, (s.endH k .cancelled cs).cmd.ops[k] = some p ∧ p.state = .cancelled ∧
      p.result = some (cs, handleOf o.opcode o.seq k, 0) := by
  obtain ⟨late, hend⟩ := endOp_cancelled hk hlive cs (handleOf o.opcode o.seq k) 0
  have hslot : (s.modOp k fun x => x.ended .cancelled (cs, handleOf o.opcode o.seq k, 0) late).cmd.ops[k] =
      some (o.ended .cancelled (cs, handleOf o.opcode o.seq k, 0) late) := by rw [modOp_self, hk]; rfl
  have hendH : s.endH k .cancelled cs = s.endOp k .cancelled cs (handleOf o.opcode o.seq k) 0 := by simp only [State.endH, hk]
  rw [hendH, hend]
  split
  · exact ⟨modOp_onlyCmd .., _, hslot, rfl, rfl⟩
  · obtain ⟨p, hp, hstate, hresult⟩ := postFinal_slot hslot
    exact ⟨(modOp_onlyCmd ..).trans (postFinal_onlyCmd ..), p, hp, hstate, hresult⟩

theorem undoLoad_cmd (s : State) : s.undoLoad.cmd = s.cmd := by
  have hputs : ∀ (l : List (Nat × List Byte)) (u : State), (l.foldl (fun s x => s.putMem 8 x.1 x.2) u).cmd = u.cmd := by
    intro l
    induction l with
    | nil => exact fun _ => rfl
    | cons x l ih => exact fun u => ih (u.putMem 8 x.1 x.2)
  exact hputs s.prog.undo s

theorem cancelNow_ends (hk : s.cmd.ops[k] = some o) (hlive : o.state.terminal = false) :
    (∃ p, (s.cancelNow k o).cmd.ops[k] = some p ∧ p.state = .cancelled ∧ p.result = some (0x07, handleOf o.opcode o.seq k, 0)) ∧
    (o.opcode = 0x01 → (s.cancelNow k o).prog.state = .none) := by
  unfold State.cancelNow
  split
  · obtain ⟨honly, hends⟩ := endH_cancelled (undoLoad_cmd s ▸ hk) hlive csCancelled
    exact ⟨hends, fun _ => (honly.frame State.prog fun _ _ => rfl) ▸ rfl⟩
  · next hother => exact ⟨(endH_cancelled hk hlive csCancelled).2, fun hload => absurd hload hother⟩

end Operations

/-! ### CAL_READ and CAL_WRITE (R480) -/

section Calibration

variable {s : State} {q : Fin 16} {e : CmdEntry}

theorem memGetN_length (m : Mem) (a n : Nat) : (memGetN m a n).length = n := by simp [memGetN]

theorem calSet_length (s : State) : s.calSet.length = 9280 := memGetN_length ..

theorem calSet_getElem (s : State) {i : Nat} (hi : i < s.calSet.length) : s.calSet[i] = memGet s.flash (s.calArea + i) := by
  simp [State.calSet, calAt, memGetN]

theorem hostGet_length (s : State) (a n : Nat) : (s.hostGet a n).length = n := memGetN_length ..

theorem hostGet_getElem (s : State) (a n : Nat) {i : Nat} (hi : i < (s.hostGet a n).length) :
    (s.hostGet a n)[i] = memGet s.hostMem (a + i) := by
  simp [State.hostGet, memGetN]

theorem natLe_length : ∀ n v : Nat, (natLe n v).length = n
  | 0, _ => rfl
  | n + 1, v => congrArg (· + 1) (natLe_length n (v / 256))

/-! #### CAL_READ -/

theorem exec_calRead (h : Served s q e) (hop : e.opcode = 0x18) (hhost : e.hostmem = true) (hlen : 9280 ≤ (e.p[1]).toNat) :
    exec (.calRead q) s = .next ((s.hostPut (e.p[0]).toNat s.calSet).finish q csOk 0 0) := by
  have hfits : ¬ (e.p[1]).toNat < calSize := Nat.not_lt.mpr hlen
  show execCalRead q s = _
  simp only [execCalRead, h.due 0x18 (congrArg BitVec.toNat hop), hfits, if_false, bufWrite, hhost, if_true]

theorem hostPut_cmd (s : State) (a : Nat) (b : Bytes) : (s.hostPut a b).cmd = s.cmd := rfl
theorem hostPut_flash (s : State) (a : Nat) (b : Bytes) : (s.hostPut a b).flash = s.flash := rfl
theorem hostPut_hostMem (s : State) (a : Nat) (b : Bytes) : (s.hostPut a b).hostMem = memPutN s.hostMem a b := rfl

theorem calRead_copies (h : Served s q e) (hop : e.opcode = 0x18) (hhost : e.hostmem = true) (hlen : 9280 ≤ (e.p[1]).toNat)
    (hwf : Memory.wf s.hostMem = true) : ∃ t, exec (.calRead q) s = .next t ∧ Completes s t q e 0x00 0 0 ∧ t.flash = s.flash ∧
      (∀ n, n < 9280 → memGet t.hostMem ((e.p[0]).toNat + n) = memGet s.flash (s.calArea + n)) ∧
      (∀ a, a < (e.p[0]).toNat ∨ (e.p[0]).toNat + 9280 ≤ a → memGet t.hostMem a = memGet s.hostMem a) := by
  have hin : ∀ {n}, n < 9280 → n < s.calSet.length := fun hn => by rwa [calSet_length]
  refine ⟨_, exec_calRead h hop hhost hlen, h.completes _ _ _ (by rw [hostPut_cmd]), by rw [finish_flash, hostPut_flash],
    fun n hn => ?_, fun a ha => ?_⟩ <;> rw [finish_hostMem, hostPut_hostMem]
  · rw [memGet_memPutN_inside s.hostMem _ n s.calSet hwf (hin hn), calSet_getElem]
  · rw [memGet_memPutN_outside s.hostMem _ a s.calSet hwf (by rwa [calSet_length])]

/-! #### CAL_WRITE -/

/-- The area whose set is not in force. -/
def State.calOther (s : State) : Nat := if s.calArea = 0x700000 then 0x704000 else 0x700000

theorem calArea_cases (s : State) : s.calArea = 0x700000 ∨ s.calArea = 0x704000 := by
  unfold State.calArea
  dsimp only
  split
  · exact .inr rfl
  · exact .inl rfl

theorem calOther_spec (s : State) : s.calOther ≠ s.calArea ∧ (s.calOther = 0x700000 ∨ s.calOther = 0x704000) := by
  rcases calArea_cases s with h | h <;> simp [State.calOther, h]

/-- Past a replaced front of `n` bytes a list is as it was. -/
theorem getElem?_append_drop {α : Type} {front b : List α} {n i : Nat} (hfront : front.length = n) (hi : n ≤ i) :
    (front ++ b.drop n)[i]? = b[i]? := by
  rw [List.getElem?_append_right (hfront ▸ hi), List.getElem?_drop, hfront, Nat.add_sub_cancel' hi]

theorem sub_zero_length {b : Bytes} {n : Nat} (h : n ≤ b.length) : (sub b 0 n).length = n := by
  rw [sub, List.drop_zero, List.length_take, Nat.min_eq_left h]

/-- A set with WCOUNT incremented and the CRC not yet recomputed. -/
def calCounted (b : Bytes) : Bytes := sub b 0 8 ++ natLe 4 (calWcountOf b + 1) ++ b.drop 12

theorem calNext_eq (b : Bytes) :
    calNext b = sub (calCounted b) 0 0x3C ++ natLe 4 (calCrc (calCounted b)) ++ (calCounted b).drop 0x40 := rfl

/-- CAL_WRITE replaces WCOUNT and the CRC, which lie below 0x40 (R479, R480). -/
theorem calNext_spec {b : Bytes} (hb : b.length = 9280) : (calNext b).length = 9280 ∧ ∀ n, 0x40 ≤ n → (calNext b)[n]? = b[n]? := by
  have hhead : (sub b 0 8 ++ natLe 4 (calWcountOf b + 1)).length = 12 := by
    rw [List.length_append, sub_zero_length (by omega), natLe_length]
  have hcounted : (calCounted b).length = 9280 := by rw [calCounted, List.length_append, hhead, List.length_drop, hb]
  have hfront : (sub (calCounted b) 0 0x3C ++ natLe 4 (calCrc (calCounted b))).length = 0x40 := by
    rw [List.length_append, sub_zero_length (by omega), natLe_length]
  rw [calNext_eq]
  refine ⟨by rw [List.length_append, hfront, List.length_drop, hcounted], fun n hn => ?_⟩
  exact (getElem?_append_drop hfront hn).trans (getElem?_append_drop hhead (by omega))

/-- A set is stored in a flash area, and WEA_CAL follows the set in force. -/
def State.storeCal (s : State) (area : Nat) (b : Bytes) : State := ({ s with flash := memPutN s.flash area b }).noteCal

theorem storeCal_cmd (s : State) (area : Nat) (b : Bytes) : (s.storeCal area b).cmd = s.cmd := rfl
theorem storeCal_flash (s : State) (area : Nat) (b : Bytes) : (s.storeCal area b).flash = memPutN s.flash area b := rfl

section Write

variable (h : Served s q e) (hop : e.opcode = 0x19) (hhost : e.hostmem = true) (hprog : s.prog.state = .none ∨ s.prog.state = .loaded)
  (hlen : (e.p[1]).toNat = 9280)
include h hop hhost hprog hlen

theorem exec_calWrite : exec (.calWrite q true) s = .next (
    if !calOk (s.hostGet (e.p[0]).toNat 9280) then s.finish q csBadImage 0 0
    else if calWcountOf (s.hostGet (e.p[0]).toNat 9280) ≠ calWcountOf s.calSet then s.finish q csIllegal 0 0
    else (s.storeCal s.calOther (calNext (s.hostGet (e.p[0]).toNat 9280))).finish q csOk 0 0) := by
  have hallowed : [PState.none, .loaded].contains s.prog.state = true := by rcases hprog with hp | hp <;> rw [hp] <;> rfl
  have hsize : ¬ (e.p[1]).toNat ≠ calSize := not_not_intro hlen
  show execCalWrite q true s = _
  simp only [execCalWrite, h.due 0x19 (congrArg BitVec.toNat hop), withState, hallowed, if_true, hsize, if_false, bufRead, hhost,
    Bool.not_true, Bool.false_eq_true]
  rfl

theorem calWrite_bad (hbad : calOk (s.hostGet (e.p[0]).toNat 9280) = false) :
    ∃ t, exec (.calWrite q true) s = .next t ∧ Completes s t q e 0x04 0 0 ∧ OnlyCmd s t :=
  ⟨_, (exec_calWrite h hop hhost hprog hlen).trans (congrArg Host.Outcome.next (if_pos (by rw [hbad]; rfl))), h.completes _ _ _ rfl,
    finish_onlyCmd ..⟩

variable (hok : calOk (s.hostGet (e.p[0]).toNat 9280) = true)
include hok

theorem calWrite_otherCount (hcount : calWcountOf (s.hostGet (e.p[0]).toNat 9280) ≠ calWcountOf s.calSet) :
    ∃ t, exec (.calWrite q true) s = .next t ∧ Completes s t q e 0x09 0 0 ∧ OnlyCmd s t :=
  ⟨_, (exec_calWrite h hop hhost hprog hlen).trans (congrArg Host.Outcome.next ((if_neg (by simp [hok])).trans (if_pos hcount))),
    h.completes _ _ _ rfl, finish_onlyCmd ..⟩

theorem calWrite_stores (hcount : calWcountOf (s.hostGet (e.p[0]).toNat 9280) = calWcountOf s.calSet) (hwf : Memory.wf s.flash = true) :
    ∃ t other, exec (.calWrite q true) s = .next t ∧ Completes s t q e 0x00 0 0 ∧ other ≠ s.calArea ∧
      (other = 0x700000 ∨ other = 0x704000) ∧
      (∀ a, a < other ∨ other + 9280 ≤ a → memGet t.flash a = memGet s.flash a) ∧
      (∀ n, 0x40 ≤ n → n < 9280 → memGet t.flash (other + n) = memGet s.hostMem ((e.p[0]).toNat + n)) := by
  obtain ⟨hne, hareas⟩ := calOther_spec s
  have hb : (s.hostGet (e.p[0]).toNat 9280).length = 9280 := hostGet_length ..
  obtain ⟨hlength, hkept⟩ := calNext_spec hb
  refine ⟨_, s.calOther, (exec_calWrite h hop hhost hprog hlen).trans (congrArg Host.Outcome.next
    ((if_neg (by simp [hok])).trans (if_neg (not_not_intro hcount)))), h.completes _ _ _ (by rw [storeCal_cmd]), hne, hareas,
    fun a ha => ?_, fun n h40 hn => ?_⟩ <;> rw [finish_flash, storeCal_flash]
  · exact memGet_memPutN_outside s.flash _ a _ hwf (by rwa [hlength])
  · have hin : n < (calNext (s.hostGet (e.p[0]).toNat 9280)).length := by rwa [hlength]
    have hread : n < (s.hostGet (e.p[0]).toNat 9280).length := by rw [hb]; exact hn
    have hbyte := hkept n h40
    rw [List.getElem?_eq_getElem hin, List.getElem?_eq_getElem hread, Option.some_inj, hostGet_getElem] at hbyte
    exact (memGet_memPutN_inside s.flash _ n _ hwf hin).trans hbyte

end Write

end Calibration

/-! ### TIME_SET (R491) -/

section Time

variable {s t u : State} {q : Fin 16} {e : CmdEntry}

/-- The command queues, device time and device memory are as they were. -/
structure KeepsHost (s t : State) : Prop where
  cmd : t.cmd = s.cmd
  tim : t.tim = s.tim
  mem : t.mem = s.mem

theorem KeepsHost.refl (s : State) : KeepsHost s s := ⟨rfl, rfl, rfl⟩

theorem KeepsHost.trans (hsu : KeepsHost s u) (hut : KeepsHost u t) : KeepsHost s t :=
  ⟨hut.cmd.trans hsu.cmd, hut.tim.trans hsu.tim, hut.mem.trans hsu.mem⟩

theorem foldl_keepsHost {α : Type} {f : State → α → State} (hf : ∀ s x, KeepsHost s (f s x)) :
    ∀ (l : List α) (s : State), KeepsHost s (l.foldl f s)
  | [], s => .refl s
  | x :: l, s => (hf s x).trans (foldl_keepsHost hf l (f s x))

theorem settleEngine_keepsHost (s : State) (src : Src) (tag : Nat) (o : WaitOutcome) : KeepsHost s (s.settleEngine src tag o) := by
  unfold State.settleEngine
  split
  · split
    · split <;> exact ⟨rfl, rfl, rfl⟩
    · exact .refl s
  · split
    · split
      · split <;> exact ⟨rfl, rfl, rfl⟩
      · exact .refl s
    · exact .refl s

theorem resumeWait_keepsHost (s : State) (p : Proc) (granted : Bool) : KeepsHost s (s.resumeWait p granted) := by
  unfold State.resumeWait
  split
  · exact .refl s
  · dsimp only
    split <;> exact ⟨by simp, by simp, by simp⟩

theorem deliverTimeout_keepsHost (s : State) (src : Src) (tag : Nat) : KeepsHost s (s.deliverWait src tag .timedOut) := by
  unfold State.deliverWait
  split
  · exact settleEngine_keepsHost ..
  · split
    · exact .refl s
    · split
      · exact .refl s
      · split
        · exact ⟨by simp, by simp, by simp⟩
        · exact resumeWait_keepsHost ..

theorem applyHome_keepsHost (s : State) (home : Nat) (marked : Bool) (f : Tally → Tally) : KeepsHost s (s.applyHome home marked f) := by
  unfold State.applyHome
  dsimp only
  split
  · exact ⟨rfl, rfl, rfl⟩
  · split
    · split <;> exact ⟨rfl, rfl, rfl⟩
    · split <;> exact ⟨rfl, rfl, rfl⟩

theorem expireAll_keepsHost (s : State) : KeepsHost s s.expireAll :=
  foldl_keepsHost (fun s _ => foldl_keepsHost (fun _ _ => (applyHome_keepsHost ..).trans (deliverTimeout_keepsHost ..)) _ s) _ s

/-- DT is stepped: the timers of elapsed time go on, samples under way are corrupt, and expired waits time out (R317, R491). -/
def State.stepDt (s : State) (v : BitVec 64) : State :=
  (((s.shiftTimers (v - s.dt)).modTim fun t => { t with dt := v }).markStepped).expireAll

theorem stepDt_keepsHost (s : State) (v : BitVec 64) : KeepsHost { s with tim := { s.tim with dt := v } } (s.stepDt v) :=
  KeepsHost.trans (u := ((s.shiftTimers (v - s.dt)).modTim fun t => { t with dt := v }).markStepped) ⟨rfl, rfl, rfl⟩
    (expireAll_keepsHost _)

theorem exec_timeSetStepDt (h : Served s q e) (hop : e.opcode = 0x1A) (hmode : e.p[0] = 0) : exec (.timeSetStepDt q) s = .next
    (if s.prog.state ≠ .none || (e.p[1]).toNat < s.dtN then s.finish q csIllegal 0 0 else (s.stepDt (e.p[1])).finish q csOk 0 0) :=
  show execTimeSetStepDt q s = _ from h.timeRow (congrArg BitVec.toNat hop) (mode := 0) (congrArg BitVec.toNat hmode) _

theorem timeSetStepDt_steps (h : Served s q e) (hop : e.opcode = 0x1A) (hmode : e.p[0] = 0) (hprog : s.prog.state = .none)
    (hahead : s.tim.dt.toNat ≤ (e.p[1]).toNat) :
    ∃ t, exec (.timeSetStepDt q) s = .next t ∧ Completes s t q e 0x00 0 0 ∧ t.tim.dt = e.p[1] ∧ t.mem = s.mem := by
  obtain ⟨hcmd, htim, hmem⟩ := stepDt_keepsHost s (e.p[1])
  have hgoes : ¬ (s.prog.state ≠ .none || (e.p[1]).toNat < s.dtN) = true := by
    simp only [hprog, ne_eq, not_true_eq_false, decide_false, Bool.false_or, decide_eq_true_eq, Nat.not_lt]
    exact hahead
  refine ⟨_, (exec_timeSetStepDt h hop hmode).trans (congrArg Host.Outcome.next (if_neg hgoes)),
    h.completes _ _ _ (by rw [hcmd]), ?_, ?_⟩
  · rw [finish_tim, htim]
  · rw [finish_mem, hmem]

theorem timeSetStepDt_illegal (h : Served s q e) (hop : e.opcode = 0x1A) (hmode : e.p[0] = 0) (hprog : s.prog.state ≠ .none) :
    ∃ t, exec (.timeSetStepDt q) s = .next t ∧ Completes s t q e 0x09 0 0 ∧ OnlyCmd s t :=
  ⟨_, (exec_timeSetStepDt h hop hmode).trans (congrArg Host.Outcome.next (if_pos (by simp [hprog]))), h.completes _ _ _ rfl,
    finish_onlyCmd ..⟩

theorem exec_timeSetOffset (h : Served s q e) (hop : e.opcode = 0x1A) (hmode : e.p[0] = 1) :
    exec (.timeSetOffset q) s = .next ((s.stepOffset (e.p[1])).finish q csOk 0 0) :=
  show execTimeSetOffset q s = _ from h.timeRow (congrArg BitVec.toNat hop) (mode := 1) (congrArg BitVec.toNat hmode) _

theorem timeSetOffset_steps (h : Served s q e) (hop : e.opcode = 0x1A) (hmode : e.p[0] = 1) :
    ∃ t, exec (.timeSetOffset q) s = .next t ∧ Completes s t q e 0x00 0 0 ∧ t.tim.ptpOffset = e.p[1] ∧
      t.tim.steps = satInc s.tim.steps ∧ t.tim.dt = s.tim.dt := by
  refine ⟨_, exec_timeSetOffset h hop hmode, h.completes _ _ _ rfl, ?_, ?_, ?_⟩ <;> rw [finish_tim] <;> rfl

theorem exec_timeSetSource (h : Served s q e) (hop : e.opcode = 0x1A) (hmode : e.p[0] = 2) (hv : (e.p[1]).toNat < 256)
    (hsrc : (e.p[1]).toNat % 4 ≤ 2) (hrsv : (e.p[1]).toNat / 4 % 4 = 0) : exec (.timeSetSource q) s = .next
      (((s.modTim fun t => { t with src := BitVec.ofNat 2 (e.p[1]).toNat, locked := false, goodSec := 0 }).modIfc fun i =>
        { i with gptpMask := BitVec.ofNat 4 ((e.p[1]).toNat / 16) }).finish q csOk 0 0) := by
  have hok : ¬ (256 ≤ (e.p[1]).toNat || 2 < (e.p[1]).toNat % 4 || nbits (e.p[1]).toNat 2 2 ≠ 0) = true := by
    have hzero : nbits (e.p[1]).toNat 2 2 = 0 := hrsv
    simp only [hzero, ne_eq, not_true_eq_false, decide_false, Bool.or_false, Bool.or_eq_true, decide_eq_true_eq]
    omega
  show execTimeSetSource q s = _
  exact (h.timeRow (congrArg BitVec.toNat hop) (mode := 2) (congrArg BitVec.toNat hmode) _).trans (congrArg Host.Outcome.next (if_neg hok))

theorem timeSetSource_sets (h : Served s q e) (hop : e.opcode = 0x1A) (hmode : e.p[0] = 2) (hv : (e.p[1]).toNat < 256)
    (hsrc : (e.p[1]).toNat % 4 ≤ 2) (hrsv : (e.p[1]).toNat / 4 % 4 = 0) :
    ∃ t, exec (.timeSetSource q) s = .next t ∧ Completes s t q e 0x00 0 0 ∧ t.tim.src = (e.p[1]).setWidth 2 ∧
      t.ifc.gptpMask = ((e.p[1]) >>> 4).setWidth 4 ∧ t.tim.locked = false := by
  refine ⟨_, exec_timeSetSource h hop hmode hv hsrc hrsv, h.completes _ _ _ rfl, ?_, ?_, ?_⟩
  · rw [finish_tim]; exact BitVec.ofNat_toNat ..
  · rw [finish_ifc]
    refine BitVec.eq_of_toNat_eq ?_
    simp [Nat.shiftRight_eq_div_pow]
  · rw [finish_tim]; rfl

end Time

/-! ### POWER_BUDGET (R244, R445) -/

section Budget

variable {s : State} {q : Fin 16} {e : CmdEntry} {d : Fin 4}

/-- The die is ordered to the sustained tier. -/
def SinksToSustained (s : State) (d : Fin 4) : Prop := (s.pwr.die[d]).change = some (0, .lowering false)

theorem lowerTo_frame (s : State) (d : Fin 4) (t : Nat) : { s.lowerTo d t with pwr := s.pwr } = s := by
  unfold State.lowerTo
  dsimp only
  split
  · split <;> rfl
  · split <;> rfl
  · split <;> rfl

theorem lowerTo_other {d' : Fin 4} (hne : d' ≠ d) (s : State) (t : Nat) : (s.lowerTo d t).pwr.die[d'] = s.pwr.die[d'] := by
  have hgo : ∀ f, (s.modDie d f).pwr.die[d'] = s.pwr.die[d'] := fun f => vmod_ne s.pwr.die d d' f hne
  unfold State.lowerTo
  dsimp only
  split
  · split <;> exact hgo _
  · split
    · exact hgo _
    · rfl
  · split
    · exact hgo _
    · rfl

/-- A die that stands above the sustained tier is ordered down to it. -/
theorem lowerTo_sinks (hsteady : (s.pwr.die[d]).change = none) (hhigh : (s.pwr.die[d]).tier ≠ 0) :
    SinksToSustained (s.lowerTo d 0) d := by
  have hpos : 0 < (s.pwr.die[d]).tier.toNat := Nat.pos_of_ne_zero fun hz => hhigh (BitVec.eq_of_toNat_eq hz)
  simp only [SinksToSustained, State.lowerTo, State.diePwr, hsteady, hpos, if_true]
  exact congrArg DiePwr.change (vmod_self ..)

theorem lowerTo_keepsSinking (h : SinksToSustained s d) : s.lowerTo d 0 = s := by
  have hchange : (s.diePwr d).change = some (0, .lowering false) := h
  simp only [State.lowerTo, hchange]
  rfl

theorem lowerAll_frame : ∀ (l : List (Fin 4)) (s : State), { l.foldl (fun s d => s.lowerTo d 0) s with pwr := s.pwr } = s
  | [], _ => rfl
  | d :: l, s =>
    calc { l.foldl (fun s d => s.lowerTo d 0) (s.lowerTo d 0) with pwr := s.pwr }
      _ = { s.lowerTo d 0 with pwr := s.pwr } :=
        congrArg (fun x : State => { x with pwr := s.pwr }) (lowerAll_frame l (s.lowerTo d 0))
      _ = s := lowerTo_frame s d 0

theorem lowerAll_keepsSinking : ∀ (l : List (Fin 4)) (s : State), SinksToSustained s d →
    SinksToSustained (l.foldl (fun s d => s.lowerTo d 0) s) d
  | [], _, h => h
  | d' :: l, s, h => by
    refine lowerAll_keepsSinking l (s.lowerTo d' 0) ?_
    by_cases hd : d = d'
    · subst hd; rwa [lowerTo_keepsSinking h]
    · exact (congrArg DiePwr.change (lowerTo_other hd s 0)).trans h

theorem lowerAll_sinks (hsteady : (s.pwr.die[d]).change = none) (hhigh : (s.pwr.die[d]).tier ≠ 0) {l : List (Fin 4)} (hmem : d ∈ l) :
    SinksToSustained (l.foldl (fun s d => s.lowerTo d 0) s) d := by
  induction l generalizing s with
  | nil => cases hmem
  | cons d' l ih =>
    by_cases hd : d = d'
    · subst hd
      exact lowerAll_keepsSinking l _ (lowerTo_sinks hsteady hhigh)
    · have hsame : (s.lowerTo d' 0).pwr.die[d] = s.pwr.die[d] := lowerTo_other hd s 0
      exact ih (by rw [hsame]; exact hsteady) (by rw [hsame]; exact hhigh) ((List.mem_cons.mp hmem).resolve_left hd)

/-- The limit is the program's, in a new capacity epoch (R241, R244). -/
def State.withBudget (s : State) (mw : Nat) : State :=
  s.modProg fun p => { p with budget := BitVec.ofNat 32 mw, epoch := p.epoch + 1 }

theorem setBudget_frame (s : State) (mw : Nat) : { s.setBudget mw with pwr := s.pwr } = s.withBudget mw := by
  unfold State.setBudget
  dsimp only
  split
  · exact lowerAll_frame dies4 (s.withBudget mw)
  · rfl

theorem setBudget_prog (s : State) (mw : Nat) : (s.setBudget mw).prog = (s.withBudget mw).prog := by
  rw [← setBudget_frame]

theorem setBudget_cmd (s : State) (mw : Nat) : (s.setBudget mw).cmd = s.cmd := by
  rw [show s.cmd = (s.withBudget mw).cmd from rfl, ← setBudget_frame]

/-- At the full budget every die keeps its tier (R445). -/
theorem setBudget_full (s : State) : (s.setBudget 180000).pwr = s.pwr := rfl

/-- Below it every steady die above the sustained tier is ordered down (R445, log 136). -/
theorem setBudget_sinks {mw : Nat} (hmw : mw < 180000) (hsteady : (s.pwr.die[d]).change = none) (hhigh : (s.pwr.die[d]).tier ≠ 0) :
    SinksToSustained (s.setBudget mw) d := by
  rw [State.setBudget, if_pos hmw]
  exact lowerAll_sinks (s := s.withBudget mw) hsteady hhigh (mem_range_finOf d)

theorem exec_powerBudget (q : Fin 16) (s : State) : exec (.powerBudget q) s = execPowerBudget q s := rfl

theorem exec_powerBudget_outside (h : Served s q e) (hop : e.opcode = 0x1C)
    (hmw : (e.p[0]).toNat < 60000 ∨ 180000 < (e.p[0]).toNat) : exec (.powerBudget q) s = .next (s.finish q csIllegal 0 0) := by
  have hout : (!inRange 60000 180000 (e.p[0]).toNat) = true := by
    simp only [inRange, Bool.not_eq_true', Bool.and_eq_false_iff, decide_eq_false_iff_not]; omega
  exact ((exec_powerBudget q s).trans (h.cmdRow 0x1C (congrArg BitVec.toNat hop) _)).trans (congrArg Host.Outcome.next (if_pos hout))

theorem inRange_budget {mw : Nat} (hlo : 60000 ≤ mw) (hhi : mw ≤ 180000) : ¬ (!inRange 60000 180000 mw) = true := by
  simp [inRange, hlo, hhi]

theorem exec_powerBudget_idle (h : Served s q e) (hop : e.opcode = 0x1C) (hlo : 60000 ≤ (e.p[0]).toNat)
    (hhi : (e.p[0]).toNat ≤ 180000) (hprog : s.prog.state = .none) :
    exec (.powerBudget q) s = .next ((s.setBudget (e.p[0]).toNat).finish q csOk 0 0) :=
  ((exec_powerBudget q s).trans (h.cmdRow 0x1C (congrArg BitVec.toNat hop) _)).trans (congrArg Host.Outcome.next
    ((if_neg (inRange_budget hlo hhi)).trans (if_pos (by rw [hprog]; rfl))))

/-- Its INFO1 is the power margin that the tasks left would have (R244). -/
theorem exec_powerBudget_planFails (h : Served s q e) (hop : e.opcode = 0x1C) (hlo : 60000 ≤ (e.p[0]).toNat)
    (hhi : (e.p[0]).toNat ≤ 180000) (hprog : s.prog.state = .running) {shed : List Nat} {r : Refuse}
    (hplan : plan s (e.p[0]).toNat = (shed, .error r)) : exec (.powerBudget q) s = .next (s.finish q csDeadline 0
      (sat32 (powerMargin s (e.p[0]).toNat (s.allTasks.filter fun x => !shed.contains x.1)).floor)) := by
  have hidle : ¬ (s.prog.state = .none || s.prog.state = .loading) = true := by simp [hprog]
  refine ((exec_powerBudget q s).trans (h.cmdRow 0x1C (congrArg BitVec.toNat hop) _)).trans (congrArg Host.Outcome.next
    ((if_neg (inRange_budget hlo hhi)).trans ((if_neg hidle).trans ?_)))
  rw [hplan]

theorem powerBudget_illegal (h : Served s q e) (hop : e.opcode = 0x1C) (hmw : (e.p[0]).toNat < 60000 ∨ 180000 < (e.p[0]).toNat) :
    ∃ t, exec (.powerBudget q) s = .next t ∧ Completes s t q e 0x09 0 0 ∧ OnlyCmd s t :=
  ⟨_, exec_powerBudget_outside h hop hmw, h.completes _ _ _ rfl, finish_onlyCmd ..⟩

theorem powerBudget_sets (h : Served s q e) (hop : e.opcode = 0x1C) (hlo : 60000 ≤ (e.p[0]).toNat)
    (hhi : (e.p[0]).toNat ≤ 180000) (hprog : s.prog.state = .none) :
    ∃ t, exec (.powerBudget q) s = .next t ∧ Completes s t q e 0x00 0 0 ∧
      t.prog.budget.toNat = (e.p[0]).toNat ∧ t.prog.epoch = s.prog.epoch + 1 ∧ t.prog.state = .none ∧
      ((e.p[0]).toNat = 180000 → t.pwr = s.pwr) ∧
      ((e.p[0]).toNat < 180000 → ∀ d : Fin 4, (s.pwr.die[d]).change = none → (s.pwr.die[d]).tier ≠ 0 →
        (t.pwr.die[d]).change = some (0, .lowering false)) := by
  refine ⟨_, exec_powerBudget_idle h hop hlo hhi hprog, h.completes _ _ _ (by rw [setBudget_cmd]), ?_⟩
  rw [finish_prog, finish_pwr, setBudget_prog]
  refine ⟨?_, rfl, hprog, fun hfull => ?_, fun hbelow d hsteady hhigh => setBudget_sinks hbelow hsteady hhigh⟩
  · exact (BitVec.toNat_ofNat ..).trans (Nat.mod_eq_of_lt (by omega))
  · rw [hfull, setBudget_full]

/-- A plan that would leave the program FAULTED changes nothing (R244). -/
theorem powerBudget_planFails (h : Served s q e) (hop : e.opcode = 0x1C) (hlo : 60000 ≤ (e.p[0]).toNat)
    (hhi : (e.p[0]).toNat ≤ 180000) (hprog : s.prog.state = .running) {shed : List Nat} {r : Refuse}
    (hplan : plan s (e.p[0]).toNat = (shed, .error r)) :
    ∃ t i, exec (.powerBudget q) s = .next t ∧ Completes s t q e 0x02 0 i ∧ OnlyCmd s t :=
  ⟨_, _, exec_powerBudget_planFails h hop hlo hhi hprog hplan, h.completes _ _ _ rfl, finish_onlyCmd ..⟩

end Budget

/-! ### The obligation -/

section Settled

variable {s : State} {q : Fin 16} {e : CmdEntry} {k : Fin 64} {o : LongOp}

theorem suspend_table (h : Served s q e) (hn : NamesOp s e k o) (hop : e.opcode = 0x08) :
    (o.state = .queued ∨ o.state = .suspended →
      ∃ t, exec (.suspend q) s = .next t ∧ OpMoves s t q e k o .suspended ∧ OnlyCmd s t) ∧
    (o.state = .running ∨ o.state = .suspending →
      ∃ t, exec (.suspend q) s = .next t ∧ OpMoves s t q e k o .suspending ∧ OnlyCmd s t) ∧
    (o.state = .cancelling ∨ o.state.terminal = true → OpStays (.suspend q) s q e) :=
  ⟨fun hst => ⟨_, exec_suspend_waiting h hn hop hst, h.moves hn.slot rfl _, opTo_onlyCmd ..⟩,
    fun hst => ⟨_, exec_suspend_running h hn hop hst, h.moves hn.slot rfl _, opTo_onlyCmd ..⟩,
    fun hst => h.stays (exec_suspend_ending h hn hop hst)⟩

theorem resume_table (h : Served s q e) (hn : NamesOp s e k o) (hop : e.opcode = 0x09) :
    (o.state = .queued ∨ (o.state = .suspended ∧ o.started = false) →
      ∃ t, exec (.resume q) s = .next t ∧ OpMoves s t q e k o .queued ∧ OnlyCmd s t) ∧
    (o.state = .running ∨ o.state = .suspending →
      ∃ t, exec (.resume q) s = .next t ∧ OpMoves s t q e k o .running ∧ OnlyCmd s t) ∧
    (o.state = .suspended → o.started = true → ∃ t, exec (.resume q) s = .next t ∧ OpMoves s t q e k o .running) ∧
    (o.state = .cancelling ∨ o.state.terminal = true → OpStays (.resume q) s q e) :=
  ⟨fun hst => ⟨_, exec_resume_waiting h hn hop hst, h.moves hn.slot rfl _, opTo_onlyCmd ..⟩,
    fun hst => ⟨_, exec_resume_running h hn hop hst, h.moves hn.slot rfl _, opTo_onlyCmd ..⟩,
    fun hst hold => ⟨_, exec_resume_suspended h hn hop hst hold, (h.moves hn.slot rfl _).of_cmd (resumeScan_cmd ..)⟩,
    fun hst => h.stays (exec_resume_ending h hn hop hst)⟩

/-- A QUEUED LOAD that is cancelled leaves the program NONE (R233). -/
theorem cancel_table (h : Served s q e) (hn : NamesOp s e k o) (hop : e.opcode = 0x0A) :
    (o.state = .running ∨ o.state = .suspending ∨ o.state = .cancelling ∨ (o.state = .suspended ∧ o.started = true) →
      ∃ t, exec (.cancel q) s = .next t ∧ OpMoves s t q e k o .cancelling) ∧
    (o.state = .queued ∨ (o.state = .suspended ∧ o.started = false) →
      ∃ t p, exec (.cancel q) s = .next t ∧ t.cmd.ops[k] = some p ∧ p.state = .cancelled ∧
        p.result = some (0x07, handleOf o.opcode o.seq k, 0) ∧ (o.opcode = 0x01 → t.prog.state = .none)) ∧
    (o.state.terminal = true → OpStays (.cancel q) s q e) := by
  refine ⟨fun hst => ⟨_, exec_cancel_started h hn hop hst, h.moves (u := s.modWear _) hn.slot rfl _⟩, fun hst => ?_,
    fun hst => h.stays (exec_cancel_ended h hn hop hst)⟩
  have hlive : o.state.terminal = false := by rcases hst with hst | ⟨hst, -⟩ <;> rw [hst] <;> rfl
  obtain ⟨⟨p, hp, hstate, hresult⟩, hload⟩ := cancelNow_ends hn.slot hlive
  exact ⟨_, p, exec_cancel_waiting h hn hop hst, by rw [finish_ops, hp], hstate, hresult,
    by rw [finish_prog]; exact hload⟩

end Settled

/-- Settles O36: each command's row is its one completion, of the state that the command makes. -/
theorem commandsCompleteAtOnce : Obligations.CommandsCompleteAtOnce := by
  refine ⟨fun s q e h => ⟨nopCommand_completes h, fun hop k o hk hseq => ⟨fun hp => queryOp_reports h hop ⟨hk, hseq, hp⟩,
      fun w hw hp => queryOp_stale h hop hk hseq hw hp⟩, fun hop => ⟨fence_illegal h hop, ?fenceClear, ?fenceCmd, ?fenceOp⟩⟩,
    fun s q e k o h hk hseq hp => ?table,
    fun s q e h => ⟨calRead_copies h, fun hop hhost hprog hlen => ⟨calWrite_bad h hop hhost hprog hlen,
      calWrite_otherCount h hop hhost hprog hlen, calWrite_stores h hop hhost hprog hlen⟩,
      timeSetStepDt_steps h, timeSetStepDt_illegal h, timeSetOffset_steps h, timeSetSource_sets h,
      fun hop => ⟨powerBudget_illegal h hop, powerBudget_sets h hop,
        fun hlo hhi hprog _ _ hplan => powerBudget_planFails h hop hlo hhi hprog hplan⟩⟩⟩
  case fenceClear => exact fun hp hcmds hops => fence_completes h hop hp ((fenceClear_iff _ _).mpr ⟨hcmds, hops⟩)
  case fenceCmd =>
    rintro hp hall ⟨r, hr⟩
    exact fence_waits h hop hp fun hclear => ((fenceClear_iff _ _).mp hclear).1 hall r hr
  case fenceOp =>
    rintro hp hlong ⟨k, o, hk, hearlier, hscope⟩
    exact fence_waits h hop hp fun hclear => ((fenceClear_iff _ _).mp hclear).2 hlong k o hk ⟨hearlier, hscope⟩
  case table =>
    have hn : NamesOp s e k o := ⟨hk, hseq, hp⟩
    exact ⟨suspend_table h hn, resume_table h hn, cancel_table h hn⟩

end Sys2Proof.Machine
end
